-- ==== Sys2Proof/Word.lean ====
section
/-! DEFINITION. The word types of JBCIO: bytes, 16-bit port words and 64-bit command words (spec 00 R9, R12, 30 R91). -/

namespace Sys2Proof

/-- A byte: a display byte, a bus byte, a key mask. -/
abbrev Byte := BitVec 8

/-- A port word: `PORT_W = 16` (R9); bit i stands for pin i. -/
abbrev Half := BitVec 16

/-- A 64-bit word: a command word (R91), the result register (R24), a configuration register zero-extended. -/
abbrev Word := BitVec 64

end Sys2Proof
end

