-- ==== Sys2Proof/Config.lean ====
section
/-! DEFINITION. What an implementation fixes (spec 00 R10, 10 R20, R31 to R34, R37, R40, R41) as plain data, the
configuration T of 95_test_vectors.md, and the free values of the model, which no proof can evaluate. -/

namespace Sys2Proof

/-- The five configuration registers of a port, in the order of R27 (numbers 0 to 4). -/
inductive CfgReg where
  | mode | dtype | speed | pull | af
  deriving DecidableEq, Repr

/-- `CAS_OVERLAP`: a bit in both the clear and the set mask of one set/clear write (R123). -/
inductive CasOverlap where
  | setWins | clearWins | refuse
  deriving DecidableEq, Repr

/-- A pin `(port, pos)` (R31); `pos < 16` is the type's. -/
structure Pin where
  port : Byte
  pos  : Fin 16
  deriving DecidableEq, Repr

/-- The null port's selector (R29). -/
def nullPort : Byte := 0xFF#8

/-- The null pin `(NULLPORT, 0)` (R29). -/
def Pin.null : Pin := ⟨nullPort, 0⟩

/-- A packed configuration record, unpacked (R100). -/
structure PinCfg where
  mode  : BitVec 2
  dtype : BitVec 2
  speed : BitVec 2
  pull  : BitVec 2
  af    : BitVec 4
  deriving DecidableEq, Repr

/-- The value of each configuration register's field for one pin (R27): what a record puts into the five registers. -/
structure PinFields where
  mode  : BitVec 4
  dtype : BitVec 4
  speed : BitVec 4
  pull  : BitVec 4
  af    : BitVec 4
  deriving DecidableEq, Repr

/-- The field value for register k. -/
def PinFields.get (f : PinFields) : CfgReg → BitVec 4
  | .mode => f.mode
  | .dtype => f.dtype
  | .speed => f.speed
  | .pull => f.pull
  | .af => f.af

/-- Each sub-field of a packed record is the value written into the field of the register of its name (R100). -/
def PinCfg.fields (cfg : PinCfg) : PinFields :=
  ⟨cfg.mode.setWidth 4, cfg.dtype.setWidth 4, cfg.speed.setWidth 4, cfg.pull.setWidth 4, cfg.af⟩

/-- A field width: `W[k] ∈ {2, 4}` (R10). -/
inductive FieldWidth where
  | two | four
  deriving DecidableEq, Repr

/-- The bits of a field. -/
def FieldWidth.bits : FieldWidth → Nat
  | .two => 2
  | .four => 4

/-- `W[k]` of the five registers (R10, R26). -/
structure Widths where
  mode  : FieldWidth
  dtype : FieldWidth
  speed : FieldWidth
  pull  : FieldWidth
  af    : FieldWidth
  deriving DecidableEq, Repr

/-- `W[k]`. -/
def Widths.get (w : Widths) : CfgReg → FieldWidth
  | .mode => w.mode
  | .dtype => w.dtype
  | .speed => w.speed
  | .pull => w.pull
  | .af => w.af

/-- The widths of decision D6 (R10). -/
def Widths.default : Widths := ⟨.two, .two, .two, .two, .four⟩

/-- What the build fixes of one port: `PRESENT[p]`, `BASE[p]`, `EN_IDX[p]`, `AF_MAX[p]` (R10). -/
structure PortCfg where
  present : Bool
  base    : Nat
  enIdx   : Nat
  afMax   : Nat
  deriving DecidableEq, Repr

/-- The wiring and parameters of a shift-register bus (R34, R10). -/
structure ShiftCfg where
  clk : Pin
  dat : Pin
  cs  : Pin
  din : Pin
  bits : Nat              -- SB_N
  seed : Half             -- SB_SEED
  delay : Nat             -- SB_DELAY
  readMsbFirst : Bool     -- SB_READ_MSB_FIRST
  deriving DecidableEq, Repr

/-- `BUS[b]` (R33): a direct bus over list `l` with its `BUS_CFG[b]` (R168), or a shift-register bus. -/
inductive BusCfg where
  | direct (l : Nat) (cfg : PinCfg)
  | shift (w : ShiftCfg)
  deriving DecidableEq, Repr

/-- The display's wiring and delay counts (R37, R10). -/
structure DispWiring where
  bus : Nat               -- D_BUS
  res : Pin               -- D_RES
  cs  : Pin               -- D_CS
  dc  : Pin               -- D_DC
  stb : Pin               -- D_STB
  stbDelay : Nat          -- D_STB_DELAY
  resetHold : Nat         -- D_RESET_HOLD
  resetRecover : Nat      -- D_RESET_RECOVER
  deriving DecidableEq, Repr

/-- `PROFILE` (R40). -/
structure Profile where
  width : Nat
  height : Nat
  ramWidth : Nat
  pages : Nat
  rot : Bool
  colOffset : Nat
  extOffset : Nat
  contrast : Byte
  biasAdj : Bool
  deriving DecidableEq, Repr

/-- The display command bytes (R203). -/
structure CmdBytes where
  oscOn : Byte
  bias : Byte
  colDir0 : Byte
  colDir1 : Byte
  rowDir0 : Byte
  rowDir1 : Byte
  regRatio : Byte
  evol : Byte
  powerAll : Byte
  video0 : Byte
  video1 : Byte
  startLine : Byte
  displayOn : Byte
  page : Byte
  colHigh : Byte
  colLow : Byte
  deriving DecidableEq, Repr

/-- `FONT[f]` (R41): header and row-plane blob. -/
structure Font where
  width : Nat
  height : Nat
  first : Nat
  count : Nat
  blob : List Byte
  deriving DecidableEq, Repr

/-- `heightInBytes` (R41). -/
def Font.heightInBytes (f : Font) : Nat := (f.height + 7) / 8

/-- One debounce instance: `DEB_BUS[d]` and the two times its threshold is computed from (R10, R264). -/
structure DebCfg where
  bus : Nat
  holdDuration : Nat
  pollInterval : Nat
  deriving DecidableEq, Repr

/-- `LT_THRESH[d]`: "hold duration ÷ poll interval", a floor division made at configuration time (R264). -/
def DebCfg.thresh (d : DebCfg) : Nat := d.holdDuration / d.pollInterval

/-- Every parameter of R10. It is identical in every state (R20): State carries it, no step writes it (log 1). -/
structure Config where
  ports : List PortCfg
  widths : Widths         -- W[k]
  modeInput : BitVec 4
  modeOutput : BitVec 4
  pullNone : BitVec 4
  pullDown : BitVec 4
  dtypePushPull : BitVec 4
  casOverlap : CasOverlap
  csActiveLow : Bool
  lists : List (List Pin)
  buses : List BusCfg
  disp : DispWiring
  profile : Profile
  regRatio : BitVec 3
  invert : Bool
  startLine : BitVec 6
  cmd : CmdBytes
  fonts : List Font
  glyphBufMax : Nat
  glyphSrcMsbFirst : Bool
  debs : List DebCfg
  cntWidth : Nat          -- CNT_W
  bufSize : Nat           -- BUF_SIZE
  contexts : Nat          -- how many execution contexts (R297)
  tResetMin : Nat         -- T_RESET_MIN, no rule depends on it
  tSettleMin : Nat        -- T_SETTLE_MIN, no rule depends on it
  deriving DecidableEq, Repr

/-- MAX, the hold counter's last value (R263). -/
def Config.cntMax (c : Config) : Nat := 2 ^ c.cntWidth - 1

/-- `W[k]`: bits per pin in register k (R26, R27). -/
def Config.width (c : Config) (k : CfgReg) : Nat := (c.widths.get k).bits

/-- The value read from register bits that hold no value, and the replace-all values U1, U2, U3: draw number n
(R48, R133; log 2, log 4). No body: nothing can be proved of it. -/
opaque Config.freeBits : Nat → BitVec 64

/-- `PADIN`: what the outside drives on the 16 pads of a port at ask number n, when no answer waits in State
(R46; log 9). No body. -/
opaque Config.padIn : Nat → BitVec 16

/-- `WAITING()`: whether a consumer is waiting at ask number n, when no answer waits in State (R46; log 9). No body. -/
opaque Config.consumerWaiting : Nat → Bool

/-- A pixel-buffer byte the rendering collaborator has not been said to write, at read number n (R61; log 6). No body.
-/
opaque Config.bufByte : Nat → BitVec 8

/-- The default command bytes of R203. -/
def CmdBytes.default : CmdBytes :=
  { oscOn := 0xAB, bias := 0xA2, colDir0 := 0xA0, colDir1 := 0xA1, rowDir0 := 0xC0, rowDir1 := 0xC8
    regRatio := 0x20, evol := 0x81, powerAll := 0x2F, video0 := 0xA6, video1 := 0xA7, startLine := 0x40
    displayOn := 0xAF, page := 0xB0, colHigh := 0x10, colLow := 0x00 }

/-- `BUS_CFG`'s default, and what a serial bus gives its output lines (R168, R184): output, push-pull, rest 0. -/
def Config.outputCfg (c : Config) : PinFields :=
  ⟨c.modeOutput, c.dtypePushPull, 0, c.pullNone, 0⟩

/-- What a serial bus gives its input line (R184). -/
def Config.inputCfg (c : Config) : PinFields :=
  ⟨c.modeInput, 0, 0, c.pullNone, 0⟩

/-- A contiguous run of `n` pins on one port from `s` on (R32). -/
def Config.runOf (p : Byte) : Nat → Nat → List Pin
  | _, 0 => []
  | s, n + 1 => ⟨p, Fin.ofNat 16 s⟩ :: Config.runOf p (s + 1) n

/-- The pin lists of T. -/
def Config.testLists : List (List Pin) :=
  [Config.runOf 0 0 8, Config.runOf 0 4 8,
   [⟨0, 0⟩, ⟨1, 3⟩, ⟨0, 7⟩, Pin.null, ⟨1, 0⟩],
   Config.runOf 1 8 8]

/-- The buses of T. -/
def Config.testBuses : List BusCfg :=
  [.direct 0 ⟨1, 0, 0, 0, 0⟩,
   .shift { clk := ⟨1, 0⟩, dat := ⟨1, 1⟩, cs := ⟨1, 2⟩, din := ⟨1, 3⟩, bits := 8, seed := 0x00FF, delay := 1,
            readMsbFirst := true },
   .direct 3 ⟨0, 0, 0, 2, 0⟩]

/-- The fonts of T. -/
def Config.testFonts : List Font :=
  [{ width := 1, height := 8, first := 0x41, count := 2, blob := [0x80, 0x55] },
   { width := 2, height := 8, first := 0x30, count := 1, blob := [0x06, 0x80] },
   { width := 8, height := 16, first := 0x20, count := 1,
     blob := [0x01, 0x02, 0x04, 0x08, 0x10, 0x20, 0x40, 0x80, 0xFF, 0x00, 0x00, 0x00, 0x00, 0x00, 0x00, 0x81] },
   { width := 3, height := 8, first := 0, count := 1, blob := [0x8B, 0x06, 0xA0] }]

/-- The configuration State.reset carries (log 1): T of 95_test_vectors.md, whose table gives the ports' number and
AF_MAX, the codes, lists, buses, wiring, PROFILE, BUF_SIZE, fonts and LT_THRESH (that file's own choices). DESIGN
CHOICE of the model, in no row of that table (log 34): BASE and EN_IDX of both ports, HOLD_DURATION 3 and
POLL_INTERVAL 1 (their quotient is T's LT_THRESH), T_RESET_MIN, T_SETTLE_MIN, and two contexts (R297: "a finite
set"). Statements use no more of them than that they meet R10's constraints. -/
def Config.testT : Config :=
  { ports := [⟨true, 0x40020000, 0, 7⟩, ⟨true, 0x40020400, 1, 7⟩]
    widths := Widths.default, modeInput := 0, modeOutput := 1, pullNone := 0, pullDown := 2, dtypePushPull := 0
    casOverlap := .setWins, csActiveLow := true
    lists := Config.testLists, buses := Config.testBuses
    disp := { bus := 0, res := ⟨1, 4⟩, cs := Pin.null, dc := ⟨1, 5⟩, stb := ⟨1, 6⟩, stbDelay := 1, resetHold := 100,
              resetRecover := 100 }
    profile := { width := 128, height := 64, ramWidth := 132, pages := 8, rot := true, colOffset := 4, extOffset := 4,
                 contrast := 0x16, biasAdj := false }
    regRatio := 5, invert := false, startLine := 0, cmd := CmdBytes.default
    fonts := Config.testFonts, glyphBufMax := 16, glyphSrcMsbFirst := false
    debs := [⟨2, 3, 1⟩], cntWidth := 16, bufSize := 0x0400, contexts := 2, tResetMin := 1, tSettleMin := 1 }

end Sys2Proof
end

