-- ==== Sys2Proof/Syntax.lean ====
section
/-! DEFINITION. The 24 operations of spec/opcode_table.json with typed operands (spec 30 R90, R93). -/

namespace Sys2Proof

/-- One constructor per row of the opcode table (R93); operands in the order SEL, A, B, C, except that `dputp` and
`dputb` keep the source's argument order (R106). `p` is a port selector, 0xFF the null port. -/
inductive Instr where
  | pset (p : Byte) (mask : Half)                         -- R124
  | pclr (p : Byte) (mask : Half)                         -- R125
  | pcas (p : Byte) (clearMask setMask : Half)            -- R126
  | ptgl (p : Byte) (mask : Half)                         -- R127
  | pwr (p : Byte) (value : Half)                         -- R128
  | prd (p : Byte)                                        -- R129
  | prdo (p : Byte)                                       -- R130
  | pfldm (p : Byte) (mask : Half) (k : BitVec 3) (v : BitVec 4)   -- R134
  | pcfgr (p : Byte) (mask : Half) (cfg : PinCfg)         -- R133
  | prdc (p : Byte) (k : BitVec 3)                        -- R136
  | pen (p : Byte)                                        -- R137
  | lwr (l : Byte) (value : Half)                         -- R161
  | lrd (l : Byte)                                        -- R162
  | binit (b : Byte)                                      -- R165
  | bwr (b : Byte) (byte : Byte)                          -- R166
  | brd (b : Byte)                                        -- R167
  | dinit                                                 -- R210
  | dputb (x : Half) (page : Byte) (byte : Byte)          -- R216
  | dputp (x1 x2 : Half) (page : Byte) (buf : Half)       -- R215
  | dclr                                                  -- R217
  | dfill (byte : Byte)                                   -- R218
  | gbmp (f : Byte) (cp : BitVec 32)                      -- R242
  | kinit (d : Byte)                                      -- R261
  | kpoll (d : Byte)                                      -- R262
  deriving DecidableEq, Repr

end Sys2Proof
end

