-- ==== Sys2Proof/WellFormed.lean ====
section
/-! DEFINITION. The build-time checks: of a configuration (spec 60 R283 and the constraints of 00 R10, 10 R32, R40,
43 R204) and of an operation against a configuration (30 R97). -/

namespace Sys2Proof

/-- Port p exists in the build: `p < NPORTS and PRESENT[p]` (R121). -/
def Config.portPresent (c : Config) (p : Nat) : Bool :=
  match c.ports[p]? with
  | some q => q.present
  | none => false

/-- `AF_MAX[p]`. -/
def Config.afMax (c : Config) (p : Nat) : Nat :=
  match c.ports[p]? with
  | some q => q.afMax
  | none => 0

def Pin.isNull (x : Pin) : Bool := x.port == nullPort

/-- A pin is the null pin or names a present port (R283). -/
def Config.pinOk (c : Config) (x : Pin) : Bool := x.isNull || c.portPresent x.port.toNat

/-- No real pin occurs twice (R32). -/
def Pin.noRepeats : List Pin → Bool
  | [] => true
  | x :: xs => (x.isNull || !xs.contains x) && Pin.noRepeats xs

/-- The values of a list are pairwise distinct (`BASE[p]` and `EN_IDX[p]`, R10). -/
def Config.distinct : List Nat → Bool
  | [] => true
  | x :: xs => !xs.contains x && Config.distinct xs

/-- NPORTS, AF_MAX, BASE and EN_IDX (R10); the largest AF number fits its field (log 26). -/
def Config.portsOk (c : Config) : Bool :=
  decide (1 ≤ c.ports.length) && decide (c.ports.length ≤ 254) &&
    c.ports.all (fun q => decide (q.afMax < 2 ^ c.width .af)) &&
    Config.distinct (c.ports.map (·.base)) && Config.distinct (c.ports.map (·.enIdx))

/-- The codes are distinct and fit their fields (R10). -/
def Config.codesOk (c : Config) : Bool :=
  c.modeInput != c.modeOutput && c.pullNone != c.pullDown &&
    [c.modeInput, c.modeOutput].all (fun v => decide (v.toNat < 2 ^ c.width .mode)) &&
    [c.pullNone, c.pullDown].all (fun v => decide (v.toNat < 2 ^ c.width .pull)) &&
    decide (c.dtypePushPull.toNat < 2 ^ c.width .dtype)

/-- Pin lists (R32). -/
def Config.listOk (c : Config) (l : List Pin) : Bool :=
  decide (1 ≤ l.length) && decide (l.length ≤ 16) && l.all c.pinOk && Pin.noRepeats l

/-- One bus (R33, R34, R168, R283, D19): a direct bus has 8 pins and an AF number every port of it allows; a serial bus
has real clock and data pins and 8 bits on the byte contract. -/
def Config.busOk (c : Config) : BusCfg → Bool
  | .direct l cfg =>
    match c.lists[l]? with
    | some ps => ps.length == 8 && ps.all (fun x => x.isNull || decide (cfg.af.toNat ≤ c.afMax x.port.toNat))
    | none => false
  | .shift w =>
    !w.clk.isNull && !w.dat.isNull && [w.clk, w.dat, w.cs, w.din].all c.pinOk && w.bits == 8 &&
      decide (w.seed.toNat < 2 ^ w.bits)

/-- The display's wiring (R37, R10). -/
def Config.dispOk (c : Config) : Bool :=
  decide (c.disp.bus < c.buses.length) && [c.disp.res, c.disp.cs, c.disp.dc, c.disp.stb].all c.pinOk

/-- The display profile (R40). -/
def Profile.ok (p : Profile) : Bool :=
  decide (1 ≤ p.width) && decide (p.width ≤ p.ramWidth) && decide (p.ramWidth ≤ 255) && decide (1 ≤ p.height) &&
    p.pages == (p.height + 7) / 8 && decide (p.pages ≤ 16) && decide (p.colOffset + p.width ≤ p.ramWidth) &&
    p.extOffset == p.ramWidth - p.width

/-- Command bases have their operand bits zero (R204). -/
def CmdBytes.ok (m : CmdBytes) : Bool :=
  m.bias &&& 0x01 == 0 && m.regRatio &&& 0x07 == 0 && m.startLine &&& 0x3F == 0 && m.page &&& 0x0F == 0 &&
    m.colHigh &&& 0x0F == 0 && m.colLow &&& 0x0F == 0

/-- The font invariant (R41, R283). -/
def Config.fontOk (c : Config) (f : Font) : Bool :=
  decide (1 ≤ f.width) && decide (1 ≤ f.height) && f.blob.length == f.width * f.heightInBytes * f.count &&
    decide (f.width * f.heightInBytes ≤ c.glyphBufMax)

/-- Debounce parameters: `1 ≤ LT_THRESH[d] ≤ 2^CNT_W − 1` (R263, R283). -/
def Config.debOk (c : Config) (d : DebCfg) : Bool :=
  decide (d.bus < c.buses.length) && decide (0 < d.pollInterval) && decide (1 ≤ d.thresh) &&
    decide (d.thresh ≤ c.cntMax)

/-- The remaining scalar constraints of R10. -/
def Config.sizesOk (c : Config) : Bool :=
  decide (1 ≤ c.cntWidth) && decide (c.bufSize ≤ 65536) && decide (1 ≤ c.contexts) && decide (0 < c.tResetMin) &&
    decide (0 < c.tSettleMin)

/-- The configuration passes every build-time check; one that fails has no model at all (R283). -/
def Config.wellFormed (c : Config) : Bool :=
  c.portsOk && c.codesOk && c.lists.all c.listOk && c.buses.all c.busOk && c.dispOk && c.profile.ok && c.cmd.ok &&
    c.fonts.all c.fontOk && c.debs.all c.debOk && c.sizesOk

/-- The register a 3-bit register number names; 5, 6 and 7 name none (R27, R97). -/
def CfgReg.ofNumber (k : BitVec 3) : Option CfgReg :=
  match k.toNat with
  | 0 => some .mode
  | 1 => some .dtype
  | 2 => some .speed
  | 3 => some .pull
  | 4 => some .af
  | _ => none

/-- The number of a register in R27. -/
def CfgReg.number : CfgReg → Nat
  | .mode => 0
  | .dtype => 1
  | .speed => 2
  | .pull => 3
  | .af => 4

/-- A port selector names a port: the null port or a present one (R97). -/
def Config.selOk (c : Config) (p : Byte) : Bool := p == nullPort || c.portPresent p.toNat

/-- `PFLDM`'s operands (R134, R97): the null port makes no check of them (R122). -/
def Config.fieldOk (c : Config) (p : Byte) (k : BitVec 3) (v : BitVec 4) : Bool :=
  p == nullPort ||
    match CfgReg.ofNumber k with
    | none => false
    | some r => decide (v.toNat < 2 ^ c.width r) && (r != .af || decide (v.toNat ≤ c.afMax p.toNat))

/-- Selector and operand values inside the configuration (R97): the operations the build accepts. What is left out
here is refused by name when it is issued (R282). -/
def Instr.wellFormed (c : Config) : Instr → Bool
  | .pset p _ => c.selOk p
  | .pclr p _ => c.selOk p
  | .pcas p clr set => c.selOk p && (p == nullPort || c.casOverlap != .refuse || clr &&& set == 0)
  | .ptgl p _ => c.selOk p
  | .pwr p _ => c.selOk p
  | .prd p => c.selOk p
  | .prdo p => c.selOk p
  | .pfldm p _ k v => c.selOk p && c.fieldOk p k v
  | .pcfgr p _ cfg => c.selOk p && (p == nullPort || decide (cfg.af.toNat ≤ c.afMax p.toNat))
  | .prdc p k => c.selOk p && (p == nullPort || (CfgReg.ofNumber k).isSome)
  | .pen p => c.selOk p
  | .lwr l _ => decide (l.toNat < c.lists.length)
  | .lrd l => decide (l.toNat < c.lists.length)
  | .binit b => decide (b.toNat < c.buses.length)
  | .bwr b _ => decide (b.toNat < c.buses.length)
  | .brd b => decide (b.toNat < c.buses.length)
  | .dinit => true
  | .dputb x _ _ => decide (x.toNat ≤ c.profile.width)
  | .dputp x1 x2 _ buf =>
    decide (x1.toNat ≤ min x2.toNat c.profile.width) &&
      decide (buf.toNat + (min x2.toNat c.profile.width - x1.toNat) ≤ c.bufSize)
  | .dclr => true
  | .dfill _ => true
  | .gbmp f _ => decide (f.toNat < c.fonts.length)
  | .kinit d => decide (d.toNat < c.debs.length)
  | .kpoll d => decide (d.toNat < c.debs.length)

end Sys2Proof
end

