-- ==== Sys2Proof/Decode.lean ====
section
/-! DEFINITION. Decoding a command word, total and refusing by name (spec 30 R91 to R96), and the encoder written from
the same table. -/

namespace Sys2Proof

/-- Why a word spells no operation (R95, R96). -/
inductive DecodeError where
  | illegalOpcode (w : Word)
  | reservedField (w : Word)
  deriving DecidableEq, Repr

/-- Why a byte string spells no operation: fewer than eight bytes, or a word that spells none. -/
inductive BytesError where
  | truncated (bytes : Nat)
  | word (e : DecodeError)
  deriving DecidableEq, Repr

/-- The fields of a command word (R91). -/
structure CommandWord where
  opc : Byte
  sel : Byte
  a   : Half
  b   : Half
  c   : Half
  deriving DecidableEq, Repr

/-- Pull the fields out: OPC 63:56, SEL 55:48, A 47:32, B 31:16, C 15:0 (R91). -/
def CommandWord.ofWord (w : Word) : CommandWord :=
  { opc := w.extractLsb' 56 8, sel := w.extractLsb' 48 8, a := w.extractLsb' 32 16, b := w.extractLsb' 16 16
    c := w.extractLsb' 0 16 }

/-- Put the fields back (R91). -/
def CommandWord.toWord (f : CommandWord) : Word := f.opc ++ f.sel ++ f.a ++ f.b ++ f.c

/-- The low 8 bits of a byte operand's field (R92). -/
def lowByte (x : Half) : Byte := x.setWidth 8

/-- The packed configuration record of R100: mode 1:0, dtype 3:2, speed 5:4, pull 7:6, af 11:8. -/
def PinCfg.ofBits (x : BitVec 12) : PinCfg :=
  ⟨x.extractLsb' 0 2, x.extractLsb' 2 2, x.extractLsb' 4 2, x.extractLsb' 6 2, x.extractLsb' 8 4⟩

/-- The record packed again (R100). -/
def PinCfg.toBits (x : PinCfg) : BitVec 12 := x.af ++ x.pull ++ x.speed ++ x.dtype ++ x.mode

/-- Answer an operation where the must-be-zero bits are zero, else `ReservedField` (R95). -/
def mustBeZero (w : Word) (zero : Bool) (i : Instr) : Except DecodeError Instr :=
  if zero then .ok i else .error (.reservedField w)

/-- Bits `k` and above of a field are zero (R95). -/
def highZero (k : Nat) (x : Half) : Bool := x >>> k == 0

/-- Select the operation by OPC alone, then check its must-be-zero fields (R93 to R96). -/
def decodeFields (w : Word) (f : CommandWord) : Except DecodeError Instr :=
  match f.opc with
  | 0x10#8 => mustBeZero w (f.b == 0 && f.c == 0) (.pset f.sel f.a)
  | 0x11#8 => mustBeZero w (f.b == 0 && f.c == 0) (.pclr f.sel f.a)
  | 0x12#8 => mustBeZero w (f.c == 0) (.pcas f.sel f.a f.b)
  | 0x13#8 => mustBeZero w (f.b == 0 && f.c == 0) (.ptgl f.sel f.a)
  | 0x14#8 => mustBeZero w (f.b == 0 && f.c == 0) (.pwr f.sel f.a)
  | 0x15#8 => mustBeZero w (f.a == 0 && f.b == 0 && f.c == 0) (.prd f.sel)
  | 0x16#8 => mustBeZero w (f.a == 0 && f.b == 0 && f.c == 0) (.prdo f.sel)
  | 0x17#8 => mustBeZero w (highZero 3 f.b && highZero 4 f.c) (.pfldm f.sel f.a (f.b.setWidth 3) (f.c.setWidth 4))
  | 0x18#8 => mustBeZero w (highZero 12 f.b && f.c == 0) (.pcfgr f.sel f.a (PinCfg.ofBits (f.b.setWidth 12)))
  | 0x19#8 => mustBeZero w (f.a == 0 && highZero 3 f.b && f.c == 0) (.prdc f.sel (f.b.setWidth 3))
  | 0x1A#8 => mustBeZero w (f.a == 0 && f.b == 0 && f.c == 0) (.pen f.sel)
  | 0x20#8 => mustBeZero w (f.b == 0 && f.c == 0) (.lwr f.sel f.a)
  | 0x21#8 => mustBeZero w (f.a == 0 && f.b == 0 && f.c == 0) (.lrd f.sel)
  | 0x22#8 => mustBeZero w (f.a == 0 && f.b == 0 && f.c == 0) (.binit f.sel)
  | 0x23#8 => mustBeZero w (highZero 8 f.a && f.b == 0 && f.c == 0) (.bwr f.sel (lowByte f.a))
  | 0x24#8 => mustBeZero w (f.a == 0 && f.b == 0 && f.c == 0) (.brd f.sel)
  | 0x30#8 => mustBeZero w (f.sel == 0 && f.a == 0 && f.b == 0 && f.c == 0) .dinit
  | 0x31#8 => mustBeZero w (highZero 8 f.b && f.c == 0) (.dputb f.a f.sel (lowByte f.b))
  | 0x32#8 => .ok (.dputp f.a f.b f.sel f.c)
  | 0x33#8 => mustBeZero w (f.sel == 0 && f.a == 0 && f.b == 0 && f.c == 0) .dclr
  | 0x34#8 => mustBeZero w (f.sel == 0 && f.a == 0 && highZero 8 f.b && f.c == 0) (.dfill (lowByte f.b))
  | 0x40#8 => mustBeZero w (f.a == 0) (.gbmp f.sel (f.b ++ f.c))
  | 0x50#8 => mustBeZero w (f.a == 0 && f.b == 0 && f.c == 0) (.kinit f.sel)
  | 0x51#8 => mustBeZero w (f.a == 0 && f.b == 0 && f.c == 0) (.kpoll f.sel)
  | _ => .error (.illegalOpcode w)

/-- Decode one 64-bit command word. -/
def decode (w : Word) : Except DecodeError Instr := decodeFields w (CommandWord.ofWord w)

/-- A word from its bytes, lowest address first: little-endian (R92). -/
def wordOfBytes : List Byte → Word
  | [] => 0
  | b :: bs => b.setWidth 64 ||| (wordOfBytes bs <<< 8)

/-- The `n` low bytes of a word, lowest address first (R92). -/
def bytesOfWord : Nat → Word → List Byte
  | 0, _ => []
  | n + 1, w => w.setWidth 8 :: bytesOfWord n (w >>> 8)

/-- Decode the first command word of a byte string, with the rest of the string. -/
def decodeBytes (bs : List Byte) : Except BytesError (Instr × List Byte) :=
  if bs.length < 8 then .error (.truncated bs.length)
  else match decode (wordOfBytes (bs.take 8)) with
    | .ok i => .ok (i, bs.drop 8)
    | .error e => .error (.word e)

/-- One row of the opcode table: the mnemonic, the bits that select it and the must-be-zero bits (R94). -/
structure OpcodeRow where
  mnemonic : String
  bits     : Word
  mask     : Word
  deriving DecidableEq, Repr

/-- The opcode table, row by row: `match` and `mask` of spec/opcode_table.json. -/
def opcodeTable : List OpcodeRow :=
  [⟨"PSET", 0x1000000000000000, 0xFF000000FFFFFFFF⟩,
   ⟨"PCLR", 0x1100000000000000, 0xFF000000FFFFFFFF⟩,
   ⟨"PCAS", 0x1200000000000000, 0xFF0000000000FFFF⟩,
   ⟨"PTGL", 0x1300000000000000, 0xFF000000FFFFFFFF⟩,
   ⟨"PWR", 0x1400000000000000, 0xFF000000FFFFFFFF⟩,
   ⟨"PRD", 0x1500000000000000, 0xFF00FFFFFFFFFFFF⟩,
   ⟨"PRDO", 0x1600000000000000, 0xFF00FFFFFFFFFFFF⟩,
   ⟨"PFLDM", 0x1700000000000000, 0xFF000000FFF8FFF0⟩,
   ⟨"PCFGR", 0x1800000000000000, 0xFF000000F000FFFF⟩,
   ⟨"PRDC", 0x1900000000000000, 0xFF00FFFFFFF8FFFF⟩,
   ⟨"PEN", 0x1A00000000000000, 0xFF00FFFFFFFFFFFF⟩,
   ⟨"LWR", 0x2000000000000000, 0xFF000000FFFFFFFF⟩,
   ⟨"LRD", 0x2100000000000000, 0xFF00FFFFFFFFFFFF⟩,
   ⟨"BINIT", 0x2200000000000000, 0xFF00FFFFFFFFFFFF⟩,
   ⟨"BWR", 0x2300000000000000, 0xFF00FF00FFFFFFFF⟩,
   ⟨"BRD", 0x2400000000000000, 0xFF00FFFFFFFFFFFF⟩,
   ⟨"DINIT", 0x3000000000000000, 0xFFFFFFFFFFFFFFFF⟩,
   ⟨"DPUTB", 0x3100000000000000, 0xFF000000FF00FFFF⟩,
   ⟨"DPUTP", 0x3200000000000000, 0xFF00000000000000⟩,
   ⟨"DCLR", 0x3300000000000000, 0xFFFFFFFFFFFFFFFF⟩,
   ⟨"DFILL", 0x3400000000000000, 0xFFFFFFFFFF00FFFF⟩,
   ⟨"GBMP", 0x4000000000000000, 0xFF00FFFF00000000⟩,
   ⟨"KINIT", 0x5000000000000000, 0xFF00FFFFFFFFFFFF⟩,
   ⟨"KPOLL", 0x5100000000000000, 0xFF00FFFFFFFFFFFF⟩]

/-- A word is an operation of a row: it has the row's bits under the row's mask (R94). -/
def OpcodeRow.matches (r : OpcodeRow) (w : Word) : Bool := w &&& r.mask == r.bits

/-- A word has a row's operation code, whatever its other bits. -/
def OpcodeRow.sameOpc (r : OpcodeRow) (w : Word) : Bool := w.extractLsb' 56 8 == r.bits.extractLsb' 56 8

/-- The OPC column of R93. -/
def opcode : Instr → Byte
  | .pset _ _ => 0x10
  | .pclr _ _ => 0x11
  | .pcas _ _ _ => 0x12
  | .ptgl _ _ => 0x13
  | .pwr _ _ => 0x14
  | .prd _ => 0x15
  | .prdo _ => 0x16
  | .pfldm _ _ _ _ => 0x17
  | .pcfgr _ _ _ => 0x18
  | .prdc _ _ => 0x19
  | .pen _ => 0x1A
  | .lwr _ _ => 0x20
  | .lrd _ => 0x21
  | .binit _ => 0x22
  | .bwr _ _ => 0x23
  | .brd _ => 0x24
  | .dinit => 0x30
  | .dputb _ _ _ => 0x31
  | .dputp _ _ _ _ => 0x32
  | .dclr => 0x33
  | .dfill _ => 0x34
  | .gbmp _ _ => 0x40
  | .kinit _ => 0x50
  | .kpoll _ => 0x51

/-- The fields of an operation's word (R92, R93). -/
def encodeFields : Instr → CommandWord
  | .pset p m => ⟨0x10, p, m, 0, 0⟩
  | .pclr p m => ⟨0x11, p, m, 0, 0⟩
  | .pcas p clr set => ⟨0x12, p, clr, set, 0⟩
  | .ptgl p m => ⟨0x13, p, m, 0, 0⟩
  | .pwr p v => ⟨0x14, p, v, 0, 0⟩
  | .prd p => ⟨0x15, p, 0, 0, 0⟩
  | .prdo p => ⟨0x16, p, 0, 0, 0⟩
  | .pfldm p m k v => ⟨0x17, p, m, k.setWidth 16, v.setWidth 16⟩
  | .pcfgr p m cfg => ⟨0x18, p, m, cfg.toBits.setWidth 16, 0⟩
  | .prdc p k => ⟨0x19, p, 0, k.setWidth 16, 0⟩
  | .pen p => ⟨0x1A, p, 0, 0, 0⟩
  | .lwr l v => ⟨0x20, l, v, 0, 0⟩
  | .lrd l => ⟨0x21, l, 0, 0, 0⟩
  | .binit b => ⟨0x22, b, 0, 0, 0⟩
  | .bwr b x => ⟨0x23, b, x.setWidth 16, 0, 0⟩
  | .brd b => ⟨0x24, b, 0, 0, 0⟩
  | .dinit => ⟨0x30, 0, 0, 0, 0⟩
  | .dputb x page byte => ⟨0x31, page, x, byte.setWidth 16, 0⟩
  | .dputp x1 x2 page buf => ⟨0x32, page, x1, x2, buf⟩
  | .dclr => ⟨0x33, 0, 0, 0, 0⟩
  | .dfill byte => ⟨0x34, 0, 0, byte.setWidth 16, 0⟩
  | .gbmp f cp => ⟨0x40, f, 0, cp.extractLsb' 16 16, cp.extractLsb' 0 16⟩
  | .kinit d => ⟨0x50, d, 0, 0, 0⟩
  | .kpoll d => ⟨0x51, d, 0, 0, 0⟩

/-- The command word of an operation. -/
def encode (i : Instr) : Word := (encodeFields i).toWord

/-- The bytes of an operation's word as a byte memory holds them (R92). -/
def encodeBytes (i : Instr) : List Byte := bytesOfWord 8 (encode i)

/-- The operation the decoder reads from the bits `w` of an `nbits`-bit instruction, laid out as the hardware stores a
command word: eight bytes, the lowest address holding bits 7:0 (R92); bits above `nbits` are zero. -/
def decodeTableWord (nbits w : Nat) : Option Instr :=
  match decodeBytes (bytesOfWord 8 (BitVec.ofNat 64 (w % 2 ^ nbits))) with
  | .ok (i, _) => some i
  | .error _ => none

end Sys2Proof
end

