-- ==== Sys2Proof/Machine/State.lean ====
section
/-! DEFINITION. The whole state of JBCIO as plain data (spec 10), the micro-steps an operation consists of (20 R66),
the reasons to refuse (60 R282), and the state after reset (10 R48, 70 R310, R311). -/

namespace Sys2Proof.Machine

/-- A register some bits of which may hold no value yet (R48): `known` marks the bits that hold one, `val` is zero
elsewhere. A read of a bit without a value is a draw (log 2). -/
structure Reg (w : Nat) where
  val   : BitVec w
  known : BitVec w
  deriving DecidableEq, Repr

/-- A register that holds no value at all (R48). -/
def Reg.noValue {w : Nat} : Reg w := ⟨0, 0⟩

/-- A byte space: the cells that hold a value, addresses strictly rising; an unlisted cell holds no value (log 6). -/
abbrev Memory := List Host.Cell

/-- The registers of one real port: `ODR[p]` (R21), the five `CFG[p][k]` (R26; a 32-bit register stands zero-extended,
log 26) and `EN[p]` (R28). -/
structure Port where
  odr   : Reg 16
  mode  : Reg 64
  dtype : Reg 64
  speed : Reg 64
  pull  : Reg 64
  af    : Reg 64
  en    : Bool
  deriving DecidableEq, Repr

/-- A port after reset (R48). -/
def Port.reset : Port := ⟨Reg.noValue, Reg.noValue, Reg.noValue, Reg.noValue, Reg.noValue, Reg.noValue, false⟩

/-- The external shift register of one bus: `SR[b]`, `SROUT[b]` (R35). -/
structure ShiftRx where
  sr    : Reg 16
  srout : Reg 16
  deriving DecidableEq, Repr

/-- `DSTATE` (R36). -/
inductive DState where
  | uninitialized | resetting | commandInit | ready | writing
  deriving DecidableEq, Repr

/-- The transitions of `DSTATE` (R201); none leads back to `Uninitialized`. -/
inductive DispStep where
  | toResetting | toCommandInit | toReady | toWriting
  deriving DecidableEq, Repr

/-- One debounce state: `DEB_READY[d]`, `RAW[d]`, `CNT[d]`, `PREV[d]` (R43). -/
structure Deb where
  ready : Bool
  raw   : Byte
  cnt   : Nat
  prev  : Bool
  deriving DecidableEq, Repr

/-- A debounce state before `KINIT` (R48; the three registers without a value hold 0, log 7). -/
def Deb.reset : Deb := ⟨false, 0, 0, false⟩

/-- The events of U6 (R45, R287). -/
inductive Event where
  | longTap (mask : Byte)
  | release (mask : Byte) (long : Bool)
  deriving DecidableEq, Repr

/-- Items of `PIN_TRACE` (R15). `bsrW` lists the set mask before the clear mask, as R15 does. -/
inductive PinItem where
  | bsrW (p : Nat) (set clr : Half)
  | odrW (p : Nat) (v : Half)
  | odrR (p : Nat) (v : Half)
  | idrR (p : Nat) (v : Half)
  | cfgW (p : Nat) (k : CfgReg) (v : Word)
  | cfgR (p : Nat) (k : CfgReg) (v : Word)
  | enW (p : Nat)
  | hold (n : Nat)
  deriving DecidableEq, Repr

/-- Items of `BUS_TRACE` (R15). -/
inductive BusItem where
  | busInit (b : Nat)
  | busWr (b : Nat) (byte : Byte)
  | busRd (b : Nat) (byte : Byte)
  deriving DecidableEq, Repr

/-- Items of `DISP_TRACE` (R15). -/
inductive DispItem where
  | reset
  | cmd (byte : Byte)
  | data (byte : Byte)
  deriving DecidableEq, Repr

/-- What a display command byte means to the display controller's pointers (R38). -/
inductive RxCmd where
  | page (pg : BitVec 4)
  | colHigh (n : BitVec 4)
  | colLow (n : BitVec 4)
  | other
  deriving DecidableEq, Repr

/-- Where a value to be driven comes from: the command word, or the byte this operation has read. -/
inductive Src where
  | imm (v : Half)
  | loaded
  deriving DecidableEq, Repr

/-- One action of an operation. The micro-steps of R66, which another context may step between, come first; the rest
is bookkeeping that goes with the micro-step before it (log 11). -/
inductive Act where
  | bsr (p : Nat) (clr set : Half)                     -- `BsrWrite(p, clr, set)`, R123
  | bsrBit (x : Pin) (i : Nat) (src : Src)             -- `x.Write(value[i])`, R140
  | bsrList (q l : Nat) (src : Src)                    -- port q's write of a list write, R161
  | odrRead (p : Nat)                                  -- `t <- ODR[p]`, R127, R130
  | odrToggle (p : Nat) (mask : Half)                  -- `ODR[p] <- t ^ mask`, R127
  | odrWrite (p : Nat) (v : Half)                      -- R128
  | sample (p : Nat)                                   -- one `Sample(p)`, R23
  | cfgRead (p : Nat) (k : CfgReg)                     -- `old <- CFG[p][k]`, R134, R136
  | cfgMerge (p : Nat) (k : CfgReg) (mask : Half) (v : BitVec 4)   -- R134
  | cfgReplace (p : Nat) (k : CfgReg) (mask : Half) (v : BitVec 4) (outside : Option (BitVec 4))   -- R133
  | enable (p : Nat)                                   -- R137
  | hold (n : Nat)                                     -- R183
  | bufRead (a : Nat)                                  -- one byte of `BUF`, R215
  | blobRead (f a : Nat)                               -- one byte of a font's blob, R243
  | gbufWrite (n : Nat)                                -- one byte of `GBUF`, R243
  | emit                                               -- R268, of the event found, if any
  | resLoaded                                          -- `RES <- zext(t)`
  | resSampled                                         -- `RES <- zext(v)`, v the sample just taken
  | resConst (v : Word)                                -- null port's 0, glyph results
  | takeBit (pos : Option (Fin 16))                    -- `s <- din.Read()`: 0 on the null pin, R186
  | packList (l : Nat)                                 -- `r` of `LRD`, R162
  | packSerial (n : Nat) (msbFirst : Bool)             -- `r` of `SbRead`, R186
  | busInit (b : Nat)                                  -- `BUS_TRACE`, R165
  | busWr (b : Nat) (src : Src)                        -- `BUS_TRACE`, R166
  | busRd (b : Nat)                                    -- `RES <- r`, then `BUS_TRACE`, R167
  | busReady (b : Nat)                                 -- `BUS_READY[b] <- 1`, R165
  | dispReset                                          -- `DISP_TRACE`, R206
  | dispCmd (c : RxCmd) (byte : Byte)                  -- `DISP_TRACE` and the receiver, R205, R38
  | dispData (src : Src)                               -- `DISP_TRACE` and the receiver, R205, R38
  | dispGo (t : DispStep)                              -- `DSTATE`, R201
  | glyphBit (k pos : Nat)                             -- `d[k] <- b[pos]`, b the byte read, R243
  | glyphLen (n : Nat)                                 -- `GLEN`, R242
  | debInit (d : Nat)                                  -- R261
  | pollUpdate (d : Nat)                               -- the branch of R262 up to its `emit`
  | pollEnd (d : Nat)                                  -- the reset after a zero read, R262
  | retire                                             -- `cp <- cp + 1`, R25
  deriving DecidableEq, Repr

/-- The local variables of an operation's pseudocode: `t`, `old`, the samples taken, the bits of a serial read, the byte
read, the destination byte `d` of a glyph, the event to emit (R25). -/
structure Locals where
  t       : Word
  old     : Reg 64
  samples : List (Nat × Half)
  bits    : List Bool
  byte    : Byte
  glyph   : Byte
  event   : Option Event
  deriving DecidableEq, Repr

/-- No local variable holds anything. -/
def Locals.empty : Locals := ⟨0, Reg.noValue, [], [], 0, 0, none⟩

/-- One execution context: its number, its command list, `cp` (R25), `RES` (R24), `GBUF` and `GLEN` (R42), and where
it stands inside an operation: the actions not yet done and the local variables. -/
structure Ctx where
  id     : Nat
  prog   : List Word
  cp     : Nat
  res    : Word
  gbuf   : Memory
  glen   : Nat
  queue  : List Act
  locals : Locals
  deriving DecidableEq, Repr

/-- A context after reset (R48): `cp = 0`, `GLEN = 0`; no command list is loaded (log 12); `RES` is 0 (log 5). -/
def Ctx.reset (id : Nat) : Ctx := ⟨id, [], 0, 0, [], 0, [], Locals.empty⟩

/-- One turn of the schedule (log 10): context `id` does its next `n` micro-steps, or the rendering collaborator
writes a byte of the pixel buffer (log 30). -/
inductive Turn where
  | run (id n : Nat)
  | poke (a : Nat) (byte : Byte)
  deriving DecidableEq, Repr

end Sys2Proof.Machine

namespace Sys2Proof.Machine

/-- The state of JBCIO, of its receivers and of its contexts (spec 10). -/
structure State where
  config    : Config               -- R20: identical in every state (log 1)
  ports     : List Port            -- R21, R26, R28
  busReady  : List Bool            -- `BUS_READY[b]`, R33
  shiftRx   : List ShiftRx         -- `SR[b]`, `SROUT[b]`, R35; unused for a direct bus
  dstate    : DState               -- `DSTATE`, R36
  debs      : List Deb             -- R43
  buf       : Memory               -- `BUF`, R61
  gram      : Memory               -- `GRAM[pg][c]` at 256·pg + c, R38
  pp        : Reg 4                -- `PP`, R38
  cptr      : Reg 8                -- `CPTR`, R38
  ctx       : Ctx                  -- the context that moves
  parked    : List Ctx             -- the other contexts
  pinTrace  : List PinItem         -- R15
  busTrace  : List BusItem         -- R15
  dispTrace : List DispItem        -- R15
  evTrace   : List (Event × Bool)  -- R15
  sched     : List Turn            -- the model's own: which context moves next (log 10)
  pads      : List Half            -- the model's own: answers of `PADIN` waiting to be asked (log 9)
  waits     : List Bool            -- the model's own: answers of `WAITING()` waiting to be asked (log 9)
  draws     : Nat                  -- the model's own: how many free values have been drawn (log 2)
  deriving DecidableEq, Repr

/-- Why a step can stop with a fault: never. The block has no fault, no exception and no trap (R280, R285;
93 part 1: "`stuck` and `fault` (not used: the block has no fault and no operation blocks)"), so nobody raises one and
the type has no constructor (log 15). -/
inductive Fault where
  deriving DecidableEq, Repr

/-- The refusal reasons, a closed list (R282). A refused operation changes no state (R281), so each is safe: it errs
toward unprovable (R281). -/
inductive Refusal where
  /-- Never raised: every operation has its meaning (safe). -/
  | notModelled (mnemonic : String)
  /-- 1, by decode: OPC not in R93 (safe). -/
  | illegalOpcode (w : Word)
  /-- 2, by decode: a must-be-zero bit is set, R95 (safe). -/
  | reservedField (w : Word)
  /-- 3, by every port operation: p is neither a present real port nor 0xFF (safe). -/
  | noSuchPort (p : Nat)
  /-- 4, by every port operation but `PEN`, and every operation that contains one: `EN[p] = 0` (safe). -/
  | portNotEnabled (p : Nat)
  /-- 5, by `PFLDM`, `PRDC`: k > 4 (safe). -/
  | badField (k : Nat)
  /-- 6, by `PFLDM`: v ≥ 2^W[k] (safe). -/
  | fieldValueRange (k v : Nat)
  /-- 7, by `PFLDM` on AF, `PCFGR`, and a bus configuration: af > AF_MAX[p] (safe). -/
  | afRange (p af : Nat)
  /-- 8, by `PCAS`: masks overlap and CAS_OVERLAP = refuse (safe). -/
  | casOverlap (p : Nat) (bits : Half)
  /-- 9, by `LWR`, `LRD`: l ≥ NLISTS (safe). -/
  | noSuchList (l : Nat)
  /-- 10, by `BINIT`, `BWR`, `BRD`: b ≥ NBUSES (safe). -/
  | noSuchBus (b : Nat)
  /-- 11, by `BINIT`: BUS_READY[b] = 1 (safe). -/
  | busAlreadyInit (b : Nat)
  /-- 12, by `BWR`, `BRD`, `DINIT`, `KPOLL`: BUS_READY[b] = 0 (safe). -/
  | busNotReady (b : Nat)
  /-- 13, by `DINIT`: DSTATE ≠ Uninitialized (safe). -/
  | dispAlreadyInit
  /-- 14, by `DPUTB`, `DPUTP`, `DCLR`, `DFILL`: DSTATE ≠ Ready (safe). -/
  | dispNotReady
  /-- 15, by `DPUTP`, `DPUTB`: x1 > clipped x2 (safe). -/
  | xRange (x1 x2c : Nat)
  /-- 16, by `DPUTP`: buf + n > BUF_SIZE (safe). -/
  | bufRange (buf n : Nat)
  /-- 17, by `GBMP`: f ≥ NFONTS (safe). -/
  | noSuchFont (f : Nat)
  /-- 18, by `KINIT`, `KPOLL`: d ≥ NDEB (safe). -/
  | noSuchDeb (d : Nat)
  /-- 19, by `KINIT`: DEB_READY[d] = 1 (safe). -/
  | debAlreadyInit (d : Nat)
  /-- 20, by `KPOLL`: DEB_READY[d] = 0 (safe). -/
  | debNotReady (d : Nat)
  deriving DecidableEq, Repr

/-- The state right after reset in configuration `c`: the table of R48, with as many contexts as `c` says (R297), no
command list, no turn scheduled and no environment answer supplied. -/
def State.resetWith (c : Config) : State :=
  { config := c
    ports := c.ports.map (fun _ => Port.reset)
    busReady := c.buses.map (fun _ => false)
    shiftRx := c.buses.map (fun _ => ⟨Reg.noValue, Reg.noValue⟩)
    dstate := .uninitialized
    debs := c.debs.map (fun _ => Deb.reset)
    buf := [], gram := [], pp := Reg.noValue, cptr := Reg.noValue
    ctx := Ctx.reset 0
    parked := (List.range' 1 (c.contexts - 1)).map Ctx.reset
    pinTrace := [], busTrace := [], dispTrace := [], evTrace := []
    sched := [], pads := [], waits := [], draws := 0 }

/-- The state right after reset, in the configuration T of 95_test_vectors.md (log 1), with the model's own
values where that table gives none (log 34). -/
def State.reset : State := State.resetWith Config.testT

end Sys2Proof.Machine
end

