-- ==== Sys2Proof/Machine/Operands.lean ====
section
/-! DEFINITION. Operand forms of JBCIO: bit expansion and merging of configuration fields (spec 40 R131, R132), pin and
list masks (41 R160), packing of samples (41 R162, 42 R186), display addressing (43 R204, R215), glyph bits (44 R243). -/

namespace Sys2Proof.Machine

/-! ### Configuration fields -/

/-- OR over the pins i < n with `m[i] = 1` of `v << (N·i)`. -/
def orFields (N : Nat) (m : Half) (v : Word) : Nat → Word
  | 0 => 0
  | i + 1 => (if m.getLsbD i then v <<< (N * i) else 0) ||| orFields N m v i

/-- `expand_N(m)` (R131). -/
def expand (N : Nat) (m : Half) : Word := orFields N m (BitVec.ofNat 64 (2 ^ N - 1)) 16

/-- `rep_N(m, v)` for v < 2^N (R132); bits of v above its field are dropped (log 26). -/
def rep (N : Nat) (m : Half) (v : BitVec 4) : Word :=
  orFields N m (v.setWidth 64 &&& BitVec.ofNat 64 (2 ^ N - 1)) 16

/-- `merge_N(old, m, v)` (R132). -/
def merge (N : Nat) (old : Word) (m : Half) (v : BitVec 4) : Word := (old &&& ~~~expand N m) ||| rep N m v

/-- All 16·N bits of a register with N-bit fields. -/
def fullMask (N : Nat) : Word := expand N 0xFFFF#16

/-- Field i of a register value: bits `N·i + N − 1 : N·i` (R27). -/
def fieldOf (N : Nat) (r : Word) (i : Nat) : Word := (r >>> (N * i)) &&& BitVec.ofNat 64 (2 ^ N - 1)

/-- Field i of a register holds a value and it is `code`; a field without a value equals no code (R23). -/
def fieldIs (N : Nat) (r : Reg 64) (i : Nat) (code : BitVec 4) : Bool :=
  fieldOf N r.known i == BitVec.ofNat 64 (2 ^ N - 1) && fieldOf N r.val i == code.setWidth 64

/-- What replace-all forces into register k outside the mask: input and pull-down; of the other three registers the
spec states no value (R133). -/
def replaceOutside (c : Config) : CfgReg → Option (BitVec 4)
  | .mode => some c.modeInput
  | .pull => some c.pullDown
  | .dtype => none
  | .speed => none
  | .af => none

/-- The bits of a draw inside `m`; where `m` is empty no draw is looked at, so that a known value evaluates. -/
def drawnBits {w : Nat} (m draw : BitVec w) : BitVec w := if m == 0 then 0 else draw &&& m

/-- The value replace-all writes: `v` inside the mask; outside it the forced code, or else the free value `u`
(R133). -/
def replaceValue (N : Nat) (mask : Half) (v : BitVec 4) (outside : Option (BitVec 4)) (u : Word) : Word :=
  rep N mask v ||| (match outside with
    | some code => rep N (~~~mask) code
    | none => drawnBits (fullMask N &&& ~~~expand N mask) u)

/-! ### Registers with and without a value -/

/-- A register every bit of `full` of which holds a value. -/
def regOf {w : Nat} (full v : BitVec w) : Reg w := ⟨v &&& full, full⟩

/-- The bits of `mask` take the bits of `v`; the others keep what they held, a value or none (R123). -/
def regWrite {w : Nat} (r : Reg w) (mask v : BitVec w) : Reg w :=
  ⟨(r.val &&& ~~~mask) ||| (v &&& mask), r.known ||| mask⟩

/-- What a read gives: the value where there is one, a draw elsewhere (R48). -/
def regRead {w : Nat} (r : Reg w) (draw : BitVec w) : BitVec w := (r.val &&& r.known) ||| drawnBits (~~~r.known) draw

/-- Bit i, if it holds a value. -/
def regBit {w : Nat} (r : Reg w) (i : Nat) : Option Bool := if r.known.getLsbD i then some (r.val.getLsbD i) else none

/-- `ODR[p]` after one set/clear write (R123): bits in both masks follow `CAS_OVERLAP`; with `refuse` an overlapping
write has been refused before. -/
def odrAfterBsr (ov : CasOverlap) (odr : Reg 16) (clr set : Half) : Reg 16 :=
  match ov with
  | .setWins => regWrite odr (clr ||| set) set
  | .clearWins => regWrite odr (clr ||| set) (set &&& ~~~clr)
  | .refuse => regWrite odr (clr ||| set) set

/-! ### Pins and lists -/

/-- `1 << pos` (R140). -/
def pinMask (x : Pin) : Half := 1#16 <<< x.pos.val

/-- The pin is a real pin of port q. -/
def onPort (x : Pin) (q : Nat) : Bool := !x.isNull && x.port.toNat == q

/-- The mask of a list's pins on port q. -/
def listMask (q : Nat) : List Pin → Half
  | [] => 0
  | x :: xs => (if onPort x q then pinMask x else 0) ||| listMask q xs

/-- `setm(l, v, q)`, from index i on (R160). -/
def setMask (q : Nat) (v : Half) : Nat → List Pin → Half
  | _, [] => 0
  | i, x :: xs => (if onPort x q && v.getLsbD i then pinMask x else 0) ||| setMask q v (i + 1) xs

/-- `clrm(l, v, q)`, from index i on (R160). -/
def clrMask (q : Nat) (v : Half) : Nat → List Pin → Half
  | _, [] => 0
  | i, x :: xs => (if onPort x q && !v.getLsbD i then pinMask x else 0) ||| clrMask q v (i + 1) xs

/-- The real ports of a list not in `seen`, in order of first occurrence (R160). -/
def portsFrom (seen : List Nat) : List Pin → List Nat
  | [] => []
  | x :: xs =>
    if x.isNull || seen.contains x.port.toNat then portsFrom seen xs
    else x.port.toNat :: portsFrom (x.port.toNat :: seen) xs

/-- `ports(l)` (R160). -/
def portsOf (ps : List Pin) : List Nat := portsFrom [] ps

/-- `smp[q]` (R162). -/
def sampleOf (q : Nat) : List (Nat × Half) → Half
  | [] => 0
  | (p, v) :: xs => if p == q then v else sampleOf q xs

/-- `r` of `LRD`: bit i from list[i], low to high, 0 from a null pin (R162). -/
def packSamples (samples : List (Nat × Half)) : Nat → List Pin → Half
  | _, [] => 0
  | i, x :: xs =>
    (if !x.isNull && (sampleOf x.port.toNat samples).getLsbD x.pos.val then 1#16 <<< i else 0) |||
      packSamples samples (i + 1) xs

/-- Bits of a serial read into `r`, the first sample first: sample j goes to bit `n − 1 − j` or to bit j (R186). -/
def packBits (n : Nat) (msbFirst : Bool) : Nat → List Bool → Half
  | _, [] => 0
  | j, b :: bs =>
    (if b then 1#16 <<< (if msbFirst then n - 1 - j else j) else 0) ||| packBits n msbFirst (j + 1) bs

/-- The value of a source. -/
def srcValue (l : Locals) : Src → Half
  | .imm v => v
  | .loaded => l.byte.setWidth 16

/-! ### Display -/

/-- `x2c` (R215). -/
def clipX2 (c : Config) (x2 : Nat) : Nat := min x2 c.profile.width

/-- `pg`: the page clamped to the last one (R215). -/
def clampPage (c : Config) (page : Nat) : Nat := min page (c.profile.pages - 1)

/-- `phys(x)`: the physical column of a visible column (R71, R211). -/
def physColumn (c : Config) (x : Nat) : Nat := x + c.profile.colOffset

/-- The three addressing commands of `SetAddr(pg, col)` with their bytes (R204, R213). -/
def setAddrCmds (c : Config) (pg col : Nat) : List (RxCmd × Byte) :=
  let p : BitVec 4 := BitVec.ofNat 4 pg
  let hi : BitVec 4 := BitVec.ofNat 4 (col / 16)
  let lo : BitVec 4 := BitVec.ofNat 4 col
  [(.page p, c.cmd.page ||| p.setWidth 8), (.colHigh hi, c.cmd.colHigh ||| hi.setWidth 8),
   (.colLow lo, c.cmd.colLow ||| lo.setWidth 8)]

/-- `InitSeq`, the eleven command bytes (R207, R208). -/
def initSeq (c : Config) : List Byte :=
  [c.cmd.oscOn,
   c.cmd.bias ||| (if c.profile.biasAdj then 1 else 0),
   if c.profile.rot then c.cmd.colDir1 else c.cmd.colDir0,
   if c.profile.rot then c.cmd.rowDir1 else c.cmd.rowDir0,
   c.cmd.regRatio ||| c.regRatio.setWidth 8,
   c.cmd.evol,
   c.profile.contrast,
   c.cmd.powerAll,
   if c.invert then c.cmd.video1 else c.cmd.video0,
   c.cmd.startLine ||| c.startLine.setWidth 8,
   c.cmd.displayOn]

/-! ### Glyphs -/

/-- The bit of its byte that stream bit n of a row-plane is (R241); with `msbFirst` the other numbering (R250). -/
def streamPos (msbFirst : Bool) (n : Nat) : Nat := if msbFirst then 7 - n % 8 else n % 8

/-- `base + h·W`, the blob offset of the row-plane that destination index `n = h·W + i` of glyph g is made from
(R241, R243, R244). -/
def rowPlane (f : Font) (g n : Nat) : Nat := g * f.width * f.heightInBytes + n / f.width * f.width

/-- The stream bit that bit k of destination index `n = h·W + i` comes from: `k·W + i` (R243). -/
def streamIndex (f : Font) (n k : Nat) : Nat := k * f.width + n % f.width

/-- `d[k] <- b`: the bit is set or cleared (R243). -/
def putBit (d : Byte) (k : Nat) (b : Bool) : Byte := (d &&& ~~~(1#8 <<< k)) ||| (if b then 1#8 <<< k else 0)

/-- A font from a byte memory: width, height, first (4 bytes), count (2 bytes), little-endian, then the blob (R105). -/
def fontOfBytes : List Byte → Option Font
  | w :: h :: f0 :: f1 :: f2 :: f3 :: c0 :: c1 :: blob =>
    some { width := w.toNat, height := h.toNat
           first := f0.toNat + 256 * f1.toNat + 65536 * f2.toNat + 16777216 * f3.toNat
           count := c0.toNat + 256 * c1.toNat, blob := blob }
  | _ => none

/-! ### Register map -/

/-- The registers of R30's map. -/
inductive MapReg where
  | mode | dtype | speed | pull | idr | odr | bsr | afLow | afHigh
  deriving DecidableEq, Repr

/-- Offsets from `BASE[p]` (R30); no operation takes an address. -/
def mapOffset : MapReg → Nat
  | .mode => 0x00
  | .dtype => 0x04
  | .speed => 0x08
  | .pull => 0x0C
  | .idr => 0x10
  | .odr => 0x14
  | .bsr => 0x18
  | .afLow => 0x20
  | .afHigh => 0x24

/-- The address of a port's register (R30, R70). -/
def mapAddress (c : Config) (p : Nat) (r : MapReg) : Option Nat :=
  match c.ports[p]? with
  | some q => some (q.base + mapOffset r)
  | none => none

end Sys2Proof.Machine
end

