-- ==== Sys2Proof/Machine/Flags.lean ====
section
/-! DEFINITION. The status bits of JBCIO (spec 10 R44): the debounce counter and flags (45 R262 to R265), the display
protocol state (43 R201), the event word (30 R103) and the present bit of a glyph result (44 R242). There are no
condition codes and no arithmetic flags. -/

namespace Sys2Proof.Machine

/-- "the threshold had been reached": `CNT[d] ≥ LT_THRESH[d]` (R44, R265). -/
def longReached (thresh : Nat) (d : Deb) : Bool := decide (thresh ≤ d.cnt)

/-- The hold counter after a nonzero poll: one more, saturating at MAX (R263). -/
def cntUp (cntMax old : Nat) : Nat := if old < cntMax then old + 1 else old

/-- The event one poll emits: `LongTap(m)` when a nonzero read takes the counter from T − 1 to T (R264), `Release` of
the last nonzero mask when a zero read follows a nonzero one (R265), else none. -/
def pollEvent (thresh : Nat) (d : Deb) (m : Byte) : Option Event :=
  if m != 0 then (if d.cnt + 1 == thresh then some (.longTap m) else none)
  else (if d.prev then some (.release d.raw (longReached thresh d)) else none)

/-- The debounce state at the event: a nonzero read has counted, a zero read has changed nothing yet (R262). -/
def pollState (cntMax : Nat) (d : Deb) (m : Byte) : Deb :=
  if m != 0 then { d with cnt := cntUp cntMax d.cnt, raw := m, prev := true } else d

/-- After the event: a zero read leaves the state Idle (R262). -/
def pollDone (d : Deb) (m : Byte) : Deb :=
  if m != 0 then d else { d with cnt := 0, raw := 0, prev := false }

/-- The three states of R260, as the stored flag tells them. -/
def isIdle (d : Deb) : Bool := !d.prev

/-- The event word (R103): mask 7:0, kind bit 8, long flag bit 9. -/
def eventWord : Event → Half
  | .longTap m => m.setWidth 16
  | .release m long => (if long then 0x0300#16 else 0x0100#16) ||| m.setWidth 16

/-- `GBMP`'s result when present: bit 63, GLEN 31:16, height 15:8, width 7:0 (R104, R242). -/
def glyphResult (glen height width : Nat) : Word :=
  0x8000000000000000#64 ||| ((BitVec.ofNat 16 glen).setWidth 64 <<< 16) |||
    ((BitVec.ofNat 8 height).setWidth 64 <<< 8) ||| (BitVec.ofNat 8 width).setWidth 64

/-- Where a transition of `DSTATE` leads (R201). -/
def dispTarget : DispStep → DState
  | .toResetting => .resetting
  | .toCommandInit => .commandInit
  | .toReady => .ready
  | .toWriting => .writing

end Sys2Proof.Machine
end

