-- ==== Sys2Proof/Machine/Ops.lean ====
section
/-! DEFINITION. The named operations over memory, registers, traces and receivers (spec 20, 10 R35, R38), what one
action does (`runAct`), and how an operation is performed or refused (60 R281, R285). There is no exception to take and
none to return from (60 R285); refusing is the one way an operation ends otherwise. -/

namespace Sys2Proof.Machine

/-! ### Byte spaces -/

/-- The canonical form of a byte space: addresses strictly rising. -/
def Memory.wf : Memory → Bool
  | [] => true
  | c :: m => m.all (fun d => decide (c.1 < d.1)) && Memory.wf m

/-- The byte of a cell, if it holds one. -/
def Memory.get? : Memory → Nat → Option Byte
  | [], _ => none
  | c :: m, a => if c.1 = a then some c.2 else Memory.get? m a

/-- Write one byte, keeping the canonical form. -/
def Memory.put : Memory → Nat → Byte → Memory
  | [], a, b => [(a, b)]
  | c :: m, a, b =>
    if a < c.1 then (a, b) :: c :: m
    else if a = c.1 then (a, b) :: m
    else c :: Memory.put m a b

/-! ### Ports -/

/-- The registers of port p. -/
def State.port (s : State) (p : Nat) : Port := s.ports.getD p Port.reset

/-- `CFG[p][k]`. -/
def cfgReg (q : Port) : CfgReg → Reg 64
  | .mode => q.mode
  | .dtype => q.dtype
  | .speed => q.speed
  | .pull => q.pull
  | .af => q.af

/-- A port with `CFG[p][k]` written. -/
def withCfgReg (q : Port) (k : CfgReg) (r : Reg 64) : Port :=
  match k with
  | .mode => { q with mode := r }
  | .dtype => { q with dtype := r }
  | .speed => { q with speed := r }
  | .pull => { q with pull := r }
  | .af => { q with af := r }

/-- Change port p. -/
def State.setPort (s : State) (p : Nat) (q : Port) : State := { s with ports := s.ports.set p q }

/-- Append to `PIN_TRACE`. -/
def State.tracePin (s : State) (t : PinItem) : State := { s with pinTrace := s.pinTrace ++ [t] }

/-- Append to `BUS_TRACE`. -/
def State.traceBus (s : State) (t : BusItem) : State := { s with busTrace := s.busTrace ++ [t] }

/-- Append to `DISP_TRACE`. -/
def State.traceDisp (s : State) (t : DispItem) : State := { s with dispTrace := s.dispTrace ++ [t] }

/-- Change the running context. -/
def State.setCtx (s : State) (c : Ctx) : State := { s with ctx := c }

/-- Change the local variables of the operation that runs. -/
def State.setLocals (s : State) (l : Locals) : State := { s with ctx := { s.ctx with locals := l } }

/-- `RES <- v` in the running context (R24). -/
def State.setRes (s : State) (v : Word) : State := { s with ctx := { s.ctx with res := v } }

/-- Draw number `draws`, and one more drawn (R48; log 2). -/
def State.freeWord (s : State) : Word := Config.freeBits s.draws

def State.drawn (s : State) : State := { s with draws := s.draws + 1 }

/-! ### The external shift registers (R35) -/

/-- The level of a pin's `ODR` bit, if it holds a value; the null pin's is low. -/
def pinLevel (ports : List Port) (x : Pin) : Option Bool :=
  if x.isNull then some false else regBit (ports.getD x.port.toNat Port.reset).odr x.pos.val

/-- What is known of a 0→1 change of a line. -/
inductive Edge where
  | none | rise | unsure
  deriving DecidableEq, Repr

/-- A line that goes high from low has risen; from no value it may have (R35, R184). -/
def risingEdge (before after : Option Bool) : Edge :=
  match before, after with
  | some false, some true => .rise
  | none, some true => .unsure
  | _, _ => .none

/-- `(SR << 1 | level) mod 2^N`, the level perhaps without a value (R35). -/
def shiftIn (n : Nat) (r : Reg 16) (level : Option Bool) : Reg 16 :=
  let full : Half := BitVec.ofNat 16 (2 ^ n - 1)
  { val := ((r.val <<< 1) ||| (if level == some true then 1#16 else 0)) &&& full
    known := ((r.known <<< 1) ||| (if level.isSome then 1#16 else 0)) &&& full }

/-- `SR` after a write of port registers: shifted on a rising clock, without a value if the clock may have risen.
Where the same write changes `dat`, the level shifted in holds no value (log 16). -/
def srAfter (w : ShiftCfg) (before after : List Port) (sr : Reg 16) : Reg 16 :=
  match risingEdge (pinLevel before w.clk) (pinLevel after w.clk) with
  | .none => sr
  | .rise =>
    shiftIn w.bits sr (if pinLevel before w.dat = pinLevel after w.dat then pinLevel after w.dat else none)
  | .unsure => Reg.noValue

/-- `cs` is released by this write (R182, R35): the pin's Set (or Clear) action, or a change of its level. -/
def csReleased (low : Bool) (w : ShiftCfg) (before after : List Port) (p : Nat) (clr set : Half) : Edge :=
  if w.cs.isNull then .none
  else if pinLevel after w.cs ≠ some low then .none
  else if onPort w.cs p && (if low then set else clr).getLsbD w.cs.pos.val then .rise
  else match pinLevel before w.cs with
    | some lev => if lev = low then .none else .rise
    | none => .unsure

/-- The receiver of a shift bus after port p was written, by a set/clear write with masks `clr` and `set` or by a write
of the whole register (both masks 0). A latch in the same write as a clock edge holds no value (log 16). -/
def shiftRxAfter (low : Bool) (w : ShiftCfg) (before after : List Port) (p : Nat) (clr set : Half) (rx : ShiftRx) :
    ShiftRx :=
  let sr := srAfter w before after rx.sr
  { sr := sr
    srout := match csReleased low w before after p clr set with
      | .none => rx.srout
      | .rise => if sr = rx.sr then sr else Reg.noValue
      | .unsure => Reg.noValue }

/-- Every bus's receiver after a write; a direct bus has none. -/
def shiftRxAll (low : Bool) (before after : List Port) (p : Nat) (clr set : Half) :
    List BusCfg → List ShiftRx → List ShiftRx
  | .shift w :: bs, rx :: rxs =>
    shiftRxAfter low w before after p clr set rx :: shiftRxAll low before after p clr set bs rxs
  | .direct _ _ :: bs, rx :: rxs => rx :: shiftRxAll low before after p clr set bs rxs
  | _, rxs => rxs

/-- `ODR[p] <- r`; the lines to the shift registers follow. -/
def State.setOdr (s : State) (p : Nat) (r : Reg 16) (clr set : Half) : State :=
  let ports := s.ports.set p { s.port p with odr := r }
  { s with ports := ports
           shiftRx := shiftRxAll s.config.csActiveLow s.ports ports p clr set s.config.buses s.shiftRx }

/-! ### Micro-steps of the ports -/

/-- `BsrWrite(p, clr, set)` (R123). -/
def State.bsrWrite (s : State) (p : Nat) (clr set : Half) : State :=
  (s.setOdr p (odrAfterBsr s.config.casOverlap (s.port p).odr clr set) clr set).tracePin (.bsrW p set clr)

/-- The 32-bit word a set/clear write is (R22, R99): set mask in bits 15:0, clear mask in bits 31:16. -/
def bsrWord (clr set : Half) : BitVec 32 := clr ++ set

/-- `BSR[p] <- w` (R22, R99). -/
def State.bsrStore (s : State) (p : Nat) (w : BitVec 32) : State :=
  s.bsrWrite p (w.extractLsb' 16 16) (w.extractLsb' 0 16)

/-- The value a read of `ODR[p]` gives now. -/
def State.odrValue (s : State) (p : Nat) : Half := regRead (s.port p).odr (s.freeWord.setWidth 16)

/-- `t <- ODR[p]` (R127, R130). -/
def State.odrRead (s : State) (p : Nat) : State :=
  ((s.setLocals { s.ctx.locals with t := (s.odrValue p).setWidth 64 }).tracePin (.odrR p (s.odrValue p))).drawn

/-- `ODR[p] <- v`, the whole register (R128). -/
def State.odrWrite (s : State) (p : Nat) (v : Half) : State :=
  (s.setOdr p (regOf (BitVec.allOnes 16) v) 0 0).tracePin (.odrW p v)

/-- The pins of a port that are push-pull outputs by their fields, below pin n (R23). -/
def outputPins (c : Config) (q : Port) : Nat → Half
  | 0 => 0
  | i + 1 =>
    (if fieldIs (c.width .mode) q.mode i c.modeOutput && fieldIs (c.width .dtype) q.dtype i c.dtypePushPull
      then 1#16 <<< i else 0) ||| outputPins c q i

/-- The environment's answer for the 16 pads of a port at this sample (R46; log 9). -/
def State.padAnswer (s : State) : Half :=
  match s.pads with
  | v :: _ => v
  | [] => Config.padIn s.draws

/-- `Sample(p)` (R23): an output pin gives its `ODR` bit, any other pin the environment's answer. -/
def State.sampleValue (s : State) (p : Nat) : Half :=
  (s.odrValue p &&& outputPins s.config (s.port p) 16) ||| (s.padAnswer &&& ~~~outputPins s.config (s.port p) 16)

/-- One sample, kept and traced; the answer is used up. -/
def State.samplePort (s : State) (p : Nat) : State :=
  let s1 := s.setLocals { s.ctx.locals with samples := s.ctx.locals.samples ++ [(p, s.sampleValue p)] }
  ({ s1 with pads := s1.pads.tail }.tracePin (.idrR p (s.sampleValue p))).drawn

/-- The value a read of `CFG[p][k]` gives now, zero-extended (R30, R136). -/
def State.cfgValue (s : State) (p : Nat) (k : CfgReg) : Word :=
  regRead (cfgReg (s.port p) k) (drawnBits (fullMask (s.config.width k) &&& ~~~(cfgReg (s.port p) k).known) s.freeWord)

/-- `old <- CFG[p][k]` (R134, R136). -/
def State.cfgRead (s : State) (p : Nat) (k : CfgReg) : State :=
  ((s.setLocals { s.ctx.locals with t := s.cfgValue p k, old := cfgReg (s.port p) k }).tracePin
    (.cfgR p k (s.cfgValue p k))).drawn

/-- Write `CFG[p][k]`; `v` is the value as a trace shows it (R134). -/
def State.setCfg (s : State) (p : Nat) (k : CfgReg) (r : Reg 64) (v : Word) : State :=
  (s.setPort p (withCfgReg (s.port p) k r)).tracePin (.cfgW p k v)

/-- `CFG[p][k] <- merge_N(old, mask, v)`: fields outside the mask that had no value still have none (R134). -/
def State.cfgMerge (s : State) (p : Nat) (k : CfgReg) (mask : Half) (v : BitVec 4) : State :=
  let old := s.ctx.locals.old
  let known := (old.known ||| expand (s.config.width k) mask) &&& fullMask (s.config.width k)
  s.setCfg p k { val := merge (s.config.width k) (old.val &&& old.known) mask v &&& known, known := known }
    (merge (s.config.width k) s.ctx.locals.t mask v)

/-- One whole-register write of replace-all (R133). -/
def State.cfgReplace (s : State) (p : Nat) (k : CfgReg) (mask : Half) (v : BitVec 4) (outside : Option (BitVec 4)) :
    State :=
  (s.setCfg p k (regOf (fullMask (s.config.width k)) (replaceValue (s.config.width k) mask v outside s.freeWord))
    (replaceValue (s.config.width k) mask v outside s.freeWord)).drawn

/-- `EN[p] <- 1` (R137). -/
def State.enablePort (s : State) (p : Nat) : State :=
  (s.setPort p { s.port p with en := true }).tracePin (.enW p)

/-- What the 32-bit register at a place of the register map would show (R30); `BSR` is write-only. No operation reads
by address. -/
def State.mapRead (s : State) (p : Nat) : MapReg → Option (BitVec 32)
  | .mode => some ((s.cfgValue p .mode).setWidth 32)
  | .dtype => some ((s.cfgValue p .dtype).setWidth 32)
  | .speed => some ((s.cfgValue p .speed).setWidth 32)
  | .pull => some ((s.cfgValue p .pull).setWidth 32)
  | .idr => some ((s.sampleValue p).setWidth 32)
  | .odr => some ((s.odrValue p).setWidth 32)
  | .bsr => none
  | .afLow => some ((s.cfgValue p .af).extractLsb' 0 32)
  | .afHigh => some ((s.cfgValue p .af).extractLsb' 32 32)

/-! ### The display controller (R38) -/

/-- A command's effect on the pointers. -/
def State.rxCmd (s : State) : RxCmd → State
  | .page pg => { s with pp := ⟨pg, BitVec.allOnes 4⟩ }
  | .colHigh n => { s with cptr := regWrite s.cptr 0xF0#8 (n.setWidth 8 <<< 4) }
  | .colLow n => { s with cptr := regWrite s.cptr 0x0F#8 (n.setWidth 8) }
  | .other => s

/-- Where a data byte goes, if the spec says where: both pointers hold a value and the cell exists. -/
def State.rxCell (s : State) : Option Nat :=
  if s.pp.known = BitVec.allOnes 4 ∧ s.cptr.known = BitVec.allOnes 8 ∧ s.pp.val.toNat < s.config.profile.pages ∧
      s.cptr.val.toNat < s.config.profile.ramWidth then
    some (256 * s.pp.val.toNat + s.cptr.val.toNat)
  else none

/-- `GRAM[PP][CPTR] <- b; CPTR <- CPTR + 1`. Past the end of the RAM or before addressing the spec says nothing: the
whole RAM and both pointers hold no value any more (R38, U16; log 18). -/
def State.rxData (s : State) (b : Byte) : State :=
  match s.rxCell with
  | some a => { s with gram := s.gram.put a b, cptr := ⟨s.cptr.val + 1, BitVec.allOnes 8⟩ }
  | none => { s with gram := [], pp := Reg.noValue, cptr := Reg.noValue }

/-! ### Buffers, events, debounce -/

/-- The byte a read of `BUF` gives (R61; log 6). -/
def State.bufValue (s : State) (a : Nat) : Byte :=
  match s.buf.get? a with
  | some b => b
  | none => Config.bufByte s.draws

/-- Read one byte of `BUF` (R215). -/
def State.bufRead (s : State) (a : Nat) : State :=
  (s.setLocals { s.ctx.locals with byte := s.bufValue a }).drawn

/-- Read one byte of a font's blob (R62, R243); past its end there is nothing but 0 (log 28). -/
def State.blobRead (s : State) (f a : Nat) : State :=
  s.setLocals { s.ctx.locals with byte := match s.config.fonts[f]? with
    | some font => font.blob.getD a 0
    | none => 0 }

/-- `d[k] <- b[pos]` (R243). -/
def State.glyphBit (s : State) (k pos : Nat) : State :=
  s.setLocals { s.ctx.locals with glyph := putBit s.ctx.locals.glyph k (s.ctx.locals.byte.getLsbD pos) }

/-- `GBUF[n] <- d`, in the running context (R243). -/
def State.gbufWrite (s : State) (n : Nat) : State :=
  s.setCtx { s.ctx with gbuf := s.ctx.gbuf.put n s.ctx.locals.glyph }

/-- `WAITING()` (R46; log 9). -/
def State.waitAnswer (s : State) : Bool :=
  match s.waits with
  | w :: _ => w
  | [] => Config.consumerWaiting s.draws

/-- `emit e` of the event the operation found, if any (R268). -/
def State.emitEvent (s : State) : State :=
  match s.ctx.locals.event with
  | some e => { s with evTrace := s.evTrace ++ [(e, s.waitAnswer)], waits := s.waits.tail }.drawn
  | none => s

/-- Debounce state d. -/
def State.deb (s : State) (d : Nat) : Deb := s.debs.getD d Deb.reset

/-- `LT_THRESH[d]`. -/
def State.thresh (s : State) (d : Nat) : Nat :=
  match s.config.debs[d]? with
  | some c => c.thresh
  | none => 0

/-- The mask this poll read: the byte of the bus read (R262). -/
def State.pollMask (s : State) : Byte := s.ctx.locals.t.setWidth 8

/-- The branch of R262: the state at the event, and the event found. -/
def State.pollUpdate (s : State) (d : Nat) : State :=
  { s.setLocals { s.ctx.locals with event := pollEvent (s.thresh d) (s.deb d) s.pollMask } with
    debs := s.debs.set d (pollState s.config.cntMax (s.deb d) s.pollMask) }

/-- The end of a poll (R262). -/
def State.pollEnd (s : State) (d : Nat) : State := { s with debs := s.debs.set d (pollDone (s.deb d) s.pollMask) }

/-- The pins of list l. -/
def listPins (c : Config) (l : Nat) : List Pin := c.lists.getD l []

/-- Drive a real pin to a level with one set/clear write (R140). -/
def State.pinWrite (s : State) (x : Pin) (high : Bool) : State :=
  if high then s.bsrWrite x.port.toNat 0 (pinMask x) else s.bsrWrite x.port.toNat (pinMask x) 0

/-! ### Actions -/

/-- What one action does. It never fails: every check of an operation stands before its first action (R285). -/
def runAct (a : Act) (s : State) : State :=
  match a with
  | .bsr p clr set => s.bsrWrite p clr set
  | .bsrBit x i src => s.pinWrite x ((srcValue s.ctx.locals src).getLsbD i)
  | .bsrList q l src =>
    s.bsrWrite q (clrMask q (srcValue s.ctx.locals src) 0 (listPins s.config l))
      (setMask q (srcValue s.ctx.locals src) 0 (listPins s.config l))
  | .odrRead p => s.odrRead p
  | .odrToggle p mask => s.odrWrite p (s.ctx.locals.t.setWidth 16 ^^^ mask)
  | .odrWrite p v => s.odrWrite p v
  | .sample p => s.samplePort p
  | .cfgRead p k => s.cfgRead p k
  | .cfgMerge p k mask v => s.cfgMerge p k mask v
  | .cfgReplace p k mask v outside => s.cfgReplace p k mask v outside
  | .enable p => s.enablePort p
  | .hold n => s.tracePin (.hold n)
  | .bufRead a => s.bufRead a
  | .blobRead f a => s.blobRead f a
  | .gbufWrite n => s.gbufWrite n
  | .emit => s.emitEvent
  | .resLoaded => s.setRes s.ctx.locals.t
  | .resSampled => s.setRes ((s.ctx.locals.samples.getLastD (0, 0)).2.setWidth 64)
  | .resConst v => s.setRes v
  | .takeBit pos =>
    s.setLocals { s.ctx.locals with
      bits := s.ctx.locals.bits ++ [match pos with
        | some i => (s.ctx.locals.samples.getLastD (0, 0)).2.getLsbD i.val
        | none => false] }
  | .packList l =>
    s.setLocals { s.ctx.locals with
      t := (packSamples s.ctx.locals.samples 0 (listPins s.config l)).setWidth 64 }
  | .packSerial n msbFirst =>
    s.setLocals { s.ctx.locals with t := (packBits n msbFirst 0 s.ctx.locals.bits).setWidth 64 }
  | .busInit b => s.traceBus (.busInit b)
  | .busWr b src => s.traceBus (.busWr b ((srcValue s.ctx.locals src).setWidth 8))
  | .busRd b => (s.setRes s.ctx.locals.t).traceBus (.busRd b (s.ctx.locals.t.setWidth 8))
  | .busReady b => { s with busReady := s.busReady.set b true }
  | .dispReset => s.traceDisp .reset
  | .dispCmd c byte => (s.rxCmd c).traceDisp (.cmd byte)
  | .dispData src =>
    (s.rxData ((srcValue s.ctx.locals src).setWidth 8)).traceDisp (.data ((srcValue s.ctx.locals src).setWidth 8))
  | .dispGo t => { s with dstate := dispTarget t }
  | .glyphBit k pos => s.glyphBit k pos
  | .glyphLen n => s.setCtx { s.ctx with glen := n }
  | .debInit d => { s with debs := s.debs.set d ⟨true, 0, 0, false⟩ }
  | .pollUpdate d => s.pollUpdate d
  | .pollEnd d => s.pollEnd d
  | .retire => s.setCtx { s.ctx with cp := s.ctx.cp + 1, locals := Locals.empty }

/-- The actions that can be micro-steps (R66); the others are bookkeeping. -/
def isMicro : Act → Bool
  | .bsr _ _ _ => true
  | .bsrBit _ _ _ => true
  | .bsrList _ _ _ => true
  | .odrRead _ => true
  | .odrToggle _ _ => true
  | .odrWrite _ _ => true
  | .sample _ => true
  | .cfgRead _ _ => true
  | .cfgMerge _ _ _ _ => true
  | .cfgReplace _ _ _ _ _ => true
  | .enable _ => true
  | .hold _ => true
  | .bufRead _ => true
  | .blobRead _ _ => true
  | .gbufWrite _ => true
  | .emit => true
  | .resLoaded => false
  | .resSampled => false
  | .resConst _ => false
  | .takeBit _ => false
  | .packList _ => false
  | .packSerial _ _ => false
  | .busInit _ => false
  | .busWr _ _ => false
  | .busRd _ => false
  | .busReady _ => false
  | .dispReset => false
  | .dispCmd _ _ => false
  | .dispData _ => false
  | .dispGo _ => false
  | .glyphBit _ _ => false
  | .glyphLen _ => false
  | .debInit _ => false
  | .pollUpdate _ => false
  | .pollEnd _ => false
  | .retire => false

/-- The action is a micro-step now (R66): `emit` is one only if the poll has found an event (R262, R290). -/
def takesStep (s : State) (a : Act) : Bool :=
  isMicro a && (a != .emit || s.ctx.locals.event.isSome)

/-- Actions in order. -/
def runActs : List Act → State → State
  | [], s => s
  | a :: as, s => runActs as (runAct a s)

/-! ### Performing and refusing -/

/-- One `require c else refuse X` (R13). -/
structure Check where
  holds  : Bool
  reason : Refusal
  deriving DecidableEq, Repr

/-- An operation as issued: its checks in the order of its pseudocode, then its actions (R285, R290). -/
structure Plan where
  checks : List Check
  acts   : List Act
  deriving DecidableEq, Repr

/-- The first failing check is the refusal reported (R290). -/
def firstRefusal : List Check → Option Refusal
  | [] => none
  | c :: cs => if c.holds then firstRefusal cs else some c.reason

/-- The operation's local variables start empty. -/
def State.beginOp (s : State) : State := s.setLocals Locals.empty

/-- Perform a whole operation without another context in between: refuse it, or do all its actions and advance `cp`
(R25, R281). -/
def perform (pl : Plan) (s : State) : Host.Outcome State Fault Refusal :=
  match firstRefusal pl.checks with
  | some r => .refused r
  | none => .next (runActs (pl.acts ++ [.retire]) s.beginOp)

/-! ### Checks and pin actions shared by the units -/

/-- Port p exists (R121). -/
def State.portExists (s : State) (p : Nat) : Bool := s.config.portPresent p

/-- `EN[p] = 1`. -/
def State.enabled (s : State) (p : Nat) : Bool := (s.port p).en

/-- The port check for a real port selector (R121). -/
def portChecks (s : State) (p : Nat) : List Check :=
  [⟨s.portExists p, .noSuchPort p⟩, ⟨s.enabled p, .portNotEnabled p⟩]

/-- The port check of a pin; the null pin has none (R122). -/
def pinChecks (s : State) (x : Pin) : List Check := if x.isNull then [] else portChecks s x.port.toNat

/-- The port checks of several pins, in order. -/
def pinsChecks (s : State) (xs : List Pin) : List Check := xs.flatMap (pinChecks s)

/-- `require EN[q] = 1` for every port of a list (R161). -/
def listChecks (s : State) (l : Nat) : List Check :=
  (portsOf (listPins s.config l)).map (fun q => ⟨s.enabled q, .portNotEnabled q⟩)

/-- `x.Set` (R140): nothing on the null pin. -/
def pinSet (x : Pin) : List Act := if x.isNull then [] else [.bsr x.port.toNat 0 (pinMask x)]

/-- `x.Clear` (R140). -/
def pinClear (x : Pin) : List Act := if x.isNull then [] else [.bsr x.port.toNat (pinMask x) 0]

/-- `x.Write(value[i])` (R140). -/
def pinWriteBit (x : Pin) (i : Nat) (src : Src) : List Act := if x.isNull then [] else [.bsrBit x i src]

/-- "Assert chip-select" (R182). -/
def assertCs (c : Config) (x : Pin) : List Act := if c.csActiveLow then pinClear x else pinSet x

/-- "Release chip-select" (R182). -/
def releaseCs (c : Config) (x : Pin) : List Act := if c.csActiveLow then pinSet x else pinClear x

/-- The five registers in the order MODE, DTYPE, SPEED, PULL, AF (R107, R133). -/
def allRegs : List CfgReg := [.mode, .dtype, .speed, .pull, .af]

/-- `PFLDM`'s two micro-steps (R134). -/
def mergeActs (p : Nat) (mask : Half) (k : CfgReg) (v : BitVec 4) : List Act :=
  [.cfgRead p k, .cfgMerge p k mask v]

/-- `PCFGM p, mask, cfg` (R135). -/
def pcfgmActs (p : Nat) (mask : Half) (cfg : PinFields) : List Act :=
  allRegs.flatMap (fun k => mergeActs p mask k (cfg.get k))

/-- `PCFGM` of one pin, nothing on the null pin (R184, R210). -/
def pinCfgActs (x : Pin) (cfg : PinFields) : List Act :=
  if x.isNull then [] else pcfgmActs x.port.toNat (pinMask x) cfg

end Sys2Proof.Machine
end

