-- ==== Sys2Proof/Machine/Bus.lean ====
section
/-! DEFINITION. U2 PBUS and U3 SBUS: the pin aggregate (spec 41 R160 to R163), the bus contract over a direct or a
shift-register bus (41 R164 to R168), the bit-banged transport (42 R180 to R187). -/

namespace Sys2Proof.Machine

/-- `l < NLISTS`, then every port of the list enabled, before any write (R161). -/
def listAccessChecks (s : State) (l : Nat) : List Check :=
  ⟨decide (l < s.config.lists.length), .noSuchList l⟩ :: listChecks s l

/-- One set/clear write per real port of the list, in order of first occurrence (R161). -/
def listWriteActs (c : Config) (l : Nat) (src : Src) : List Act :=
  (portsOf (listPins c l)).map (fun q => .bsrList q l src)

/-- One sample per real port of the list, then the packing (R162). -/
def listReadActs (c : Config) (l : Nat) : List Act :=
  (portsOf (listPins c l)).map (fun q => .sample q) ++ [.packList l]

/-- The clock pulses of `SbWrite` for bits i − 1 down to 0, most significant first (R185). -/
def serialBits (w : ShiftCfg) (src : Src) : Nat → List Act
  | 0 => []
  | i + 1 =>
    (pinClear w.clk ++ pinWriteBit w.dat i src ++ [.hold w.delay] ++ pinSet w.clk ++ [.hold w.delay]) ++
      serialBits w src i

/-- `SbWrite(b, x)` (R185). -/
def serialWrite (c : Config) (w : ShiftCfg) (src : Src) : List Act :=
  assertCs c w.cs ++ serialBits w src w.bits ++ releaseCs c w.cs

/-- `s <- din.Read()`: one sample of one line, 0 on the null pin (R186). -/
def serialSample (x : Pin) : List Act :=
  if x.isNull then [.takeBit none] else [.sample x.port.toNat, .takeBit (some x.pos)]

/-- One pulse of `SbRead` and its sample (R186). -/
def serialPulse (w : ShiftCfg) : List Act :=
  pinClear w.clk ++ [.hold w.delay] ++ pinSet w.clk ++ [.hold w.delay] ++ serialSample w.din

/-- `SbRead(b)` (R186). -/
def serialRead (c : Config) (w : ShiftCfg) : List Act :=
  serialWrite c w (.imm w.seed) ++ (List.replicate w.bits (serialPulse w)).flatten ++ [.packSerial w.bits w.readMsbFirst]

/-- `SbInit(b)` (R184): the levels first, then the pins. -/
def serialInit (c : Config) (w : ShiftCfg) : List Act :=
  releaseCs c w.cs ++ pinSet w.clk ++ pinClear w.dat ++
    pinCfgActs w.clk c.outputCfg ++ pinCfgActs w.dat c.outputCfg ++ pinCfgActs w.cs c.outputCfg ++
    pinCfgActs w.din c.inputCfg

/-- `require b < NBUSES`, then the lifecycle flag (R166). -/
def busReadyChecks (s : State) (b : Nat) : List Check :=
  [⟨decide (b < s.config.buses.length), .noSuchBus b⟩, ⟨s.busReady.getD b false, .busNotReady b⟩]

/-- All checks of a bus write (R166). -/
def busWriteChecks (s : State) (b : Nat) : List Check :=
  busReadyChecks s b ++ match s.config.buses[b]? with
    | some (.direct l _) => listAccessChecks s l
    | some (.shift w) => pinsChecks s [w.cs, w.clk, w.dat]
    | none => []

/-- The body of a bus write, its trace item first (R164, R166). -/
def busWriteActs (c : Config) (b : Nat) (src : Src) : List Act :=
  .busWr b src :: match c.buses[b]? with
    | some (.direct l _) => listWriteActs c l src
    | some (.shift w) => serialWrite c w src
    | none => []

/-- All checks of a bus read (R167). -/
def busReadChecks (s : State) (b : Nat) : List Check :=
  busReadyChecks s b ++ match s.config.buses[b]? with
    | some (.direct l _) => listAccessChecks s l
    | some (.shift w) => pinsChecks s [w.cs, w.clk, w.dat, w.din]
    | none => []

/-- The body of a bus read, with its result and trace item (R167). -/
def busReadActs (c : Config) (b : Nat) : List Act :=
  (match c.buses[b]? with
    | some (.direct l _) => listReadActs c l
    | some (.shift w) => serialRead c w
    | none => []) ++ [.busRd b]

/-- The alternate-function bound of one port in a bus configuration (R134, R165). -/
def afCheck (s : State) (p : Nat) (cfg : PinCfg) : Check :=
  ⟨decide (cfg.af.toNat ≤ s.config.afMax p), .afRange p cfg.af.toNat⟩

/-- R161. -/
def planLwr (l : Byte) (value : Half) (s : State) : Plan :=
  ⟨listAccessChecks s l.toNat, listWriteActs s.config l.toNat (.imm value)⟩

/-- R162. -/
def planLrd (l : Byte) (s : State) : Plan :=
  ⟨listAccessChecks s l.toNat, listReadActs s.config l.toNat ++ [.resLoaded]⟩

/-- R165. -/
def planBinit (b : Byte) (s : State) : Plan :=
  { checks :=
      [⟨decide (b.toNat < s.config.buses.length), .noSuchBus b.toNat⟩,
       ⟨!s.busReady.getD b.toNat false, .busAlreadyInit b.toNat⟩] ++
      match s.config.buses[b.toNat]? with
        | some (.direct l cfg) =>
          (portsOf (listPins s.config l)).flatMap (fun q => portChecks s q ++ [afCheck s q cfg])
        | some (.shift w) => pinsChecks s [w.cs, w.clk, w.dat, w.din]
        | none => []
    acts :=
      [.busInit b.toNat] ++
      (match s.config.buses[b.toNat]? with
        | some (.direct l cfg) =>
          (portsOf (listPins s.config l)).flatMap (fun q => pcfgmActs q (listMask q (listPins s.config l)) cfg.fields)
        | some (.shift w) => serialInit s.config w
        | none => []) ++
      [.busReady b.toNat] }

/-- R166. -/
def planBwr (b : Byte) (byte : Byte) (s : State) : Plan :=
  ⟨busWriteChecks s b.toNat, busWriteActs s.config b.toNat (.imm (byte.setWidth 16))⟩

/-- R167. -/
def planBrd (b : Byte) (s : State) : Plan := ⟨busReadChecks s b.toNat, busReadActs s.config b.toNat⟩

/-- `LWR l, value` (R161). -/
def execLwr (l : Byte) (value : Half) (s : State) : Host.Outcome State Fault Refusal := perform (planLwr l value s) s

/-- `LRD l` (R162). -/
def execLrd (l : Byte) (s : State) : Host.Outcome State Fault Refusal := perform (planLrd l s) s

/-- `BINIT b` (R165). -/
def execBinit (b : Byte) (s : State) : Host.Outcome State Fault Refusal := perform (planBinit b s) s

/-- `BWR b, byte` (R166). -/
def execBwr (b : Byte) (byte : Byte) (s : State) : Host.Outcome State Fault Refusal := perform (planBwr b byte s) s

/-- `BRD b` (R167). -/
def execBrd (b : Byte) (s : State) : Host.Outcome State Fault Refusal := perform (planBrd b s) s

end Sys2Proof.Machine
end

