-- ==== Sys2Proof/Machine/Debounce.lean ====
section
/-! DEFINITION. U6 DEB: the debounce and long-tap detector (spec 45 R260 to R271). -/

namespace Sys2Proof.Machine

/-- `d < NDEB` (R261, R262). -/
def debExistsCheck (s : State) (d : Nat) : Check := ⟨decide (d < s.config.debs.length), .noSuchDeb d⟩

/-- `DEB_BUS[d]`. -/
def debBus (c : Config) (d : Nat) : Nat :=
  match c.debs[d]? with
  | some x => x.bus
  | none => 0

/-- R261. -/
def planKinit (d : Byte) (s : State) : Plan :=
  { checks := [debExistsCheck s d.toNat, ⟨!(s.deb d.toNat).ready, .debAlreadyInit d.toNat⟩]
    acts := [.debInit d.toNat] }

/-- R262: the body of a bus read, then the branch, the event and the end. -/
def planKpoll (d : Byte) (s : State) : Plan :=
  { checks := [debExistsCheck s d.toNat, ⟨(s.deb d.toNat).ready, .debNotReady d.toNat⟩] ++
      busReadChecks s (debBus s.config d.toNat)
    acts := busReadActs s.config (debBus s.config d.toNat) ++ [.pollUpdate d.toNat, .emit, .pollEnd d.toNat] }

/-- `KINIT d` (R261). -/
def execKinit (d : Byte) (s : State) : Host.Outcome State Fault Refusal := perform (planKinit d s) s

/-- `KPOLL d` (R262). -/
def execKpoll (d : Byte) (s : State) : Host.Outcome State Fault Refusal := perform (planKpoll d s) s

end Sys2Proof.Machine
end

