-- ==== Sys2Proof/Machine/Display.lean ====
section
/-! DEFINITION. U4 DISP: the command issuer and page/column sequencer (spec 43 R200 to R218). It issues bytes through
the bus contract and never looks at the kind of bus (R169). -/

namespace Sys2Proof.Machine

/-- The checks of one `Present`, in the order of its lines (R205). -/
def presentChecks (s : State) : List Check :=
  pinsChecks s [s.config.disp.dc, s.config.disp.cs] ++ busWriteChecks s s.config.disp.bus ++
    pinChecks s s.config.disp.stb

/-- `D_STB.Clear ; Hold(D_STB_DELAY) ; D_STB.Set`; with a null strobe the line vanishes (R205; log 24). -/
def strobeActs (d : DispWiring) : List Act :=
  if d.stb.isNull then [] else pinClear d.stb ++ [.hold d.stbDelay] ++ pinSet d.stb

/-- The pin-level body of `Present` after its trace item (R205). -/
def presentBody (c : Config) (data : Bool) (src : Src) : List Act :=
  (if data then pinSet c.disp.dc else pinClear c.disp.dc) ++ assertCs c c.disp.cs ++
    busWriteActs c c.disp.bus src ++ strobeActs c.disp ++ releaseCs c c.disp.cs

/-- `Cmd(byte)`, with what it means to the receiver (R205, R38). -/
def cmdActs (c : Config) (x : RxCmd × Byte) : List Act :=
  .dispCmd x.1 x.2 :: presentBody c false (.imm (x.2.setWidth 16))

/-- `Data(byte)` (R205). -/
def dataActs (c : Config) (src : Src) : List Act := .dispData src :: presentBody c true src

/-- `SetAddr(pg, col)` (R213). -/
def setAddrActs (c : Config) (pg col : Nat) : List Act := (setAddrCmds c pg col).flatMap (cmdActs c)

/-- `ResetPulse()` (R206). -/
def resetPulse (c : Config) : List Act :=
  [.dispReset] ++ pinClear c.disp.res ++ [.hold c.disp.resetHold] ++ pinSet c.disp.res ++ [.hold c.disp.resetRecover]

/-- `require DSTATE = Ready` (R215). -/
def dispReadyCheck (s : State) : Check := ⟨s.dstate == .ready, .dispNotReady⟩

/-- One write transaction: `Ready → Writing → Ready` round it (R201, R213). -/
def writing (acts : List Act) : List Act := [.dispGo .toWriting] ++ acts ++ [.dispGo .toReady]

/-- n times the same data byte. -/
def fillActs (c : Config) (n : Nat) (byte : Byte) : List Act :=
  (List.replicate n (dataActs c (.imm (byte.setWidth 16)))).flatten

/-- n data bytes read upward from `BUF` (R215). -/
def streamActs (c : Config) (buf n : Nat) : List Act :=
  (List.range n).flatMap (fun j => .bufRead (buf + j) :: dataActs c .loaded)

/-- R210. -/
def planDinit (s : State) : Plan :=
  let c := s.config
  { checks :=
      [⟨s.dstate == .uninitialized, .dispAlreadyInit⟩,
       ⟨s.busReady.getD c.disp.bus false, .busNotReady c.disp.bus⟩] ++
      pinsChecks s [c.disp.res, c.disp.cs, c.disp.stb, c.disp.dc] ++ presentChecks s
    acts :=
      pinSet c.disp.res ++ releaseCs c c.disp.cs ++ pinSet c.disp.stb ++ pinClear c.disp.dc ++
      [c.disp.res, c.disp.cs, c.disp.dc, c.disp.stb].flatMap (fun x => pinCfgActs x c.outputCfg) ++
      [.dispGo .toResetting] ++ resetPulse c ++ [.dispGo .toCommandInit] ++
      (initSeq c).flatMap (fun b => cmdActs c (.other, b)) ++ [.dispGo .toReady] }

/-- R216: the one-byte case of `DPUTP`, the byte taken from the operand; `x2c = min(x + 1, WIDTH)`. -/
def planDputb (x : Half) (page byte : Byte) (s : State) : Plan :=
  let c := s.config
  let x2c := clipX2 c (x.toNat + 1)
  { checks := [dispReadyCheck s, ⟨decide (x.toNat ≤ x2c), .xRange x.toNat x2c⟩] ++ presentChecks s
    acts := writing (setAddrActs c (clampPage c page.toNat) (physColumn c x.toNat) ++ fillActs c (x2c - x.toNat) byte) }

/-- R215. -/
def planDputp (x1 x2 : Half) (page : Byte) (buf : Half) (s : State) : Plan :=
  let c := s.config
  let x2c := clipX2 c x2.toNat
  let n := x2c - x1.toNat
  { checks :=
      [dispReadyCheck s, ⟨decide (x1.toNat ≤ x2c), .xRange x1.toNat x2c⟩,
       ⟨decide (buf.toNat + n ≤ c.bufSize), .bufRange buf.toNat n⟩] ++ presentChecks s
    acts := writing (setAddrActs c (clampPage c page.toNat) (physColumn c x1.toNat) ++ streamActs c buf.toNat n) }

/-- R217: every physical column of every page. -/
def planDclr (s : State) : Plan :=
  let c := s.config
  { checks := dispReadyCheck s :: presentChecks s
    acts := writing ((List.range c.profile.pages).flatMap (fun pg =>
      setAddrActs c pg 0 ++ fillActs c (c.profile.width + c.profile.extOffset) 0)) }

/-- R218: every visible column of every page. -/
def planDfill (byte : Byte) (s : State) : Plan :=
  let c := s.config
  { checks := dispReadyCheck s :: presentChecks s
    acts := writing ((List.range c.profile.pages).flatMap (fun pg =>
      setAddrActs c pg c.profile.colOffset ++ fillActs c c.profile.width byte)) }

/-- `DINIT` (R210). -/
def execDinit (s : State) : Host.Outcome State Fault Refusal := perform (planDinit s) s

/-- `DPUTB x, page, byte` (R216). -/
def execDputb (x : Half) (page byte : Byte) (s : State) : Host.Outcome State Fault Refusal :=
  perform (planDputb x page byte s) s

/-- `DPUTP x1, x2, page, buf` (R215). -/
def execDputp (x1 x2 : Half) (page : Byte) (buf : Half) (s : State) : Host.Outcome State Fault Refusal :=
  perform (planDputp x1 x2 page buf s) s

/-- `DCLR` (R217). -/
def execDclr (s : State) : Host.Outcome State Fault Refusal := perform (planDclr s) s

/-- `DFILL byte` (R218). -/
def execDfill (byte : Byte) (s : State) : Host.Outcome State Fault Refusal := perform (planDfill byte s) s

end Sys2Proof.Machine
end

