-- ==== Sys2Proof/Machine/Glyph.lean ====
section
/-! DEFINITION. U5 GLYPH: look a code point up and transcode its glyph (spec 44 R240 to R250). -/

namespace Sys2Proof.Machine

/-- The code point is one of the font's (R242); on naturals, no wrap. -/
def fontHas (f : Font) (cp : Nat) : Bool := decide (f.first ≤ cp) && decide (cp < f.first + f.count)

/-- One step of R243's loop over k: read the blob byte that holds stream bit `k·W + i`, set or clear `d[k]`. -/
def glyphBitActs (msbFirst : Bool) (fno : Nat) (f : Font) (g n k : Nat) : List Act :=
  [.blobRead fno (rowPlane f g n + streamIndex f n k / 8), .glyphBit k (streamPos msbFirst (streamIndex f n k))]

/-- The byte for destination index n of glyph g: eight reads of one blob byte each, every destination bit written, then
the `GBUF` write (R243). -/
def glyphByteActs (msbFirst : Bool) (fno : Nat) (f : Font) (g n : Nat) : List Act :=
  (List.range 8).flatMap (glyphBitActs msbFirst fno f g n) ++ [.gbufWrite n]

/-- `Transcode(F, g)`: 8·W·HB blob reads and W·HB `GBUF` writes, the larger of the two counts R242 allows (log 35). -/
def transcodeActs (msbFirst : Bool) (fno : Nat) (f : Font) (g : Nat) : List Act :=
  (List.range (f.width * f.heightInBytes)).flatMap (glyphByteActs msbFirst fno f g)

/-- What `GBMP` does with a font: `absent` is a result, not a refusal (R242, R245). -/
def glyphActs (msbFirst : Bool) (fno : Nat) (f : Font) (cp : Nat) : List Act :=
  if fontHas f cp then
    transcodeActs msbFirst fno f (cp - f.first) ++
      [.glyphLen (f.width * f.heightInBytes),
       .resConst (glyphResult (f.width * f.heightInBytes) f.height f.width)]
  else [.resConst 0]

/-- R242. -/
def planGbmp (f : Byte) (cp : BitVec 32) (s : State) : Plan :=
  { checks := [⟨decide (f.toNat < s.config.fonts.length), .noSuchFont f.toNat⟩]
    acts := match s.config.fonts[f.toNat]? with
      | some font => glyphActs s.config.glyphSrcMsbFirst f.toNat font cp.toNat
      | none => [] }

/-- `GBMP f, cp` (R242). -/
def execGbmp (f : Byte) (cp : BitVec 32) (s : State) : Host.Outcome State Fault Refusal := perform (planGbmp f cp s) s

end Sys2Proof.Machine
end

