-- ==== Sys2Proof/Machine/Port.lean ====
section
/-! DEFINITION. U1 PORT: masked set and clear, toggle, raw write and reads, field configuration, enable
(spec 40 R121 to R137). -/

namespace Sys2Proof.Machine

/-- A port operation: the null-port form, which checks nothing (R122), or R121's check, then the operation's own. -/
def portPlan (s : State) (p : Byte) (checks : List Check) (acts nullActs : List Act) : Plan :=
  if p = nullPort then ⟨[], nullActs⟩ else ⟨portChecks s p.toNat ++ checks, acts⟩

/-- `CasOverlap` only when `CAS_OVERLAP = refuse` (R123, R126). -/
def overlapChecks (s : State) (p : Nat) (clr set : Half) : List Check :=
  if s.config.casOverlap = .refuse then [⟨clr &&& set == 0, .casOverlap p (clr &&& set)⟩] else []

/-- R124. -/
def planPset (p : Byte) (mask : Half) (s : State) : Plan := portPlan s p [] [.bsr p.toNat 0 mask] []

/-- R125. -/
def planPclr (p : Byte) (mask : Half) (s : State) : Plan := portPlan s p [] [.bsr p.toNat mask 0] []

/-- R126. -/
def planPcas (p : Byte) (clr set : Half) (s : State) : Plan :=
  portPlan s p (overlapChecks s p.toNat clr set) [.bsr p.toNat clr set] []

/-- R127: two micro-steps. -/
def planPtgl (p : Byte) (mask : Half) (s : State) : Plan :=
  portPlan s p [] [.odrRead p.toNat, .odrToggle p.toNat mask] []

/-- R128. -/
def planPwr (p : Byte) (value : Half) (s : State) : Plan := portPlan s p [] [.odrWrite p.toNat value] []

/-- R129. -/
def planPrd (p : Byte) (s : State) : Plan := portPlan s p [] [.sample p.toNat, .resSampled] [.resConst 0]

/-- R130. -/
def planPrdo (p : Byte) (s : State) : Plan := portPlan s p [] [.odrRead p.toNat, .resLoaded] [.resConst 0]

/-- `require k <= 4`, then the value's range, then the alternate-function bound (R134). -/
def fieldChecks (s : State) (p : Nat) (k : BitVec 3) (v : BitVec 4) : List Check :=
  match CfgReg.ofNumber k with
  | none => [⟨false, .badField k.toNat⟩]
  | some r =>
    [⟨decide (v.toNat < 2 ^ s.config.width r), .fieldValueRange k.toNat v.toNat⟩,
     ⟨r != .af || decide (v.toNat ≤ s.config.afMax p), .afRange p v.toNat⟩]

/-- R134: two micro-steps. -/
def planPfldm (p : Byte) (mask : Half) (k : BitVec 3) (v : BitVec 4) (s : State) : Plan :=
  portPlan s p (fieldChecks s p.toNat k v)
    (match CfgReg.ofNumber k with
      | none => []
      | some r => mergeActs p.toNat mask r v) []

/-- R133: five whole-register writes, no read. -/
def planPcfgr (p : Byte) (mask : Half) (cfg : PinCfg) (s : State) : Plan :=
  portPlan s p [⟨decide (cfg.af.toNat ≤ s.config.afMax p.toNat), .afRange p.toNat cfg.af.toNat⟩]
    (allRegs.map (fun k => .cfgReplace p.toNat k mask (cfg.fields.get k) (replaceOutside s.config k))) []

/-- R136. -/
def planPrdc (p : Byte) (k : BitVec 3) (s : State) : Plan :=
  portPlan s p [⟨(CfgReg.ofNumber k).isSome, .badField k.toNat⟩]
    (match CfgReg.ofNumber k with
      | none => []
      | some r => [.cfgRead p.toNat r, .resLoaded]) [.resConst 0]

/-- R137: the one port operation a port need not be enabled for. -/
def planPen (p : Byte) (s : State) : Plan :=
  if p = nullPort then ⟨[], []⟩ else ⟨[⟨s.portExists p.toNat, .noSuchPort p.toNat⟩], [.enable p.toNat]⟩

/-- `PSET p, mask` (R124). -/
def execPset (p : Byte) (mask : Half) (s : State) : Host.Outcome State Fault Refusal := perform (planPset p mask s) s

/-- `PCLR p, mask` (R125). -/
def execPclr (p : Byte) (mask : Half) (s : State) : Host.Outcome State Fault Refusal := perform (planPclr p mask s) s

/-- `PCAS p, clearMask, setMask` (R126). -/
def execPcas (p : Byte) (clr set : Half) (s : State) : Host.Outcome State Fault Refusal :=
  perform (planPcas p clr set s) s

/-- `PTGL p, mask` (R127). -/
def execPtgl (p : Byte) (mask : Half) (s : State) : Host.Outcome State Fault Refusal := perform (planPtgl p mask s) s

/-- `PWR p, value` (R128). -/
def execPwr (p : Byte) (value : Half) (s : State) : Host.Outcome State Fault Refusal := perform (planPwr p value s) s

/-- `PRD p` (R129). -/
def execPrd (p : Byte) (s : State) : Host.Outcome State Fault Refusal := perform (planPrd p s) s

/-- `PRDO p` (R130). -/
def execPrdo (p : Byte) (s : State) : Host.Outcome State Fault Refusal := perform (planPrdo p s) s

/-- `PFLDM p, mask, k, v` (R134). -/
def execPfldm (p : Byte) (mask : Half) (k : BitVec 3) (v : BitVec 4) (s : State) : Host.Outcome State Fault Refusal :=
  perform (planPfldm p mask k v s) s

/-- `PCFGR p, mask, cfg` (R133). -/
def execPcfgr (p : Byte) (mask : Half) (cfg : PinCfg) (s : State) : Host.Outcome State Fault Refusal :=
  perform (planPcfgr p mask cfg s) s

/-- `PRDC p, k` (R136). -/
def execPrdc (p : Byte) (k : BitVec 3) (s : State) : Host.Outcome State Fault Refusal := perform (planPrdc p k s) s

/-- `PEN p` (R137). -/
def execPen (p : Byte) (s : State) : Host.Outcome State Fault Refusal := perform (planPen p s) s

end Sys2Proof.Machine
end

