-- ==== Sys2Proof/Machine/Dispatch.lean ====
section
/-! DEFINITION. One arm per operation of the opcode table (spec 30 R93). -/

namespace Sys2Proof.Machine

/-- The whole operation, performed by the running context with no other context in between. -/
def exec (i : Instr) (s : State) : Host.Outcome State Fault Refusal :=
  match i with
  | .pset p mask => Sys2Proof.Machine.execPset p mask s
  | .pclr p mask => Sys2Proof.Machine.execPclr p mask s
  | .pcas p clr set => Sys2Proof.Machine.execPcas p clr set s
  | .ptgl p mask => Sys2Proof.Machine.execPtgl p mask s
  | .pwr p value => Sys2Proof.Machine.execPwr p value s
  | .prd p => Sys2Proof.Machine.execPrd p s
  | .prdo p => Sys2Proof.Machine.execPrdo p s
  | .pfldm p mask k v => Sys2Proof.Machine.execPfldm p mask k v s
  | .pcfgr p mask cfg => Sys2Proof.Machine.execPcfgr p mask cfg s
  | .prdc p k => Sys2Proof.Machine.execPrdc p k s
  | .pen p => Sys2Proof.Machine.execPen p s
  | .lwr l value => Sys2Proof.Machine.execLwr l value s
  | .lrd l => Sys2Proof.Machine.execLrd l s
  | .binit b => Sys2Proof.Machine.execBinit b s
  | .bwr b byte => Sys2Proof.Machine.execBwr b byte s
  | .brd b => Sys2Proof.Machine.execBrd b s
  | .dinit => Sys2Proof.Machine.execDinit s
  | .dputb x page byte => Sys2Proof.Machine.execDputb x page byte s
  | .dputp x1 x2 page buf => Sys2Proof.Machine.execDputp x1 x2 page buf s
  | .dclr => Sys2Proof.Machine.execDclr s
  | .dfill byte => Sys2Proof.Machine.execDfill byte s
  | .gbmp f cp => Sys2Proof.Machine.execGbmp f cp s
  | .kinit d => Sys2Proof.Machine.execKinit d s
  | .kpoll d => Sys2Proof.Machine.execKpoll d s

end Sys2Proof.Machine
end

