-- ==== Sys2Proof/Machine/Plan.lean ====
section
/-! DEFINITION. The checks and actions of every operation, for a context that runs an operation micro-step by
micro-step (spec 20 R66, 60 R297). `exec` performs the same plan in one go. -/

namespace Sys2Proof.Machine

/-- The plan of an operation issued in state s. -/
def planOf (i : Instr) (s : State) : Plan :=
  match i with
  | .pset p mask => planPset p mask s
  | .pclr p mask => planPclr p mask s
  | .pcas p clr set => planPcas p clr set s
  | .ptgl p mask => planPtgl p mask s
  | .pwr p value => planPwr p value s
  | .prd p => planPrd p s
  | .prdo p => planPrdo p s
  | .pfldm p mask k v => planPfldm p mask k v s
  | .pcfgr p mask cfg => planPcfgr p mask cfg s
  | .prdc p k => planPrdc p k s
  | .pen p => planPen p s
  | .lwr l value => planLwr l value s
  | .lrd l => planLrd l s
  | .binit b => planBinit b s
  | .bwr b byte => planBwr b byte s
  | .brd b => planBrd b s
  | .dinit => planDinit s
  | .dputb x page byte => planDputb x page byte s
  | .dputp x1 x2 page buf => planDputp x1 x2 page buf s
  | .dclr => planDclr s
  | .dfill byte => planDfill byte s
  | .gbmp f cp => planGbmp f cp s
  | .kinit d => planKinit d s
  | .kpoll d => planKpoll d s

end Sys2Proof.Machine
end

