-- ==== Sys2Proof/Machine/Run.lean ====
section
/-! DEFINITION. How contexts move (spec 10 R25, 20 R66, R72, 60 R297): fetching the next command of the running
context, running it whole, running it micro-step by micro-step by turns of the schedule, and placing a command word. -/

namespace Sys2Proof.Machine

/-- The next command word of the running context; none when its `cp` equals the length of its list (R25). -/
def fetch (s : State) : Option Word := s.ctx.prog[s.ctx.cp]?

/-- A word that spells no operation is refused by name (R95, R96). -/
def decodeRefusal : DecodeError → Refusal
  | .illegalOpcode w => .illegalOpcode w
  | .reservedField w => .reservedField w

/-- The running context has ended: the first parked one takes over; with no other context nothing changes (log 13). -/
def handOver (s : State) : State :=
  match s.parked with
  | [] => s
  | c :: cs => { s with ctx := c, parked := cs ++ [s.ctx] }

/-- Do all that is left of the operation the running context stands in. -/
def finishOp (s : State) : State := runActs s.ctx.queue (s.setCtx { s.ctx with queue := [] })

/-- No turn is scheduled: the running context finishes its operation, or performs its next one whole. -/
def runNext (s : State) : Host.Outcome State Fault Refusal :=
  match s.ctx.queue with
  | _ :: _ => .next (finishOp s)
  | [] =>
    match fetch s with
    | none => .next (handOver s)
    | some w =>
      match decode w with
      | .error e => .refused (decodeRefusal e)
      | .ok i => exec i s

/-- At most n micro-steps of a list of actions, with the bookkeeping that goes with each; what is left of the list. -/
def runSome : Nat → List Act → State → State × List Act
  | _, [], s => (s, [])
  | n, a :: as, s =>
    if takesStep s a then
      match n with
      | 0 => (s, a :: as)
      | m + 1 => runSome m as (runAct a s)
    else runSome n as (runAct a s)

/-- n micro-steps of the operation the running context stands in. -/
def sliceOp (n : Nat) (s : State) : State :=
  (runSome n s.ctx.queue s).1.setCtx
    { (runSome n s.ctx.queue s).1.ctx with queue := (runSome n s.ctx.queue s).2 }

/-- Issue the next operation of the running context, if it stands between operations: its checks are made now, all of
them (R285; log 11), and its actions are still to do. -/
def loadOp (s : State) : Host.Outcome State Fault Refusal :=
  match s.ctx.queue with
  | _ :: _ => .next s
  | [] =>
    match fetch s with
    | none => .next s
    | some w =>
      match decode w with
      | .error e => .refused (decodeRefusal e)
      | .ok i =>
        match firstRefusal (planOf i s).checks with
        | some r => .refused r
        | none => .next (s.setCtx { s.ctx with queue := (planOf i s).acts ++ [.retire], locals := Locals.empty })

/-- Take the context with a number out of a list. -/
def takeCtx (id : Nat) : List Ctx → Option (Ctx × List Ctx)
  | [] => none
  | c :: cs =>
    if c.id = id then some (c, cs)
    else match takeCtx id cs with
      | some (d, ds) => some (d, c :: ds)
      | none => none

/-- Make context `id` the running one. -/
def selectCtx (id : Nat) (s : State) : Option State :=
  if s.ctx.id = id then some s
  else match takeCtx id s.parked with
    | some (c, cs) => some { s with ctx := c, parked := cs ++ [s.ctx] }
    | none => none

/-- One turn (log 10, log 30); a turn of a context that does not exist moves nothing. -/
def runTurn (t : Turn) (s : State) : Host.Outcome State Fault Refusal :=
  match t with
  | .poke a byte => .next (if a < s.config.bufSize then { s with buf := s.buf.put a byte } else s)
  | .run id n =>
    match selectCtx id s with
    | none => .next s
    | some s1 =>
      match loadOp s1 with
      | .next s2 => .next (sliceOp n s2)
      | .fault r => .fault r
      | .refused r => .refused r

/-- One step: the first turn of the schedule, or, with no turn scheduled, the running context. -/
def runStep (s : State) : Host.Outcome State Fault Refusal :=
  match s.sched with
  | [] => runNext s
  | t :: ts => runTurn t { s with sched := ts }

/-- Put a word at index n of a command list; a list that is too short is filled with zero words before it. -/
def setWordAt : List Word → Nat → Word → List Word
  | [], 0, w => [w]
  | [], n + 1, w => 0 :: setWordAt [] n w
  | _ :: ws, 0, w => w :: ws
  | x :: ws, n + 1, w => x :: setWordAt ws n w

/-- Place a command word where the next step fetches, in a running context that stands between operations, with no
turn scheduled before it. -/
def placeWord (s : State) (w : Word) : State :=
  { s with
    sched := []
    ctx := { s.ctx with prog := setWordAt s.ctx.prog s.ctx.cp w, queue := [] } }

end Sys2Proof.Machine
end

