-- ==== Sys2Proof/Machine/Pseudo.lean ====
section
/-! DEFINITION. The pseudo-operations of spec 30 R107: pin operations (40 R140), whole-record merge (40 R135), the
host's flush and rounding (43 R226, R227). None has a code of its own. -/

namespace Sys2Proof.Machine

/-- `NSET` (R140). -/
def nset (x : Pin) : Instr := .pset x.port (pinMask x)

/-- `NCLR` (R140). -/
def nclr (x : Pin) : Instr := .pclr x.port (pinMask x)

/-- `NTGL` (R140). -/
def ntgl (x : Pin) : Instr := .ptgl x.port (pinMask x)

/-- `NWR` (R107). -/
def nwr (x : Pin) (bit : Bool) : Instr := if bit then nset x else nclr x

/-- `NRD`: `PRD p`, then `RES <- RES[i]` (R107, R140); 0 on the null pin. -/
def execNrd (x : Pin) (s : State) : Host.Outcome State Fault Refusal :=
  match execPrd x.port s with
  | .next t => .next (t.setRes ((t.ctx.res >>> x.pos.val) &&& 1))
  | .fault r => .fault r
  | .refused r => .refused r

/-- `PCFGM p, mask, cfg`: five `PFLDM` in order (R107, R135). -/
def pcfgm (p : Byte) (mask : Half) (cfg : PinCfg) : List Instr :=
  allRegs.map (fun k => .pfldm p mask (BitVec.ofNat 3 k.number) (cfg.fields.get k))

/-- Operations one after another, stopping at the first that is refused. -/
def execAll : List Instr → State → Host.Outcome State Fault Refusal
  | [], s => .next s
  | i :: is, s =>
    match exec i s with
    | .next t => execAll is t
    | .fault r => .fault r
    | .refused r => .refused r

/-- `ROUND y1, y2`: `y1 & ~7`, `y2 | 7` (R227). -/
def roundRows (y1 y2 : Nat) : Nat × Nat := (y1 / 8 * 8, y2 / 8 * 8 + 7)

/-- `FLUSH x1, y1, x2, y2, buf` on inclusive, rounded bounds: one `DPUTP` per page band (R226). -/
def flush (x1 y1 x2 y2 buf : Nat) : List Instr :=
  (List.range (y2 / 8 + 1 - y1 / 8)).map (fun k =>
    .dputp (BitVec.ofNat 16 x1) (BitVec.ofNat 16 (x2 + 1)) (BitVec.ofNat 8 (y1 / 8 + k))
      (BitVec.ofNat 16 (buf + k * (x2 - x1 + 1))))

end Sys2Proof.Machine
end

