-- ==== Sys2Proof/Safety.lean ====
section
/-! DEFINITION. The terms statements are written in: what a state the machine can be in looks like, when an operation's
ports and pins can be used, what an operation leaves as it is, and runs of polls. -/

namespace Sys2Proof.Machine

/-! ### Consistent states -/

/-- A register holds bits inside `full` only, and zero where it holds no value. -/
def regOk {w : Nat} (full : BitVec w) (r : Reg w) : Bool :=
  r.known &&& ~~~full == 0 && r.val &&& ~~~r.known == 0

/-- `ODR` has 16 bits, `CFG[k]` has 16·W[k] bits: the bits above read 0 (R26, R30). -/
def portOk (c : Config) (q : Port) : Bool :=
  regOk (BitVec.allOnes 16) q.odr && allRegs.all (fun k => regOk (fullMask (c.width k)) (cfgReg q k))

/-- Idle is `PREV = 0`, then `RAW = 0` and `CNT = 0`; Active is `PREV = 1`, then `RAW ≠ 0` and `CNT ≥ 1`; the counter
stays within CNT_W bits (R260, R263). -/
def debStateOk (cntMax : Nat) (d : Deb) : Bool :=
  decide (d.cnt ≤ cntMax) && (if d.prev then d.raw != 0 && decide (1 ≤ d.cnt) else d.raw == 0 && d.cnt == 0)

/-- `SR[b]` and `SROUT[b]` have SB_N bits (R35). -/
def shiftRxOk : List BusCfg → List ShiftRx → Bool
  | .shift w :: bs, rx :: rxs =>
    regOk (BitVec.ofNat 16 (2 ^ w.bits - 1)) rx.sr && regOk (BitVec.ofNat 16 (2 ^ w.bits - 1)) rx.srout &&
      shiftRxOk bs rxs
  | .direct _ _ :: bs, _ :: rxs => shiftRxOk bs rxs
  | _, _ => true

/-- The states the model speaks of. -/
structure Consistent (s : State) : Prop where
  config    : s.config.wellFormed = true
  portsLen  : s.ports.length = s.config.ports.length
  busLen    : s.busReady.length = s.config.buses.length
  rxLen     : s.shiftRx.length = s.config.buses.length
  debsLen   : s.debs.length = s.config.debs.length
  ports     : s.ports.all (portOk s.config) = true
  debs      : s.debs.all (debStateOk s.config.cntMax) = true
  rx        : shiftRxOk s.config.buses s.shiftRx = true
  pp        : regOk (BitVec.allOnes 4) s.pp = true
  cptr      : regOk (BitVec.allOnes 8) s.cptr = true
  buf       : s.buf.wf = true
  gram      : s.gram.wf = true
  gbufs     : (s.ctx :: s.parked).all (fun c => c.gbuf.wf) = true

/-! ### When an operation goes on -/

/-- The operation is not refused (R281: "every claim takes "nothing refused" as a premise"). -/
def GoesOn (i : Instr) (s : State) : Prop := ∃ t, exec i s = .next t

/-- A real port that exists and is enabled (R121). -/
def PortUsable (s : State) (p : Byte) : Prop :=
  p ≠ nullPort ∧ s.portExists p.toNat = true ∧ s.enabled p.toNat = true

/-- Every real pin is on a port that exists and is enabled. -/
def PinsUsable (s : State) (xs : List Pin) : Prop :=
  ∀ x ∈ xs, x.isNull = true ∨ (s.portExists x.port.toNat = true ∧ s.enabled x.port.toNat = true)

/-- The pins a bus write drives (R161, R185). -/
def busPins (c : Config) (b : Nat) : List Pin :=
  match c.buses[b]? with
  | some (.direct l _) => listPins c l
  | some (.shift w) => [w.clk, w.dat, w.cs]
  | none => []

/-- The pins a bus touches, its input line among them (R34). -/
def busLines (c : Config) (b : Nat) : List Pin :=
  match c.buses[b]? with
  | some (.direct l _) => listPins c l
  | some (.shift w) => [w.clk, w.dat, w.cs, w.din]
  | none => []

/-- A direct bus's list exists. -/
def busListExists (c : Config) (b : Nat) : Bool :=
  match c.buses[b]? with
  | some (.direct l _) => decide (l < c.lists.length)
  | _ => true

/-- The bus exists with its list, and the ports of the pins a write drives can be used. -/
def BusWired (s : State) (b : Nat) : Prop :=
  b < s.config.buses.length ∧ busListExists s.config b = true ∧ PinsUsable s (busPins s.config b)

/-- A bus `BINIT` has initialised, ready for a write (R166). -/
def BusUsable (s : State) (b : Nat) : Prop := BusWired s b ∧ s.busReady.getD b false = true

/-- A bus ready for a read: its input line's port can be used too (R167). -/
def BusReadable (s : State) (b : Nat) : Prop := BusUsable s b ∧ PinsUsable s (busLines s.config b)

/-- The pins a display write drives (R205). -/
def displayPins (c : Config) : List Pin := [c.disp.dc, c.disp.cs, c.disp.stb] ++ busPins c c.disp.bus

/-- The display's four control pins (R37). -/
def controlPins (c : Config) : List Pin := [c.disp.res, c.disp.cs, c.disp.dc, c.disp.stb]

/-- The display's bus and the pins a display write drives can be used. -/
def DisplayUsable (s : State) : Prop := BusUsable s s.config.disp.bus ∧ PinsUsable s (displayPins s.config)

/-- The lifecycle condition of an operation: each device initialised exactly once, before use (R312, R314). -/
def LifecycleOk (s : State) : Instr → Prop
  | .binit b => s.busReady.getD b.toNat false = false
  | .bwr b _ => s.busReady.getD b.toNat false = true
  | .brd b => s.busReady.getD b.toNat false = true
  | .dinit => s.dstate = .uninitialized ∧ s.busReady.getD s.config.disp.bus false = true
  | .dputb _ _ _ => s.dstate = .ready ∧ s.busReady.getD s.config.disp.bus false = true
  | .dputp _ _ _ _ => s.dstate = .ready ∧ s.busReady.getD s.config.disp.bus false = true
  | .dclr => s.dstate = .ready ∧ s.busReady.getD s.config.disp.bus false = true
  | .dfill _ => s.dstate = .ready ∧ s.busReady.getD s.config.disp.bus false = true
  | .kinit d => (s.deb d.toNat).ready = false
  | .kpoll d => (s.deb d.toNat).ready = true ∧ s.busReady.getD (debBus s.config d.toNat) false = true
  | _ => True

/-! ### What an operation leaves -/

/-- The context after an operation: `cp` advanced, nothing of the operation left (R25). -/
def advanced (c : Ctx) : Ctx := { c with cp := c.cp + 1, locals := Locals.empty }

/-- The same, with a result in `RES` (R24). -/
def advancedRes (c : Ctx) (v : Word) : Ctx := { c with cp := c.cp + 1, locals := Locals.empty, res := v }

/-- A pin of the list is pin i of port q. -/
def Names (xs : List Pin) (q i : Nat) : Prop := ∃ x ∈ xs, x.isNull = false ∧ x.port.toNat = q ∧ x.pos.val = i

/-- `ODR` bits of no other pin than the given ones differ. -/
def OdrOnlyAt (s t : State) (xs : List Pin) : Prop :=
  ∀ q b, b < 16 → ¬Names xs q b → regBit (t.port q).odr b = regBit (s.port q).odr b

/-- Only `ODR` bits of the given pins may differ: every other `ODR` bit, every configuration register and every enable
bit is as before. -/
def DrivesOnly (s t : State) (xs : List Pin) : Prop :=
  OdrOnlyAt s t xs ∧ ∀ q, t.port q = { s.port q with odr := (t.port q).odr }

/-- Pin x's fields are those given, in all five registers (R27, R100). -/
def PinHasCfg (t : State) (x : Pin) (cfg : PinFields) : Prop :=
  ∀ (r : CfgReg) (b : Nat), b < t.config.width r →
    regBit (cfgReg (t.port x.port.toNat) r) (t.config.width r * x.pos.val + b) = some ((cfg.get r).getLsbD b)

/-- Configuration fields of no other pin than the given ones differ, a field without a value included, and no enable bit
differs. -/
def CfgOnlyAt (s t : State) (xs : List Pin) : Prop :=
  (∀ q i, i < 16 → ¬Names xs q i → ∀ (r : CfgReg) (b : Nat), b < s.config.width r →
    regBit (cfgReg (t.port q) r) (s.config.width r * i + b) =
      regBit (cfgReg (s.port q) r) (s.config.width r * i + b)) ∧
  ∀ q, (t.port q).en = (s.port q).en

/-- `v` is a value a read of `r` may give: it has the bits `r` holds (R48). -/
def ReadsAs {w : Nat} (r : Reg w) (v : BitVec w) : Prop := ∀ i x, regBit r i = some x → v.getLsbD i = x

/-- Pin i of port q is a push-pull output by its fields (R23). -/
def outputPin (s : State) (q i : Nat) : Bool :=
  fieldIs (s.config.width .mode) (s.port q).mode i s.config.modeOutput &&
    fieldIs (s.config.width .dtype) (s.port q).dtype i s.config.dtypePushPull

/-- `v` is a sample of port q: a push-pull output pin gives its `ODR` bit (R23). -/
def IsSample (s : State) (q : Nat) (v : Half) : Prop :=
  ∀ i x, outputPin s q i = true → regBit (s.port q).odr i = some x → v.getLsbD i = x

/-- In the sample `v` of port q every pin that is no push-pull output shows the environment's answer `a` (R23, R46). -/
def ShowsPads (s : State) (q : Nat) (v a : Half) : Prop :=
  ∀ i, i < 16 → outputPin s q i = false → v.getLsbD i = a.getLsbD i

/-- A receiver whose clock and chip-select are on other ports than p is as before (R35). -/
def OtherReceiversKept (s t : State) (p : Nat) : Prop :=
  ∀ b : Nat,
    (∀ w : ShiftCfg, s.config.buses[b]? = some (BusCfg.shift w) → onPort w.clk p = false ∧ onPort w.cs p = false) →
    t.shiftRx[b]? = s.shiftRx[b]?

/-- Everything but `ODR` of port p, the receivers on its lines, `PIN_TRACE` and the running context is as before. -/
def OnlyOdrOf (s t : State) (p : Nat) : Prop :=
  t.port p = { s.port p with odr := (t.port p).odr } ∧ (∀ q, q ≠ p → t.port q = s.port q) ∧
    OtherReceiversKept s t p ∧
    t = { s with ports := t.ports, shiftRx := t.shiftRx, pinTrace := t.pinTrace, ctx := t.ctx, draws := t.draws }

/-- One set/clear write of port p and nothing else (R123): a bit of the set mask is 1, of the clear mask 0, of both what
`CAS_OVERLAP` says, of neither unchanged. -/
def BsrEffect (s t : State) (p : Nat) (clr set : Half) : Prop :=
  (∀ b, b < 16 → regBit (t.port p).odr b =
    if clr.getLsbD b = true ∧ set.getLsbD b = true then some (s.config.casOverlap != .clearWins)
    else if set.getLsbD b = true then some true
    else if clr.getLsbD b = true then some false
    else regBit (s.port p).odr b) ∧
  t.pinTrace = s.pinTrace ++ [.bsrW p set clr] ∧ t.ctx = advanced s.ctx ∧ t.draws = s.draws ∧ OnlyOdrOf s t p

/-- Only port p's configuration registers, `PIN_TRACE`, the running context and the draws made differ. -/
def OnlyCfgOf (s t : State) (p : Nat) : Prop :=
  (t.port p).odr = (s.port p).odr ∧ (t.port p).en = (s.port p).en ∧ (∀ q, q ≠ p → t.port q = s.port q) ∧
    t = { s with ports := t.ports, pinTrace := t.pinTrace, ctx := t.ctx, draws := t.draws }

/-- A read: no register but `RES` differs (R68). -/
def OnlyRes (s t : State) : Prop :=
  t = { s with pinTrace := t.pinTrace, ctx := t.ctx, pads := t.pads, draws := t.draws } ∧
    t.ctx = advancedRes s.ctx t.ctx.res

/-- The byte a display item puts on the bus. -/
def itemByte : DispItem → Option Byte
  | .reset => none
  | .cmd b => some b
  | .data b => some b

/-- What a display write may change: the pins it drives, the receivers, the traces, the context; `DSTATE` is `Ready`
again. -/
def DisplayFrame (s t : State) : Prop :=
  DrivesOnly s t (displayPins s.config) ∧ t.dstate = .ready ∧ t.ctx = advanced s.ctx ∧
    t = { s with ports := t.ports, shiftRx := t.shiftRx, dstate := t.dstate, gram := t.gram, pp := t.pp, cptr := t.cptr
                 pinTrace := t.pinTrace, busTrace := t.busTrace, dispTrace := t.dispTrace, ctx := t.ctx
                 draws := t.draws }

/-- The three addressing commands for page pg and physical column col (R204, R213). -/
def addressItems (c : Config) (pg col : Nat) : List DispItem :=
  [.cmd (c.cmd.page ||| BitVec.ofNat 8 pg), .cmd (c.cmd.colHigh ||| BitVec.ofNat 8 (col / 16)),
   .cmd (c.cmd.colLow ||| BitVec.ofNat 8 (col % 16))]

/-- Each pin of the list that is real shows its bit of `v`: bit i drives list[i] (R161). -/
def ListShows (t : State) (xs : List Pin) (v : Half) : Prop :=
  ∀ i x, xs[i]? = some x → x.isNull = false → regBit (t.port x.port.toNat).odr x.pos.val = some (v.getLsbD i)

/-- A list write happened: the pins show the value, no other pin moved, one set/clear write per port, in order of first
occurrence (R161). -/
def ListDriven (s t : State) (xs : List Pin) (v : Half) : Prop :=
  ListShows t xs v ∧ DrivesOnly s t xs ∧
    t.pinTrace = s.pinTrace ++ (portsOf xs).map (fun q => .bsrW q (setMask q v 0 xs) (clrMask q v 0 xs))

/-- A list read happened, port q's sample being `smp q`: one sample per port, taken at its own instant, and `r` packs
the list's pins low to high, 0 from a null pin and above the list (R162). -/
def ListSampled (s t : State) (xs : List Pin) (smp : Nat → Half) (r : Word) : Prop :=
  (∀ q ∈ portsOf xs, IsSample s q (smp q)) ∧
  (∀ (k q : Nat) (a : Half), (portsOf xs)[k]? = some q → s.pads[k]? = some a → ShowsPads s q (smp q) a) ∧
  t.pads = s.pads.drop (portsOf xs).length ∧
  t.pinTrace = s.pinTrace ++ (portsOf xs).map (fun q => .idrR q (smp q)) ∧
  ∀ i, r.getLsbD i = match xs[i]? with
    | some x => !x.isNull && (smp x.port.toNat).getLsbD x.pos.val
    | none => false

/-- The refusals of a list operation (R161, R162): no such list, else the first port of the list not enabled. -/
def ListRefusals (i : Instr) (s : State) (l : Nat) : Prop :=
  (s.config.lists.length ≤ l → exec i s = .refused (.noSuchList l)) ∧
  ∀ before q after, l < s.config.lists.length → portsOf (listPins s.config l) = before ++ q :: after →
    (∀ r ∈ before, s.enabled r = true) → s.enabled q = false → exec i s = .refused (.portNotEnabled q)

/-- A line is at a level. -/
def Level (t : State) (x : Pin) (high : Bool) : Prop := pinLevel t.ports x = some high

/-- The three driven lines of a serial bus are different pins; `cs` may be the null pin (R34). -/
def LinesApart (w : ShiftCfg) : Prop :=
  w.clk.isNull = false ∧ w.dat.isNull = false ∧ Pin.noRepeats [w.clk, w.dat, w.cs] = true

/-- All SB_N bits of a receiver register hold `v` (R35). -/
def rxHolds (w : ShiftCfg) (v : Half) : Reg 16 := regOf (BitVec.ofNat 16 (2 ^ w.bits - 1)) v

/-- What one write of an output register does to `SR`: a rising clock shifts in the level `dat` had before and after, a
clock that keeps its level leaves it (R35). -/
def ShiftsOnRise (s t : State) (w : ShiftCfg) (rx rx' : ShiftRx) : Prop :=
  (∀ q v, Level s w.clk false → Level t w.clk true → Level s w.dat v → Level t w.dat v → rx.sr = rxHolds w q →
    rx'.sr = rxHolds w (q <<< 1 ||| if v then 1 else 0)) ∧
  (pinLevel s.ports w.clk = pinLevel t.ports w.clk → rx'.sr = rx.sr)

/-- What replaces the configuration record of a pin that a serial bus or the display drives (R184, R210). -/
def driveCfg (c : Config) : PinFields := ⟨c.modeOutput, c.dtypePushPull, 0, c.pullNone, 0⟩

/-- What a serial bus gives its input line (R184). -/
def senseCfg (c : Config) : PinFields := ⟨c.modeInput, 0, 0, c.pullNone, 0⟩

/-- One clock pulse of the worked trace of R187 with data bit `v`. -/
def pulseItems (w : ShiftCfg) (v : Bool) : List PinItem :=
  [.bsrW w.clk.port.toNat 0 (pinMask w.clk),
   if v then .bsrW w.dat.port.toNat (pinMask w.dat) 0 else .bsrW w.dat.port.toNat 0 (pinMask w.dat),
   .hold w.delay, .bsrW w.clk.port.toNat (pinMask w.clk) 0, .hold w.delay]

/-- The item of a pin's write to a level; none on the null pin (R140). -/
def lineItems (x : Pin) (high : Bool) : List PinItem :=
  if x.isNull then []
  else if high then [.bsrW x.port.toNat (pinMask x) 0]
  else [.bsrW x.port.toNat 0 (pinMask x)]

/-- The pulses for bits n − 1 down to 0 of x (R185). -/
def pulsesItems (w : ShiftCfg) (x : Half) : Nat → List PinItem
  | 0 => []
  | n + 1 => pulseItems w (x.getLsbD n) ++ pulsesItems w x n

/-- The items of `SbWrite(b, x)`: chip-select asserted, one pulse per bit, chip-select released (R185, R187). -/
def serialItems (low : Bool) (w : ShiftCfg) (x : Half) : List PinItem :=
  lineItems w.cs (!low) ++ pulsesItems w x w.bits ++ lineItems w.cs low

/-- The items of one pulse of `SbRead` and of the sample after it (R186). -/
def sampleItems (w : ShiftCfg) (v : Half) : List PinItem :=
  [.bsrW w.clk.port.toNat 0 (pinMask w.clk), .hold w.delay, .bsrW w.clk.port.toNat (pinMask w.clk) 0, .hold w.delay] ++
    if w.din.isNull then [] else [.idrR w.din.port.toNat v]

/-- The items of the body of a bus write: one set/clear write per port of a direct bus's list, or a serial write
(R161, R166, R185). -/
def busItems (c : Config) (b : Nat) (byte : Byte) : List PinItem :=
  match c.buses[b]? with
  | some (.direct l _) =>
    (portsOf (listPins c l)).map (fun q =>
      .bsrW q (setMask q (byte.setWidth 16) 0 (listPins c l)) (clrMask q (byte.setWidth 16) 0 (listPins c l)))
  | some (.shift w) => serialItems c.csActiveLow w (byte.setWidth 16)
  | none => []

/-- `st` are the items of the strobe line of `Present`: low, `Hold`, high. With the null pin the line vanishes; whether
its `Hold` does too is left open here, so nothing rests on log 24 (R205). -/
def StrobeItems (d : DispWiring) (st : List PinItem) : Prop :=
  if d.stb.isNull then st = [] ∨ st = [.hold d.stbDelay]
  else st = lineItems d.stb false ++ [.hold d.stbDelay] ++ lineItems d.stb true

/-- The items of `Present`: `D_DC` at the kind's level, chip-select asserted, the bus write, the strobe, chip-select
released (R205). -/
def presentItems (c : Config) (st : List PinItem) (data : Bool) (byte : Byte) : List PinItem :=
  lineItems c.disp.dc data ++ lineItems c.disp.cs (!c.csActiveLow) ++ busItems c c.disp.bus byte ++ st ++
    lineItems c.disp.cs c.csActiveLow

/-- What one display item is on the pins: the reset pulse of R206, or one `Present`. -/
def itemPins (c : Config) (st : List PinItem) : DispItem → List PinItem
  | .reset =>
    lineItems c.disp.res false ++ [.hold c.disp.resetHold] ++ lineItems c.disp.res true ++ [.hold c.disp.resetRecover]
  | .cmd byte => presentItems c st false byte
  | .data byte => presentItems c st true byte

/-- A display operation, after the pin items `pre`, issued exactly these items: `DISP_TRACE` gains them, `BUS_TRACE` one
write for each byte, `PIN_TRACE` the pin-level body of each, in order (R205, R206, R164). -/
def Issues (s t : State) (pre : List PinItem) (items : List DispItem) : Prop :=
  t.dispTrace = s.dispTrace ++ items ∧
    t.busTrace = s.busTrace ++ (items.filterMap itemByte).map (.busWr s.config.disp.bus) ∧
    ∃ st, StrobeItems s.config.disp st ∧
      t.pinTrace = s.pinTrace ++ pre ++ items.flatMap (itemPins s.config st)

/-- What one `PCFGM` merges: a port, a mask and the field values. -/
structure MergeJob where
  port   : Nat
  mask   : Half
  fields : PinFields

/-- `PCFGM` of every real pin of a list (R184, R210). -/
def pinJobs (xs : List Pin) (cfg : PinFields) : List MergeJob :=
  (xs.filter (fun x => !x.isNull)).map (fun x => ⟨x.port.toNat, pinMask x, cfg⟩)

/-- The items of jobs number i, i + 1, …: for each register in order a read, which gave `old`, and the write of the
merge (R134, R135). -/
def mergeItems (c : Config) (old : Nat → CfgReg → Word) : Nat → List MergeJob → List PinItem
  | _, [] => []
  | i, j :: js =>
    allRegs.flatMap (fun r =>
      [.cfgR j.port r (old i r), .cfgW j.port r (merge (c.width r) (old i r) j.mask (j.fields.get r))]) ++
      mergeItems c old (i + 1) js

/-- The context stands between operations with `i` as its next one (R25). -/
def StandsAt (c : Ctx) (i : Instr) : Prop := c.queue = [] ∧ c.prog[c.cp]? = some (encode i)

/-- The display operations (43_display.md). -/
def isDisplayOp : Instr → Bool
  | .dinit => true
  | .dputb _ _ _ => true
  | .dputp _ _ _ _ => true
  | .dclr => true
  | .dfill _ => true
  | _ => false

/-- The pixel-buffer byte for visible pixel column x and row y of a flush of the rectangle from (x1, y1) with strips of
w bytes (R226). -/
def flushByte (x1 y1 w buf x y : Nat) : Nat := buf + (y / 8 - y1 / 8) * w + (x - x1)

/-! ### Runs of polls -/

/-- Consecutive polls of instance d from s to u, whose bus reads gave the masks in order. -/
inductive PollRun (d : Byte) : State → List Byte → State → Prop where
  | done (s : State) : PollRun d s [] s
  | poll {s t u : State} {m : Byte} {ms : List Byte} (h : exec (.kpoll d) s = .next t)
      (hm : t.busTrace = s.busTrace ++ [.busRd (debBus s.config d.toNat) m]) (rest : PollRun d t ms u) :
      PollRun d s (m :: ms) u

/-- The operation and masks of a set/clear write (R124 to R126). -/
def setClearOf : Instr → Option (Byte × Half × Half)
  | .pset p m => some (p, 0, m)
  | .pclr p m => some (p, m, 0)
  | .pcas p clr set => some (p, clr, set)
  | _ => none

/-- The port operations that write the whole output register, in one write of it (R127, R128). -/
def wholeWriteOf : Instr → Option Byte
  | .ptgl p _ => some p
  | .pwr p _ => some p
  | _ => none

/-- The port operations and their selector (40_port.md). -/
def portSelector : Instr → Option Byte
  | .pset p _ => some p
  | .pclr p _ => some p
  | .pcas p _ _ => some p
  | .ptgl p _ => some p
  | .pwr p _ => some p
  | .prd p => some p
  | .prdo p => some p
  | .pfldm p _ _ _ => some p
  | .pcfgr p _ _ => some p
  | .prdc p _ => some p
  | .pen p => some p
  | _ => none

/-- The port operations with a result (R122). -/
def portReads : Instr → Bool
  | .prd _ => true
  | .prdo _ => true
  | .prdc _ _ => true
  | _ => false

end Sys2Proof.Machine
end

