-- ==== Sys2Proof/Certificates/Slice0/Obligations.lean ====
section
/-! DEFINITION. The statements for the provers, each a numbered rule of spec/ or a property of the whole machine. -/

open Sys2Proof Sys2Proof.Machine

/-! ### Encoding -/

/-- R91 to R93, R106: a word decodes to an operation exactly if it is the operation's word, with every operand at every
value; its eight bytes decode to the operation and the bytes after them are left. -/
def Obligations.DecodingInvertsEncoding : Prop :=
  (∀ (w : Word) (i : Instr), decode w = .ok i ↔ encode i = w) ∧
  ∀ (i : Instr) (rest : List Byte),
    decodeBytes (encodeBytes i ++ rest) = .ok (i, rest) ∧ decodeTableWord 64 (encode i).toNat = some i

/-- R94: a word is an operation exactly where it matches a row of the table, no two rows overlap, and a word with a
row's operation code that fails its mask is reserved. -/
def Obligations.DecoderSelectsByOperationCode : Prop :=
  (∀ w, (∃ i, decode w = .ok i) ↔ ∃ r ∈ opcodeTable, r.matches w = true) ∧
  (∀ w i, decode w = .ok i → opcode i = w.extractLsb' 56 8) ∧
  (∀ w, decode w = .error (.reservedField w) ↔
    (∃ r ∈ opcodeTable, r.sameOpc w = true) ∧ ∀ r ∈ opcodeTable, r.matches w = false) ∧
  ∀ w r₁ r₂, r₁ ∈ opcodeTable → r₂ ∈ opcodeTable → r₁.matches w = true → r₂.matches w = true → r₁ = r₂

/-- R95, R96: a reserved word and a word of no operation are refused by name where they would run. -/
def Obligations.UndecodableWordsAreRefusedByName : Prop :=
  ∀ (s : State) (w : Word), s.sched = [] → s.ctx.queue = [] → fetch s = some w →
    ((∀ r ∈ opcodeTable, r.sameOpc w = false) → step s = .refused (.illegalOpcode w)) ∧
    ((∃ r ∈ opcodeTable, r.sameOpc w = true) → (∀ r ∈ opcodeTable, r.matches w = false) →
      step s = .refused (.reservedField w))

/-- A few words written out from R91 to R93 (V30-1, V30-3, V30-4, V30-5, V30-7, P3, P5). -/
def Obligations.SpecWordsDecode : Prop :=
  decode 0x1000000300000000 = .ok (.pset 0 0x0003) ∧
  decode 0x1700000300030001 = .ok (.pfldm 0 0x0003 3 1) ∧
  decode 0x180000FF00010000 = .ok (.pcfgr 0 0x00FF ⟨1, 0, 0, 0, 0⟩) ∧
  decode 0x2301008000000000 = .ok (.bwr 1 0x80) ∧
  decode 0x3209007E00820100 = .ok (.dputp 126 130 9 0x0100) ∧
  decode 0x400100000001F600 = .ok (.gbmp 1 0x0001F600) ∧
  decode 0x5100000000000000 = .ok (.kpoll 0)

/-! ### The step -/

/-- R25, R72: with no turn scheduled and no operation half done, a step is the operation the next command word decodes
to, and adds nothing round it: `exec` itself advances `cp`. -/
def Obligations.StepRunsTheDecodedOperation : Prop :=
  ∀ (s : State) (w : Word) (i : Instr), s.sched = [] → s.ctx.queue = [] → fetch s = some w → decode w = .ok i →
    step s = exec i s

/-- A placed word is the very next operation. -/
def Obligations.StepRunsAPlacedWord : Prop :=
  ∀ (s : State) (i : Instr),
    step (s.withFetchWord 64 (encode i).toNat) = exec i (s.withFetchWord 64 (encode i).toNat)

/-- R66, R72: an operation run micro-step by micro-step, with no other context between, does what it does in one go. -/
def Obligations.UninterruptedSliceIsTheWholeOperation : Prop :=
  ∀ (s : State) (i : Instr) (n : Nat) (ts : List Turn), StandsAt s.ctx i → s.sched = .run s.ctx.id n :: ts →
    (planOf i s).acts.countP isMicro ≤ n → step s = exec i { s with sched := ts }

/-- R25, R20, R79, R297: an operation advances its own context's `cp` by one, leaves nothing of itself behind, and
changes no command list, no other context, no configuration and no byte of the pixel buffer. -/
def Obligations.OperationAdvancesItsContextOnly : Prop :=
  ∀ (i : Instr) (s t : State), exec i s = .next t →
    t.ctx.cp = s.ctx.cp + 1 ∧ t.ctx.prog = s.ctx.prog ∧ t.ctx.id = s.ctx.id ∧ t.ctx.queue = s.ctx.queue ∧
      t.ctx.locals = Locals.empty ∧ t.parked = s.parked ∧ t.buf = s.buf ∧ t.config = s.config ∧ t.sched = s.sched

/-- R297: a turn of one context leaves every other context's `cp`, `RES`, `GBUF` and position as they were. -/
def Obligations.TurnsLeaveOtherContextsAlone : Prop :=
  ∀ (s t : State) (id n : Nat) (ts : List Turn), s.sched = .run id n :: ts → step s = .next t →
    ∀ c, c ∈ s.ctx :: s.parked → c.id ≠ id → c ∈ t.ctx :: t.parked

/-- R73: set/clear writes of two contexts with masks that share no bit give the same port registers in either order, and
each bit is what its own context's write makes it ("[derived: from rule R66 and 10_state.md rule R22 …]"). Turns of a
schedule are the model's (log 10). -/
def Obligations.DisjointMasksDoNotRace : Prop :=
  ∀ (i j : Instr) (p : Byte) (c₁ s₁ c₂ s₂ : Half) (s : State) (b : Ctx),
    setClearOf i = some (p, c₁, s₁) → setClearOf j = some (p, c₂, s₂) → (c₁ ||| s₁) &&& (c₂ ||| s₂) = 0 →
    (s.config.casOverlap = .refuse → c₁ &&& s₁ = 0 ∧ c₂ &&& s₂ = 0) → PortUsable s p →
    s.parked = [b] → s.ctx.id ≠ b.id → StandsAt s.ctx i → StandsAt b j →
    ∃ u v x y, step { s with sched := [.run s.ctx.id 1, .run b.id 1] } = .next u ∧ step u = .next v ∧
      step { s with sched := [.run b.id 1, .run s.ctx.id 1] } = .next x ∧ step x = .next y ∧ v.ports = y.ports ∧
      ∀ k, k < 16 → regBit (v.port p.toNat).odr k =
        if (c₁ ||| s₁).getLsbD k then regBit (u.port p.toNat).odr k else regBit (x.port p.toNat).odr k

/-- R75: a set/clear write of another context between the read and the write of a toggle is lost, on whatever bits. The
schedule of turns is the model's (log 10). -/
def Obligations.ToggleLosesAConcurrentWrite : Prop :=
  ∀ (j : Instr) (p : Byte) (mask clr set v : Half) (s : State) (b : Ctx),
    setClearOf j = some (p, clr, set) → (s.config.casOverlap = .refuse → clr &&& set = 0) → PortUsable s p →
    (s.port p.toNat).odr = regOf (BitVec.allOnes 16) v →
    s.parked = [b] → s.ctx.id ≠ b.id → StandsAt s.ctx (.ptgl p mask) → StandsAt b j →
    s.sched = [.run s.ctx.id 1, .run b.id 1, .run s.ctx.id 1] →
    ∃ t u x, step s = .next t ∧ step t = .next u ∧ step u = .next x ∧
      (x.port p.toNat).odr = regOf (BitVec.allOnes 16) (v ^^^ mask) ∧
      x.pinTrace = s.pinTrace ++ [.odrR p.toNat v, .bsrW p.toNat set clr, .odrW p.toNat (v ^^^ mask)]

/-- R68: repeating a set/clear write, a whole-port write or an enable with the same operands leaves the same registers.
-/
def Obligations.SingleWritesAreIdempotent : Prop :=
  ∀ (i : Instr) (s t : State),
    ((setClearOf i).isSome = true ∨ (∃ p v, i = .pwr p v) ∨ ∃ p, i = .pen p) → exec i s = .next t →
    ∃ u, exec i t = .next u ∧
      u = { t with shiftRx := u.shiftRx, pinTrace := u.pinTrace, ctx := advanced t.ctx }

/-! ### The whole machine -/

/-- After reset in any configuration nothing is enabled and nothing holds a value (R48, R310, R311). The stored bits
under a register without a value, and `RES`, are the model's own (log 2, log 5); this says nothing of them. -/
def Obligations.ResetLeavesNothingEnabled : Prop :=
  ∀ c : Config,
    (∀ p, (State.resetWith c).enabled p = false) ∧ (∀ b, (State.resetWith c).busReady.getD b false = false) ∧
    (State.resetWith c).dstate = .uninitialized ∧ (∀ d, ((State.resetWith c).deb d).ready = false) ∧
    (∀ p i, regBit ((State.resetWith c).port p).odr i = none ∧
      ∀ k, regBit (cfgReg ((State.resetWith c).port p) k) i = none) ∧
    (∀ x ∈ (State.resetWith c).ctx :: (State.resetWith c).parked,
      x.cp = 0 ∧ x.glen = 0 ∧ ∀ n, x.gbuf.get? n = none) ∧
    (∀ rx ∈ (State.resetWith c).shiftRx, ∀ i, regBit rx.sr i = none ∧ regBit rx.srout i = none) ∧
    (∀ a, (State.resetWith c).gram.get? a = none) ∧
    (∀ i, regBit (State.resetWith c).pp i = none ∧ regBit (State.resetWith c).cptr i = none) ∧
    (State.resetWith c).pinTrace = [] ∧ (State.resetWith c).busTrace = [] ∧ (State.resetWith c).dispTrace = [] ∧
    (State.resetWith c).evTrace = [] ∧
    (1 ≤ c.contexts → ((State.resetWith c).ctx :: (State.resetWith c).parked).length = c.contexts)

/-- The reset state of every well-formed configuration is consistent, and so is `State.reset` itself. That stored bits
without a value are 0 and a debounce state before `KINIT` is Idle is the model's (log 2, log 7). -/
def Obligations.ResetIsConsistent : Prop :=
  (∀ c : Config, c.wellFormed = true → Consistent (State.resetWith c)) ∧ Consistent State.reset

/-- Every step, of any context at any point of an operation, keeps a consistent state consistent: registers of the width
of R21, R26, R35, R38, byte spaces in canonical form, debounce states within R260 and R263. -/
def Obligations.EveryStepKeepsConsistency : Prop :=
  ∀ s t : State, Consistent s → step s = .next t → Consistent t

/-- Every step leaves the configuration and the command lists alone (R20, R79), only appends to the traces (R15), clears
no enable or lifecycle flag (R28, R310) and never goes back to `Uninitialized` (R201). -/
def Obligations.EveryStepOnlyGrows : Prop :=
  ∀ s t : State, step s = .next t →
    t.config = s.config ∧
    ((t.ctx :: t.parked).map (fun c => (c.id, c.prog))).Perm ((s.ctx :: s.parked).map (fun c => (c.id, c.prog))) ∧
    s.pinTrace <+: t.pinTrace ∧ s.busTrace <+: t.busTrace ∧ s.dispTrace <+: t.dispTrace ∧ s.evTrace <+: t.evTrace ∧
    (∀ p, s.enabled p = true → t.enabled p = true) ∧
    (∀ b, s.busReady.getD b false = true → t.busReady.getD b false = true) ∧
    (∀ d, (s.deb d).ready = true → (t.deb d).ready = true) ∧
    (s.dstate ≠ .uninitialized → t.dstate ≠ .uninitialized)

/-- R97, R282, R312: with every present port enabled, an operation goes on exactly where its selectors and operands are
inside the configuration and each device it uses has been initialised, once. -/
def Obligations.OperationsGoOnExactlyWhenWellFormed : Prop :=
  ∀ (i : Instr) (s : State), Consistent s → (∀ p, s.portExists p = true → s.enabled p = true) →
    (GoesOn i s ↔ i.wellFormed s.config = true ∧ LifecycleOk s i)

/-- R38, R202, R296: no operation reads a receiver. Whatever the shift registers, the display RAM and its pointers hold,
the operation is refused or goes on alike and leaves the rest of the state alike. -/
def Obligations.ReceiversAreNeverReadBack : Prop :=
  ∀ (i : Instr) (s : State) (rx : List ShiftRx) (gram : Memory) (pp : Reg 4) (cptr : Reg 8),
    (∀ r, exec i s = .refused r →
      exec i { s with shiftRx := rx, gram := gram, pp := pp, cptr := cptr } = .refused r) ∧
    ∀ t, exec i s = .next t → ∃ rx' gram' pp' cptr',
      exec i { s with shiftRx := rx, gram := gram, pp := pp, cptr := cptr } =
        .next { t with shiftRx := rx', gram := gram', pp := pp', cptr := cptr' }

/-! ### U1 PORT -/

/-- R121: the port check comes first. -/
def Obligations.PortIsCheckedFirst : Prop :=
  ∀ (i : Instr) (p : Byte) (s : State), portSelector i = some p → p ≠ nullPort →
    (s.portExists p.toNat = false → exec i s = .refused (.noSuchPort p.toNat)) ∧
    (s.portExists p.toNat = true → s.enabled p.toNat = false → i ≠ .pen p →
      exec i s = .refused (.portNotEnabled p.toNat))

/-- R122: on the null port every port operation is a no-op whatever its other operands, and a read gives 0. -/
def Obligations.NullPortDoesNothing : Prop :=
  (∀ (i : Instr) (s : State), portSelector i = some nullPort →
    exec i s = .next { s with ctx := if portReads i then advancedRes s.ctx 0 else advanced s.ctx }) ∧
  ∀ (x : Pin) (s : State), x.port = nullPort → execNrd x s = .next { s with ctx := advancedRes s.ctx 0 }

/-- R123 to R126: a masked set, clear or clear-and-set writes the bits of its masks and no others, in one write; masks
that overlap follow `CAS_OVERLAP`. -/
def Obligations.SetClearWritesOnlyItsMasks : Prop :=
  ∀ (i : Instr) (p : Byte) (clr set : Half) (s : State), setClearOf i = some (p, clr, set) → PortUsable s p →
    (clr &&& set = 0 ∨ s.config.casOverlap ≠ .refuse → ∃ t, exec i s = .next t ∧ BsrEffect s t p.toNat clr set) ∧
    (clr &&& set ≠ 0 → s.config.casOverlap = .refuse →
      exec i s = .refused (.casOverlap p.toNat (clr &&& set)))

/-- R127: a toggle reads the port and writes every bit back, flipped where the mask is set; a bit without a value is a
draw. Two toggles restore a port all of whose bits hold a value. -/
def Obligations.ToggleFlipsItsMask : Prop :=
  ∀ (p : Byte) (mask : Half) (s : State), PortUsable s p →
    ∃ t v, exec (.ptgl p mask) s = .next t ∧ ReadsAs (s.port p.toNat).odr v ∧
      t.pinTrace = s.pinTrace ++ [.odrR p.toNat v, .odrW p.toNat (v ^^^ mask)] ∧
      (∀ b x, regBit (s.port p.toNat).odr b = some x →
        regBit (t.port p.toNat).odr b = some (x ^^ mask.getLsbD b)) ∧
      t.ctx = advanced s.ctx ∧ OnlyOdrOf s t p.toNat ∧
      ((∀ b, b < 16 → (regBit (s.port p.toNat).odr b).isSome = true) →
        ∃ u, exec (.ptgl p mask) t = .next u ∧
          ∀ b, regBit (u.port p.toNat).odr b = regBit (s.port p.toNat).odr b)

/-- R128: a raw write gives every bit of the port its value. -/
def Obligations.WriteOverwritesThePort : Prop :=
  ∀ (p : Byte) (value : Half) (s : State), PortUsable s p →
    ∃ t, exec (.pwr p value) s = .next t ∧
      (∀ b, b < 16 → regBit (t.port p.toNat).odr b = some (value.getLsbD b)) ∧
      t.pinTrace = s.pinTrace ++ [.odrW p.toNat value] ∧ t.ctx = advanced s.ctx ∧ t.draws = s.draws ∧
      OnlyOdrOf s t p.toNat

/-- R129, R23: a read samples the port once: a push-pull output gives its `ODR` bit, any other pin the environment's
answer, and `RES` is the sample zero-extended. -/
def Obligations.ReadSamplesThePort : Prop :=
  ∀ (p : Byte) (s : State), PortUsable s p →
    ∃ t v, exec (.prd p) s = .next t ∧ IsSample s p.toNat v ∧
      (∀ a, s.pads.head? = some a → ShowsPads s p.toNat v a) ∧ t.pads = s.pads.tail ∧
      t.pinTrace = s.pinTrace ++ [.idrR p.toNat v] ∧ t.ctx.res = v.setWidth 64 ∧ OnlyRes s t

/-- R130: `RES` is the last commanded output; a bit never written is a draw. -/
def Obligations.ReadOutputGivesOdr : Prop :=
  ∀ (p : Byte) (s : State), PortUsable s p →
    ∃ t v, exec (.prdo p) s = .next t ∧ ReadsAs (s.port p.toNat).odr v ∧
      t.pinTrace = s.pinTrace ++ [.odrR p.toNat v] ∧ t.ctx.res = v.setWidth 64 ∧ t.pads = s.pads ∧ OnlyRes s t

/-- R131: bit expansion and its laws (the law of the complement is "[derived: from the definition]"). -/
def Obligations.ExpansionReplicatesEachBit : Prop :=
  ∀ N, N = 2 ∨ N = 4 →
    (∀ (m : Half) (b : Nat), (expand N m).getLsbD b = (decide (b < 16 * N) && m.getLsbD (b / N))) ∧
    expand N 0 = 0 ∧ (expand N 0xFFFF).toNat = 2 ^ (16 * N) - 1 ∧
    (∀ a b, expand N (a ||| b) = expand N a ||| expand N b) ∧
    (∀ a b, expand N (a &&& b) = expand N a &&& expand N b) ∧
    ∀ a, expand N (~~~a) = ~~~expand N a &&& expand N 0xFFFF

/-- R132, R139: the merge round trip. -/
def Obligations.MergeRoundTrips : Prop :=
  ∀ (N : Nat) (old : Word) (m : Half) (v : BitVec 4), N = 2 ∨ N = 4 → v.toNat < 2 ^ N →
    (∀ i, i < 16 → fieldOf N (merge N old m v) i = if m.getLsbD i then v.setWidth 64 else fieldOf N old i) ∧
    rep N m (BitVec.ofNat 4 (2 ^ N - 1)) = expand N m ∧ rep N m v &&& ~~~expand N m = 0

/-- R134: merge mode on one configuration register: the fields of the mask take the value, every other field keeps what
it held, a value or none; what is refused, in its order. -/
def Obligations.FieldMergePreservesOtherFields : Prop :=
  ∀ (p : Byte) (mask : Half) (k : BitVec 3) (v : BitVec 4) (s : State), PortUsable s p →
    (4 < k.toNat → exec (.pfldm p mask k v) s = .refused (.badField k.toNat)) ∧
    ∀ r : CfgReg, r.number = k.toNat →
      (2 ^ s.config.width r ≤ v.toNat → exec (.pfldm p mask k v) s = .refused (.fieldValueRange k.toNat v.toNat)) ∧
      (v.toNat < 2 ^ s.config.width r → r = .af → s.config.afMax p.toNat < v.toNat →
        exec (.pfldm p mask k v) s = .refused (.afRange p.toNat v.toNat)) ∧
      (v.toNat < 2 ^ s.config.width r → (r = .af → v.toNat ≤ s.config.afMax p.toNat) →
        ∃ t old, exec (.pfldm p mask k v) s = .next t ∧
          (∀ j x, j < 16 * s.config.width r → regBit (cfgReg (s.port p.toNat) r) j = some x → old.getLsbD j = x) ∧
          t.pinTrace = s.pinTrace ++ [.cfgR p.toNat r old, .cfgW p.toNat r (merge (s.config.width r) old mask v)] ∧
          (∀ i b, i < 16 → b < s.config.width r → regBit (cfgReg (t.port p.toNat) r) (s.config.width r * i + b) =
            if mask.getLsbD i then some (v.getLsbD b)
            else regBit (cfgReg (s.port p.toNat) r) (s.config.width r * i + b)) ∧
          (∀ j, j ≠ r → cfgReg (t.port p.toNat) j = cfgReg (s.port p.toNat) j) ∧
          t.ctx = advanced s.ctx ∧ OnlyCfgOf s t p.toNat)

/-- R133: replace-all writes five whole registers: the mask's pins get the record, the others are forced to input and
pull-down and hold some value in the other three registers. -/
def Obligations.ReplaceAllForcesTheRest : Prop :=
  ∀ (p : Byte) (mask : Half) (cfg : PinCfg) (s : State), PortUsable s p →
    (s.config.afMax p.toNat < cfg.af.toNat →
      exec (.pcfgr p mask cfg) s = .refused (.afRange p.toNat cfg.af.toNat)) ∧
    (cfg.af.toNat ≤ s.config.afMax p.toNat →
      ∃ t, exec (.pcfgr p mask cfg) s = .next t ∧
        (∀ (r : CfgReg) (i b : Nat), i < 16 → b < s.config.width r →
          if mask.getLsbD i then
            regBit (cfgReg (t.port p.toNat) r) (s.config.width r * i + b) = some ((cfg.fields.get r).getLsbD b)
          else match r with
            | .mode => regBit (t.port p.toNat).mode (s.config.width .mode * i + b) = some (s.config.modeInput.getLsbD b)
            | .pull => regBit (t.port p.toNat).pull (s.config.width .pull * i + b) = some (s.config.pullDown.getLsbD b)
            | _ => (regBit (cfgReg (t.port p.toNat) r) (s.config.width r * i + b)).isSome = true) ∧
        t.pinTrace = s.pinTrace ++
          allRegs.map (fun r => .cfgW p.toNat r (cfgReg (t.port p.toNat) r).val) ∧
        t.ctx = advanced s.ctx ∧ OnlyCfgOf s t p.toNat)

/-- R136: a configuration register read back. -/
def Obligations.ReadBackGivesTheRegister : Prop :=
  ∀ (p : Byte) (k : BitVec 3) (s : State), PortUsable s p →
    (4 < k.toNat → exec (.prdc p k) s = .refused (.badField k.toNat)) ∧
    ∀ r : CfgReg, r.number = k.toNat →
      ∃ t v, exec (.prdc p k) s = .next t ∧ ReadsAs (cfgReg (s.port p.toNat) r) v ∧
        (portOk s.config (s.port p.toNat) = true → ∀ b, 16 * s.config.width r ≤ b → v.getLsbD b = false) ∧
        t.pinTrace = s.pinTrace ++ [.cfgR p.toNat r v] ∧ t.ctx.res = v ∧ t.pads = s.pads ∧ OnlyRes s t

/-- R137: enabling a port, the one port operation an unenabled port accepts, changes its enable bit alone. -/
def Obligations.EnableChangesOnlyTheEnableBit : Prop :=
  ∀ (p : Byte) (s : State), p ≠ nullPort → s.portExists p.toNat = true → s.ports.length = s.config.ports.length →
    ∃ t, exec (.pen p) s = .next t ∧ t.port p.toNat = { s.port p.toNat with en := true } ∧
      (∀ q, q ≠ p.toNat → t.port q = s.port q) ∧ t.pinTrace = s.pinTrace ++ [.enW p.toNat] ∧
      t.ctx = advanced s.ctx ∧ t = { s with ports := t.ports, pinTrace := t.pinTrace, ctx := t.ctx }

/-- R138: clear-and-set inside a field mask, then a read, yields exactly the bits asked for; the same call again changes
nothing (R138's terms are "[derived: from rule R123 …]"). -/
def Obligations.ClearAndSetThenReadYieldsTheMask : Prop :=
  ∀ (p : Byte) (F m : Half) (s : State), m &&& ~~~F = 0 → PortUsable s p →
    ∃ t, exec (.pcas p (~~~m &&& F) m) s = .next t ∧
      (∀ b, F.getLsbD b = true → regBit (t.port p.toNat).odr b = some (m.getLsbD b)) ∧
      (∃ u, exec (.prdo p) t = .next u ∧ u.ctx.res.setWidth 16 &&& F = m) ∧
      ((∀ b, F.getLsbD b = true → outputPin s p.toNat b = true) →
        ∃ u, exec (.prd p) t = .next u ∧ u.ctx.res.setWidth 16 &&& F = m) ∧
      ∃ u, exec (.pcas p (~~~m &&& F) m) t = .next u ∧ u.ports = t.ports

/-- R140: the pin operations on a real pin touch that pin alone, by one set/clear write or, to toggle, by a read and a
write; on the null pin they are no-ops and a read gives 0. -/
def Obligations.PinOperationsTouchOnePin : Prop :=
  (∀ (x : Pin) (s : State), PortUsable s x.port →
    (∀ bit, ∃ t, exec (nwr x bit) s = .next t ∧ regBit (t.port x.port.toNat).odr x.pos.val = some bit ∧
      t.pinTrace = s.pinTrace ++
        [if bit then .bsrW x.port.toNat (pinMask x) 0 else .bsrW x.port.toNat 0 (pinMask x)] ∧
      OdrOnlyAt s t [x] ∧ OnlyOdrOf s t x.port.toNat) ∧
    (∃ t v, exec (ntgl x) s = .next t ∧
      t.pinTrace = s.pinTrace ++ [.odrR x.port.toNat v, .odrW x.port.toNat (v ^^^ pinMask x)] ∧
      (∀ b, regBit (s.port x.port.toNat).odr x.pos.val = some b →
        regBit (t.port x.port.toNat).odr x.pos.val = some !b) ∧
      (∀ i b, i ≠ x.pos.val → regBit (s.port x.port.toNat).odr i = some b →
        regBit (t.port x.port.toNat).odr i = some b) ∧ OnlyOdrOf s t x.port.toNat) ∧
    ∃ t v, execNrd x s = .next t ∧ IsSample s x.port.toNat v ∧
      t.pinTrace = s.pinTrace ++ [.idrR x.port.toNat v] ∧
      t.ctx = advancedRes s.ctx (if v.getLsbD x.pos.val then 1 else 0)) ∧
  ∀ (x : Pin) (s : State), x.port = nullPort →
    exec (nset x) s = .next { s with ctx := advanced s.ctx } ∧
    exec (nclr x) s = .next { s with ctx := advanced s.ctx } ∧
    exec (ntgl x) s = .next { s with ctx := advanced s.ctx } ∧
    execNrd x s = .next { s with ctx := advancedRes s.ctx 0 }

/-- R135: merge mode for a whole record: five `PFLDM` in order, ten micro-steps; the pins of the mask get the record,
the others keep every field. -/
def Obligations.WholeRecordMerge : Prop :=
  ∀ (p : Byte) (mask : Half) (cfg : PinCfg) (s : State), PortUsable s p → cfg.af.toNat ≤ s.config.afMax p.toNat →
    cfg.af.toNat < 2 ^ s.config.width .af →
    ∃ t, execAll (pcfgm p mask cfg) s = .next t ∧
      (∀ (r : CfgReg) (i b : Nat), i < 16 → b < s.config.width r →
        regBit (cfgReg (t.port p.toNat) r) (s.config.width r * i + b) = if mask.getLsbD i then some ((cfg.fields.get r).getLsbD b)
        else regBit (cfgReg (s.port p.toNat) r) (s.config.width r * i + b)) ∧
      (∃ old : Nat → CfgReg → Word, (∀ r, ReadsAs (cfgReg (s.port p.toNat) r) (old 0 r)) ∧
        t.pinTrace = s.pinTrace ++ mergeItems s.config old 0 [⟨p.toNat, mask, cfg.fields⟩]) ∧
      t.ctx = { s.ctx with cp := s.ctx.cp + 5, locals := Locals.empty } ∧ OnlyCfgOf s t p.toNat

/-- R35 (the spec's own receiver model, D20): over one set/clear write, a rising clock shifts the data level in, a
clock that keeps its level leaves `SR`, a release of chip-select latches, a chip-select not written keeps `SROUT`. The
same over a write of the whole register by `PWR` or `PTGL`, where a release is the change of chip-select to its
released level (log 16). -/
def Obligations.ShiftRegisterFollowsItsLines : Prop :=
  ∀ (i : Instr) (p : Byte) (s t : State) (b : Nat) (w : ShiftCfg) (rx : ShiftRx),
    p ≠ nullPort → exec i s = .next t → s.config.buses[b]? = some (.shift w) → s.shiftRx[b]? = some rx → w.bits ≤ 16 →
    (∀ clr set, setClearOf i = some (p, clr, set) →
      ∃ rx', t.shiftRx[b]? = some rx' ∧ ShiftsOnRise s t w rx rx' ∧
        (pinLevel s.ports w.clk = pinLevel t.ports w.clk → w.cs.isNull = false → w.cs.port = p →
          (if s.config.csActiveLow then set else clr).getLsbD w.cs.pos.val = true →
          Level t w.cs s.config.csActiveLow → rx'.srout = rx.sr) ∧
        (¬(w.cs.port = p ∧ (clr ||| set).getLsbD w.cs.pos.val = true) → rx'.srout = rx.srout)) ∧
    (wholeWriteOf i = some p →
      ∃ rx', t.shiftRx[b]? = some rx' ∧ ShiftsOnRise s t w rx rx' ∧
        (pinLevel s.ports w.clk = pinLevel t.ports w.clk → w.cs.isNull = false →
          Level s w.cs (!s.config.csActiveLow) → Level t w.cs s.config.csActiveLow → rx'.srout = rx.sr) ∧
        (pinLevel s.ports w.cs = pinLevel t.ports w.cs → rx'.srout = rx.srout))

/-! ### U2 PBUS and U3 SBUS -/

/-- R161, R160: bit i of the value drives list[i]; pins outside the list and bits above it play no part. -/
def Obligations.ListWriteDrivesItsPins : Prop :=
  ∀ (l : Byte) (value : Half) (s : State), ListRefusals (.lwr l value) s l.toNat ∧
    ∀ xs, s.config.lists[l.toNat]? = some xs → Pin.noRepeats xs = true → PinsUsable s xs →
      ∃ t, exec (.lwr l value) s = .next t ∧ ListDriven s t xs value ∧ t.ctx = advanced s.ctx ∧
        t = { s with ports := t.ports, shiftRx := t.shiftRx, pinTrace := t.pinTrace, ctx := t.ctx }

/-- R162: bit i of the result is list[i] sampled. -/
def Obligations.ListReadPacksItsPins : Prop :=
  ∀ (l : Byte) (s : State), ListRefusals (.lrd l) s l.toNat ∧
    ∀ xs, s.config.lists[l.toNat]? = some xs → xs.length ≤ 16 → PinsUsable s xs →
      ∃ t smp, exec (.lrd l) s = .next t ∧ ListSampled s t xs smp t.ctx.res ∧ OnlyRes s t

/-- R163: on a contiguous run a list write is one aligned set/clear write and a list read one aligned sample
("[derived: from rules R160 to R162 …]"). -/
def Obligations.ContiguousRunIsOneAlignedTransfer : Prop :=
  ∀ (l p : Byte) (pos n : Nat) (v M : Half) (s : State) (xs : List Pin), s.config.lists[l.toNat]? = some xs →
    p ≠ nullPort → s.enabled p.toNat = true → 1 ≤ n → pos + n ≤ 16 → xs.length = n →
    (∀ i, i < n → xs[i]? = some ⟨p, Fin.ofNat 16 (pos + i)⟩) → M = ((1#16 <<< n) - 1) <<< pos →
    (∃ t, exec (.lwr l v) s = .next t ∧ BsrEffect s t p.toNat (~~~(v <<< pos) &&& M) ((v <<< pos) &&& M)) ∧
    ∃ t x, exec (.lrd l) s = .next t ∧ IsSample s p.toNat x ∧ t.pinTrace = s.pinTrace ++ [.idrR p.toNat x] ∧
      t.ctx = advancedRes s.ctx (((x &&& M) >>> pos).setWidth 64)

/-- R165, R168: initialising a direct bus merges its record into the list's pins and into no other pin, by the ten
micro-steps of one `PCFGM` for each port in order of first occurrence, and leaves every `ODR`. -/
def Obligations.DirectBusInitConfiguresItsPins : Prop :=
  ∀ (b : Byte) (l : Nat) (cfg : PinCfg) (xs : List Pin) (s : State), Consistent s →
    s.config.buses[b.toNat]? = some (.direct l cfg) → s.config.lists[l]? = some xs → PinsUsable s xs →
    s.busReady.getD b.toNat false = false →
    ∃ t, exec (.binit b) s = .next t ∧ (∀ x ∈ xs, x.isNull = false → PinHasCfg t x cfg.fields) ∧ CfgOnlyAt s t xs ∧
      (∀ q, (t.port q).odr = (s.port q).odr) ∧
      (∃ old : Nat → CfgReg → Word,
        (∀ k q r, (portsOf xs)[k]? = some q → ReadsAs (cfgReg (s.port q) r) (old k r)) ∧
        t.pinTrace = s.pinTrace ++
          mergeItems s.config old 0 ((portsOf xs).map (fun q => ⟨q, listMask q xs, cfg.fields⟩))) ∧
      t.busReady = s.busReady.set b.toNat true ∧ t.busTrace = s.busTrace ++ [.busInit b.toNat] ∧
      t.ctx = advanced s.ctx ∧
      t = { s with ports := t.ports, busReady := t.busReady, pinTrace := t.pinTrace, busTrace := t.busTrace
                   ctx := t.ctx, draws := t.draws }

/-- R184, R313: initialising a serial bus writes the idle levels (chip-select released, clock high, data low) before it
configures a pin, then makes those three push-pull outputs and the input line an input (R313 is "[derived: from …]" the
bodies). -/
def Obligations.SerialBusInitIdlesItsLines : Prop :=
  ∀ (b : Byte) (w : ShiftCfg) (s : State), Consistent s → s.config.buses[b.toNat]? = some (.shift w) →
    Pin.noRepeats [w.clk, w.dat, w.cs, w.din] = true → PinsUsable s (busLines s.config b.toNat) →
    s.busReady.getD b.toNat false = false →
    ∃ t, exec (.binit b) s = .next t ∧ Level t w.clk true ∧ Level t w.dat false ∧
      (w.cs.isNull = false → Level t w.cs s.config.csActiveLow) ∧
      (∀ x ∈ [w.clk, w.dat, w.cs], x.isNull = false → PinHasCfg t x (driveCfg s.config)) ∧
      (w.din.isNull = false → PinHasCfg t w.din (senseCfg s.config)) ∧
      OdrOnlyAt s t [w.clk, w.dat, w.cs] ∧ CfgOnlyAt s t [w.clk, w.dat, w.cs, w.din] ∧
      (∃ old : Nat → CfgReg → Word,
        t.pinTrace = s.pinTrace ++
          (lineItems w.cs s.config.csActiveLow ++ lineItems w.clk true ++ lineItems w.dat false ++
            mergeItems s.config old 0
              (pinJobs [w.clk, w.dat, w.cs] (driveCfg s.config) ++ pinJobs [w.din] (senseCfg s.config)))) ∧
      t.busReady = s.busReady.set b.toNat true ∧ t.busTrace = s.busTrace ++ [.busInit b.toNat] ∧
      t.ctx = advanced s.ctx ∧
      t = { s with ports := t.ports, busReady := t.busReady, shiftRx := t.shiftRx, pinTrace := t.pinTrace
                   busTrace := t.busTrace, ctx := t.ctx, draws := t.draws }

/-- R166 on a direct bus: the byte appears on the bus's list and one item in `BUS_TRACE`. -/
def Obligations.DirectBusWritePresentsTheByte : Prop :=
  ∀ (b byte : Byte) (l : Nat) (cfg : PinCfg) (xs : List Pin) (s : State),
    s.config.buses[b.toNat]? = some (.direct l cfg) → s.config.lists[l]? = some xs → Pin.noRepeats xs = true →
    BusUsable s b.toNat →
    ∃ t, exec (.bwr b byte) s = .next t ∧ ListDriven s t xs (byte.setWidth 16) ∧
      t.busTrace = s.busTrace ++ [.busWr b.toNat byte] ∧ t.ctx = advanced s.ctx ∧
      t = { s with ports := t.ports, shiftRx := t.shiftRx, pinTrace := t.pinTrace, busTrace := t.busTrace
                   ctx := t.ctx }

/-- R187, R185: a serial write asserts chip-select, makes one clock pulse per bit with the bits most significant first,
and releases chip-select, whatever pins the lines are (R187's worked trace is "[derived: from rule R185.]"). -/
def Obligations.SerialWritePulsesMsbFirst : Prop :=
  ∀ (b byte : Byte) (w : ShiftCfg) (s : State), s.config.buses[b.toNat]? = some (.shift w) →
    w.clk.isNull = false → w.dat.isNull = false → BusUsable s b.toNat →
    ∃ t, exec (.bwr b byte) s = .next t ∧
      t.pinTrace = s.pinTrace ++ serialItems s.config.csActiveLow w (byte.setWidth 16) ∧
      t.busTrace = s.busTrace ++ [.busWr b.toNat byte] ∧ DrivesOnly s t [w.clk, w.dat, w.cs] ∧
      t.ctx = advanced s.ctx ∧
      t = { s with ports := t.ports, shiftRx := t.shiftRx, pinTrace := t.pinTrace, busTrace := t.busTrace
                   ctx := t.ctx }

/-- R185 with R35: after a serial write the external register holds and presents the byte, whatever it held, and the
lines are clock high, data at bit 0, chip-select released ("[derived: from 10_state.md rule R35]", the spec's own
receiver model, D20). Without a chip-select nothing is latched (log 16). -/
def Obligations.SerialReceiverGetsTheByte : Prop :=
  ∀ (b byte : Byte) (w : ShiftCfg) (s : State), Consistent s → s.config.buses[b.toNat]? = some (.shift w) →
    LinesApart w → BusUsable s b.toNat →
    ∃ t rx rx', exec (.bwr b byte) s = .next t ∧ s.shiftRx[b.toNat]? = some rx ∧ t.shiftRx[b.toNat]? = some rx' ∧
      rx'.sr = rxHolds w (byte.setWidth 16) ∧
      rx'.srout = (if w.cs.isNull then rx.srout else rxHolds w (byte.setWidth 16)) ∧
      Level t w.clk true ∧ Level t w.dat (byte.getLsbD 0) ∧
      (w.cs.isNull = false → Level t w.cs s.config.csActiveLow)

/-- R167 on a direct bus: `RES` is the byte its eight pins sample, low to high. -/
def Obligations.DirectBusReadSamplesItsPins : Prop :=
  ∀ (b : Byte) (l : Nat) (cfg : PinCfg) (xs : List Pin) (s : State), Consistent s →
    s.config.buses[b.toNat]? = some (.direct l cfg) → s.config.lists[l]? = some xs → BusReadable s b.toNat →
    ∃ t smp byte, exec (.brd b) s = .next t ∧ ListSampled s t xs smp t.ctx.res ∧ t.ctx.res = BitVec.setWidth 64 byte ∧
      t.busTrace = s.busTrace ++ [.busRd b.toNat byte] ∧ t.ctx = advancedRes s.ctx t.ctx.res ∧
      t = { s with pinTrace := t.pinTrace, busTrace := t.busTrace, ctx := t.ctx, pads := t.pads, draws := t.draws }

/-- R186: a serial read drives the seed with the whole write, then pulses and samples once per bit; the samples are
packed in the order the parameter says; afterwards the receiver holds copies of the seed's bit 0 and presents the seed
("[derived: from 10_state.md rule R35]", log 16). -/
def Obligations.SerialReadDrivesSeedAndSamples : Prop :=
  ∀ (b : Byte) (w : ShiftCfg) (s : State), Consistent s → s.config.buses[b.toNat]? = some (.shift w) →
    LinesApart w → BusReadable s b.toNat →
    ∃ (t : State) (smp : Nat → Half) (byte : Byte) (rx rx' : ShiftRx), exec (.brd b) s = .next t ∧
      t.pinTrace = s.pinTrace ++ serialItems s.config.csActiveLow w w.seed ++
        (List.range w.bits).flatMap (fun j => sampleItems w (smp j)) ∧
      (∀ j, j < w.bits → byte.getLsbD (if w.readMsbFirst then w.bits - 1 - j else j) =
        (!w.din.isNull && (smp j).getLsbD w.din.pos.val)) ∧
      (∀ j a, w.din.isNull = false → outputPin s w.din.port.toNat w.din.pos.val = false → j < w.bits →
        s.pads[j]? = some a → (smp j).getLsbD w.din.pos.val = a.getLsbD w.din.pos.val) ∧
      t.pads = s.pads.drop (if w.din.isNull then 0 else w.bits) ∧
      t.ctx = advancedRes s.ctx (byte.setWidth 64) ∧ t.busTrace = s.busTrace ++ [.busRd b.toNat byte] ∧
      s.shiftRx[b.toNat]? = some rx ∧ t.shiftRx[b.toNat]? = some rx' ∧
      rx'.sr = rxHolds w (if w.seed.getLsbD 0 then 0xFFFF else 0) ∧
      rx'.srout = (if w.cs.isNull then rx.srout else rxHolds w w.seed) ∧
      DrivesOnly s t [w.clk, w.dat, w.cs] ∧
      t = { s with ports := t.ports, shiftRx := t.shiftRx, pinTrace := t.pinTrace, busTrace := t.busTrace
                   ctx := t.ctx, pads := t.pads, draws := t.draws }

/-- R97, R282, R314: what names no bus, font or debounce instance is refused, as is a use before initialisation and a
second initialisation. -/
def Obligations.SelectorsThenLifecycleAreChecked : Prop :=
  ∀ (x byte : Byte) (cp : BitVec 32) (s : State),
    (s.config.buses.length ≤ x.toNat → exec (.binit x) s = .refused (.noSuchBus x.toNat) ∧
      exec (.bwr x byte) s = .refused (.noSuchBus x.toNat) ∧ exec (.brd x) s = .refused (.noSuchBus x.toNat)) ∧
    (x.toNat < s.config.buses.length → s.busReady.getD x.toNat false = true →
      exec (.binit x) s = .refused (.busAlreadyInit x.toNat)) ∧
    (x.toNat < s.config.buses.length → s.busReady.getD x.toNat false = false →
      exec (.bwr x byte) s = .refused (.busNotReady x.toNat) ∧ exec (.brd x) s = .refused (.busNotReady x.toNat)) ∧
    (s.config.fonts.length ≤ x.toNat → exec (.gbmp x cp) s = .refused (.noSuchFont x.toNat)) ∧
    (s.config.debs.length ≤ x.toNat → exec (.kinit x) s = .refused (.noSuchDeb x.toNat) ∧
      exec (.kpoll x) s = .refused (.noSuchDeb x.toNat)) ∧
    (x.toNat < s.config.debs.length → (s.deb x.toNat).ready = true →
      exec (.kinit x) s = .refused (.debAlreadyInit x.toNat)) ∧
    (x.toNat < s.config.debs.length → (s.deb x.toNat).ready = false →
      exec (.kpoll x) s = .refused (.debNotReady x.toNat)) ∧
    (s.dstate ≠ .uninitialized → exec .dinit s = .refused .dispAlreadyInit) ∧
    (s.dstate = .uninitialized → s.busReady.getD s.config.disp.bus false = false →
      exec .dinit s = .refused (.busNotReady s.config.disp.bus))

/-! ### U4 DISP -/

/-- R210, R207, R206: initialising the display writes the idle levels, configures the control pins, pulses the reset
line, then issues the eleven command bytes in order and nothing else, each with its pin-level body, and leaves it
`Ready`, its control pins push-pull outputs at their idle levels. Its RAM is as it was (R210); that its pointers are
too, whatever the command bytes, is the model's: its receiver acts on the command issued by name (log 17). The level of
`D_CS` follows CS_ACTIVE_LOW, and a null `D_RES` keeps the Holds of its pulse (log 24). -/
def Obligations.DisplayInitIssuesTheSequence : Prop :=
  ∀ s : State, Consistent s → s.dstate = .uninitialized → DisplayUsable s → PinsUsable s (controlPins s.config) →
    ∃ t, exec .dinit s = .next t ∧ t.dstate = .ready ∧
      (∃ old : Nat → CfgReg → Word, Issues s t
        (lineItems s.config.disp.res true ++ lineItems s.config.disp.cs s.config.csActiveLow ++
          lineItems s.config.disp.stb true ++ lineItems s.config.disp.dc false ++
          mergeItems s.config old 0 (pinJobs (controlPins s.config) (driveCfg s.config)))
        (.reset ::
        [.cmd s.config.cmd.oscOn,
         .cmd (s.config.cmd.bias ||| if s.config.profile.biasAdj then 1 else 0),
         .cmd (if s.config.profile.rot then s.config.cmd.colDir1 else s.config.cmd.colDir0),
         .cmd (if s.config.profile.rot then s.config.cmd.rowDir1 else s.config.cmd.rowDir0),
         .cmd (s.config.cmd.regRatio ||| s.config.regRatio.setWidth 8),
         .cmd s.config.cmd.evol,
         .cmd s.config.profile.contrast,
         .cmd s.config.cmd.powerAll,
         .cmd (if s.config.invert then s.config.cmd.video1 else s.config.cmd.video0),
         .cmd (s.config.cmd.startLine ||| s.config.startLine.setWidth 8),
         .cmd s.config.cmd.displayOn])) ∧
      (∀ x ∈ controlPins s.config, x.isNull = false → PinHasCfg t x (driveCfg s.config)) ∧
      CfgOnlyAt s t (controlPins s.config) ∧
      OdrOnlyAt s t (controlPins s.config ++ busPins s.config s.config.disp.bus) ∧
      (Pin.noRepeats (controlPins s.config ++ busPins s.config s.config.disp.bus) = true →
        (s.config.disp.res.isNull = false → Level t s.config.disp.res true) ∧
        (s.config.disp.cs.isNull = false → Level t s.config.disp.cs s.config.csActiveLow) ∧
        (s.config.disp.stb.isNull = false → Level t s.config.disp.stb true) ∧
        (s.config.disp.dc.isNull = false → Level t s.config.disp.dc false)) ∧
      t.ctx = advanced s.ctx ∧
      t = { s with ports := t.ports, shiftRx := t.shiftRx, dstate := t.dstate, pinTrace := t.pinTrace
                   busTrace := t.busTrace, dispTrace := t.dispTrace, ctx := t.ctx, draws := t.draws }

/-- R215: a page write clips, clamps, addresses once and streams one byte per column from the pixel buffer upward, each
byte with the pin-level body of R205 (the spec's own, D21), in which the level of `D_CS` follows CS_ACTIVE_LOW (log 24);
what is refused, in its order. -/
def Obligations.PutPageClipsAndStreams : Prop :=
  ∀ (x1 x2 : Half) (page : Byte) (buf : Half) (s : State) (x2c pg n : Nat),
    x2c = min x2.toNat s.config.profile.width → pg = min page.toNat (s.config.profile.pages - 1) →
    n = x2c - x1.toNat →
    (s.dstate ≠ .ready → exec (.dputp x1 x2 page buf) s = .refused .dispNotReady) ∧
    (s.dstate = .ready → x2c < x1.toNat → exec (.dputp x1 x2 page buf) s = .refused (.xRange x1.toNat x2c)) ∧
    (s.dstate = .ready → x1.toNat ≤ x2c → s.config.bufSize < buf.toNat + n →
      exec (.dputp x1 x2 page buf) s = .refused (.bufRange buf.toNat n)) ∧
    (Consistent s → DisplayUsable s → s.dstate = .ready → x1.toNat ≤ x2c → buf.toNat + n ≤ s.config.bufSize →
      ∃ (t : State) (ds : List Byte), exec (.dputp x1 x2 page buf) s = .next t ∧ ds.length = n ∧
        (∀ j byte, j < n → s.buf.get? (buf.toNat + j) = some byte → ds[j]? = some byte) ∧
        Issues s t [] (addressItems s.config pg (x1.toNat + s.config.profile.colOffset) ++ ds.map .data) ∧
        DisplayFrame s t)

/-- R220: what a page write leaves in the display RAM and its pointers, in the spec's own receiver model ("[derived:
from rules R213, R215 and 10_state.md rule R38.]"; which byte value is which command is log 17). -/
def Obligations.PutPageFillsTheRam : Prop :=
  ∀ (x1 x2 : Half) (page : Byte) (buf : Half) (s : State) (pg n c0 : Nat), Consistent s → DisplayUsable s →
    s.dstate = .ready → x1.toNat ≤ min x2.toNat s.config.profile.width →
    pg = min page.toNat (s.config.profile.pages - 1) → n = min x2.toNat s.config.profile.width - x1.toNat →
    c0 = x1.toNat + s.config.profile.colOffset → buf.toNat + n ≤ s.config.bufSize →
    ∃ t, exec (.dputp x1 x2 page buf) s = .next t ∧
      (∀ j byte, j < n → s.buf.get? (buf.toNat + j) = some byte → t.gram.get? (256 * pg + (c0 + j)) = some byte) ∧
      (∀ a, (∀ j, j < n → a ≠ 256 * pg + (c0 + j)) → t.gram.get? a = s.gram.get? a) ∧
      t.pp = regOf (BitVec.allOnes 4) (BitVec.ofNat 4 pg) ∧
      t.cptr = regOf (BitVec.allOnes 8) (BitVec.ofNat 8 (c0 + n))

/-- R216: a byte write is the one-byte case, its byte from the operand, each byte issued with the pin-level body of
R205; at x = WIDTH it addresses and writes nothing. The cell of the display RAM is the receiver model's (R38; log
17); the level of `D_CS` follows CS_ACTIVE_LOW (log 24). -/
def Obligations.PutByteWritesOneColumn : Prop :=
  ∀ (x : Half) (page byte : Byte) (s : State) (pg : Nat), pg = min page.toNat (s.config.profile.pages - 1) →
    (s.dstate ≠ .ready → exec (.dputb x page byte) s = .refused .dispNotReady) ∧
    (s.dstate = .ready → s.config.profile.width < x.toNat →
      exec (.dputb x page byte) s = .refused (.xRange x.toNat s.config.profile.width)) ∧
    (Consistent s → DisplayUsable s → s.dstate = .ready → x.toNat ≤ s.config.profile.width →
      ∃ t, exec (.dputb x page byte) s = .next t ∧ DisplayFrame s t ∧
        Issues s t [] (addressItems s.config pg (x.toNat + s.config.profile.colOffset) ++
          if x.toNat < s.config.profile.width then [.data byte] else []) ∧
        ∀ a, t.gram.get? a =
          if x.toNat < s.config.profile.width ∧ a = 256 * pg + (x.toNat + s.config.profile.colOffset)
          then some byte else s.gram.get? a)

/-- R217: clearing the display writes 0 to every physical column of every page, each byte issued with the pin-level
body of R205. The cells of the display RAM are the receiver model's (R38; log 17); the level of `D_CS` follows
CS_ACTIVE_LOW (log 24). -/
def Obligations.ClearZeroesTheWholeRam : Prop :=
  ∀ s : State, (s.dstate ≠ .ready → exec .dclr s = .refused .dispNotReady) ∧
    (Consistent s → DisplayUsable s → s.dstate = .ready →
      ∃ t, exec .dclr s = .next t ∧ DisplayFrame s t ∧
        Issues s t [] ((List.range s.config.profile.pages).flatMap (fun pg =>
          addressItems s.config pg 0 ++ List.replicate s.config.profile.ramWidth (.data 0))) ∧
        ∀ a, t.gram.get? a =
          if a / 256 < s.config.profile.pages ∧ a % 256 < s.config.profile.ramWidth then some 0 else s.gram.get? a)

/-- R218: filling the display writes the byte to every visible column of every page and to no other, each byte issued
with the pin-level body of R205. The cells of the display RAM are the receiver model's (R38; log 17); the level of `D_CS`
follows CS_ACTIVE_LOW (log 24). -/
def Obligations.FillWritesEveryVisibleColumn : Prop :=
  ∀ (byte : Byte) (s : State), (s.dstate ≠ .ready → exec (.dfill byte) s = .refused .dispNotReady) ∧
    (Consistent s → DisplayUsable s → s.dstate = .ready →
      ∃ t, exec (.dfill byte) s = .next t ∧ DisplayFrame s t ∧
        Issues s t [] ((List.range s.config.profile.pages).flatMap (fun pg =>
          addressItems s.config pg s.config.profile.colOffset ++
            List.replicate s.config.profile.width (.data byte))) ∧
        ∀ a, t.gram.get? a =
          if a / 256 < s.config.profile.pages ∧ s.config.profile.colOffset ≤ a % 256 ∧
              a % 256 < s.config.profile.colOffset + s.config.profile.width
          then some byte else s.gram.get? a)

/-- R169: the same display operation over two buses of whatever kinds issues the same display items and the same bytes
at the bus boundary ("[derived: from rule R164 …]"). -/
def Obligations.TransportIsTransparent : Prop :=
  ∀ (i : Instr) (s s' t t' : State) (buses : List BusCfg), isDisplayOp i = true →
    s'.config = { s.config with buses := buses } → s'.buf = s.buf → s'.draws = s.draws →
    exec i s = .next t → exec i s' = .next t' →
    ∃ items writes, t.dispTrace = s.dispTrace ++ items ∧ t'.dispTrace = s'.dispTrace ++ items ∧
      t.busTrace = s.busTrace ++ writes ∧ t'.busTrace = s'.busTrace ++ writes ∧
      writes = (items.filterMap itemByte).map (.busWr s.config.disp.bus)

/-- R226, R227, R220: rounding snaps the rows to whole pages, and the flush of the rounded rectangle puts every byte
strip of the pixel buffer at its page and column: pixel (x, y) of the panel is bit y mod 8 of the byte of its strip. The
cells of the display RAM are the receiver model's (R38; log 17). -/
def Obligations.FlushDrawsTheRectangle : Prop :=
  ∀ (x1 y1 x2 y2 r1 r2 buf : Nat) (s : State), roundRows y1 y2 = (r1, r2) → Consistent s → DisplayUsable s →
    s.dstate = .ready → x1 ≤ x2 → y1 ≤ y2 → x2 < s.config.profile.width → y2 / 8 < s.config.profile.pages →
    buf + (r2 / 8 + 1 - r1 / 8) * (x2 + 1 - x1) ≤ s.config.bufSize →
    (r1 % 8 = 0 ∧ r1 ≤ y1 ∧ y1 < r1 + 8 ∧ r2 % 8 = 7 ∧ y2 ≤ r2 ∧ r2 < y2 + 8) ∧
    ∃ t, execAll (flush x1 r1 x2 r2 buf) s = .next t ∧ t.dstate = .ready ∧
      (∀ x y byte, x1 ≤ x → x ≤ x2 → r1 ≤ y → y ≤ r2 →
        s.buf.get? (flushByte x1 r1 (x2 + 1 - x1) buf x y) = some byte →
        t.gram.get? (256 * (y / 8) + (x + s.config.profile.colOffset)) = some byte) ∧
      ∀ a, (∀ x y, x1 ≤ x → x ≤ x2 → r1 ≤ y → y ≤ r2 → a ≠ 256 * (y / 8) + (x + s.config.profile.colOffset)) →
        t.gram.get? a = s.gram.get? a

/-! ### U5 GLYPH -/

/-- R242, R243, R244: a code point of the font is transcoded into the context's own buffer, every bit of it, and the
result gives its size; one outside the font is a result of 0 with buffer and length unchanged. Nothing else changes. -/
def Obligations.GlyphLookupTranscodesOrMisses : Prop :=
  ∀ (f : Byte) (cp : BitVec 32) (font : Font) (s : State), s.config.fonts[f.toNat]? = some font →
    (cp.toNat < font.first ∨ font.first + font.count ≤ cp.toNat →
      exec (.gbmp f cp) s = .next { s with ctx := advancedRes s.ctx 0 }) ∧
    (font.first ≤ cp.toNat → cp.toNat < font.first + font.count →
      ∃ t, exec (.gbmp f cp) s = .next t ∧ t = { s with ctx := t.ctx } ∧
        t.ctx = { advanced s.ctx with res := t.ctx.res, gbuf := t.ctx.gbuf, glen := font.width * font.heightInBytes } ∧
        (∀ h i k, h < font.heightInBytes → i < font.width → k < 8 →
          (t.ctx.gbuf.get? (h * font.width + i)).map (fun d => d.getLsbD k) =
            some ((font.blob.getD ((cp.toNat - font.first) * (font.width * font.heightInBytes) + h * font.width +
              (k * font.width + i) / 8) 0).getLsbD
                (if s.config.glyphSrcMsbFirst then 7 - (k * font.width + i) % 8 else (k * font.width + i) % 8))) ∧
        (∀ n, font.width * font.heightInBytes ≤ n → t.ctx.gbuf.get? n = s.ctx.gbuf.get? n) ∧
        t.ctx.res.getLsbD 63 = true ∧ t.ctx.res.extractLsb' 32 31 = 0 ∧
        t.ctx.res.extractLsb' 16 16 = BitVec.ofNat 16 (font.width * font.heightInBytes) ∧
        t.ctx.res.extractLsb' 8 8 = BitVec.ofNat 8 font.height ∧ t.ctx.res.extractLsb' 0 8 = BitVec.ofNat 8 font.width)

/-- R247, R249, R250: a present glyph of width 1 passes through, bit-reversed under the other numbering; one of width 8
is transposed (R249 is "[derived: from rule R243 …]"). -/
def Obligations.NarrowGlyphsPassAndSquareOnesTranspose : Prop :=
  ∀ (f : Byte) (cp : BitVec 32) (font : Font) (s : State), s.config.fonts[f.toNat]? = some font →
    font.first ≤ cp.toNat → cp.toNat < font.first + font.count →
    ∃ t, exec (.gbmp f cp) s = .next t ∧
      (font.width = 1 → ∀ n, n < font.heightInBytes → ∃ d, t.ctx.gbuf.get? n = some d ∧
        (s.config.glyphSrcMsbFirst = false → d = font.blob.getD ((cp.toNat - font.first) * font.heightInBytes + n) 0) ∧
        (s.config.glyphSrcMsbFirst = true → ∀ k, k < 8 → d.getLsbD k =
          (font.blob.getD ((cp.toNat - font.first) * font.heightInBytes + n) 0).getLsbD (7 - k))) ∧
      (font.width = 8 → s.config.glyphSrcMsbFirst = false → ∀ h i k, h < font.heightInBytes → i < 8 → k < 8 →
        (t.ctx.gbuf.get? (h * 8 + i)).map (fun d => d.getLsbD k) =
          some ((font.blob.getD ((cp.toNat - font.first) * (8 * font.heightInBytes) + h * 8 + k) 0).getLsbD i))

/-! ### U6 DEB -/

/-- R261: creating a debounce state leaves it Idle and changes nothing else. -/
def Obligations.DebounceInitIsIdle : Prop :=
  ∀ (d : Byte) (s : State), d.toNat < s.config.debs.length → s.debs.length = s.config.debs.length →
    (s.deb d.toNat).ready = false →
    exec (.kinit d) s = .next { s with debs := s.debs.set d.toNat ⟨true, 0, 0, false⟩, ctx := advanced s.ctx }

/-- R262 to R265, R268, R290: one poll reads a mask from the bus, counts or resets, and emits at most one event. -/
def Obligations.PollCountsAndEmits : Prop :=
  ∀ (d : Byte) (s : State) (bus : Nat), Consistent s → d.toNat < s.config.debs.length →
    (s.deb d.toNat).ready = true → bus = debBus s.config d.toNat → BusReadable s bus →
    ∃ (t : State) (m : Byte) (w : Bool), exec (.kpoll d) s = .next t ∧ t.ctx = advancedRes s.ctx (m.setWidth 64) ∧
      t.busTrace = s.busTrace ++ [.busRd bus m] ∧ (∀ a, s.waits.head? = some a → w = a) ∧
      (m ≠ 0 →
        t.deb d.toNat = ⟨true, m,
          if (s.deb d.toNat).cnt < s.config.cntMax then (s.deb d.toNat).cnt + 1 else (s.deb d.toNat).cnt, true⟩ ∧
        t.evTrace = s.evTrace ++
          if (s.deb d.toNat).cnt + 1 = s.thresh d.toNat then [(.longTap m, w)] else []) ∧
      (m = 0 →
        t.deb d.toNat = ⟨true, 0, 0, false⟩ ∧
        t.evTrace = s.evTrace ++
          if (s.deb d.toNat).prev then
            [(.release (s.deb d.toNat).raw (decide (s.thresh d.toNat ≤ (s.deb d.toNat).cnt)), w)] else []) ∧
      (∀ e, e ≠ d.toNat → t.deb e = s.deb e) ∧ DrivesOnly s t (busPins s.config bus) ∧
      (∀ b : Byte, b.toNat = bus → ∃ u, exec (.brd b) s = .next u ∧ u.ctx.res = m.setWidth 64 ∧ u.ports = t.ports ∧
        u.pinTrace = t.pinTrace) ∧
      t = { s with ports := t.ports, shiftRx := t.shiftRx, debs := t.debs, pinTrace := t.pinTrace
                   busTrace := t.busTrace, evTrace := t.evTrace, ctx := t.ctx, pads := t.pads, waits := t.waits
                   draws := t.draws }

/-- R269, R264, R265: from Idle, nonzero reads emit exactly one long tap, at the threshold, and none before; the first
zero read after them emits exactly one release, long exactly if the threshold had been reached. -/
def Obligations.HoldEmitsOneLongTapAndOneRelease : Prop :=
  ∀ (d : Byte) (s t : State) (ms : List Byte), 1 ≤ s.thresh d.toNat → s.thresh d.toNat ≤ s.config.cntMax →
    (s.deb d.toNat).prev = false → (s.deb d.toNat).cnt = 0 → (∀ m ∈ ms, m ≠ 0) → PollRun d s ms t →
    t.evTrace.map Prod.fst = s.evTrace.map Prod.fst ++
      (if s.thresh d.toNat ≤ ms.length then [.longTap (ms.getD (s.thresh d.toNat - 1) 0)] else []) ∧
    ∀ u, ms ≠ [] → PollRun d t [0] u →
      u.evTrace.map Prod.fst = t.evTrace.map Prod.fst ++
        [.release (ms.getLastD 0) (decide (s.thresh d.toNat ≤ ms.length))] ∧
      (u.deb d.toNat).prev = false ∧ (u.deb d.toNat).cnt = 0 ∧ (u.deb d.toNat).raw = 0

/-- R103: the event word. -/
def Obligations.EventWordLayout : Prop :=
  ∀ (m : Byte) (long : Bool),
    (eventWord (.longTap m)).extractLsb' 0 8 = m ∧ (eventWord (.longTap m)).extractLsb' 8 8 = 0 ∧
    (eventWord (.release m long)).extractLsb' 0 8 = m ∧ (eventWord (.release m long)).getLsbD 8 = true ∧
    (eventWord (.release m long)).getLsbD 9 = long ∧ (eventWord (.release m long)).extractLsb' 10 6 = 0
end

