-- ==== Sys2Proof/Laws/Memory.lean ====
section
/-! SUPPORT. Laws of a byte space: a read after a write, and that every operation keeps the canonical form. -/

namespace Sys2Proof.Machine

@[simp] theorem Memory.get?_nil (a : Nat) : Memory.get? [] a = none := rfl

@[simp] theorem Memory.wf_nil : Memory.wf [] = true := rfl

/-- A read after a write gives the byte written at its address and what was there elsewhere. -/
theorem Memory.get?_put (m : Memory) (a x : Nat) (b : Byte) :
    (m.put a b).get? x = if x = a then some b else m.get? x := by
  induction m with
  | nil => simp [Memory.put, Memory.get?, eq_comm]
  | cons c m ih =>
    simp only [Memory.put]
    split
    · simp [Memory.get?, eq_comm]
    · split
      · next h =>
        subst h
        simp only [Memory.get?]
        split <;> simp_all [eq_comm]
      · simp only [Memory.get?, ih]
        split
        · next h => subst h; simp_all [eq_comm]
        · rfl

@[simp] theorem Memory.get?_put_same (m : Memory) (a : Nat) (b : Byte) : (m.put a b).get? a = some b := by
  simp [Memory.get?_put]

theorem Memory.get?_put_other {m : Memory} {a x : Nat} {b : Byte} (h : x ≠ a) : (m.put a b).get? x = m.get? x := by
  simp [Memory.get?_put, h]

/-- A lower bound of all addresses stays one when a higher address is written. -/
theorem Memory.all_put {m : Memory} {a n : Nat} {b : Byte} (hm : m.all (fun d => decide (n < d.1)) = true) (ha : n < a) :
    (m.put a b).all (fun d => decide (n < d.1)) = true := by
  induction m with
  | nil => simp [Memory.put, ha]
  | cons c m ih =>
    rw [List.all_cons, Bool.and_eq_true] at hm
    simp only [Memory.put]
    split
    · simpa [ha, hm.1] using hm.2
    · split
      · simpa [ha] using hm.2
      · simp [hm.1, ih hm.2]

/-- A write keeps the canonical form. -/
theorem Memory.put_wf {m : Memory} (a : Nat) (b : Byte) (h : m.wf = true) : (m.put a b).wf = true := by
  induction m with
  | nil => rfl
  | cons c m ih =>
    simp only [Memory.wf, Bool.and_eq_true] at h
    simp only [Memory.put]
    split
    · next hlt =>
      simp only [Memory.wf, Bool.and_eq_true, List.all_cons, decide_eq_true_eq]
      refine ⟨⟨hlt, ?_⟩, h⟩
      rw [List.all_eq_true] at h ⊢
      intro d hd
      have := h.1 d hd
      simp at this ⊢
      omega
    · split
      · next he => subst he; simpa [Memory.wf] using h
      · next h1 h2 =>
        simp only [Memory.wf, Bool.and_eq_true]
        exact ⟨Memory.all_put h.1 (by omega), ih h.2⟩

/-- Every byte space of a state right after reset is in canonical form. -/
theorem resetWith_memory_wf (c : Config) : (State.resetWith c).buf.wf = true ∧ (State.resetWith c).gram.wf = true ∧
    ∀ x ∈ (State.resetWith c).ctx :: (State.resetWith c).parked, x.gbuf.wf = true := by
  refine ⟨rfl, rfl, fun x hx => ?_⟩
  rcases List.mem_cons.mp hx with rfl | hx
  · rfl
  · obtain ⟨_, _, rfl⟩ := List.mem_map.mp hx
    rfl

end Sys2Proof.Machine
end

