-- ==== Sys2Proof/Laws/Perform.lean ====
section
/-! SUPPORT. What performing an operation can do, said once: it is refused for its first failing check, or it goes on
with all its actions done. -/

namespace Sys2Proof.Machine

@[simp] theorem runActs_nil (s : State) : runActs [] s = s := rfl

@[simp] theorem runActs_cons (a : Act) (as : List Act) (s : State) : runActs (a :: as) s = runActs as (runAct a s) := rfl

theorem runActs_append (as bs : List Act) (s : State) : runActs (as ++ bs) s = runActs bs (runActs as s) := by
  induction as generalizing s with
  | nil => rfl
  | cons a as ih => exact ih _

/-- A property every action of the list keeps holds after the list. -/
theorem runActs_induct {P : State → Prop} {as : List Act} {s : State} (h0 : P s)
    (h : ∀ a ∈ as, ∀ t, P t → P (runAct a t)) : P (runActs as s) := by
  induction as generalizing s with
  | nil => exact h0
  | cons a as ih => exact ih (h a (by simp) s h0) (fun b hb => h b (by simp [hb]))

theorem firstRefusal_eq_none {cs : List Check} : firstRefusal cs = none ↔ ∀ c ∈ cs, c.holds = true := by
  induction cs with
  | nil => simp [firstRefusal]
  | cons c cs ih =>
    simp only [firstRefusal]
    split <;> simp_all

@[simp] theorem firstRefusal_nil : firstRefusal [] = none := rfl

theorem firstRefusal_append (cs ds : List Check) :
    firstRefusal (cs ++ ds) = (firstRefusal cs).or (firstRefusal ds) := by
  induction cs with
  | nil => simp
  | cons c cs ih =>
    simp only [List.cons_append, firstRefusal]
    split
    · exact ih
    · simp

/-- An operation whose checks all hold goes on with its actions done and `cp` advanced. -/
theorem perform_next {pl : Plan} {s : State} (h : ∀ c ∈ pl.checks, c.holds = true) :
    perform pl s = .next (runActs (pl.acts ++ [.retire]) s.beginOp) := by
  simp [perform, firstRefusal_eq_none.mpr h]

/-- The only next state an operation can answer, and when it answers it. -/
theorem perform_eq_next {pl : Plan} {s t : State} :
    perform pl s = .next t ↔
      (∀ c ∈ pl.checks, c.holds = true) ∧ t = runActs (pl.acts ++ [.retire]) s.beginOp := by
  constructor
  · intro h
    simp only [perform] at h
    split at h
    · cases h
    · next hn =>
      cases h
      exact ⟨firstRefusal_eq_none.mp hn, rfl⟩
  · rintro ⟨h, rfl⟩
    exact perform_next h

/-- A refusal is the first failing check's. -/
theorem perform_eq_refused {pl : Plan} {s : State} {r : Refusal} :
    perform pl s = .refused r ↔ firstRefusal pl.checks = some r := by
  simp only [perform]
  split
  · next h => simp [h]
  · next h => simp [h]

/-- Every operation performs its plan. -/
theorem exec_eq_perform (i : Instr) (s : State) : exec i s = perform (planOf i s) s := by
  cases i <;> rfl

/-- What a next state of an operation is, for all operations at once. -/
theorem exec_eq_next {i : Instr} {s t : State} :
    exec i s = .next t ↔
      (∀ c ∈ (planOf i s).checks, c.holds = true) ∧ t = runActs ((planOf i s).acts ++ [.retire]) s.beginOp := by
  rw [exec_eq_perform, perform_eq_next]

/-- What is a micro-step now is an action that can be one. -/
theorem isMicro_of_takesStep {s : State} {a : Act} (h : takesStep s a = true) : isMicro a = true := by
  simp only [takesStep, Bool.and_eq_true] at h
  exact h.1

/-- Enough micro-steps run a list of actions whole. -/
theorem runSome_all {n : Nat} {as : List Act} {s : State} (h : as.countP isMicro ≤ n) :
    runSome n as s = (runActs as s, []) := by
  induction as generalizing n s with
  | nil => cases n <;> rfl
  | cons a as ih =>
    rw [List.countP_cons] at h
    by_cases ha : takesStep s a = true
    · rw [if_pos (isMicro_of_takesStep ha)] at h
      match n with
      | m + 1 => simp [runSome, ha, ih (Nat.le_of_succ_le_succ h)]
    · cases n <;> simp [runSome, ha, ih (Nat.le_of_add_right_le h)]

end Sys2Proof.Machine
end

