-- ==== Sys2Proof/Laws/State.lean ====
section
/-! SUPPORT. One lemma per field per update of State, true by definition. -/

namespace Sys2Proof.Machine

variable (s : State)

@[simp] theorem State.setPort_config (p : Nat) (q : Port) : (s.setPort p q).config = s.config := rfl
@[simp] theorem State.setPort_ports (p : Nat) (q : Port) : (s.setPort p q).ports = s.ports.set p q := rfl
@[simp] theorem State.setPort_busReady (p : Nat) (q : Port) : (s.setPort p q).busReady = s.busReady := rfl
@[simp] theorem State.setPort_shiftRx (p : Nat) (q : Port) : (s.setPort p q).shiftRx = s.shiftRx := rfl
@[simp] theorem State.setPort_dstate (p : Nat) (q : Port) : (s.setPort p q).dstate = s.dstate := rfl
@[simp] theorem State.setPort_debs (p : Nat) (q : Port) : (s.setPort p q).debs = s.debs := rfl
@[simp] theorem State.setPort_buf (p : Nat) (q : Port) : (s.setPort p q).buf = s.buf := rfl
@[simp] theorem State.setPort_gram (p : Nat) (q : Port) : (s.setPort p q).gram = s.gram := rfl
@[simp] theorem State.setPort_pp (p : Nat) (q : Port) : (s.setPort p q).pp = s.pp := rfl
@[simp] theorem State.setPort_cptr (p : Nat) (q : Port) : (s.setPort p q).cptr = s.cptr := rfl
@[simp] theorem State.setPort_ctx (p : Nat) (q : Port) : (s.setPort p q).ctx = s.ctx := rfl
@[simp] theorem State.setPort_parked (p : Nat) (q : Port) : (s.setPort p q).parked = s.parked := rfl
@[simp] theorem State.setPort_pinTrace (p : Nat) (q : Port) : (s.setPort p q).pinTrace = s.pinTrace := rfl
@[simp] theorem State.setPort_busTrace (p : Nat) (q : Port) : (s.setPort p q).busTrace = s.busTrace := rfl
@[simp] theorem State.setPort_dispTrace (p : Nat) (q : Port) : (s.setPort p q).dispTrace = s.dispTrace := rfl
@[simp] theorem State.setPort_evTrace (p : Nat) (q : Port) : (s.setPort p q).evTrace = s.evTrace := rfl
@[simp] theorem State.setPort_sched (p : Nat) (q : Port) : (s.setPort p q).sched = s.sched := rfl
@[simp] theorem State.setPort_pads (p : Nat) (q : Port) : (s.setPort p q).pads = s.pads := rfl
@[simp] theorem State.setPort_waits (p : Nat) (q : Port) : (s.setPort p q).waits = s.waits := rfl
@[simp] theorem State.setPort_draws (p : Nat) (q : Port) : (s.setPort p q).draws = s.draws := rfl

@[simp] theorem State.tracePin_config (t : PinItem) : (s.tracePin t).config = s.config := rfl
@[simp] theorem State.tracePin_ports (t : PinItem) : (s.tracePin t).ports = s.ports := rfl
@[simp] theorem State.tracePin_busReady (t : PinItem) : (s.tracePin t).busReady = s.busReady := rfl
@[simp] theorem State.tracePin_shiftRx (t : PinItem) : (s.tracePin t).shiftRx = s.shiftRx := rfl
@[simp] theorem State.tracePin_dstate (t : PinItem) : (s.tracePin t).dstate = s.dstate := rfl
@[simp] theorem State.tracePin_debs (t : PinItem) : (s.tracePin t).debs = s.debs := rfl
@[simp] theorem State.tracePin_buf (t : PinItem) : (s.tracePin t).buf = s.buf := rfl
@[simp] theorem State.tracePin_gram (t : PinItem) : (s.tracePin t).gram = s.gram := rfl
@[simp] theorem State.tracePin_pp (t : PinItem) : (s.tracePin t).pp = s.pp := rfl
@[simp] theorem State.tracePin_cptr (t : PinItem) : (s.tracePin t).cptr = s.cptr := rfl
@[simp] theorem State.tracePin_ctx (t : PinItem) : (s.tracePin t).ctx = s.ctx := rfl
@[simp] theorem State.tracePin_parked (t : PinItem) : (s.tracePin t).parked = s.parked := rfl
@[simp] theorem State.tracePin_pinTrace (t : PinItem) : (s.tracePin t).pinTrace = s.pinTrace ++ [t] := rfl
@[simp] theorem State.tracePin_busTrace (t : PinItem) : (s.tracePin t).busTrace = s.busTrace := rfl
@[simp] theorem State.tracePin_dispTrace (t : PinItem) : (s.tracePin t).dispTrace = s.dispTrace := rfl
@[simp] theorem State.tracePin_evTrace (t : PinItem) : (s.tracePin t).evTrace = s.evTrace := rfl
@[simp] theorem State.tracePin_sched (t : PinItem) : (s.tracePin t).sched = s.sched := rfl
@[simp] theorem State.tracePin_pads (t : PinItem) : (s.tracePin t).pads = s.pads := rfl
@[simp] theorem State.tracePin_waits (t : PinItem) : (s.tracePin t).waits = s.waits := rfl
@[simp] theorem State.tracePin_draws (t : PinItem) : (s.tracePin t).draws = s.draws := rfl

@[simp] theorem State.traceBus_config (t : BusItem) : (s.traceBus t).config = s.config := rfl
@[simp] theorem State.traceBus_ports (t : BusItem) : (s.traceBus t).ports = s.ports := rfl
@[simp] theorem State.traceBus_busReady (t : BusItem) : (s.traceBus t).busReady = s.busReady := rfl
@[simp] theorem State.traceBus_shiftRx (t : BusItem) : (s.traceBus t).shiftRx = s.shiftRx := rfl
@[simp] theorem State.traceBus_dstate (t : BusItem) : (s.traceBus t).dstate = s.dstate := rfl
@[simp] theorem State.traceBus_debs (t : BusItem) : (s.traceBus t).debs = s.debs := rfl
@[simp] theorem State.traceBus_buf (t : BusItem) : (s.traceBus t).buf = s.buf := rfl
@[simp] theorem State.traceBus_gram (t : BusItem) : (s.traceBus t).gram = s.gram := rfl
@[simp] theorem State.traceBus_pp (t : BusItem) : (s.traceBus t).pp = s.pp := rfl
@[simp] theorem State.traceBus_cptr (t : BusItem) : (s.traceBus t).cptr = s.cptr := rfl
@[simp] theorem State.traceBus_ctx (t : BusItem) : (s.traceBus t).ctx = s.ctx := rfl
@[simp] theorem State.traceBus_parked (t : BusItem) : (s.traceBus t).parked = s.parked := rfl
@[simp] theorem State.traceBus_pinTrace (t : BusItem) : (s.traceBus t).pinTrace = s.pinTrace := rfl
@[simp] theorem State.traceBus_busTrace (t : BusItem) : (s.traceBus t).busTrace = s.busTrace ++ [t] := rfl
@[simp] theorem State.traceBus_dispTrace (t : BusItem) : (s.traceBus t).dispTrace = s.dispTrace := rfl
@[simp] theorem State.traceBus_evTrace (t : BusItem) : (s.traceBus t).evTrace = s.evTrace := rfl
@[simp] theorem State.traceBus_sched (t : BusItem) : (s.traceBus t).sched = s.sched := rfl
@[simp] theorem State.traceBus_pads (t : BusItem) : (s.traceBus t).pads = s.pads := rfl
@[simp] theorem State.traceBus_waits (t : BusItem) : (s.traceBus t).waits = s.waits := rfl
@[simp] theorem State.traceBus_draws (t : BusItem) : (s.traceBus t).draws = s.draws := rfl

@[simp] theorem State.traceDisp_config (t : DispItem) : (s.traceDisp t).config = s.config := rfl
@[simp] theorem State.traceDisp_ports (t : DispItem) : (s.traceDisp t).ports = s.ports := rfl
@[simp] theorem State.traceDisp_busReady (t : DispItem) : (s.traceDisp t).busReady = s.busReady := rfl
@[simp] theorem State.traceDisp_shiftRx (t : DispItem) : (s.traceDisp t).shiftRx = s.shiftRx := rfl
@[simp] theorem State.traceDisp_dstate (t : DispItem) : (s.traceDisp t).dstate = s.dstate := rfl
@[simp] theorem State.traceDisp_debs (t : DispItem) : (s.traceDisp t).debs = s.debs := rfl
@[simp] theorem State.traceDisp_buf (t : DispItem) : (s.traceDisp t).buf = s.buf := rfl
@[simp] theorem State.traceDisp_gram (t : DispItem) : (s.traceDisp t).gram = s.gram := rfl
@[simp] theorem State.traceDisp_pp (t : DispItem) : (s.traceDisp t).pp = s.pp := rfl
@[simp] theorem State.traceDisp_cptr (t : DispItem) : (s.traceDisp t).cptr = s.cptr := rfl
@[simp] theorem State.traceDisp_ctx (t : DispItem) : (s.traceDisp t).ctx = s.ctx := rfl
@[simp] theorem State.traceDisp_parked (t : DispItem) : (s.traceDisp t).parked = s.parked := rfl
@[simp] theorem State.traceDisp_pinTrace (t : DispItem) : (s.traceDisp t).pinTrace = s.pinTrace := rfl
@[simp] theorem State.traceDisp_busTrace (t : DispItem) : (s.traceDisp t).busTrace = s.busTrace := rfl
@[simp] theorem State.traceDisp_dispTrace (t : DispItem) : (s.traceDisp t).dispTrace = s.dispTrace ++ [t] := rfl
@[simp] theorem State.traceDisp_evTrace (t : DispItem) : (s.traceDisp t).evTrace = s.evTrace := rfl
@[simp] theorem State.traceDisp_sched (t : DispItem) : (s.traceDisp t).sched = s.sched := rfl
@[simp] theorem State.traceDisp_pads (t : DispItem) : (s.traceDisp t).pads = s.pads := rfl
@[simp] theorem State.traceDisp_waits (t : DispItem) : (s.traceDisp t).waits = s.waits := rfl
@[simp] theorem State.traceDisp_draws (t : DispItem) : (s.traceDisp t).draws = s.draws := rfl

@[simp] theorem State.setCtx_config (c : Ctx) : (s.setCtx c).config = s.config := rfl
@[simp] theorem State.setCtx_ports (c : Ctx) : (s.setCtx c).ports = s.ports := rfl
@[simp] theorem State.setCtx_busReady (c : Ctx) : (s.setCtx c).busReady = s.busReady := rfl
@[simp] theorem State.setCtx_shiftRx (c : Ctx) : (s.setCtx c).shiftRx = s.shiftRx := rfl
@[simp] theorem State.setCtx_dstate (c : Ctx) : (s.setCtx c).dstate = s.dstate := rfl
@[simp] theorem State.setCtx_debs (c : Ctx) : (s.setCtx c).debs = s.debs := rfl
@[simp] theorem State.setCtx_buf (c : Ctx) : (s.setCtx c).buf = s.buf := rfl
@[simp] theorem State.setCtx_gram (c : Ctx) : (s.setCtx c).gram = s.gram := rfl
@[simp] theorem State.setCtx_pp (c : Ctx) : (s.setCtx c).pp = s.pp := rfl
@[simp] theorem State.setCtx_cptr (c : Ctx) : (s.setCtx c).cptr = s.cptr := rfl
@[simp] theorem State.setCtx_ctx (c : Ctx) : (s.setCtx c).ctx = c := rfl
@[simp] theorem State.setCtx_parked (c : Ctx) : (s.setCtx c).parked = s.parked := rfl
@[simp] theorem State.setCtx_pinTrace (c : Ctx) : (s.setCtx c).pinTrace = s.pinTrace := rfl
@[simp] theorem State.setCtx_busTrace (c : Ctx) : (s.setCtx c).busTrace = s.busTrace := rfl
@[simp] theorem State.setCtx_dispTrace (c : Ctx) : (s.setCtx c).dispTrace = s.dispTrace := rfl
@[simp] theorem State.setCtx_evTrace (c : Ctx) : (s.setCtx c).evTrace = s.evTrace := rfl
@[simp] theorem State.setCtx_sched (c : Ctx) : (s.setCtx c).sched = s.sched := rfl
@[simp] theorem State.setCtx_pads (c : Ctx) : (s.setCtx c).pads = s.pads := rfl
@[simp] theorem State.setCtx_waits (c : Ctx) : (s.setCtx c).waits = s.waits := rfl
@[simp] theorem State.setCtx_draws (c : Ctx) : (s.setCtx c).draws = s.draws := rfl

@[simp] theorem State.setLocals_config (l : Locals) : (s.setLocals l).config = s.config := rfl
@[simp] theorem State.setLocals_ports (l : Locals) : (s.setLocals l).ports = s.ports := rfl
@[simp] theorem State.setLocals_busReady (l : Locals) : (s.setLocals l).busReady = s.busReady := rfl
@[simp] theorem State.setLocals_shiftRx (l : Locals) : (s.setLocals l).shiftRx = s.shiftRx := rfl
@[simp] theorem State.setLocals_dstate (l : Locals) : (s.setLocals l).dstate = s.dstate := rfl
@[simp] theorem State.setLocals_debs (l : Locals) : (s.setLocals l).debs = s.debs := rfl
@[simp] theorem State.setLocals_buf (l : Locals) : (s.setLocals l).buf = s.buf := rfl
@[simp] theorem State.setLocals_gram (l : Locals) : (s.setLocals l).gram = s.gram := rfl
@[simp] theorem State.setLocals_pp (l : Locals) : (s.setLocals l).pp = s.pp := rfl
@[simp] theorem State.setLocals_cptr (l : Locals) : (s.setLocals l).cptr = s.cptr := rfl
@[simp] theorem State.setLocals_ctx (l : Locals) : (s.setLocals l).ctx = { s.ctx with locals := l } := rfl
@[simp] theorem State.setLocals_parked (l : Locals) : (s.setLocals l).parked = s.parked := rfl
@[simp] theorem State.setLocals_pinTrace (l : Locals) : (s.setLocals l).pinTrace = s.pinTrace := rfl
@[simp] theorem State.setLocals_busTrace (l : Locals) : (s.setLocals l).busTrace = s.busTrace := rfl
@[simp] theorem State.setLocals_dispTrace (l : Locals) : (s.setLocals l).dispTrace = s.dispTrace := rfl
@[simp] theorem State.setLocals_evTrace (l : Locals) : (s.setLocals l).evTrace = s.evTrace := rfl
@[simp] theorem State.setLocals_sched (l : Locals) : (s.setLocals l).sched = s.sched := rfl
@[simp] theorem State.setLocals_pads (l : Locals) : (s.setLocals l).pads = s.pads := rfl
@[simp] theorem State.setLocals_waits (l : Locals) : (s.setLocals l).waits = s.waits := rfl
@[simp] theorem State.setLocals_draws (l : Locals) : (s.setLocals l).draws = s.draws := rfl

@[simp] theorem State.setRes_config (v : Word) : (s.setRes v).config = s.config := rfl
@[simp] theorem State.setRes_ports (v : Word) : (s.setRes v).ports = s.ports := rfl
@[simp] theorem State.setRes_busReady (v : Word) : (s.setRes v).busReady = s.busReady := rfl
@[simp] theorem State.setRes_shiftRx (v : Word) : (s.setRes v).shiftRx = s.shiftRx := rfl
@[simp] theorem State.setRes_dstate (v : Word) : (s.setRes v).dstate = s.dstate := rfl
@[simp] theorem State.setRes_debs (v : Word) : (s.setRes v).debs = s.debs := rfl
@[simp] theorem State.setRes_buf (v : Word) : (s.setRes v).buf = s.buf := rfl
@[simp] theorem State.setRes_gram (v : Word) : (s.setRes v).gram = s.gram := rfl
@[simp] theorem State.setRes_pp (v : Word) : (s.setRes v).pp = s.pp := rfl
@[simp] theorem State.setRes_cptr (v : Word) : (s.setRes v).cptr = s.cptr := rfl
@[simp] theorem State.setRes_ctx (v : Word) : (s.setRes v).ctx = { s.ctx with res := v } := rfl
@[simp] theorem State.setRes_parked (v : Word) : (s.setRes v).parked = s.parked := rfl
@[simp] theorem State.setRes_pinTrace (v : Word) : (s.setRes v).pinTrace = s.pinTrace := rfl
@[simp] theorem State.setRes_busTrace (v : Word) : (s.setRes v).busTrace = s.busTrace := rfl
@[simp] theorem State.setRes_dispTrace (v : Word) : (s.setRes v).dispTrace = s.dispTrace := rfl
@[simp] theorem State.setRes_evTrace (v : Word) : (s.setRes v).evTrace = s.evTrace := rfl
@[simp] theorem State.setRes_sched (v : Word) : (s.setRes v).sched = s.sched := rfl
@[simp] theorem State.setRes_pads (v : Word) : (s.setRes v).pads = s.pads := rfl
@[simp] theorem State.setRes_waits (v : Word) : (s.setRes v).waits = s.waits := rfl
@[simp] theorem State.setRes_draws (v : Word) : (s.setRes v).draws = s.draws := rfl

@[simp] theorem State.drawn_config : (s.drawn).config = s.config := rfl
@[simp] theorem State.drawn_ports : (s.drawn).ports = s.ports := rfl
@[simp] theorem State.drawn_busReady : (s.drawn).busReady = s.busReady := rfl
@[simp] theorem State.drawn_shiftRx : (s.drawn).shiftRx = s.shiftRx := rfl
@[simp] theorem State.drawn_dstate : (s.drawn).dstate = s.dstate := rfl
@[simp] theorem State.drawn_debs : (s.drawn).debs = s.debs := rfl
@[simp] theorem State.drawn_buf : (s.drawn).buf = s.buf := rfl
@[simp] theorem State.drawn_gram : (s.drawn).gram = s.gram := rfl
@[simp] theorem State.drawn_pp : (s.drawn).pp = s.pp := rfl
@[simp] theorem State.drawn_cptr : (s.drawn).cptr = s.cptr := rfl
@[simp] theorem State.drawn_ctx : (s.drawn).ctx = s.ctx := rfl
@[simp] theorem State.drawn_parked : (s.drawn).parked = s.parked := rfl
@[simp] theorem State.drawn_pinTrace : (s.drawn).pinTrace = s.pinTrace := rfl
@[simp] theorem State.drawn_busTrace : (s.drawn).busTrace = s.busTrace := rfl
@[simp] theorem State.drawn_dispTrace : (s.drawn).dispTrace = s.dispTrace := rfl
@[simp] theorem State.drawn_evTrace : (s.drawn).evTrace = s.evTrace := rfl
@[simp] theorem State.drawn_sched : (s.drawn).sched = s.sched := rfl
@[simp] theorem State.drawn_pads : (s.drawn).pads = s.pads := rfl
@[simp] theorem State.drawn_waits : (s.drawn).waits = s.waits := rfl
@[simp] theorem State.drawn_draws : (s.drawn).draws = s.draws + 1 := rfl

@[simp] theorem State.beginOp_config : (s.beginOp).config = s.config := rfl
@[simp] theorem State.beginOp_ports : (s.beginOp).ports = s.ports := rfl
@[simp] theorem State.beginOp_busReady : (s.beginOp).busReady = s.busReady := rfl
@[simp] theorem State.beginOp_shiftRx : (s.beginOp).shiftRx = s.shiftRx := rfl
@[simp] theorem State.beginOp_dstate : (s.beginOp).dstate = s.dstate := rfl
@[simp] theorem State.beginOp_debs : (s.beginOp).debs = s.debs := rfl
@[simp] theorem State.beginOp_buf : (s.beginOp).buf = s.buf := rfl
@[simp] theorem State.beginOp_gram : (s.beginOp).gram = s.gram := rfl
@[simp] theorem State.beginOp_pp : (s.beginOp).pp = s.pp := rfl
@[simp] theorem State.beginOp_cptr : (s.beginOp).cptr = s.cptr := rfl
@[simp] theorem State.beginOp_ctx : (s.beginOp).ctx = { s.ctx with locals := Locals.empty } := rfl
@[simp] theorem State.beginOp_parked : (s.beginOp).parked = s.parked := rfl
@[simp] theorem State.beginOp_pinTrace : (s.beginOp).pinTrace = s.pinTrace := rfl
@[simp] theorem State.beginOp_busTrace : (s.beginOp).busTrace = s.busTrace := rfl
@[simp] theorem State.beginOp_dispTrace : (s.beginOp).dispTrace = s.dispTrace := rfl
@[simp] theorem State.beginOp_evTrace : (s.beginOp).evTrace = s.evTrace := rfl
@[simp] theorem State.beginOp_sched : (s.beginOp).sched = s.sched := rfl
@[simp] theorem State.beginOp_pads : (s.beginOp).pads = s.pads := rfl
@[simp] theorem State.beginOp_waits : (s.beginOp).waits = s.waits := rfl
@[simp] theorem State.beginOp_draws : (s.beginOp).draws = s.draws := rfl

@[simp] theorem State.setOdr_config (p : Nat) (r : Reg 16) (clr set : Half) : (s.setOdr p r clr set).config = s.config := rfl
@[simp] theorem State.setOdr_ports (p : Nat) (r : Reg 16) (clr set : Half) : (s.setOdr p r clr set).ports = s.ports.set p { s.port p with odr := r } := rfl
@[simp] theorem State.setOdr_busReady (p : Nat) (r : Reg 16) (clr set : Half) : (s.setOdr p r clr set).busReady = s.busReady := rfl
@[simp] theorem State.setOdr_shiftRx (p : Nat) (r : Reg 16) (clr set : Half) : (s.setOdr p r clr set).shiftRx = shiftRxAll s.config.csActiveLow s.ports (s.ports.set p { s.port p with odr := r }) p clr set s.config.buses s.shiftRx := rfl
@[simp] theorem State.setOdr_dstate (p : Nat) (r : Reg 16) (clr set : Half) : (s.setOdr p r clr set).dstate = s.dstate := rfl
@[simp] theorem State.setOdr_debs (p : Nat) (r : Reg 16) (clr set : Half) : (s.setOdr p r clr set).debs = s.debs := rfl
@[simp] theorem State.setOdr_buf (p : Nat) (r : Reg 16) (clr set : Half) : (s.setOdr p r clr set).buf = s.buf := rfl
@[simp] theorem State.setOdr_gram (p : Nat) (r : Reg 16) (clr set : Half) : (s.setOdr p r clr set).gram = s.gram := rfl
@[simp] theorem State.setOdr_pp (p : Nat) (r : Reg 16) (clr set : Half) : (s.setOdr p r clr set).pp = s.pp := rfl
@[simp] theorem State.setOdr_cptr (p : Nat) (r : Reg 16) (clr set : Half) : (s.setOdr p r clr set).cptr = s.cptr := rfl
@[simp] theorem State.setOdr_ctx (p : Nat) (r : Reg 16) (clr set : Half) : (s.setOdr p r clr set).ctx = s.ctx := rfl
@[simp] theorem State.setOdr_parked (p : Nat) (r : Reg 16) (clr set : Half) : (s.setOdr p r clr set).parked = s.parked := rfl
@[simp] theorem State.setOdr_pinTrace (p : Nat) (r : Reg 16) (clr set : Half) : (s.setOdr p r clr set).pinTrace = s.pinTrace := rfl
@[simp] theorem State.setOdr_busTrace (p : Nat) (r : Reg 16) (clr set : Half) : (s.setOdr p r clr set).busTrace = s.busTrace := rfl
@[simp] theorem State.setOdr_dispTrace (p : Nat) (r : Reg 16) (clr set : Half) : (s.setOdr p r clr set).dispTrace = s.dispTrace := rfl
@[simp] theorem State.setOdr_evTrace (p : Nat) (r : Reg 16) (clr set : Half) : (s.setOdr p r clr set).evTrace = s.evTrace := rfl
@[simp] theorem State.setOdr_sched (p : Nat) (r : Reg 16) (clr set : Half) : (s.setOdr p r clr set).sched = s.sched := rfl
@[simp] theorem State.setOdr_pads (p : Nat) (r : Reg 16) (clr set : Half) : (s.setOdr p r clr set).pads = s.pads := rfl
@[simp] theorem State.setOdr_waits (p : Nat) (r : Reg 16) (clr set : Half) : (s.setOdr p r clr set).waits = s.waits := rfl
@[simp] theorem State.setOdr_draws (p : Nat) (r : Reg 16) (clr set : Half) : (s.setOdr p r clr set).draws = s.draws := rfl

end Sys2Proof.Machine
end

