-- ==== Sys2Proof/Laws/Act.lean ====
section
/-! SUPPORT. What one action leaves as it is, for every action at once, and what follows for whole operations. -/

namespace Sys2Proof.Machine

variable (a : Act) (s : State)

/-- The parts of a state no action changes: configuration, pixel buffer, parked contexts, schedule, and the running
context's number, command list and remaining actions. -/
structure SameHost (s t : State) : Prop where
  config : t.config = s.config
  buf : t.buf = s.buf
  parked : t.parked = s.parked
  sched : t.sched = s.sched
  id : t.ctx.id = s.ctx.id
  prog : t.ctx.prog = s.ctx.prog
  queue : t.ctx.queue = s.ctx.queue

theorem SameHost.refl (s : State) : SameHost s s := ⟨rfl, rfl, rfl, rfl, rfl, rfl, rfl⟩

theorem SameHost.trans {s t u : State} (h : SameHost s t) (k : SameHost t u) : SameHost s u :=
  ⟨k.config.trans h.config, k.buf.trans h.buf, k.parked.trans h.parked, k.sched.trans h.sched, k.id.trans h.id,
    k.prog.trans h.prog, k.queue.trans h.queue⟩

theorem rxCmd_sameHost (c : RxCmd) : SameHost s (s.rxCmd c) := by
  cases c <;> exact ⟨rfl, rfl, rfl, rfl, rfl, rfl, rfl⟩

theorem rxData_sameHost (b : Byte) : SameHost s (s.rxData b) := by
  unfold State.rxData
  split <;> exact ⟨rfl, rfl, rfl, rfl, rfl, rfl, rfl⟩

theorem emitEvent_sameHost : SameHost s s.emitEvent := by
  unfold State.emitEvent
  split <;> exact ⟨rfl, rfl, rfl, rfl, rfl, rfl, rfl⟩

theorem pinWrite_sameHost (x : Pin) (high : Bool) : SameHost s (s.pinWrite x high) := by
  unfold State.pinWrite
  split <;> exact ⟨rfl, rfl, rfl, rfl, rfl, rfl, rfl⟩

/-- No action changes what the host owns. -/
theorem runAct_sameHost : SameHost s (runAct a s) := by
  cases a
  case bsrBit x i src => exact pinWrite_sameHost _ _ _
  case emit => exact emitEvent_sameHost _
  case dispCmd c byte => exact (rxCmd_sameHost s c).trans ⟨rfl, rfl, rfl, rfl, rfl, rfl, rfl⟩
  case dispData src => exact (rxData_sameHost s _).trans ⟨rfl, rfl, rfl, rfl, rfl, rfl, rfl⟩
  all_goals exact ⟨rfl, rfl, rfl, rfl, rfl, rfl, rfl⟩

theorem runActs_sameHost (as : List Act) : SameHost s (runActs as s) :=
  runActs_induct (P := SameHost s) (SameHost.refl s) (fun a _ t h => h.trans (runAct_sameHost a t))

@[simp] theorem runAct_config : (runAct a s).config = s.config := (runAct_sameHost a s).config

@[simp] theorem runActs_config (as : List Act) : (runActs as s).config = s.config := (runActs_sameHost s as).config

/-- What only grows: enabled ports stay enabled, ready buses stay ready, every trace keeps what it holds. -/
structure Grows (s t : State) : Prop where
  en : ∀ p, s.enabled p = true → t.enabled p = true
  ready : ∀ b, s.busReady.getD b false = true → t.busReady.getD b false = true
  pin : s.pinTrace <+: t.pinTrace
  bus : s.busTrace <+: t.busTrace
  disp : s.dispTrace <+: t.dispTrace
  ev : s.evTrace <+: t.evTrace
  portsLen : t.ports.length = s.ports.length

theorem Grows.refl (s : State) : Grows s s :=
  ⟨fun _ h => h, fun _ h => h, List.prefix_refl _, List.prefix_refl _, List.prefix_refl _, List.prefix_refl _, rfl⟩

theorem Grows.of_eq {s t : State} (hp : t.ports = s.ports) (hb : t.busReady = s.busReady)
    (h1 : t.pinTrace = s.pinTrace) (h2 : t.busTrace = s.busTrace) (h3 : t.dispTrace = s.dispTrace)
    (h4 : t.evTrace = s.evTrace) : Grows s t := by
  refine ⟨fun p h => ?_, fun b h => ?_, ?_, ?_, ?_, ?_, ?_⟩ <;> simp_all [State.enabled, State.port]

theorem Grows.trans {s t u : State} (h : Grows s t) (k : Grows t u) : Grows s u :=
  ⟨fun p e => k.en p (h.en p e), fun b e => k.ready b (h.ready b e), h.pin.trans k.pin, h.bus.trans k.bus,
    h.disp.trans k.disp, h.ev.trans k.ev, k.portsLen.trans h.portsLen⟩

/-- A changed port whose enable bit is kept keeps every enable bit. -/
theorem enabled_set {ports : List Port} {p : Nat} {q : Port} (hq : q.en = (ports.getD p Port.reset).en) (x : Nat) :
    ((ports.set p q).getD x Port.reset).en = (ports.getD x Port.reset).en := by
  simp only [List.getD_eq_getElem?_getD, List.getElem?_set] at hq ⊢
  by_cases hx : p = x
  · subst hx
    by_cases hl : p < ports.length
    · simp_all
    · have : ports[p]? = none := by simpa using hl
      simp [hl]
  · simp [hx]

theorem withCfgReg_en (q : Port) (k : CfgReg) (r : Reg 64) : (withCfgReg q k r).en = q.en := by cases k <;> rfl

theorem setOdr_grows (p : Nat) (r : Reg 16) (clr set : Half) : Grows s (s.setOdr p r clr set) := by
  refine ⟨fun x h => ?_, fun _ h => h, List.prefix_refl _, List.prefix_refl _, List.prefix_refl _, List.prefix_refl _,
    by simp⟩
  have := enabled_set (ports := s.ports) (p := p) (q := { s.port p with odr := r }) rfl x
  simpa [State.enabled, State.port, State.setOdr] using this.trans h

theorem tracePin_grows (t : PinItem) : Grows s (s.tracePin t) :=
  ⟨fun _ h => h, fun _ h => h, List.prefix_append _ _, List.prefix_refl _, List.prefix_refl _, List.prefix_refl _, rfl⟩

theorem bsrWrite_grows (p : Nat) (clr set : Half) : Grows s (s.bsrWrite p clr set) :=
  (setOdr_grows s p _ clr set).trans (tracePin_grows _ _)

theorem odrWrite_grows (p : Nat) (v : Half) : Grows s (s.odrWrite p v) :=
  (setOdr_grows s p _ 0 0).trans (tracePin_grows _ _)

theorem setCfg_grows (p : Nat) (k : CfgReg) (r : Reg 64) (v : Word) : Grows s (s.setCfg p k r v) := by
  refine Grows.trans (t := s.setPort p (withCfgReg (s.port p) k r)) ⟨fun x h => ?_, fun _ h => h, List.prefix_refl _,
    List.prefix_refl _, List.prefix_refl _, List.prefix_refl _, by simp⟩ (tracePin_grows _ _)
  have := enabled_set (ports := s.ports) (p := p) (q := withCfgReg (s.port p) k r) (withCfgReg_en _ _ _) x
  simpa [State.enabled, State.port, State.setPort] using this.trans h

theorem enablePort_grows (p : Nat) : Grows s (s.enablePort p) := by
  refine Grows.trans (t := s.setPort p { s.port p with en := true }) ⟨fun x h => ?_, fun _ h => h, List.prefix_refl _,
    List.prefix_refl _, List.prefix_refl _, List.prefix_refl _, by simp⟩ (tracePin_grows _ _)
  simp only [State.enabled, State.port, State.setPort, List.getD_eq_getElem?_getD, List.getElem?_set] at h ⊢
  by_cases hx : p = x
  · subst hx
    by_cases hl : p < s.ports.length
    · simp [hl]
    · have : s.ports[p]? = none := by simpa using hl
      simp [this, Port.reset] at h
  · simpa [hx] using h

theorem rxCmd_grows (c : RxCmd) : Grows s (s.rxCmd c) := by
  cases c <;> exact Grows.of_eq rfl rfl rfl rfl rfl rfl

theorem rxData_grows (b : Byte) : Grows s (s.rxData b) := by
  unfold State.rxData
  split <;> exact Grows.of_eq rfl rfl rfl rfl rfl rfl

theorem traceDisp_grows (t : DispItem) : Grows s (s.traceDisp t) :=
  ⟨fun _ h => h, fun _ h => h, List.prefix_refl _, List.prefix_refl _, List.prefix_append _ _, List.prefix_refl _, rfl⟩

theorem traceBus_grows (t : BusItem) : Grows s (s.traceBus t) :=
  ⟨fun _ h => h, fun _ h => h, List.prefix_refl _, List.prefix_append _ _, List.prefix_refl _, List.prefix_refl _, rfl⟩

theorem emitEvent_grows : Grows s s.emitEvent := by
  unfold State.emitEvent
  split
  · exact ⟨fun _ h => h, fun _ h => h, List.prefix_refl _, List.prefix_refl _, List.prefix_refl _,
      List.prefix_append _ _, rfl⟩
  · exact Grows.refl s

theorem busReady_grows (b : Nat) : Grows s { s with busReady := s.busReady.set b true } := by
  refine ⟨fun _ h => h, fun x h => ?_, List.prefix_refl _, List.prefix_refl _, List.prefix_refl _, List.prefix_refl _,
    rfl⟩
  simp only [List.getD_eq_getElem?_getD, List.getElem?_set] at h ⊢
  by_cases hx : b = x
  · subst hx
    by_cases hl : b < s.busReady.length <;> simp_all
  · simpa [hx] using h

/-- Every action only grows what only grows. -/
theorem runAct_grows : Grows s (runAct a s) := by
  cases a
  case bsr p clr set => exact bsrWrite_grows s p clr set
  case bsrBit x i src =>
    show Grows s (s.pinWrite _ _)
    unfold State.pinWrite
    split <;> exact bsrWrite_grows s _ _ _
  case bsrList q l src => exact bsrWrite_grows s _ _ _
  case odrToggle p mask => exact odrWrite_grows s _ _
  case odrWrite p v => exact odrWrite_grows s _ _
  case cfgMerge p k mask v => exact setCfg_grows s _ _ _ _
  case cfgReplace p k mask v o =>
    exact (setCfg_grows s _ _ _ _).trans (Grows.of_eq rfl rfl rfl rfl rfl rfl)
  case enable p => exact enablePort_grows s p
  case hold n => exact tracePin_grows s _
  case emit => exact emitEvent_grows s
  case busInit b => exact traceBus_grows s _
  case busWr b src => exact traceBus_grows s _
  case busRd b =>
    exact (Grows.of_eq rfl rfl rfl rfl rfl rfl : Grows s (s.setRes s.ctx.locals.t)).trans (traceBus_grows _ _)
  case busReady b => exact busReady_grows s b
  case dispReset => exact traceDisp_grows s _
  case dispCmd c byte => exact (rxCmd_grows s c).trans (traceDisp_grows _ _)
  case dispData src => exact (rxData_grows s _).trans (traceDisp_grows _ _)
  case odrRead p =>
    exact ⟨fun _ h => h, fun _ h => h, List.prefix_append _ _, List.prefix_refl _, List.prefix_refl _,
      List.prefix_refl _, rfl⟩
  case sample p =>
    exact ⟨fun _ h => h, fun _ h => h, List.prefix_append _ _, List.prefix_refl _, List.prefix_refl _,
      List.prefix_refl _, rfl⟩
  case cfgRead p k =>
    exact ⟨fun _ h => h, fun _ h => h, List.prefix_append _ _, List.prefix_refl _, List.prefix_refl _,
      List.prefix_refl _, rfl⟩
  all_goals exact Grows.of_eq rfl rfl rfl rfl rfl rfl

theorem runActs_grows (as : List Act) : Grows s (runActs as s) :=
  runActs_induct (P := Grows s) (Grows.refl s) (fun a _ t h => h.trans (runAct_grows a t))

/-- An operation that goes on changes nothing the host owns, and only grows what only grows. -/
theorem exec_sameHost {i : Instr} {s t : State} (h : exec i s = .next t) : SameHost s t := by
  obtain ⟨-, rfl⟩ := exec_eq_next.mp h
  exact SameHost.trans (t := s.beginOp) ⟨rfl, rfl, rfl, rfl, rfl, rfl, rfl⟩ (runActs_sameHost _ _)

theorem exec_grows {i : Instr} {s t : State} (h : exec i s = .next t) : Grows s t := by
  obtain ⟨-, rfl⟩ := exec_eq_next.mp h
  exact Grows.trans (t := s.beginOp) (Grows.of_eq rfl rfl rfl rfl rfl rfl) (runActs_grows _ _)

end Sys2Proof.Machine
end

