-- ==== Sys2Proof/Laws/Regs.lean ====
section
/-! SUPPORT. Bits of registers with and without a value, port lookups after a write, and configuration fields. -/

namespace Sys2Proof.Machine

/-- Bits inside the mask take the written value; the others keep what they held, a value or none. -/
theorem regBit_regWrite {w : Nat} (r : Reg w) (mask v : BitVec w) {i : Nat} (hi : i < w) :
    regBit (regWrite r mask v) i = if mask.getLsbD i then some (v.getLsbD i) else regBit r i := by
  simp only [regBit, regWrite, BitVec.getLsbD_or, BitVec.getLsbD_and, BitVec.getLsbD_not, hi, decide_true,
    Bool.true_and]
  cases mask.getLsbD i <;> simp

theorem regBit_regOf {w : Nat} (full v : BitVec w) (i : Nat) :
    regBit (regOf full v) i = if full.getLsbD i then some (v.getLsbD i) else none := by
  by_cases h : full.getLsbD i = true <;> simp [regBit, regOf, h]

/-- Whether or not a draw is looked at, its bits inside the mask are what results. -/
@[simp] theorem drawnBits_eq {w : Nat} (m draw : BitVec w) : drawnBits m draw = draw &&& m := by
  unfold drawnBits
  split
  · next h => simp [beq_iff_eq.mp h]
  · rfl

/-- A read of a bit that holds a value gives it. -/
theorem getLsbD_regRead {w : Nat} {r : Reg w} {draw : BitVec w} {i : Nat} {b : Bool} (h : regBit r i = some b) :
    (regRead r draw).getLsbD i = b := by
  unfold regBit at h
  split at h
  · next hk =>
    have hi : i < w := by
      by_contra hn
      rw [BitVec.getLsbD_of_ge _ _ (by omega)] at hk
      cases hk
    simp_all [regRead]
  · cases h

/-- A bit of `ODR` after a set/clear write (R123), for masks of any overlap. -/
theorem regBit_odrAfterBsr (ov : CasOverlap) (odr : Reg 16) (clr set : Half) {i : Nat} (hi : i < 16) :
    regBit (odrAfterBsr ov odr clr set) i =
      if clr.getLsbD i || set.getLsbD i then
        some (set.getLsbD i && (ov != .clearWins || !clr.getLsbD i))
      else regBit odr i := by
  cases ov <;>
    simp only [odrAfterBsr, regBit_regWrite _ _ _ hi, BitVec.getLsbD_or, BitVec.getLsbD_and, BitVec.getLsbD_not, hi,
      decide_true, Bool.true_and] <;>
    cases clr.getLsbD i <;> cases set.getLsbD i <;> rfl

/-- The registers of a port after port p was changed. -/
theorem port_set (s : State) (ports : List Port) (p x : Nat) (q : Port) (h : s.ports = ports.set p q) :
    s.port x = if p = x ∧ p < ports.length then q else ports.getD x Port.reset := by
  simp only [State.port, h, List.getD_eq_getElem?_getD, List.getElem?_set]
  by_cases hx : p = x
  · subst hx
    by_cases hl : p < ports.length <;> simp [hl]
  · simp [hx]

/-- An enabled port is one of the state's ports. -/
theorem lt_of_enabled {s : State} {p : Nat} (h : s.enabled p = true) : p < s.ports.length := by
  by_contra hn
  have : s.ports[p]? = none := by simpa using hn
  simp [State.enabled, State.port, List.getD_eq_getElem?_getD, this, Port.reset] at h

/-- After a set/clear write of an enabled port its `ODR` is the written one. -/
theorem bsrWrite_port_same {s : State} {p : Nat} (clr set : Half) (h : p < s.ports.length) :
    (s.bsrWrite p clr set).port p =
      { s.port p with odr := odrAfterBsr s.config.casOverlap (s.port p).odr clr set } := by
  rw [port_set (s.bsrWrite p clr set) s.ports p p _ rfl]
  simp [h]

theorem bsrWrite_port_other {s : State} {p x : Nat} (clr set : Half) (h : p ≠ x) :
    (s.bsrWrite p clr set).port x = s.port x := by
  rw [port_set (s.bsrWrite p clr set) s.ports p x _ rfl]
  simp [h, State.port]

theorem odrWrite_port_same {s : State} {p : Nat} (v : Half) (h : p < s.ports.length) :
    (s.odrWrite p v).port p = { s.port p with odr := regOf (BitVec.allOnes 16) v } := by
  rw [port_set (s.odrWrite p v) s.ports p p _ rfl]
  simp [h]

theorem odrWrite_port_other {s : State} {p x : Nat} (v : Half) (h : p ≠ x) : (s.odrWrite p v).port x = s.port x := by
  rw [port_set (s.odrWrite p v) s.ports p x _ rfl]
  simp [h, State.port]

theorem setCfg_port_same {s : State} {p : Nat} (k : CfgReg) (r : Reg 64) (v : Word) (h : p < s.ports.length) :
    (s.setCfg p k r v).port p = withCfgReg (s.port p) k r := by
  rw [port_set (s.setCfg p k r v) s.ports p p _ rfl]
  simp [h]

theorem setCfg_port_other {s : State} {p x : Nat} (k : CfgReg) (r : Reg 64) (v : Word) (h : p ≠ x) :
    (s.setCfg p k r v).port x = s.port x := by
  rw [port_set (s.setCfg p k r v) s.ports p x _ rfl]
  simp [h, State.port]

@[simp] theorem cfgReg_withCfgReg_same (q : Port) (k : CfgReg) (r : Reg 64) : cfgReg (withCfgReg q k r) k = r := by
  cases k <;> rfl

theorem cfgReg_withCfgReg_other (q : Port) {k j : CfgReg} (r : Reg 64) (h : k ≠ j) :
    cfgReg (withCfgReg q k r) j = cfgReg q j := by
  cases k <;> cases j <;> first | rfl | exact absurd rfl h

@[simp] theorem withCfgReg_odr (q : Port) (k : CfgReg) (r : Reg 64) : (withCfgReg q k r).odr = q.odr := by
  cases k <;> rfl

/-- Bit b of an OR of fields: the bit of `v` inside the field of a pin of the mask, else 0. Values fit their field. -/
theorem getLsbD_orFields {N : Nat} {v : Word} (hN : 0 < N) (hv : v.toNat < 2 ^ N) (m : Half) (n b : Nat) (hn : n ≤ 16)
    (hN4 : N ≤ 4) :
    (orFields N m v n).getLsbD b = (decide (b / N < n) && m.getLsbD (b / N) && v.getLsbD (b % N)) := by
  induction n with
  | zero => simp [orFields]
  | succ n ih =>
    have hhigh : ∀ j, N ≤ j → v.getLsbD j = false := fun j hj =>
      by
      rw [BitVec.getLsbD, Nat.testBit_lt_two_pow (lt_of_lt_of_le hv (Nat.pow_le_pow_right (by omega) hj))]
    have hdm : N * (b / N) + b % N = b := Nat.div_add_mod b N
    have hmod : b % N < N := Nat.mod_lt _ hN
    simp only [orFields, BitVec.getLsbD_or, ih (by omega)]
    rcases Nat.lt_trichotomy (b / N) n with hlt | heq | hgt
    · have hb : b < N * n := by
        calc b < N * (b / N) + N := by omega
          _ = N * (b / N + 1) := by ring
          _ ≤ N * n := Nat.mul_le_mul_left _ hlt
      have h1 : (v <<< (N * n)).getLsbD b = false := by simp [hb]
      have h2 : b / N < n + 1 := by omega
      split <;> simp_all
    · have hb : b - N * n = b % N := by rw [← heq]; omega
      have hge : ¬ b < N * n := by rw [← heq]; omega
      have h64 : b < 64 := by
        have : N * n ≤ 4 * 15 := Nat.mul_le_mul hN4 (by omega)
        have : b = N * n + b % N := by rw [← heq]; exact hdm.symm
        omega
      have h3 : ¬ b / N < n := by omega
      split
      · next hm =>
        simp only [BitVec.getLsbD_shiftLeft, h64, hge, hb, heq, hm, decide_true, decide_false, Bool.not_false,
          Bool.true_and, Bool.and_true, Nat.lt_succ_self, Nat.lt_irrefl, Bool.false_and, Bool.or_false]
      · next hm =>
        have : m.getLsbD n = false := by simpa using hm
        simp [heq, this]
    · have h1 : (v <<< (N * n)).getLsbD b = false := by
        have hge : N * n + N ≤ b := by
          calc N * n + N = N * (n + 1) := by ring
            _ ≤ N * (b / N) := Nat.mul_le_mul_left _ hgt
            _ ≤ b := Nat.mul_div_le b N
        have := hhigh (b - N * n) (by omega)
        simp [this]
      have h2 : ¬ b / N < n := by omega
      have h3 : ¬ b / N < n + 1 := by omega
      split <;> simp [h1, h2, h3]

/-- The value a field of N bits can hold has N bits. -/
theorem getLsbD_ones {N : Nat} (hN : N ≤ 4) (j : Nat) :
    (BitVec.ofNat 64 (2 ^ N - 1)).getLsbD j = decide (j < N) := by
  rw [BitVec.getLsbD_ofNat, Nat.testBit_two_pow_sub_one]
  by_cases h : j < N
  · simp [h]
    omega
  · simp [h]

/-- Bit b of `expand_N(m)`: whether its pin is in the mask (R131). -/
theorem getLsbD_expand {N : Nat} (hN : 0 < N) (hN4 : N ≤ 4) (m : Half) (b : Nat) :
    (expand N m).getLsbD b = m.getLsbD (b / N) := by
  have hp : 2 ^ N - 1 < 2 ^ 64 := lt_of_lt_of_le (Nat.sub_lt (Nat.two_pow_pos N) Nat.one_pos)
    (Nat.pow_le_pow_right (by omega) (by omega))
  have h2 : b % N < N := Nat.mod_lt _ hN
  rw [expand, getLsbD_orFields hN (by rw [BitVec.toNat_ofNat, Nat.mod_eq_of_lt hp]; have := Nat.two_pow_pos N; omega)
    m 16 b (le_refl _) hN4, getLsbD_ones hN4]
  by_cases h : b / N < 16
  · simp [h, h2]
  · simp [h, BitVec.getLsbD_of_ge m (b / N) (by omega)]

/-- Bit b of `rep_N(m, v)`: the bit of v at its place in the field, for a pin of the mask (R132). -/
theorem getLsbD_rep {N : Nat} (hN : 0 < N) (hN4 : N ≤ 4) (m : Half) (v : BitVec 4) (b : Nat) :
    (rep N m v).getLsbD b = (m.getLsbD (b / N) && v.getLsbD (b % N)) := by
  have hp : (2 ^ N - 1) % 2 ^ 64 = 2 ^ N - 1 := Nat.mod_eq_of_lt (lt_of_lt_of_le
    (Nat.sub_lt (Nat.two_pow_pos N) Nat.one_pos) (Nat.pow_le_pow_right (by omega) (by omega)))
  have h2 : b % N < N := Nat.mod_lt _ hN
  have h3 : b % N < 64 := by omega
  rw [rep, getLsbD_orFields hN (by
    rw [BitVec.toNat_and, BitVec.toNat_ofNat, hp]
    have := Nat.two_pow_pos N
    exact lt_of_le_of_lt Nat.and_le_right (by omega)) m 16 b (le_refl _) hN4]
  rw [BitVec.getLsbD_and, getLsbD_ones hN4, BitVec.getLsbD_setWidth]
  by_cases h : b / N < 16
  · simp [h, h2, h3]
  · simp [h, BitVec.getLsbD_of_ge m (b / N) (by omega)]

/-- Bit b of `merge_N(old, m, v)`: v's bit for a pin of the mask, else the old bit (R132). -/
theorem getLsbD_merge {N : Nat} (hN : 0 < N) (hN4 : N ≤ 4) (old : Word) (m : Half) (v : BitVec 4) {b : Nat}
    (hb : b < 64) :
    (merge N old m v).getLsbD b = if m.getLsbD (b / N) then v.getLsbD (b % N) else old.getLsbD b := by
  simp only [merge, BitVec.getLsbD_or, BitVec.getLsbD_and, BitVec.getLsbD_not, getLsbD_expand hN hN4,
    getLsbD_rep hN hN4, hb]
  cases m.getLsbD (b / N) <;> simp

/-- A field has two or four bits (R10). -/
theorem width_cases (c : Config) (k : CfgReg) : c.width k = 2 ∨ c.width k = 4 := by
  unfold Config.width
  generalize c.widths.get k = w
  cases w <;> simp [FieldWidth.bits]

end Sys2Proof.Machine
end

