-- ==== Sys2Proof/Laws/Checks.lean ====
section
/-! SUPPORT. When the checks of an operation hold: of a port, of pins, of a list, of a bus, of a display write. -/

namespace Sys2Proof.Machine

/-- A port operation on a usable port whose own checks hold goes on. -/
theorem portPlan_next {s : State} {p : Byte} {cs : List Check} {as ns : List Act} (h : PortUsable s p)
    (hc : ∀ c ∈ cs, c.holds = true) :
    perform (portPlan s p cs as ns) s = .next (runActs (as ++ [.retire]) s.beginOp) := by
  obtain ⟨h1, h2, h3⟩ := h
  unfold portPlan
  rw [if_neg h1]
  apply perform_next
  simp only [portChecks, List.mem_append, List.mem_cons, List.not_mem_nil, or_false]
  rintro c ((rfl | rfl) | h)
  · exact h2
  · exact h3
  · exact hc c h

/-- A port operation on a usable port is refused for its own first failing check. -/
theorem portPlan_refused {s : State} {p : Byte} {cs : List Check} {as ns : List Act} {r : Refusal}
    (h : PortUsable s p) (hc : firstRefusal cs = some r) : perform (portPlan s p cs as ns) s = .refused r := by
  obtain ⟨h1, h2, h3⟩ := h
  unfold portPlan
  rw [if_neg h1, perform_eq_refused]
  simp [portChecks, firstRefusal, h2, h3, hc]

/-- The null-port form checks nothing. -/
theorem portPlan_null {s : State} {cs : List Check} {as ns : List Act} :
    perform (portPlan s nullPort cs as ns) s = .next (runActs (ns ++ [.retire]) s.beginOp) := by
  unfold portPlan
  rw [if_pos rfl]
  exact perform_next (by simp)

theorem overlapChecks_holds {s : State} {p : Nat} {clr set : Half}
    (h : clr &&& set = 0 ∨ s.config.casOverlap ≠ .refuse) :
    ∀ x ∈ overlapChecks s p clr set, x.holds = true := by
  unfold overlapChecks
  split
  · rcases h with h | h
    · simp [h]
    · contradiction
  · simp

/-- A usable port is one of the state's. -/
theorem lt_of_usable {s : State} {p : Byte} (h : PortUsable s p) : p.toNat < s.ports.length := lt_of_enabled h.2.2

/-- A pin's checks hold exactly where its port can be used. -/
theorem pinChecks_holds {s : State} {x : Pin} :
    (∀ c ∈ pinChecks s x, c.holds = true) ↔
      (x.isNull = true ∨ (s.portExists x.port.toNat = true ∧ s.enabled x.port.toNat = true)) := by
  unfold pinChecks
  cases hx : x.isNull <;> simp [portChecks]

theorem pinsChecks_holds {s : State} {xs : List Pin} :
    (∀ c ∈ pinsChecks s xs, c.holds = true) ↔ PinsUsable s xs := by
  unfold PinsUsable pinsChecks
  simp only [List.mem_flatMap]
  constructor
  · intro h x hx
    exact pinChecks_holds.mp (fun c hc => h c ⟨x, hx, hc⟩)
  · rintro h c ⟨x, hx, hc⟩
    exact pinChecks_holds.mpr (h x hx) c hc

theorem PinsUsable.mono {s : State} {xs ys : List Pin} (h : PinsUsable s ys) (hs : ∀ x ∈ xs, x ∈ ys) :
    PinsUsable s xs := fun x hx => h x (hs x hx)

/-- The ports of a list are its real pins' ports. -/
theorem mem_portsFrom {seen : List Nat} {xs : List Pin} {q : Nat} :
    q ∈ portsFrom seen xs ↔ q ∉ seen ∧ ∃ x ∈ xs, x.isNull = false ∧ x.port.toNat = q := by
  induction xs generalizing seen with
  | nil => simp [portsFrom]
  | cons x xs ih =>
    simp only [portsFrom]
    split
    · next h =>
      rw [ih]
      constructor
      · rintro ⟨h1, y, hy, hy'⟩
        exact ⟨h1, y, List.mem_cons_of_mem _ hy, hy'⟩
      · rintro ⟨h1, y, hy, hn, hq⟩
        refine ⟨h1, ?_⟩
        rcases List.mem_cons.mp hy with rfl | hy
        · simp only [Bool.or_eq_true, hn, Bool.false_eq_true, false_or, List.contains_iff_mem] at h
          exact absurd (hq ▸ h) h1
        · exact ⟨y, hy, hn, hq⟩
    · next h =>
      simp only [Bool.or_eq_true, List.contains_iff_mem, not_or, Bool.not_eq_true] at h
      simp only [List.mem_cons, ih]
      constructor
      · rintro (rfl | ⟨h1, y, hy, hy'⟩)
        · exact ⟨h.2, x, Or.inl rfl, h.1, rfl⟩
        · exact ⟨fun e => h1 (Or.inr e), y, Or.inr hy, hy'⟩
      · rintro ⟨h1, y, rfl | hy, hn, hq⟩
        · exact Or.inl hq.symm
        · by_cases e : q = x.port.toNat
          · exact Or.inl e
          · exact Or.inr ⟨not_or.mpr ⟨e, h1⟩, y, hy, hn, hq⟩

theorem mem_portsOf {xs : List Pin} {q : Nat} : q ∈ portsOf xs ↔ ∃ x ∈ xs, x.isNull = false ∧ x.port.toNat = q := by
  simp [portsOf, mem_portsFrom]

/-- Each port of a list stands in it once. -/
theorem portsFrom_nodup (seen : List Nat) (xs : List Pin) : (portsFrom seen xs).Nodup := by
  induction xs generalizing seen with
  | nil => exact List.nodup_nil
  | cons x xs ih =>
    simp only [portsFrom]
    split
    · exact ih _
    · refine List.nodup_cons.mpr ⟨fun h => ?_, ih _⟩
      exact (mem_portsFrom.mp h).1 (by simp)

theorem portsOf_nodup (xs : List Pin) : (portsOf xs).Nodup := portsFrom_nodup _ _

/-- A list's checks hold where it exists and its pins can be used. -/
theorem listAccessChecks_holds {s : State} {l : Nat} (hl : l < s.config.lists.length)
    (h : PinsUsable s (listPins s.config l)) : ∀ c ∈ listAccessChecks s l, c.holds = true := by
  simp only [listAccessChecks, listChecks, List.mem_cons, List.mem_map]
  rintro c (rfl | ⟨q, hq, rfl⟩)
  · simpa using hl
  · obtain ⟨x, hx, hn, rfl⟩ := mem_portsOf.mp hq
    rcases h x hx with h | h
    · simp [h] at hn
    · exact h.2

theorem listPins_of_get {c : Config} {l : Nat} {xs : List Pin} (h : c.lists[l]? = some xs) : listPins c l = xs := by
  simp [listPins, h]

theorem lt_of_list {c : Config} {l : Nat} {xs : List Pin} (h : c.lists[l]? = some xs) : l < c.lists.length := by
  by_contra hn
  rw [List.getElem?_eq_none (by omega)] at h
  cases h

/-- A usable bus passes every check of a write. -/
theorem busWriteChecks_holds {s : State} {b : Nat} (h : BusUsable s b) :
    ∀ c ∈ busWriteChecks s b, c.holds = true := by
  obtain ⟨⟨h1, h2, h3⟩, h4⟩ := h
  intro c hc
  simp only [busWriteChecks, busReadyChecks, List.mem_append, List.mem_cons, List.not_mem_nil, or_false] at hc
  rcases hc with (rfl | rfl) | hc
  · simpa using h1
  · exact h4
  · simp only [busListExists, busPins] at h2 h3
    split at hc
    · next l _ hb =>
      simp only [hb, decide_eq_true_eq] at h2 h3
      exact listAccessChecks_holds h2 h3 c hc
    · next w hb =>
      simp only [hb] at h3
      exact pinsChecks_holds.mpr (h3.mono (by simp)) c hc
    · simp at hc

/-- A readable bus passes every check of a read. -/
theorem busReadChecks_holds {s : State} {b : Nat} (h : BusReadable s b) :
    ∀ c ∈ busReadChecks s b, c.holds = true := by
  obtain ⟨⟨⟨h1, h2, -⟩, h4⟩, h3⟩ := h
  intro c hc
  simp only [busReadChecks, busReadyChecks, List.mem_append, List.mem_cons, List.not_mem_nil, or_false] at hc
  rcases hc with (rfl | rfl) | hc
  · simpa using h1
  · exact h4
  · simp only [busListExists, busLines] at h2 h3
    split at hc
    · next l _ hb =>
      simp only [hb, decide_eq_true_eq] at h2 h3
      exact listAccessChecks_holds h2 h3 c hc
    · next w hb =>
      simp only [hb] at h3
      exact pinsChecks_holds.mpr (h3.mono (by simp)) c hc
    · simp at hc

/-- A usable display passes every check of a byte. -/
theorem presentChecks_holds {s : State} (h : DisplayUsable s) : ∀ c ∈ presentChecks s, c.holds = true := by
  obtain ⟨h1, h2⟩ := h
  intro c hc
  simp only [presentChecks, List.mem_append] at hc
  rcases hc with (hc | hc) | hc
  · exact pinsChecks_holds.mpr (h2.mono (by simp [displayPins])) c hc
  · exact busWriteChecks_holds h1 c hc
  · exact pinChecks_holds.mpr (h2 _ (by simp [displayPins])) c hc

end Sys2Proof.Machine
end

