-- ==== Sys2Proof/Laws/Consistent.lean ====
section
/-! SUPPORT. Every action keeps a state consistent: registers inside their width, byte spaces in canonical form,
debounce states within spec 45 R260 and R263. -/

namespace Sys2Proof.Machine

/-- A register is well kept exactly if its bits with a value are inside `full` and its stored bits inside those. -/
theorem regOk_iff {w : Nat} (full : BitVec w) (r : Reg w) : regOk full r = true ↔
    (∀ i, r.known.getLsbD i = true → full.getLsbD i = true) ∧
      ∀ i, r.val.getLsbD i = true → r.known.getLsbD i = true := by
  simp only [regOk, Bool.and_eq_true, beq_iff_eq]
  constructor
  · rintro ⟨h1, h2⟩
    refine ⟨fun i hi => ?_, fun i hi => ?_⟩
    · have := congrArg (fun x => x.getLsbD i) h1
      have hw := BitVec.lt_of_getLsbD hi
      simpa [hi, hw] using this
    · have := congrArg (fun x => x.getLsbD i) h2
      have hw := BitVec.lt_of_getLsbD hi
      simpa [hi, hw] using this
  · rintro ⟨h1, h2⟩
    refine ⟨?_, ?_⟩ <;> (apply BitVec.eq_of_getLsbD_eq; intro i hi; simp [hi])
    · exact h1 i
    · exact h2 i

theorem regOk_noValue {w : Nat} (full : BitVec w) : regOk full Reg.noValue = true := by simp [regOk, Reg.noValue]

theorem regOk_regOf {w : Nat} (full v : BitVec w) : regOk full (regOf full v) = true := by
  rw [regOk_iff]
  simp [regOf]

theorem regOk_regWrite {w : Nat} {r : Reg w} {full : BitVec w} (mask v : BitVec w) (h : regOk full r = true)
    (hm : ∀ i, mask.getLsbD i = true → full.getLsbD i = true) : regOk full (regWrite r mask v) = true := by
  rw [regOk_iff] at h ⊢
  simp only [regWrite, BitVec.getLsbD_or, BitVec.getLsbD_and, BitVec.getLsbD_not]
  refine ⟨fun i hi => ?_, fun i hi => ?_⟩
  · have := h.1 i
    have := hm i
    grind
  · have := h.2 i
    grind

theorem getLsbD_allOnes_of {w : Nat} (m : BitVec w) :
    ∀ i, m.getLsbD i = true → (BitVec.allOnes w).getLsbD i = true := by
  intro i hi
  have := BitVec.lt_of_getLsbD hi
  simp [this]

theorem regOk_odrAfterBsr (ov : CasOverlap) (r : Reg 16) (clr set : Half)
    (h : regOk (BitVec.allOnes 16) r = true) : regOk (BitVec.allOnes 16) (odrAfterBsr ov r clr set) = true := by
  unfold odrAfterBsr
  split <;> exact regOk_regWrite _ _ h (getLsbD_allOnes_of _)

theorem regOk_shiftIn {n : Nat} {r : Reg 16} (l : Option Bool) (h : regOk (BitVec.ofNat 16 (2 ^ n - 1)) r = true) :
    regOk (BitVec.ofNat 16 (2 ^ n - 1)) (shiftIn n r l) = true := by
  rw [regOk_iff] at h ⊢
  simp only [shiftIn, BitVec.getLsbD_or, BitVec.getLsbD_and, BitVec.getLsbD_shiftLeft]
  generalize BitVec.ofNat 16 (2 ^ n - 1) = full at *
  refine ⟨fun i hi => ?_, fun i hi => ?_⟩
  · grind
  · have := h.2 (i - 1)
    rcases l with _ | _ | _ <;> simp at * <;> grind

/-- The receivers keep their width over a write. -/
theorem shiftRxAll_ok (low : Bool) (before after : List Port) (p : Nat) (clr set : Half) (bs : List BusCfg)
    (rxs : List ShiftRx) (h : shiftRxOk bs rxs = true) :
    shiftRxOk bs (shiftRxAll low before after p clr set bs rxs) = true ∧
      (shiftRxAll low before after p clr set bs rxs).length = rxs.length := by
  fun_induction shiftRxAll low before after p clr set bs rxs with
  | case1 w bs rx rxs ih =>
    simp only [shiftRxOk, Bool.and_eq_true] at h ⊢
    have hsr : regOk (BitVec.ofNat 16 (2 ^ w.bits - 1)) (srAfter w before after rx.sr) = true := by
      unfold srAfter
      split
      · exact h.1.1
      · exact regOk_shiftIn _ h.1.1
      · exact regOk_noValue _
    refine ⟨⟨⟨hsr, ?_⟩, (ih h.2).1⟩, by simp [(ih h.2).2]⟩
    simp only [shiftRxAfter]
    split
    · exact h.1.2
    · split
      · exact hsr
      · exact regOk_noValue _
    · exact regOk_noValue _
  | case2 l c bs rx rxs ih =>
    simp [shiftRxOk] at h ⊢
    exact ⟨(ih h).1, (ih h).2⟩
  | case3 => exact ⟨h, rfl⟩

theorem portOk_reset (c : Config) : portOk c Port.reset = true := by
  simp [portOk, Port.reset, regOk_noValue, allRegs, cfgReg]

theorem portOk_port {s : State} (h : s.ports.all (portOk s.config) = true) (p : Nat) : portOk s.config (s.port p) = true := by
  unfold State.port
  rw [List.getD_eq_getElem?_getD]
  cases hp : s.ports[p]? with
  | none => exact portOk_reset _
  | some q => exact List.all_eq_true.mp h q (List.mem_of_getElem? hp)

theorem all_set {α : Type} {l : List α} {f : α → Bool} {p : Nat} {x : α} (h : l.all f = true) (hx : f x = true) :
    (l.set p x).all f = true := by
  rw [List.all_eq_true] at *
  intro y hy
  rcases List.mem_or_eq_of_mem_set hy with h1 | rfl
  · exact h y h1
  · exact hx

theorem setPort_consistent {s : State} (h : Consistent s) (p : Nat) (q : Port) (hq : portOk s.config q = true) :
    Consistent (s.setPort p q) :=
  { h with portsLen := by simpa using h.portsLen, ports := all_set h.ports hq }

theorem setOdr_consistent {s : State} (h : Consistent s) (p : Nat) (r : Reg 16) (clr set : Half)
    (hr : regOk (BitVec.allOnes 16) r = true) : Consistent (s.setOdr p r clr set) := by
  have hp := portOk_port h.ports p
  have hq : portOk s.config { s.port p with odr := r } = true := by
    simp only [portOk, Bool.and_eq_true] at hp ⊢
    exact ⟨hr, hp.2⟩
  have hh := shiftRxAll_ok s.config.csActiveLow s.ports (s.ports.set p { s.port p with odr := r }) p clr set
    s.config.buses s.shiftRx h.rx
  exact { h with
    portsLen := by simpa [State.setOdr] using h.portsLen
    ports := all_set h.ports hq
    rx := hh.1
    rxLen := hh.2.trans h.rxLen }

theorem tracePin_consistent {s : State} (h : Consistent s) (t : PinItem) : Consistent (s.tracePin t) := { h with }

theorem bsrWrite_consistent {s : State} (h : Consistent s) (p : Nat) (clr set : Half) :
    Consistent (s.bsrWrite p clr set) := by
  refine tracePin_consistent (setOdr_consistent h _ _ _ _ (regOk_odrAfterBsr _ _ _ _ ?_)) _
  have := portOk_port h.ports p
  simp only [portOk, Bool.and_eq_true] at this
  exact this.1

theorem setCfg_consistent {s : State} (h : Consistent s) (p : Nat) (k : CfgReg) (r : Reg 64) (v : Word)
    (hr : regOk (fullMask (s.config.width k)) r = true) : Consistent (s.setCfg p k r v) := by
  refine tracePin_consistent (setPort_consistent h p _ ?_) _
  have := portOk_port h.ports p
  simp only [portOk, allRegs, List.all_cons, List.all_nil, Bool.and_eq_true] at this ⊢
  cases k <;> simp only [withCfgReg, cfgReg] at * <;> grind

theorem setDeb_consistent {s : State} (h : Consistent s) (d : Nat) (x : Deb)
    (hx : debStateOk s.config.cntMax x = true) : Consistent { s with debs := s.debs.set d x } :=
  { h with debsLen := by simpa using h.debsLen, debs := all_set h.debs hx }

theorem debStateOk_deb {s : State} (h : Consistent s) (d : Nat) : debStateOk s.config.cntMax (s.deb d) = true := by
  unfold State.deb
  rw [List.getD_eq_getElem?_getD]
  cases hp : s.debs[d]? with
  | none => simp [debStateOk, Deb.reset]
  | some q => exact List.all_eq_true.mp h.debs q (List.mem_of_getElem? hp)

theorem setCtx_consistent {s : State} (h : Consistent s) (c : Ctx) (hc : c.gbuf.wf = true) :
    Consistent { s with ctx := c } :=
  { h with
    gbufs := by
      have := h.gbufs
      simp only [List.all_cons, Bool.and_eq_true] at this ⊢
      exact ⟨hc, this.2⟩ }

theorem Consistent.gbuf_wf {s : State} (h : Consistent s) : s.ctx.gbuf.wf = true := by
  have := h.gbufs
  simp only [List.all_cons, Bool.and_eq_true] at this
  exact this.1

theorem cntMax_pos {c : Config} (h : c.wellFormed = true) : 1 ≤ c.cntMax := by
  simp only [Config.wellFormed, Config.sizesOk, Bool.and_eq_true, decide_eq_true_eq] at h
  have : 1 ≤ c.cntWidth := by tauto
  unfold Config.cntMax
  have := Nat.pow_le_pow_right (n := 2) (by omega) this
  omega

/-- Every action keeps a consistent state consistent. -/
theorem runAct_consistent (a : Act) {s : State} (h : Consistent s) : Consistent (runAct a s) := by
  have hg := h.gbuf_wf
  cases a
  case bsr p c m => exact bsrWrite_consistent h _ _ _
  case bsrBit x i src =>
    simp only [runAct, State.pinWrite]
    split <;> exact bsrWrite_consistent h _ _ _
  case bsrList q l src => exact bsrWrite_consistent h _ _ _
  case odrRead p => exact { (setCtx_consistent h { s.ctx with locals := _ } hg) with }
  case odrToggle p m => exact tracePin_consistent (setOdr_consistent h _ _ _ _ (regOk_regOf _ _)) _
  case odrWrite p v => exact tracePin_consistent (setOdr_consistent h _ _ _ _ (regOk_regOf _ _)) _
  case sample p => exact { (setCtx_consistent h { s.ctx with locals := _ } hg) with }
  case cfgRead p k => exact { (setCtx_consistent h { s.ctx with locals := _ } hg) with }
  case cfgMerge p k m v =>
    refine setCfg_consistent h _ _ _ _ ?_
    rw [regOk_iff]
    simp only [BitVec.getLsbD_and]
    constructor <;> intro i hi <;> grind
  case cfgReplace p k m v o =>
    exact { (setCfg_consistent h p k _ (replaceValue (s.config.width k) m v o s.freeWord) (regOk_regOf _ _)) with }
  case enable p =>
    refine tracePin_consistent (setPort_consistent h p _ ?_) _
    exact portOk_port h.ports p
  case hold n => exact tracePin_consistent h _
  case bufRead a => exact { (setCtx_consistent h { s.ctx with locals := _ } hg) with }
  case blobRead f a => exact setCtx_consistent h _ hg
  case glyphBit k p => exact setCtx_consistent h _ hg
  case gbufWrite n => exact setCtx_consistent h _ (Memory.put_wf _ _ hg)
  case emit =>
    simp only [runAct, State.emitEvent]
    split
    · exact { h with }
    · exact h
  case resLoaded => exact setCtx_consistent h _ hg
  case resSampled => exact setCtx_consistent h _ hg
  case resConst v => exact setCtx_consistent h _ hg
  case takeBit v => exact setCtx_consistent h _ hg
  case packList v => exact setCtx_consistent h _ hg
  case packSerial n v => exact setCtx_consistent h _ hg
  case busInit b => exact { h with }
  case busWr b x => exact { h with }
  case busRd b => exact { (setCtx_consistent h { s.ctx with res := _ } hg) with }
  case busReady b => exact { h with busLen := by simpa [runAct] using h.busLen }
  case dispReset => exact { h with }
  case dispCmd c b =>
    cases c
    case page pg => exact { h with pp := by simp [regOk, runAct, State.rxCmd] }
    case colHigh n => exact { h with cptr := regOk_regWrite _ _ h.cptr (getLsbD_allOnes_of _) }
    case colLow n => exact { h with cptr := regOk_regWrite _ _ h.cptr (getLsbD_allOnes_of _) }
    case other => exact { h with }
  case dispData src =>
    simp only [runAct, State.rxData]
    split
    · exact { h with gram := Memory.put_wf _ _ h.gram, cptr := by simp [regOk] }
    · exact { h with gram := rfl, pp := regOk_noValue _, cptr := regOk_noValue _ }
  case dispGo t => exact { h with }
  case glyphLen n => exact setCtx_consistent h _ hg
  case debInit d => exact setDeb_consistent h _ _ (by simp [debStateOk])
  case pollUpdate d =>
    have h1 := setDeb_consistent h d (pollState s.config.cntMax (s.deb d) s.pollMask) (by
      have h1 := debStateOk_deb h d
      have h2 := cntMax_pos h.config
      unfold pollState
      split
      · next hm =>
        simp_all [debStateOk, cntUp]
        grind
      · exact h1)
    exact { (setCtx_consistent h1 { s.ctx with locals := _ } hg) with }
  case pollEnd d =>
    refine setDeb_consistent h d _ ?_
    have h1 := debStateOk_deb h d
    unfold pollDone
    split
    · exact h1
    · simp [debStateOk]
  case retire => exact setCtx_consistent h _ hg

theorem runActs_consistent (as : List Act) {s : State} (h : Consistent s) : Consistent (runActs as s) :=
  runActs_induct h (fun a _ _ h => runAct_consistent a h)

/-- Taking a context out of a list only reorders it. -/
theorem takeCtx_perm {id : Nat} {l cs : List Ctx} {c : Ctx} (h : takeCtx id l = some (c, cs)) : l.Perm (c :: cs) := by
  induction l generalizing c cs with
  | nil => cases h
  | cons x xs ih =>
    simp only [takeCtx] at h
    split at h
    · cases h
      exact List.Perm.refl _
    · split at h
      · next d ds hd =>
        cases h
        exact (List.Perm.cons x (ih hd)).trans (List.Perm.swap _ _ _)
      · cases h

/-- Another order of the contexts is as consistent. -/
theorem consistent_of_perm {s : State} (h : Consistent s) (c : Ctx) (cs : List Ctx)
    (hp : (s.ctx :: s.parked).Perm (c :: cs)) : Consistent { s with ctx := c, parked := cs } :=
  { h with
    gbufs := List.all_eq_true.mpr (fun x hx => List.all_eq_true.mp h.gbufs x (hp.mem_iff.mpr hx)) }

end Sys2Proof.Machine
end

