-- ==== Sys2Proof/Laws/Decode.lean ====
section
/-! SUPPORT. Fields of a command word: pulled out and put back. -/

namespace Sys2Proof

@[simp] theorem CommandWord.ofWord_toWord (f : CommandWord) : CommandWord.ofWord f.toWord = f := by
  cases f
  simp only [CommandWord.toWord, CommandWord.ofWord, CommandWord.mk.injEq]
  refine ⟨?_, ?_, ?_, ?_, ?_⟩ <;> (ext i hi; simp; try grind)

@[simp] theorem CommandWord.toWord_ofWord (w : Word) : (CommandWord.ofWord w).toWord = w := by
  ext i hi
  simp [CommandWord.toWord, CommandWord.ofWord]
  grind

/-- A packed configuration record unpacks to what was packed. -/
@[simp] theorem PinCfg.ofBits_toBits (x : PinCfg) : PinCfg.ofBits x.toBits = x := by
  cases x
  simp only [PinCfg.ofBits, PinCfg.toBits, PinCfg.mk.injEq]
  refine ⟨?_, ?_, ?_, ?_, ?_⟩ <;> (ext i hi; simp; try grind)

@[simp] theorem PinCfg.toBits_ofBits (x : BitVec 12) : (PinCfg.ofBits x).toBits = x := by
  ext i hi
  simp [PinCfg.ofBits, PinCfg.toBits]
  grind

/-- An operand field that is narrower than its place has no bits above it. -/
theorem highZero_setWidth {k : Nat} (x : BitVec k) : highZero k (x.setWidth 16) = true := by
  simp only [highZero, beq_iff_eq]
  ext i hi
  simp

end Sys2Proof
end

