-- ==== Sys2Proof/Laws/Lists.lean ====
section
/-! SUPPORT. Bits of the masks and packings of pin lists (spec 41 R160, R162, 42 R186), of samples (10 R23) and of
glyph bytes (44 R243), and the display RAM's cell (10 R38). -/

namespace Sys2Proof.Machine

theorem getLsbD_one_shiftLeft (n b : Nat) (hn : n < 16) : (1#16 <<< n).getLsbD b = decide (b = n) := by
  by_cases h : b = n
  · subst h
    simp [hn]
  · simp only [h, decide_false]
    rcases Nat.lt_or_gt_of_ne h with h | h
    · simp [h]
    · have : 0 < b - n := by omega
      simp only [BitVec.getLsbD_shiftLeft, BitVec.getLsbD_one]
      simp
      omega

theorem getLsbD_pinMask (x : Pin) (b : Nat) : (pinMask x).getLsbD b = decide (b = x.pos.val) :=
  getLsbD_one_shiftLeft _ _ x.pos.isLt

/-- A bit of a list's mask stands for one of its pins. -/
theorem getLsbD_listMask (q : Nat) (xs : List Pin) (b : Nat) :
    (listMask q xs).getLsbD b = true ↔ ∃ x ∈ xs, onPort x q = true ∧ x.pos.val = b := by
  induction xs with
  | nil => simp [listMask]
  | cons x xs ih =>
    simp only [listMask, BitVec.getLsbD_or, Bool.or_eq_true, ih, List.mem_cons, exists_eq_or_imp]
    refine or_congr ?_ Iff.rfl
    cases onPort x q <;> simp [getLsbD_pinMask, eq_comm]

/-- A bit of the set mask stands for a pin whose bit of the value is 1 (R160). -/
theorem getLsbD_setMask (q : Nat) (v : Half) (i : Nat) (xs : List Pin) (b : Nat) :
    (setMask q v i xs).getLsbD b = true ↔
      ∃ k x, xs[k]? = some x ∧ onPort x q = true ∧ v.getLsbD (i + k) = true ∧ x.pos.val = b := by
  induction xs generalizing i with
  | nil => simp [setMask]
  | cons x xs ih =>
    simp only [setMask, BitVec.getLsbD_or, Bool.or_eq_true, ih]
    constructor
    · rintro (h | ⟨k, y, hy, h⟩)
      · refine ⟨0, x, rfl, ?_⟩
        cases h1 : onPort x q <;> cases h2 : v.getLsbD i <;> simp_all [getLsbD_pinMask]
      · exact ⟨k + 1, y, by simpa using hy, by rw [show i + (k + 1) = i + 1 + k by omega]; exact h⟩
    · rintro ⟨k, y, hy, h1, h2, h3⟩
      cases k with
      | zero =>
        simp at hy
        subst hy
        left
        simp_all [getLsbD_pinMask]
      | succ k =>
        exact Or.inr ⟨k, y, by simpa using hy, h1, by rw [show i + 1 + k = i + (k + 1) by omega]; exact h2, h3⟩

/-- A bit of the clear mask stands for a pin whose bit of the value is 0 (R160). -/
theorem getLsbD_clrMask (q : Nat) (v : Half) (i : Nat) (xs : List Pin) (b : Nat) :
    (clrMask q v i xs).getLsbD b = true ↔
      ∃ k x, xs[k]? = some x ∧ onPort x q = true ∧ v.getLsbD (i + k) = false ∧ x.pos.val = b := by
  induction xs generalizing i with
  | nil => simp [clrMask]
  | cons x xs ih =>
    simp only [clrMask, BitVec.getLsbD_or, Bool.or_eq_true, ih]
    constructor
    · rintro (h | ⟨k, y, hy, h⟩)
      · refine ⟨0, x, rfl, ?_⟩
        cases h1 : onPort x q <;> cases h2 : v.getLsbD i <;> simp_all [getLsbD_pinMask]
      · exact ⟨k + 1, y, by simpa using hy, by rw [show i + (k + 1) = i + 1 + k by omega]; exact h⟩
    · rintro ⟨k, y, hy, h1, h2, h3⟩
      cases k with
      | zero =>
        simp at hy
        subst hy
        left
        simp_all [getLsbD_pinMask]
      | succ k =>
        exact Or.inr ⟨k, y, by simpa using hy, h1, by rw [show i + 1 + k = i + (k + 1) by omega]; exact h2, h3⟩

/-- Bit b of a list's packed samples is its pin number b − i (R162). -/
theorem getLsbD_packSamples (smp : List (Nat × Half)) (i : Nat) (xs : List Pin) (hx : i + xs.length ≤ 16) (b : Nat) :
    (packSamples smp i xs).getLsbD b = (decide (i ≤ b) && match xs[b - i]? with
      | some x => !x.isNull && (sampleOf x.port.toNat smp).getLsbD x.pos.val
      | none => false) := by
  induction xs generalizing i with
  | nil => simp [packSamples]
  | cons x xs ih =>
    simp only [List.length_cons] at hx
    simp only [packSamples, BitVec.getLsbD_or, ih (i + 1) (by omega)]
    by_cases hb : b = i
    · subst hb
      have h1 : ¬ b + 1 ≤ b := by omega
      simp only [h1, decide_false, Bool.false_and, Bool.or_false, le_refl, decide_true, Bool.true_and,
        Nat.sub_self, List.getElem?_cons_zero]
      cases hc : (!x.isNull && (sampleOf x.port.toNat smp).getLsbD x.pos.val)
      · simp
      · simp only [if_true]
        rw [getLsbD_one_shiftLeft _ _ (by omega)]
        simp
    · have h0 : (if (!x.isNull && (sampleOf x.port.toNat smp).getLsbD x.pos.val) = true then 1#16 <<< i else 0).getLsbD b
          = false := by
        split
        · rw [getLsbD_one_shiftLeft _ _ (by omega)]
          simpa using hb
        · simp
      rw [h0, Bool.false_or]
      by_cases hlt : b < i
      · have h1 : ¬ i + 1 ≤ b := by omega
        have h2 : ¬ i ≤ b := by omega
        simp [h1, h2]
      · have h1 : i + 1 ≤ b := by omega
        have h2 : i ≤ b := by omega
        have h3 : b - i = (b - (i + 1)) + 1 := by omega
        simp [h1, h2, h3]

/-- Bit b of a serial read is sample `n − 1 − b` or sample b (R186). -/
theorem getLsbD_packBits (n : Nat) (first : Bool) (bits : List Bool) (j : Nat) (hn : n ≤ 16) (hj : j + bits.length ≤ n)
    (b : Nat) (hb : b < n) :
    (packBits n first j bits).getLsbD b =
      (let k := if first then n - 1 - b else b
       decide (j ≤ k) && bits.getD (k - j) false) := by
  induction bits generalizing j with
  | nil => simp [packBits]
  | cons x bits ih =>
    simp only [List.length_cons] at hj
    simp only [packBits, BitVec.getLsbD_or, ih (j + 1) (by omega)]
    have hs : (if first then n - 1 - j else j) < 16 := by split <;> omega
    have h0 : (if x = true then 1#16 <<< (if first = true then n - 1 - j else j) else 0).getLsbD b =
        (x && decide ((if first then n - 1 - b else b) = j)) := by
      cases x
      · simp
      · simp only [if_true, Bool.true_and]
        rw [getLsbD_one_shiftLeft _ _ hs]
        cases first
        · simp
        · simp
          omega
    rw [h0]
    generalize (if first = true then n - 1 - b else b) = k
    rcases Nat.lt_trichotomy k j with h | h | h
    · have h1 : ¬ j + 1 ≤ k := by omega
      have h2 : ¬ j ≤ k := by omega
      have h3 : k ≠ j := by omega
      simp [h1, h2, h3]
    · subst h
      have h1 : ¬ k + 1 ≤ k := by omega
      simp [h1]
    · have h1 : j + 1 ≤ k := by omega
      have h2 : j ≤ k := by omega
      have h3 : k ≠ j := by omega
      have h4 : k - j = (k - (j + 1)) + 1 := by omega
      simp [h1, h2, h3, h4]

/-- A pin is in the output mask of a port exactly if its fields say push-pull output (R23). -/
theorem getLsbD_outputPins (c : Config) (q : Port) (n i : Nat) (hn : n ≤ 16) :
    (outputPins c q n).getLsbD i = (decide (i < n) && (fieldIs (c.width .mode) q.mode i c.modeOutput &&
      fieldIs (c.width .dtype) q.dtype i c.dtypePushPull)) := by
  induction n with
  | zero => simp [outputPins]
  | succ n ih =>
    simp only [outputPins, BitVec.getLsbD_or, ih (by omega)]
    by_cases hi : i = n
    · subst hi
      have h1 : ¬ i < i := by omega
      simp only [h1, decide_false, Bool.false_and, Bool.or_false, Nat.lt_succ_self, decide_true, Bool.true_and]
      split
      · next h =>
        rw [getLsbD_one_shiftLeft _ _ (by omega)]
        simp [h]
      · next h => simp [Bool.eq_false_iff.mpr h]
    · have h0 : (if (fieldIs (c.width .mode) q.mode n c.modeOutput &&
          fieldIs (c.width .dtype) q.dtype n c.dtypePushPull) = true then 1#16 <<< n else 0).getLsbD i = false := by
        split
        · rw [getLsbD_one_shiftLeft _ _ (by omega)]
          simpa using hi
        · simp
      rw [h0, Bool.false_or]
      by_cases hl : i < n
      · have : i < n + 1 := by omega
        simp [hl, this]
      · have : ¬ i < n + 1 := by omega
        simp [hl, this]

/-- Bit i of a sample: the `ODR` bit of a push-pull output, else the environment's answer (R23). -/
theorem getLsbD_sampleValue (s : State) (p i : Nat) (hi : i < 16) :
    (s.sampleValue p).getLsbD i =
      if fieldIs (s.config.width .mode) (s.port p).mode i s.config.modeOutput &&
          fieldIs (s.config.width .dtype) (s.port p).dtype i s.config.dtypePushPull
      then (s.odrValue p).getLsbD i else s.padAnswer.getLsbD i := by
  simp only [State.sampleValue, BitVec.getLsbD_or, BitVec.getLsbD_and, BitVec.getLsbD_not,
    getLsbD_outputPins _ _ _ _ (le_refl 16), hi, decide_true, Bool.true_and]
  cases fieldIs (s.config.width .mode) (s.port p).mode i s.config.modeOutput <;>
    cases fieldIs (s.config.width .dtype) (s.port p).dtype i s.config.dtypePushPull <;> simp

/-- Setting or clearing bit k of a byte changes that bit alone (R243). -/
theorem getLsbD_putBit (d : Byte) {k : Nat} (b : Bool) (j : Nat) (hk : k < 8) :
    (putBit d k b).getLsbD j = if j = k then b else d.getLsbD j := by
  have h1 : (1#8 <<< k).getLsbD j = decide (j = k) := by
    by_cases h : j = k
    · subst h
      simp [hk]
    · have h2 : j < k ∨ j - k ≠ 0 := by omega
      rcases h2 with h2 | h2 <;> simp [h, h2]
  have hj : j = k → j < 8 := by omega
  have hd := fun h => BitVec.getLsbD_of_ge d j h
  cases b <;> simp only [putBit, BitVec.getLsbD_or, BitVec.getLsbD_and, BitVec.getLsbD_not, h1, if_true, if_false,
    Bool.false_eq_true] <;> by_cases h : j = k <;> by_cases h8 : j < 8 <;> simp_all

/-- The bit reads of a glyph byte collect the row-plane's bits in the destination byte and do nothing else (R243). -/
theorem runActs_glyphBits (msb : Bool) {fno : Nat} {f : Font} (g n : Nat) {m : Nat} (hm : m ≤ 8) {s : State}
    (hf : s.config.fonts[fno]? = some f) :
    ∃ b d, runActs ((List.range m).flatMap (glyphBitActs msb fno f g n)) s =
        s.setLocals { s.ctx.locals with byte := b, glyph := d } ∧
      ∀ k < m, d.getLsbD k =
        (f.blob.getD (rowPlane f g n + streamIndex f n k / 8) 0).getLsbD (streamPos msb (streamIndex f n k)) := by
  induction m with
  | zero => exact ⟨s.ctx.locals.byte, s.ctx.locals.glyph, rfl, by simp⟩
  | succ m ih =>
    obtain ⟨b, d, h1, h2⟩ := ih (by omega)
    rw [List.range_succ, List.flatMap_append, runActs_append, h1]
    refine ⟨f.blob.getD (rowPlane f g n + streamIndex f n m / 8) 0,
      putBit d m ((f.blob.getD (rowPlane f g n + streamIndex f n m / 8) 0).getLsbD
        (streamPos msb (streamIndex f n m))), ?_, fun k hk => ?_⟩
    · simp [glyphBitActs, runAct, State.blobRead, State.glyphBit, hf, State.setLocals]
    · rw [getLsbD_putBit _ _ _ (by omega)]
      split
      · next h => rw [h]
      · exact h2 k (by omega)

/-- The actions for one destination byte write it to `GBUF`, every bit the row-plane's, and nothing else (R243). -/
theorem runActs_glyphByteActs (msb : Bool) {fno : Nat} {f : Font} (g n : Nat) {s : State}
    (hf : s.config.fonts[fno]? = some f) :
    ∃ l d, runActs (glyphByteActs msb fno f g n) s =
        s.setCtx { s.ctx with locals := l, gbuf := s.ctx.gbuf.put n d } ∧
      ∀ k < 8, d.getLsbD k =
        (f.blob.getD (rowPlane f g n + streamIndex f n k / 8) 0).getLsbD (streamPos msb (streamIndex f n k)) := by
  obtain ⟨b, d, h1, h2⟩ := runActs_glyphBits msb g n (Nat.le_refl 8) hf
  exact ⟨_, d, by rw [glyphByteActs, runActs_append, h1]; rfl, h2⟩

/-- A data byte with both pointers inside the RAM goes to its cell and moves the column pointer on (R38). -/
theorem rxData_at {s : State} {pg : BitVec 4} {col : Byte} (b : Byte) (hp : s.pp = ⟨pg, BitVec.allOnes 4⟩)
    (hc : s.cptr = ⟨col, BitVec.allOnes 8⟩) (h1 : pg.toNat < s.config.profile.pages)
    (h2 : col.toNat < s.config.profile.ramWidth) :
    s.rxData b = { s with
      gram := s.gram.put (256 * pg.toNat + col.toNat) b, cptr := ⟨col + 1, BitVec.allOnes 8⟩ } := by
  have : s.rxCell = some (256 * pg.toNat + col.toNat) := by
    simp [State.rxCell, hp, hc, h1, h2]
  simp [State.rxData, this, hc]

/-- A write by the 32-bit word of the set/clear register is the write of its two halves (R22, R99). -/
theorem bsrStore_bsrWord (s : State) (p : Nat) (clr set : Half) :
    s.bsrStore p (bsrWord clr set) = s.bsrWrite p clr set := by
  have h1 : (bsrWord clr set).extractLsb' 16 16 = clr := by
    show (clr ++ set : BitVec (16 + 16)).extractLsb' 16 16 = clr
    ext i hi
    rw [BitVec.getElem_extractLsb', BitVec.getLsbD_append]
    simp [hi]
  have h2 : (bsrWord clr set).extractLsb' 0 16 = set := by
    show (clr ++ set : BitVec (16 + 16)).extractLsb' 0 16 = set
    ext i hi
    rw [BitVec.getElem_extractLsb', BitVec.getLsbD_append]
    simp [hi]
  simp [State.bsrStore, h1, h2]

end Sys2Proof.Machine
end

