-- ==== Sys2Proof/Laws/PerInstr.lean ====
section
/-! SUPPORT. Per operation: its word carries the operation code of spec 30 R93 in bits 63:56. -/

namespace Sys2Proof.Laws.OpcodeByte

/-- The operation's word has, in bits 63:56, the OPC of R93. -/
def Statement (i : Instr) : Prop := (encode i).extractLsb' 56 8 = opcode i

/-- The OPC field of an encoded operation is what the encoder put there. -/
theorem of_fields (i : Instr) (h : (encodeFields i).opc = opcode i) : Statement i := by
  have : (CommandWord.ofWord (encode i)).opc = (encodeFields i).opc := by simp [encode]
  exact this.trans h

theorem pset (p : Byte) (m : Half) : Statement (.pset p m) := of_fields _ rfl

theorem pclr (p : Byte) (m : Half) : Statement (.pclr p m) := of_fields _ rfl

theorem pcas (p : Byte) (c m : Half) : Statement (.pcas p c m) := of_fields _ rfl

theorem ptgl (p : Byte) (m : Half) : Statement (.ptgl p m) := of_fields _ rfl

theorem pwr (p : Byte) (v : Half) : Statement (.pwr p v) := of_fields _ rfl

theorem prd (p : Byte) : Statement (.prd p) := of_fields _ rfl

theorem prdo (p : Byte) : Statement (.prdo p) := of_fields _ rfl

theorem pfldm (p : Byte) (m : Half) (k : BitVec 3) (v : BitVec 4) : Statement (.pfldm p m k v) := of_fields _ rfl

theorem pcfgr (p : Byte) (m : Half) (c : PinCfg) : Statement (.pcfgr p m c) := of_fields _ rfl

theorem prdc (p : Byte) (k : BitVec 3) : Statement (.prdc p k) := of_fields _ rfl

theorem pen (p : Byte) : Statement (.pen p) := of_fields _ rfl

theorem lwr (l : Byte) (v : Half) : Statement (.lwr l v) := of_fields _ rfl

theorem lrd (l : Byte) : Statement (.lrd l) := of_fields _ rfl

theorem binit (b : Byte) : Statement (.binit b) := of_fields _ rfl

theorem bwr (b x : Byte) : Statement (.bwr b x) := of_fields _ rfl

theorem brd (b : Byte) : Statement (.brd b) := of_fields _ rfl

theorem dinit : Statement (.dinit) := of_fields _ rfl

theorem dputb (x : Half) (page byte : Byte) : Statement (.dputb x page byte) := of_fields _ rfl

theorem dputp (x1 x2 : Half) (page : Byte) (buf : Half) : Statement (.dputp x1 x2 page buf) := of_fields _ rfl

theorem dclr : Statement (.dclr) := of_fields _ rfl

theorem dfill (b : Byte) : Statement (.dfill b) := of_fields _ rfl

theorem gbmp (f : Byte) (cp : BitVec 32) : Statement (.gbmp f cp) := of_fields _ rfl

theorem kinit (d : Byte) : Statement (.kinit d) := of_fields _ rfl

theorem kpoll (d : Byte) : Statement (.kpoll d) := of_fields _ rfl

end Sys2Proof.Laws.OpcodeByte
end

