-- ==== Sys2Proof/Laws/Plan.lean ====
section
/-! SUPPORT. `cp` is advanced once, by the last action of an operation (spec 10 R25), and no action looks at what of
its operation is still to do. -/

namespace Sys2Proof.Machine

/-- Only `retire` advances `cp`. -/
theorem runAct_cp (a : Act) (s : State) :
    (runAct a s).ctx.cp = if a = .retire then s.ctx.cp + 1 else s.ctx.cp := by
  cases a
  case bsrBit x i src =>
    simp only [runAct, State.pinWrite]
    split <;> simp [State.bsrWrite, State.setOdr]
  case emit =>
    simp only [runAct, State.emitEvent]
    split <;> rfl
  case dispCmd c byte => cases c <;> rfl
  case dispData src =>
    simp only [runAct, State.rxData]
    split <;> rfl
  all_goals rfl

theorem runActs_cp {as : List Act} (h : Act.retire ∉ as) (s : State) : (runActs as s).ctx.cp = s.ctx.cp := by
  induction as generalizing s with
  | nil => rfl
  | cons a as ih =>
    simp only [List.mem_cons, not_or] at h
    rw [runActs_cons, ih h.2, runAct_cp, if_neg (fun e => h.1 e.symm)]

/-- No action looks at the actions still to do. -/
theorem runAct_queue (a : Act) (s : State) (q : List Act) :
    runAct a (s.setCtx { s.ctx with queue := q }) = (runAct a s).setCtx { (runAct a s).ctx with queue := q } := by
  cases a
  case bsrBit x i src =>
    have e : (srcValue (s.setCtx { s.ctx with queue := q }).ctx.locals src).getLsbD i =
      (srcValue s.ctx.locals src).getLsbD i := rfl
    simp only [runAct, State.pinWrite, e]
    cases (srcValue s.ctx.locals src).getLsbD i <;> rfl
  case emit =>
    simp only [runAct, State.emitEvent, State.setCtx]
    cases s.ctx.locals.event <;> rfl
  case dispCmd c byte => cases c <;> rfl
  case dispData src =>
    simp only [runAct, State.rxData]
    show State.traceDisp (match s.rxCell with | some a => _ | none => _) _ = _
    cases s.rxCell <;> rfl
  all_goals rfl

theorem runActs_queue (as : List Act) (s : State) (q : List Act) :
    runActs as (s.setCtx { s.ctx with queue := q }) =
      (runActs as s).setCtx { (runActs as s).ctx with queue := q } := by
  induction as generalizing s with
  | nil => rfl
  | cons a as ih => rw [runActs_cons, runActs_cons, runAct_queue, ih]

theorem noRetire_flatMap {α : Type} {l : List α} {f : α → List Act} (h : ∀ a ∈ l, Act.retire ∉ f a) :
    Act.retire ∉ l.flatMap f := by
  simp only [List.mem_flatMap, not_exists, not_and]
  exact h

theorem noRetire_pinSet (x : Pin) : Act.retire ∉ pinSet x := by unfold pinSet; split <;> simp

theorem noRetire_pinClear (x : Pin) : Act.retire ∉ pinClear x := by unfold pinClear; split <;> simp

theorem noRetire_pinWriteBit (x : Pin) (i : Nat) (src : Src) : Act.retire ∉ pinWriteBit x i src := by
  unfold pinWriteBit; split <;> simp

theorem noRetire_assertCs (c : Config) (x : Pin) : Act.retire ∉ assertCs c x := by
  unfold assertCs; split
  · exact noRetire_pinClear x
  · exact noRetire_pinSet x

theorem noRetire_releaseCs (c : Config) (x : Pin) : Act.retire ∉ releaseCs c x := by
  unfold releaseCs; split
  · exact noRetire_pinSet x
  · exact noRetire_pinClear x

theorem noRetire_pcfgmActs (p : Nat) (mask : Half) (cfg : PinFields) : Act.retire ∉ pcfgmActs p mask cfg := by
  simp [pcfgmActs, mergeActs, allRegs]

theorem noRetire_pinCfgActs (x : Pin) (cfg : PinFields) : Act.retire ∉ pinCfgActs x cfg := by
  unfold pinCfgActs; split
  · simp
  · exact noRetire_pcfgmActs _ _ _

theorem noRetire_serialBits (w : ShiftCfg) (src : Src) (n : Nat) : Act.retire ∉ serialBits w src n := by
  induction n with
  | zero => simp [serialBits]
  | succ n ih => simp [serialBits, ih, noRetire_pinClear, noRetire_pinSet, noRetire_pinWriteBit]

theorem noRetire_serialWrite (c : Config) (w : ShiftCfg) (src : Src) : Act.retire ∉ serialWrite c w src := by
  simp [serialWrite, noRetire_serialBits, noRetire_assertCs, noRetire_releaseCs]

theorem noRetire_serialPulse (w : ShiftCfg) : Act.retire ∉ serialPulse w := by
  simp only [serialPulse, List.mem_append, noRetire_pinClear, noRetire_pinSet]
  unfold serialSample
  split <;> simp

theorem noRetire_serialRead (c : Config) (w : ShiftCfg) : Act.retire ∉ serialRead c w := by
  simp only [serialRead, List.mem_append, noRetire_serialWrite, List.mem_flatten, List.mem_replicate]
  rintro ((h | ⟨l, ⟨-, rfl⟩, h⟩) | h)
  · exact h
  · exact noRetire_serialPulse w h
  · simp at h

theorem noRetire_serialInit (c : Config) (w : ShiftCfg) : Act.retire ∉ serialInit c w := by
  simp [serialInit, noRetire_pinCfgActs, noRetire_releaseCs, noRetire_pinSet, noRetire_pinClear]

theorem noRetire_busWriteActs (c : Config) (b : Nat) (src : Src) : Act.retire ∉ busWriteActs c b src := by
  unfold busWriteActs
  split <;> simp [listWriteActs, noRetire_serialWrite]

theorem noRetire_busReadActs (c : Config) (b : Nat) : Act.retire ∉ busReadActs c b := by
  unfold busReadActs
  split <;> simp [listReadActs, noRetire_serialRead]

theorem noRetire_presentBody (c : Config) (data : Bool) (src : Src) : Act.retire ∉ presentBody c data src := by
  simp only [presentBody, List.mem_append, noRetire_busWriteActs, noRetire_assertCs, noRetire_releaseCs, strobeActs]
  rintro ((((h | h) | h) | h) | h)
  · split at h
    · exact noRetire_pinSet _ h
    · exact noRetire_pinClear _ h
  · exact h
  · exact h
  · split at h
    · simp at h
    · simp [noRetire_pinSet, noRetire_pinClear] at h
  · exact h

theorem noRetire_cmdActs (c : Config) (x : RxCmd × Byte) : Act.retire ∉ cmdActs c x := by
  simp [cmdActs, noRetire_presentBody]

theorem noRetire_dataActs (c : Config) (src : Src) : Act.retire ∉ dataActs c src := by
  simp [dataActs, noRetire_presentBody]

theorem noRetire_setAddrActs (c : Config) (pg col : Nat) : Act.retire ∉ setAddrActs c pg col :=
  noRetire_flatMap (fun _ _ => noRetire_cmdActs _ _)

theorem noRetire_fillActs (c : Config) (n : Nat) (byte : Byte) : Act.retire ∉ fillActs c n byte := by
  simp only [fillActs, List.mem_flatten, List.mem_replicate]
  rintro ⟨l, ⟨_, rfl⟩, h⟩
  exact noRetire_dataActs _ _ h

theorem noRetire_streamActs (c : Config) (buf n : Nat) : Act.retire ∉ streamActs c buf n :=
  noRetire_flatMap (fun _ _ => by simp [noRetire_dataActs])

/-- No operation advances `cp` before its end. -/
theorem noRetire_planOf (i : Instr) (s : State) : Act.retire ∉ (planOf i s).acts := by
  cases i <;> simp only [planOf]
  case pset | pclr | pcas | ptgl | pwr | prd | prdo =>
    simp only [planPset, planPclr, planPcas, planPtgl, planPwr, planPrd, planPrdo, portPlan]
    split <;> simp
  case pfldm p m k v =>
    simp only [planPfldm, portPlan]
    split
    · simp
    · split <;> simp [mergeActs]
  case pcfgr =>
    simp only [planPcfgr, portPlan]
    split <;> simp [allRegs]
  case prdc =>
    simp only [planPrdc, portPlan]
    split
    · simp
    · split <;> simp
  case pen =>
    simp only [planPen]
    split <;> simp
  case lwr => simp [planLwr, listWriteActs]
  case lrd => simp [planLrd, listReadActs]
  case binit =>
    simp only [planBinit]
    split <;> simp [noRetire_serialInit, noRetire_pcfgmActs]
  case bwr => exact noRetire_busWriteActs _ _ _
  case brd => exact noRetire_busReadActs _ _
  case dinit =>
    simp [planDinit, noRetire_pinCfgActs, noRetire_releaseCs, noRetire_pinSet, noRetire_pinClear, resetPulse,
      noRetire_cmdActs]
  case dputb => simp [planDputb, writing, noRetire_setAddrActs, noRetire_fillActs]
  case dputp => simp [planDputp, writing, noRetire_setAddrActs, noRetire_streamActs]
  case dclr => simp [planDclr, writing, noRetire_setAddrActs, noRetire_fillActs]
  case dfill => simp [planDfill, writing, noRetire_setAddrActs, noRetire_fillActs]
  case gbmp =>
    simp only [planGbmp]
    split
    · unfold glyphActs
      split <;> simp [transcodeActs, glyphByteActs, glyphBitActs]
    · simp
  case kinit => simp [planKinit]
  case kpoll => simp [planKpoll, noRetire_busReadActs]

end Sys2Proof.Machine
end

