-- ==== Sys2Proof/Tests/Slice0.lean ====
section
/-! SUPPORT. Tests: ill-formed terms refused, words written out from spec 30 R91 to R93, one step per test with results
from spec/95_test_vectors.md, and a witness for the hypotheses of each obligation. -/

namespace Sys2Proof.Tests

open Sys2Proof Sys2Proof.Machine

set_option Elab.async false

/-! ### Ill-formed configurations (R10, R32, R34, R40, R41, R204, R283) -/

def cT : Config := Config.testT

def withProfile (p : Profile) : Config := { cT with profile := p }

def withCmd (m : CmdBytes) : Config := { cT with cmd := m }

def withList (l : List Pin) : Config := { cT with lists := cT.lists ++ [l] }

def withBus (b : BusCfg) : Config := { cT with buses := cT.buses ++ [b] }

def serialT : ShiftCfg :=
  { clk := ⟨1, 0⟩, dat := ⟨1, 1⟩, cs := ⟨1, 2⟩, din := ⟨1, 3⟩, bits := 8, seed := 0x00FF, delay := 1,
    readMsbFirst := true }

def fontT : Font := { width := 1, height := 8, first := 0x41, count := 2, blob := [0x80, 0x55] }

theorem test_wf_T : cT.wellFormed = true := by decide +kernel

theorem test_illformed_ports :
    ([{ cT with ports := [] },
      { cT with ports := List.replicate 255 ⟨true, 0, 0, 7⟩ },
      { cT with ports := [⟨true, 0x40020000, 0, 16⟩, ⟨true, 0x40020400, 1, 7⟩] },
      { cT with ports := [⟨true, 0x40020000, 0, 7⟩, ⟨true, 0x40020000, 1, 7⟩] },
      { cT with ports := [⟨true, 0x40020000, 0, 7⟩, ⟨true, 0x40020400, 0, 7⟩] }] : List Config).map Config.portsOk =
      List.replicate 5 false := by decide +kernel

/-- Codes that are not distinct, codes and an AF_MAX that do not fit their field; a code of a field of 4 bits. -/
theorem test_illformed_codes :
    ([{ cT with modeOutput := 0 }, { cT with pullDown := 0 }, { cT with modeOutput := 4 }, { cT with pullDown := 4 },
      { cT with dtypePushPull := 4 }, { cT with widths := { Widths.default with af := .two } }] :
      List Config).map Config.wellFormed = List.replicate 6 false ∧
    ({ cT with modeOutput := 4, widths := { Widths.default with mode := .four } } : Config).wellFormed = true := by
  decide +kernel

theorem test_illformed_lists :
    ([withList [], withList (List.replicate 17 Pin.null), withList [⟨2, 0⟩], withList [⟨0, 1⟩, Pin.null, ⟨0, 1⟩],
      { cT with ports := [⟨true, 0x40020000, 0, 7⟩, ⟨false, 0x40020400, 1, 7⟩] }]).map Config.wellFormed =
      List.replicate 5 false := by decide +kernel

theorem test_illformed_buses :
    ([withBus (.direct 2 ⟨1, 0, 0, 0, 0⟩), withBus (.direct 4 ⟨1, 0, 0, 0, 0⟩), withBus (.direct 0 ⟨1, 0, 0, 0, 8⟩),
      withBus (.shift { serialT with clk := Pin.null }), withBus (.shift { serialT with dat := Pin.null }),
      withBus (.shift { serialT with din := ⟨2, 3⟩ }), withBus (.shift { serialT with bits := 7 }),
      withBus (.shift { serialT with seed := 0x0100 })]).map Config.wellFormed =
      List.replicate 8 false ∧ (withBus (.shift serialT)).wellFormed = true := by decide +kernel

theorem test_illformed_display :
    ([{ cT with disp := { cT.disp with bus := 3 } }, { cT with disp := { cT.disp with dc := ⟨5, 0⟩ } }] :
      List Config).map Config.wellFormed = [false, false] := by decide +kernel

theorem test_illformed_profile :
    ([withProfile { cT.profile with width := 0, extOffset := 132 },
      withProfile { cT.profile with width := 133, colOffset := 0, extOffset := 0 },
      withProfile { cT.profile with ramWidth := 256, extOffset := 128 },
      withProfile { cT.profile with height := 0, pages := 0 },
      withProfile { cT.profile with pages := 7 },
      withProfile { cT.profile with height := 129, pages := 17 },
      withProfile { cT.profile with colOffset := 5 },
      withProfile { cT.profile with extOffset := 3 }]).map Config.wellFormed = List.replicate 8 false := by
  decide +kernel

theorem test_illformed_commands :
    ([withCmd { CmdBytes.default with bias := 0xA3 }, withCmd { CmdBytes.default with regRatio := 0x21 },
      withCmd { CmdBytes.default with startLine := 0x41 }, withCmd { CmdBytes.default with page := 0xB1 },
      withCmd { CmdBytes.default with colHigh := 0x11 }, withCmd { CmdBytes.default with colLow := 0x01 }]).map
      Config.wellFormed = List.replicate 6 false := by decide +kernel

theorem test_illformed_fonts :
    ([{ cT with fonts := [{ fontT with width := 0, blob := [] }] }, { cT with fonts := [{ fontT with height := 0, blob := [] }] },
      { cT with fonts := [{ fontT with count := 3 }] }, { cT with glyphBufMax := 15 }] : List Config).map
      Config.wellFormed = List.replicate 4 false := by decide +kernel

theorem test_illformed_debounce :
    ([{ cT with debs := [⟨3, 3, 1⟩] }, { cT with debs := [⟨2, 3, 0⟩] }, { cT with debs := [⟨2, 1, 2⟩] },
      { cT with debs := [⟨2, 4, 1⟩], cntWidth := 2 }] : List Config).map Config.wellFormed =
      List.replicate 4 false := by decide +kernel

theorem test_illformed_sizes :
    ([{ cT with cntWidth := 0, debs := [] }, { cT with bufSize := 65537 }, { cT with contexts := 0 },
      { cT with tResetMin := 0 }, { cT with tSettleMin := 0 }] : List Config).map Config.wellFormed =
      List.replicate 5 false := by decide +kernel

/-! ### Ill-formed operations (R97, R282) -/

theorem test_illformed_port_operations :
    ([.pset 2 0, .pclr 0xFE 0, .pcas 2 0 0, .ptgl 2 0, .pwr 2 0, .prd 2, .prdo 2, .pfldm 2 0 0 0, .pfldm 0 1 5 0,
      .pfldm 0 1 0 4, .pfldm 0 1 4 8, .pcfgr 2 0 ⟨0, 0, 0, 0, 0⟩, .pcfgr 0 1 ⟨0, 0, 0, 0, 8⟩, .prdc 2 0, .prdc 0 5,
      .pen 2] : List Instr).map (Instr.wellFormed cT) = List.replicate 16 false ∧
    Instr.wellFormed { cT with casOverlap := .refuse } (.pcas 0 1 1) = false := by decide +kernel

theorem test_illformed_operations :
    ([.lwr 4 0, .lrd 4, .binit 3, .bwr 3 0, .brd 3, .dputb 129 0 0, .dputp 129 200 0 0, .dputp 5 4 0 0,
      .dputp 0 128 0 0x0381, .gbmp 4 0x41, .kinit 1, .kpoll 1] : List Instr).map (Instr.wellFormed cT) =
      List.replicate 12 false := by decide +kernel

theorem test_wellformed_operations :
    ([.pset 0xFF 0xFFFF, .pfldm 0xFF 1 7 15, .pcfgr 0xFF 0xFFFF ⟨0, 0, 0, 0, 15⟩, .pcas 1 1 1, .pfldm 1 1 4 7, .prdc 0 4,
      .lwr 3 0, .brd 2, .dputb 128 255 0, .dputp 128 200 255 0x0400, .dputp 0 128 0 0x0380, .gbmp 3 0xFFFFFFFF,
      .kpoll 0] : List Instr).map (Instr.wellFormed cT) = List.replicate 13 true := by decide +kernel

/-! ### Words written out from R91 to R93 (the table's codes; the vectors V30 and the programs P1 to P7) -/

theorem test_decode_port :
    decode 0x1000000300000000 = .ok (.pset 0 0x0003) ∧ decode 0x1100003000000000 = .ok (.pclr 0 0x0030) ∧
    decode 0x120000C0000C0000 = .ok (.pcas 0 0x00C0 0x000C) ∧ decode 0x1300800100000000 = .ok (.ptgl 0 0x8001) ∧
    decode 0x140000F000000000 = .ok (.pwr 0 0x00F0) ∧ decode 0x1501000000000000 = .ok (.prd 1) ∧
    decode 0x1600000000000000 = .ok (.prdo 0) ∧ decode 0x1700800000040007 = .ok (.pfldm 0 0x8000 4 7) ∧
    decode 0x1801FFFF07FF0000 = .ok (.pcfgr 1 0xFFFF ⟨3, 3, 3, 3, 7⟩) ∧
    decode 0x1900000000030000 = .ok (.prdc 0 3) ∧ decode 0x1A01000000000000 = .ok (.pen 1) ∧
    decode 0x10FFFFFF00000000 = .ok (.pset 0xFF 0xFFFF) := by decide +kernel

theorem test_decode_record : decode 0x1800000109E40000 = .ok (.pcfgr 0 1 ⟨0, 1, 2, 3, 9⟩) := by decide +kernel

theorem test_decode_bus :
    decode 0x2001A55A00000000 = .ok (.lwr 1 0xA55A) ∧ decode 0x2102000000000000 = .ok (.lrd 2) ∧
    decode 0x2201000000000000 = .ok (.binit 1) ∧ decode 0x2301008000000000 = .ok (.bwr 1 0x80) ∧
    decode 0x2402000000000000 = .ok (.brd 2) := by decide +kernel

theorem test_decode_display :
    decode 0x3000000000000000 = .ok .dinit ∧ decode 0x3107007F00010000 = .ok (.dputb 127 7 0x01) ∧
    decode 0x3209007E00820100 = .ok (.dputp 126 130 9 0x0100) ∧ decode 0x3300000000000000 = .ok .dclr ∧
    decode 0x3400000000AA0000 = .ok (.dfill 0xAA) := by decide +kernel

theorem test_decode_glyph_debounce :
    decode 0x400100000001F600 = .ok (.gbmp 1 0x0001F600) ∧ decode 0x5000000000000000 = .ok (.kinit 0) ∧
    decode 0x5100000000000000 = .ok (.kpoll 0) := by decide +kernel

/-- V30-9, V30-10: codes that spell nothing. -/
theorem test_decode_illegal :
    ([0, 0x1B00000000000000, 0x2500000000000000, 0x3500000000000000, 0x4100000000000000, 0x5200000000000000,
      0xFF00000000000000, 0x0F00000000000000] : List Word).all (fun w => decode w == .error (.illegalOpcode w)) = true := by
  decide +kernel

/-- V30-11, V30-12, V30-14 to V30-17, and one word per other sub-field of R95: must-be-zero bits. -/
theorem test_decode_reserved :
    ([0x1000000300000001, 0x1700000300080001, 0x1700000300000010, 0x2300010000000000, 0x3001000000000000,
      0x1800000110010000, 0x4000000100000041, 0x1900000000080000, 0x3100000001000000, 0x3400000001000000,
      0x1500000100000000, 0x1200000000000001, 0x5100000000000001] : List Word).all
      (fun w => decode w == .error (.reservedField w)) = true := by decide +kernel

/-- V30-5's bytes in memory order, with a byte after them. -/
theorem test_decode_bytes :
    decodeBytes [0x00, 0x01, 0x82, 0x00, 0x7E, 0x00, 0x09, 0x32, 0xEE] = .ok (.dputp 126 130 9 0x0100, [0xEE]) ∧
    decodeBytes [0x00, 0x01, 0x82, 0x00, 0x7E, 0x00, 0x09] = .error (.truncated 7) ∧
    encodeBytes (.dputp 126 130 9 0x0100) = [0x00, 0x01, 0x82, 0x00, 0x7E, 0x00, 0x09, 0x32] ∧
    decodeTableWord 64 0x1A00000000000000 = some (.pen 0) := by decide +kernel

/-- R94: no two rows of the table overlap. -/
theorem test_rows_disjoint :
    opcodeTable.Pairwise (fun r q => (r.bits ^^^ q.bits) &&& r.mask &&& q.mask ≠ 0) := by decide +kernel

/-! ### States and helpers -/

/-- A property of the next state, false of any other outcome. -/
def nextIs (o : Host.Outcome State Fault Refusal) (f : State → Bool) : Bool :=
  match o with
  | .next t => f t
  | .fault _ => false
  | .refused _ => false

/-- The outcome is this refusal. -/
def refusedIs (o : Host.Outcome State Fault Refusal) (r : Refusal) : Bool :=
  match o with
  | .next _ => false
  | .fault _ => false
  | .refused q => q == r

/-- The next state, or the given one. -/
def nextOf (s : State) (o : Host.Outcome State Fault Refusal) : State :=
  match o with
  | .next t => t
  | .fault _ => s
  | .refused _ => s

theorem eq_next_of (s : State) {o : Host.Outcome State Fault Refusal} (h : nextIs o (fun _ => true) = true) :
    o = .next (nextOf s o) := by
  cases o <;> first | rfl | cases h

theorem eq_refused_of {o : Host.Outcome State Fault Refusal} {r : Refusal} (h : refusedIs o r = true) :
    o = .refused r := by
  cases o with
  | next t => cases h
  | fault f => cases f
  | refused q =>
    simp only [refusedIs, beq_iff_eq] at h
    rw [h]

def portT (odr : Half) (mode : Word) : Port :=
  { odr := regOf (BitVec.allOnes 16) odr, mode := regOf (fullMask 2) mode, dtype := regOf (fullMask 2) 0
    speed := regOf (fullMask 2) 0, pull := regOf (fullMask 2) 0xAAAAAAAA, af := regOf (fullMask 4) 0, en := true }

/-- Both ports enabled with every register written, nothing initialised. -/
def fresh : State := { State.reset with ports := [portT 0x1234 0, portT 0x0005 0] }

/-- Everything initialised; pins 0 to 7 of port 0 and 0 to 2, 4 to 6 of port 1 are outputs; the pixel buffer of P4. -/
def ready : State :=
  { fresh with
    ports := [portT 0x1234 0x5555, portT 0x0045 0x1515]
    busReady := [true, true, true], dstate := .ready, debs := [⟨true, 0, 0, false⟩]
    buf := [(0x0100, 0x3C), (0x0101, 0xC3)] }

/-- Port 0 shows `v`. -/
def showing (v : Half) : State := { ready with ports := [portT v 0x5555, portT 0x0045 0x1515] }

def odr0 (s : State) : Reg 16 := (s.port 0).odr

def cfg0 (s : State) (k : CfgReg) : Reg 64 := cfgReg (s.port 0) k

/-- A display of 3 by 9 in a RAM of 5 columns, for the whole-RAM operations. -/
def small : State :=
  { ready with config := withProfile { cT.profile with
      width := 3, ramWidth := 5, colOffset := 2, extOffset := 2, height := 9, pages := 2 } }

/-- Two contexts, each at one operation. -/
def pair (i j : Instr) (ts : List Turn) : State :=
  { ready with
    sched := ts, ctx := { Ctx.reset 0 with prog := [encode i] }, parked := [{ Ctx.reset 1 with prog := [encode j] }] }

theorem test_small_wf : small.config.wellFormed = true := by decide +kernel

/-! ### One step per test (95_test_vectors.md) -/

/-- V40-1, V40-14. -/
theorem test_pset : nextIs (exec (.pset 0 0x0003) (showing 0x00F0))
    (fun t => odr0 t == regOf 0xFFFF 0x00F3 && t.pinTrace == [.bsrW 0 0x0003 0x0000]) = true := by decide +kernel

theorem test_pset_no_value : nextIs (exec (.pset 0 0x0003) { fresh with ports := [{ Port.reset with en := true }] })
    (fun t => odr0 t == ⟨0x0003, 0x0003⟩) = true := by decide +kernel

/-- V40-2. -/
theorem test_pclr : nextIs (exec (.pclr 0 0x0030) (showing 0x00F3))
    (fun t => odr0 t == regOf 0xFFFF 0x00C3 && t.pinTrace == [.bsrW 0 0x0000 0x0030]) = true := by decide +kernel

/-- V40-3, V40-10. -/
theorem test_pcas : nextIs (exec (.pcas 0 0x00C0 0x000C) (showing 0x00C3))
    (fun t => odr0 t == regOf 0xFFFF 0x000F && t.pinTrace == [.bsrW 0 0x000C 0x00C0]) = true := by decide +kernel

theorem test_pcas_overlap :
    nextIs (exec (.pcas 0 0x0030 0x0011) (showing 0x1234)) (fun t => odr0 t == regOf 0xFFFF 0x1215) = true ∧
    nextIs (exec (.pcas 0 0x0030 0x0011) { showing 0x1234 with config := { cT with casOverlap := .clearWins } })
      (fun t => odr0 t == regOf 0xFFFF 0x1205) = true ∧
    refusedIs (exec (.pcas 0 0x00F0 0x00F0) { showing 0x1234 with config := { cT with casOverlap := .refuse } })
      (.casOverlap 0 0x00F0) = true := by decide +kernel

/-- V40-4. -/
theorem test_ptgl : nextIs (exec (.ptgl 0 0x8001) (showing 0x000F))
    (fun t => odr0 t == regOf 0xFFFF 0x800E && t.pinTrace == [.odrR 0 0x000F, .odrW 0 0x800E]) = true := by
  decide +kernel

/-- V40-5, from the state with no value. -/
theorem test_pwr : nextIs (exec (.pwr 0 0x1234) { fresh with ports := [{ Port.reset with en := true }] })
    (fun t => odr0 t == regOf 0xFFFF 0x1234 && t.pinTrace == [.odrW 0 0x1234]) = true := by decide +kernel

/-- V40-15. -/
theorem test_prd : nextIs (exec (.prd 0) { fresh with ports := [portT 0x0005 0x55], pads := [0xFFFF] })
    (fun t => t.ctx.res == 0xFFF5 && t.pinTrace == [.idrR 0 0xFFF5]) = true := by decide +kernel

/-- V40-16. -/
theorem test_prd_low : nextIs (exec (.prd 0) { fresh with ports := [portT 0x0005 0x55], pads := [0x0000] })
    (fun t => t.ctx.res == 0x0005) = true := by decide +kernel

/-- V40-13. -/
theorem test_prdo : nextIs (exec (.prdo 0) (showing 0x1234))
    (fun t => t.ctx.res == 0x1234 && t.pinTrace == [.odrR 0 0x1234] && t.ctx.cp == 1) = true := by decide +kernel

/-- V40-40. -/
theorem test_pfldm : nextIs (exec (.pfldm 0 0x00F0 0 1) { fresh with ports := [portT 0 0xFFFFFFFF] })
    (fun t => cfg0 t .mode == regOf (fullMask 2) 0xFFFF55FF &&
      t.pinTrace == [.cfgR 0 .mode 0xFFFFFFFF, .cfgW 0 .mode 0xFFFF55FF]) = true := by decide +kernel

/-- V40-41, V40-43, V40-44, V40-45. -/
theorem test_pfldm_af :
    nextIs (exec (.pfldm 0 0x8000 4 7) fresh) (fun t => cfg0 t .af == regOf (fullMask 4) 0x7000000000000000) = true ∧
    refusedIs (exec (.pfldm 0 1 5 0) fresh) (.badField 5) = true ∧
    refusedIs (exec (.pfldm 0 1 0 4) fresh) (.fieldValueRange 0 4) = true ∧
    refusedIs (exec (.pfldm 0 1 4 15) fresh) (.afRange 0 15) = true ∧
    nextIs (exec (.pfldm 0 0x8001 2 15)
        { fresh with config := { cT with widths := { Widths.default with speed := .four } } })
      (fun t => (cfg0 t .speed).val == 0xF00000000000000F) = true := by decide +kernel

/-- V40-35: the fields outside the mask of MODE and PULL; those inside of all five. -/
theorem test_pcfgr : nextIs (exec (.pcfgr 0 0x00FF ⟨1, 0, 0, 0, 0⟩) fresh)
    (fun t => (cfg0 t .mode).val == 0x00005555 && (cfg0 t .pull).val == 0xAAAA0000 &&
      (cfg0 t .dtype).known == 0xFFFFFFFF && (cfg0 t .af).known == BitVec.allOnes 64) = true := by decide +kernel

/-- V40-38, V40-39. -/
theorem test_pcfgr_all :
    nextIs (exec (.pcfgr 0 0xFFFF ⟨3, 3, 3, 3, 7⟩) fresh)
      (fun t => (cfg0 t .mode).val == 0xFFFFFFFF && (cfg0 t .pull).val == 0xFFFFFFFF) = true ∧
    refusedIs (exec (.pcfgr 0 1 ⟨1, 0, 0, 0, 8⟩) fresh) (.afRange 0 8) = true := by decide +kernel

/-- V40-47, V40-48. -/
theorem test_prdc : nextIs (exec (.prdc 0 0) { fresh with ports := [portT 0 0xFFFF55FF] })
    (fun t => t.ctx.res == 0xFFFF55FF) = true ∧ refusedIs (exec (.prdc 0 5) fresh) (.badField 5) = true := by
  decide +kernel

/-- V40-49, V40-51, V40-50. -/
theorem test_pen :
    refusedIs (exec (.pset 0 1) State.reset) (.portNotEnabled 0) = true ∧
    refusedIs (exec (.pen 2) State.reset) (.noSuchPort 2) = true ∧
    nextIs (exec (.pen 0) State.reset) (fun t => t.enabled 0 && !t.enabled 1 && t.pinTrace == [.enW 0]) = true := by
  decide +kernel

/-- V40-18, V40-19. -/
theorem test_null_port :
    nextIs (exec (.pfldm 0xFF 1 7 15) State.reset) (fun t => t.pinTrace == []) = true ∧
    nextIs (exec (.prdc 0xFF 0) { State.reset with ctx := { Ctx.reset 0 with res := 7 } })
      (fun t => t.ctx.res == 0) = true := by decide +kernel

/-- V40-22, V40-23, V40-25, V40-26, V40-28, V40-30, V40-31, V40-32. -/
theorem test_expansion :
    expand 2 0x0005 = 0x33 ∧ expand 2 0x8000 = 0xC0000000 ∧ expand 4 0x0005 = 0x0F0F ∧
    expand 4 0x8001 = 0xF00000000000000F ∧ rep 2 0x00F0 1 = 0x5500 ∧ rep 4 0x0101 0xA = 0x0000000A0000000A ∧
    merge 2 0xFFFFFFFF 0x00F0 1 = 0xFFFF55FF ∧ merge 4 0x123456789ABCDEF0 0x8001 5 = 0x523456789ABCDEF5 := by
  decide +kernel

/-- V40-55. -/
theorem test_nrd :
    nextIs (execNrd ⟨0, 3⟩ { fresh with pads := [0x0008] }) (fun t => t.ctx.res == 1) = true ∧
    nextIs (execNrd ⟨0, 3⟩ { fresh with pads := [0xFFF7] }) (fun t => t.ctx.res == 0) = true := by decide +kernel

/-- V41-1. -/
theorem test_lwr : nextIs (exec (.lwr 2 0b10101) ready)
    (fun t => t.pinTrace == [.bsrW 0 0x0081 0x0000, .bsrW 1 0x0001 0x0008]) = true := by decide +kernel

/-- V41-3, V41-8, V41-9. -/
theorem test_lwr_run :
    nextIs (exec (.lwr 1 0x1A5) (showing 0xFFFF))
      (fun t => t.pinTrace == [.bsrW 0 0x0A50 0x05A0] && odr0 t == regOf 0xFFFF 0xFA5F) = true ∧
    refusedIs (exec (.lwr 4 0) ready) (.noSuchList 4) = true ∧
    refusedIs (exec (.lwr 2 1) { fresh with ports := [portT 0 0, Port.reset] }) (.portNotEnabled 1) = true := by
  decide +kernel

/-- V41-5. -/
theorem test_lrd : nextIs (exec (.lrd 2) { fresh with pads := [0x0080, 0x0009] })
    (fun t => t.ctx.res == 0b10110 && t.pinTrace == [.idrR 0 0x0080, .idrR 1 0x0009]) = true := by decide +kernel

/-- V41-11, V41-12, V41-13. -/
theorem test_binit :
    nextIs (exec (.binit 0) fresh) (fun t => t.busTrace == [.busInit 0] && t.pinTrace.length == 10 &&
      t.busReady == [true, false, false] && (cfg0 t .mode).val == 0x00005555 && (cfg0 t .pull).val == 0xAAAA0000) = true ∧
    refusedIs (exec (.binit 0) ready) (.busAlreadyInit 0) = true ∧
    refusedIs (exec (.binit 3) fresh) (.noSuchBus 3) = true := by decide +kernel

/-- V42-11. -/
theorem test_binit_serial : nextIs (exec (.binit 1) fresh)
    (fun t => t.pinTrace.take 3 == [.bsrW 1 0x0004 0, .bsrW 1 0x0001 0, .bsrW 1 0 0x0002] && t.pinTrace.length == 43 &&
      (t.port 1).mode.val == 0x15 && (t.port 1).pull.val == 0xAAAAAA00) = true := by decide +kernel

/-- V41-14, V41-10. -/
theorem test_bwr :
    nextIs (exec (.bwr 0 0xA5) (showing 0xFF00)) (fun t => t.busTrace == [.busWr 0 0xA5] &&
      t.pinTrace == [.bsrW 0 0x00A5 0x005A] && odr0 t == regOf 0xFFFF 0xFFA5) = true ∧
    refusedIs (exec (.bwr 0 0xA5) fresh) (.busNotReady 0) = true := by decide +kernel

/-- V42-3: 42 items, the receiver and the lines. -/
theorem test_bwr_serial : nextIs (exec (.bwr 1 0xA5) ready)
    (fun t => t.pinTrace.length == 42 && t.shiftRx[1]? == some ⟨regOf 0xFF 0xA5, regOf 0xFF 0xA5⟩ &&
      (t.port 1).odr.val &&& 7 == 7) = true := by decide +kernel

/-- V41-15. -/
theorem test_brd : nextIs (exec (.brd 2) { ready with pads := [0x0100] })
    (fun t => t.ctx.res == 0x01 && t.busTrace == [.busRd 2 0x01]) = true := by decide +kernel

/-- V42-8. -/
theorem test_brd_serial : nextIs (exec (.brd 1) { ready with pads := [8, 0, 0, 0, 0, 0, 8, 8] })
    (fun t => t.ctx.res == 0x83 && t.pinTrace.length == 82 && t.busTrace == [.busRd 1 0x83] &&
      t.shiftRx[1]? == some ⟨regOf 0xFF 0xFF, regOf 0xFF 0xFF⟩) = true := by decide +kernel

/-- V43-1. -/
theorem test_dinit : nextIs (exec .dinit { ready with dstate := .uninitialized })
    (fun t => t.dispTrace == [.reset, .cmd 0xAB, .cmd 0xA2, .cmd 0xA1, .cmd 0xC8, .cmd 0x25, .cmd 0x81, .cmd 0x16,
      .cmd 0x2F, .cmd 0xA6, .cmd 0x40, .cmd 0xAF] && t.pinTrace.length == 92 && t.dstate == .ready) = true := by
  decide +kernel

/-- V43-17. -/
theorem test_dinit_refused :
    refusedIs (exec .dinit fresh) (.busNotReady 0) = true ∧ refusedIs (exec .dinit ready) .dispAlreadyInit = true := by
  decide +kernel

/-- V43-10. -/
theorem test_dputb : nextIs (exec (.dputb 0 0 0xFF) ready)
    (fun t => t.dispTrace == [.cmd 0xB0, .cmd 0x10, .cmd 0x04, .data 0xFF] && t.pinTrace.length == 20 &&
      t.gram == [(4, 0xFF)]) = true := by decide +kernel

/-- V43-12, V43-13, V43-14. -/
theorem test_dputb_edges :
    nextIs (exec (.dputb 128 3 0x11) ready) (fun t => t.dispTrace == [.cmd 0xB3, .cmd 0x18, .cmd 0x04]) = true ∧
    refusedIs (exec (.dputb 129 3 0x11) ready) (.xRange 129 128) = true ∧
    nextIs (exec (.dputb 0 255 0xFF) ready) (fun t => t.dispTrace.take 1 == [.cmd 0xB7]) = true := by decide +kernel

/-- V43-3 and the receiver after it. -/
theorem test_dputp : nextIs (exec (.dputp 126 130 9 0x0100) ready)
    (fun t => t.dispTrace == [.cmd 0xB7, .cmd 0x18, .cmd 0x02, .data 0x3C, .data 0xC3] &&
      t.gram == [(7 * 256 + 130, 0x3C), (7 * 256 + 131, 0xC3)] && t.pp == regOf 15 7 && t.cptr == regOf 0xFF 132) = true := by
  decide +kernel

/-- V43-5, V43-6, V43-8. -/
theorem test_dputp_edges :
    nextIs (exec (.dputp 128 200 0 0) ready) (fun t => t.dispTrace == [.cmd 0xB0, .cmd 0x18, .cmd 0x04]) = true ∧
    refusedIs (exec (.dputp 129 200 0 0) ready) (.xRange 129 128) = true ∧
    refusedIs (exec (.dputp 0 128 0 0x0381) ready) (.bufRange 0x0381 128) = true := by decide +kernel

/-- R217 on a RAM of 2 pages of 5 columns: 2 transactions of 3 commands and 5 bytes. -/
theorem test_dclr : nextIs (exec .dclr { small with gram := [(0, 1), (260, 2), (600, 9)] })
    (fun t => t.dispTrace.length == 16 && t.dispTrace.take 4 == [.cmd 0xB0, .cmd 0x10, .cmd 0x00, .data 0x00] &&
      t.gram == [(0, 0), (1, 0), (2, 0), (3, 0), (4, 0), (256, 0), (257, 0), (258, 0), (259, 0), (260, 0), (600, 9)]) =
    true := by decide +kernel

/-- R218 on the same RAM: 3 visible columns from column 2. -/
theorem test_dfill : nextIs (exec (.dfill 0xAA) { small with gram := [(0, 1), (260, 2)] })
    (fun t => t.dispTrace.length == 12 && t.gram == [(0, 1), (2, 0xAA), (3, 0xAA), (4, 0xAA), (258, 0xAA), (259, 0xAA),
      (260, 0xAA)]) = true := by decide +kernel

/-- V43-18. -/
theorem test_flush : roundRows 3 12 = (0, 15) ∧ roundRows 8 15 = (8, 15) ∧ roundRows 0 0 = (0, 7) ∧
    flush 10 0 19 15 0x0200 = [.dputp 10 20 0 0x0200, .dputp 10 20 1 0x020A] := by decide +kernel

/-- V44-4. -/
theorem test_gbmp : nextIs (exec (.gbmp 2 0x20) State.reset)
    (fun t => t.ctx.res == 0x8000000000101008 && t.ctx.glen == 16 && t.ctx.gbuf.map Prod.snd ==
      [0x01, 0x02, 0x04, 0x08, 0x10, 0x20, 0x40, 0x80, 0x81, 0x01, 0x01, 0x01, 0x01, 0x01, 0x01, 0x81]) = true := by
  decide +kernel

/-- V44-5, V44-6 and V44-5 under the other numbering. -/
theorem test_gbmp_width3 :
    nextIs (exec (.gbmp 3 0) State.reset) (fun t => t.ctx.gbuf.map Prod.snd == [0x8B, 0x0D, 0x80]) = true ∧
    nextIs (exec (.gbmp 0 0x43) State.reset) (fun t => t.ctx.res == 0 && t.ctx.glen == 0 && t.ctx.gbuf == []) = true ∧
    nextIs (exec (.gbmp 3 0) (State.resetWith { cT with glyphSrcMsbFirst := true }))
      (fun t => t.ctx.gbuf.map Prod.snd == [0x45, 0x36, 0x10]) = true := by decide +kernel

/-- R66, R242, R262: `GBMP` of a glyph of 3 by 8 has 24 blob reads and 3 buffer writes; a poll over a direct bus of one
port has one micro-step, and a second one exactly if it emits. -/
theorem test_micro_steps :
    nextIs (step (pair (.gbmp 3 0) .dclr [.run 0 26])) (fun t => t.ctx.cp == 0 && t.ctx.gbuf.length == 2) = true ∧
    nextIs (step (pair (.gbmp 3 0) .dclr [.run 0 27])) (fun t => t.ctx.cp == 1 && t.ctx.gbuf.length == 3) = true ∧
    nextIs (step { pair (.kpoll 0) .dclr [.run 0 1] with pads := [0] })
      (fun t => t.ctx.cp == 1 && t.evTrace == []) = true ∧
    nextIs (step { pair (.kpoll 0) .dclr [.run 0 1] with debs := [⟨true, 1, 2, true⟩], pads := [0] })
      (fun t => t.ctx.cp == 0 && t.evTrace == []) = true ∧
    nextIs (step { pair (.kpoll 0) .dclr [.run 0 2] with debs := [⟨true, 1, 2, true⟩], pads := [0] })
      (fun t => t.ctx.cp == 1 && t.evTrace.length == 1) = true := by decide +kernel

/-- R261, V45-11, V45-12. -/
theorem test_kinit :
    nextIs (exec (.kinit 0) State.reset) (fun t => t.debs == [⟨true, 0, 0, false⟩]) = true ∧
    refusedIs (exec (.kinit 0) ready) (.debAlreadyInit 0) = true ∧
    refusedIs (exec (.kinit 1) ready) (.noSuchDeb 1) = true := by decide +kernel

/-- V45-1, poll 3: the long tap; V45-8: not delivered. -/
theorem test_kpoll : nextIs (exec (.kpoll 0) { ready with debs := [⟨true, 1, 2, true⟩], pads := [0x0100], waits := [false] })
    (fun t => t.debs == [⟨true, 1, 3, true⟩] && t.evTrace == [(.longTap 1, false)] && t.busTrace == [.busRd 2 1] &&
      eventWord (.longTap 1) == 0x0001) = true := by decide +kernel

/-- V45-1, poll 4: the release. -/
theorem test_kpoll_release :
    nextIs (exec (.kpoll 0) { ready with debs := [⟨true, 1, 3, true⟩], pads := [0x0000], waits := [true] })
    (fun t => t.debs == [⟨true, 0, 0, false⟩] && t.evTrace == [(.release 1 true, true)] &&
      eventWord (.release 1 true) == 0x0301) = true := by decide +kernel

/-! ### Witnesses: states and operands that meet the hypotheses of each obligation, clause by clause -/

theorem ready_consistent : Consistent ready := by constructor <;> decide +kernel

theorem portUsable_ready : PortUsable ready 0 ∧ PortUsable ready 1 := by unfold PortUsable; decide +kernel

theorem busReadable_ready : ∀ b, b < 3 → BusReadable ready b := by
  unfold BusReadable BusUsable BusWired PinsUsable; decide +kernel

theorem displayUsable_ready : DisplayUsable ready ∧ DisplayUsable small := by
  unfold DisplayUsable BusUsable BusWired PinsUsable; decide +kernel

theorem small_consistent : Consistent small := by constructor <;> decide +kernel

theorem witness_DecoderSelectsByOperationCode :
    (∃ r ∈ opcodeTable, r.matches 0x1000000300000000 = true) ∧ decode 0x1000000300000000 = .ok (.pset 0 3) := by
  decide +kernel

/-- A word of no row, and a word of `PSET`'s code with bit 0 set. -/
theorem witness_UndecodableWordsAreRefusedByName :
    (State.reset.withFetchWord 64 0).sched = [] ∧ (State.reset.withFetchWord 64 0).ctx.queue = [] ∧
    fetch (State.reset.withFetchWord 64 0) = some 0 ∧ (∀ r ∈ opcodeTable, r.sameOpc 0 = false) ∧
    fetch (State.reset.withFetchWord 64 0x1000000300000001) = some 0x1000000300000001 ∧
    (∃ r ∈ opcodeTable, r.sameOpc 0x1000000300000001 = true) ∧
    ∀ r ∈ opcodeTable, r.matches 0x1000000300000001 = false := by decide +kernel

theorem witness_StepRunsTheDecodedOperation :
    (ready.withFetchWord 64 0x1000000300000000).sched = [] ∧ (ready.withFetchWord 64 0x1000000300000000).ctx.queue = [] ∧
    fetch (ready.withFetchWord 64 0x1000000300000000) = some 0x1000000300000000 ∧
    decode 0x1000000300000000 = .ok (.pset 0 3) := by decide +kernel

/-- Exactly the 5 micro-steps of `PCFGR`. -/
theorem witness_UninterruptedSliceIsTheWholeOperation :
    StandsAt (pair (.pcfgr 0 1 ⟨1, 0, 0, 0, 0⟩) .dclr [.run 0 5]).ctx (.pcfgr 0 1 ⟨1, 0, 0, 0, 0⟩) ∧
    (pair (.pcfgr 0 1 ⟨1, 0, 0, 0, 0⟩) .dclr [.run 0 5]).sched = [.run 0 5] ∧
    ((planOf (.pcfgr 0 1 ⟨1, 0, 0, 0, 0⟩) (pair (.pcfgr 0 1 ⟨1, 0, 0, 0, 0⟩) .dclr [.run 0 5])).acts.countP isMicro) = 5 := by
  unfold StandsAt; decide +kernel

theorem witness_OperationAdvancesItsContextOnly : ∃ t, exec (.pset 0 3) ready = .next t :=
  ⟨_, eq_next_of ready (by decide +kernel)⟩

/-- A turn of context 1, and context 0 beside it. -/
theorem witness_TurnsLeaveOtherContextsAlone :
    ∃ s t c, s = pair (.ptgl 0 1) (.prd 0) [.run 1 1] ∧ s.sched = [.run 1 1] ∧ step s = .next t ∧
      c ∈ s.ctx :: s.parked ∧ c.id ≠ 1 :=
  ⟨_, _, _, rfl, rfl, eq_next_of ready (by decide +kernel), List.mem_cons_self, by decide +kernel⟩

/-- Masks that share no bit, under each parameter, an overlap inside one mask where that is no refusal. -/
theorem witness_DisjointMasksDoNotRace :
    setClearOf (.pset 0 0x00FF) = some (0, 0, 0x00FF) ∧ setClearOf (.pcas 0 0xC000 0x8100) = some (0, 0xC000, 0x8100) ∧
    ((0 : Half) ||| 0x00FF) &&& (0xC000 ||| 0x8100) = 0 ∧
    ((pair (.pset 0 0x00FF) (.pcas 0 0xC000 0x8100) []).config.casOverlap = .refuse →
      (0 : Half) &&& 0x00FF = 0 ∧ (0xC000 : Half) &&& 0x8100 = 0) ∧
    PortUsable (pair (.pset 0 0x00FF) (.pcas 0 0xC000 0x8100) []) 0 ∧
    (∃ b, (pair (.pset 0 0x00FF) (.pcas 0 0xC000 0x8100) []).parked = [b] ∧ 0 ≠ b.id ∧
      StandsAt b (.pcas 0 0xC000 0x8100)) ∧
    StandsAt (pair (.pset 0 0x00FF) (.pcas 0 0xC000 0x8100) []).ctx (.pset 0 0x00FF) := by
  refine ⟨rfl, rfl, by decide +kernel, by decide +kernel, by unfold PortUsable; decide +kernel, ⟨_, rfl, ?_⟩, ?_⟩ <;>
    unfold StandsAt <;> decide +kernel

theorem witness_ToggleLosesAConcurrentWrite :
    ∃ s b, s = pair (.ptgl 0 0x8001) (.pset 0 0x0010) [.run 0 1, .run 1 1, .run 0 1] ∧ PortUsable s 0 ∧
      setClearOf (.pset 0 0x0010) = some (0, 0, 0x0010) ∧ (s.config.casOverlap = .refuse → (0 : Half) &&& 0x0010 = 0) ∧
      (s.port (0 : Byte).toNat).odr = regOf (BitVec.allOnes 16) 0x1234 ∧ s.parked = [b] ∧ s.ctx.id ≠ b.id ∧
      StandsAt s.ctx (.ptgl 0 0x8001) ∧ StandsAt b (.pset 0 0x0010) ∧
      s.sched = [.run s.ctx.id 1, .run b.id 1, .run s.ctx.id 1] := by
  refine ⟨_, _, rfl, by unfold PortUsable; decide +kernel, rfl, by decide +kernel, by decide +kernel, rfl, ?_⟩
  unfold StandsAt
  decide +kernel

/-- Each of the three forms goes on. -/
theorem witness_SingleWritesAreIdempotent :
    (setClearOf (.pclr 0 3)).isSome = true ∧ nextIs (exec (.pclr 0 3) ready) (fun _ => true) = true ∧
    nextIs (exec (.pwr 0 3) ready) (fun _ => true) = true ∧ nextIs (exec (.pen 0) State.reset) (fun _ => true) = true := by
  decide +kernel

theorem witness_ResetLeavesNothingEnabled :
    1 ≤ cT.contexts ∧ (State.resetWith cT).parked ≠ [] ∧ (State.resetWith cT).shiftRx ≠ [] := by decide +kernel

theorem witness_ResetIsConsistent : cT.wellFormed = true := test_wf_T

theorem witness_EveryStepKeepsConsistency :
    Consistent ready ∧ ∃ t, step ready = .next t := ⟨ready_consistent, _, eq_next_of ready (by decide +kernel)⟩

/-- A step from a state where something is enabled, initialised and ready. -/
theorem witness_EveryStepOnlyGrows :
    (∃ t, step (pair (.ptgl 0 1) .dclr [.run 0 1]) = .next t) ∧ ready.enabled 0 = true ∧
      ready.busReady.getD 0 false = true ∧ (ready.deb 0).ready = true ∧ ready.dstate ≠ .uninitialized :=
  ⟨⟨_, eq_next_of ready (by decide +kernel)⟩, by decide +kernel⟩

theorem witness_OperationsGoOnExactlyWhenWellFormed :
    Consistent ready ∧ ∀ p, ready.portExists p = true → ready.enabled p = true := by
  refine ⟨ready_consistent, fun p hp => ?_⟩
  match p, hp with
  | 0, _ => decide +kernel
  | 1, _ => decide +kernel
  | n + 2, h => cases h

theorem witness_ReceiversAreNeverReadBack :
    (∃ r, exec (.lwr 4 0) ready = .refused r) ∧ ∃ t, exec (.bwr 1 0xA5) ready = .next t :=
  ⟨⟨_, eq_refused_of (r := .noSuchList 4) (by decide +kernel)⟩, _, eq_next_of ready (by decide +kernel)⟩

/-- The first selector past the ports, the last before the null port, and a port not enabled. -/
theorem witness_PortIsCheckedFirst :
    portSelector (.pset 2 1) = some 2 ∧ portSelector (.prd 0xFE) = some 0xFE ∧ (2 : Byte) ≠ nullPort ∧
    (0xFE : Byte) ≠ nullPort ∧ State.reset.portExists 2 = false ∧ State.reset.portExists 0xFE = false ∧
    State.reset.portExists 1 = true ∧ State.reset.enabled 1 = false ∧ Instr.pset 1 1 ≠ .pen 1 := by decide +kernel

theorem witness_NullPortDoesNothing :
    portSelector (.pfldm 0xFF 1 7 15) = some nullPort ∧ portSelector (.prdo 0xFF) = some nullPort ∧
    Pin.null.port = nullPort ∧ (⟨0xFF, 0⟩ : Pin).port = nullPort := by decide +kernel

/-- Masks apart, masks that overlap where that is allowed, and where it is refused. -/
theorem witness_SetClearWritesOnlyItsMasks :
    setClearOf (.pcas 0 0x00F0 0x000F) = some (0, 0x00F0, 0x000F) ∧ (0x00F0 : Half) &&& 0x000F = 0 ∧
    PortUsable ready 0 ∧ (0x8001 : Half) &&& 0x8001 ≠ 0 ∧ ready.config.casOverlap ≠ .refuse ∧
    PortUsable { ready with config := { cT with casOverlap := .refuse } } 0 := by
  unfold PortUsable; decide +kernel

theorem witness_ToggleFlipsItsMask :
    PortUsable ready 0 ∧ regBit (ready.port (0 : Byte).toNat).odr 15 = some false ∧
      ∀ b, b < 16 → (regBit (ready.port (0 : Byte).toNat).odr b).isSome = true :=
  ⟨portUsable_ready.1, by decide +kernel⟩

theorem witness_WriteOverwritesThePort : PortUsable ready 1 := portUsable_ready.2

/-- An output pin, an input pin and a waiting answer. -/
theorem witness_ReadSamplesThePort :
    PortUsable { ready with pads := [0xA5A5] } 0 ∧ outputPin ready 0 7 = true ∧ outputPin ready 0 8 = false := by
  unfold PortUsable; decide +kernel

theorem witness_ReadOutputGivesOdr : PortUsable ready 0 := portUsable_ready.1

theorem witness_ExpansionReplicatesEachBit : (cT.width .mode = 2 ∨ cT.width .mode = 4) ∧
    (cT.width .af = 2 ∨ cT.width .af = 4) := by decide +kernel

theorem witness_MergeRoundTrips : (3 : BitVec 4).toNat < 2 ^ 2 ∧ (15 : BitVec 4).toNat < 2 ^ 4 := by decide +kernel

/-- Every refusal at its first value, and the last values that go on. -/
theorem witness_FieldMergePreservesOtherFields :
    PortUsable ready 0 ∧ 4 < (5 : BitVec 3).toNat ∧ CfgReg.number .mode = (0 : BitVec 3).toNat ∧
    CfgReg.number .af = (4 : BitVec 3).toNat ∧ 2 ^ ready.config.width .mode ≤ (4 : BitVec 4).toNat ∧
    (3 : BitVec 4).toNat < 2 ^ ready.config.width .mode ∧ ready.config.afMax 0 < (8 : BitVec 4).toNat ∧
    (8 : BitVec 4).toNat < 2 ^ ready.config.width .af ∧ (7 : BitVec 4).toNat ≤ ready.config.afMax 0 :=
  ⟨portUsable_ready.1, by decide +kernel⟩

theorem witness_ReplaceAllForcesTheRest :
    PortUsable ready 0 ∧ ready.config.afMax 0 < (8 : BitVec 4).toNat ∧ (7 : BitVec 4).toNat ≤ ready.config.afMax 0 :=
  ⟨portUsable_ready.1, by decide +kernel⟩

theorem witness_ReadBackGivesTheRegister :
    PortUsable ready 0 ∧ 4 < (5 : BitVec 3).toNat ∧ CfgReg.number .af = (4 : BitVec 3).toNat ∧
    portOk ready.config (ready.port 0) = true ∧ 16 * ready.config.width .mode ≤ 32 :=
  ⟨portUsable_ready.1, by decide +kernel⟩

theorem witness_EnableChangesOnlyTheEnableBit :
    (1 : Byte) ≠ nullPort ∧ State.reset.portExists 1 = true ∧
    State.reset.ports.length = State.reset.config.ports.length := by decide +kernel

/-- A field of output pins. -/
theorem witness_ClearAndSetThenReadYieldsTheMask :
    (0x0050 : Half) &&& ~~~0x00F0 = 0 ∧ PortUsable ready 0 ∧
    ∀ b, (0x00F0 : Half).getLsbD b = true → outputPin ready 0 b = true := by
  refine ⟨by decide +kernel, portUsable_ready.1, fun b hb => ?_⟩
  have h16 : b < 16 := by
    by_contra hn
    rw [BitVec.getLsbD_of_ge _ _ (by omega)] at hb
    cases hb
  have := (by decide +kernel : ∀ b : Fin 16, (0x00F0 : Half).getLsbD b = true → outputPin ready 0 b = true)
  exact this ⟨b, h16⟩ hb

theorem witness_PinOperationsTouchOnePin :
    PortUsable ready (⟨0, 15⟩ : Pin).port ∧ regBit (ready.port 0).odr 15 = some false ∧
    regBit (ready.port 0).odr 2 = some true ∧ Pin.null.port = nullPort :=
  ⟨portUsable_ready.1, by decide +kernel⟩

theorem witness_WholeRecordMerge :
    PortUsable ready 0 ∧ (7 : BitVec 4).toNat ≤ ready.config.afMax 0 ∧
    (7 : BitVec 4).toNat < 2 ^ ready.config.width .af := ⟨portUsable_ready.1, by decide +kernel⟩

/-- The clock of bus 1 rising, data high on both sides, `SR` full. -/
theorem witness_ShiftRegisterFollowsItsLines_rise :
    ∃ s t rx, s = { ready with ports := [portT 0 0, portT 0x0002 0], shiftRx := [⟨Reg.noValue, Reg.noValue⟩,
        ⟨rxHolds serialT 0x5A, Reg.noValue⟩, ⟨Reg.noValue, Reg.noValue⟩] } ∧
      setClearOf (.pset 1 0x0001) = some (1, 0, 0x0001) ∧ exec (.pset 1 0x0001) s = .next t ∧
      s.config.buses[1]? = some (.shift serialT) ∧ s.shiftRx[1]? = some rx ∧ serialT.bits ≤ 16 ∧
      Level s serialT.clk false ∧ Level t serialT.clk true ∧ Level s serialT.dat true ∧ Level t serialT.dat true ∧
      rx.sr = rxHolds serialT 0x5A := by
  refine ⟨_, _, _, rfl, rfl, eq_next_of ready (by decide +kernel), rfl, rfl, by decide +kernel, ?_⟩
  unfold Level
  decide +kernel

/-- Chip-select of bus 1 released with the clock kept high; and a write that leaves it alone. -/
theorem witness_ShiftRegisterFollowsItsLines_release :
    ∃ s t rx, s = { ready with ports := [portT 0 0, portT 0x0001 0] } ∧
      setClearOf (.pset 1 0x0004) = some (1, 0, 0x0004) ∧ exec (.pset 1 0x0004) s = .next t ∧
      s.config.buses[1]? = some (.shift serialT) ∧ s.shiftRx[1]? = some rx ∧
      pinLevel s.ports serialT.clk = pinLevel t.ports serialT.clk ∧ serialT.cs.isNull = false ∧ serialT.cs.port = 1 ∧
      (if s.config.csActiveLow then (0x0004 : Half) else 0).getLsbD serialT.cs.pos.val = true ∧
      Level t serialT.cs s.config.csActiveLow ∧
      ¬(serialT.cs.port = 1 ∧ ((0 : Half) ||| 0x0008).getLsbD serialT.cs.pos.val = true) := by
  refine ⟨_, _, _, rfl, rfl, eq_next_of ready (by decide +kernel), rfl, rfl, ?_⟩
  unfold Level
  decide +kernel

/-- The clock of bus 1 rising by a toggle of its port. -/
theorem witness_ShiftRegisterFollowsItsLines_toggle :
    ∃ s t rx, s = { ready with ports := [portT 0 0, portT 0x0002 0], shiftRx := [⟨Reg.noValue, Reg.noValue⟩,
        ⟨rxHolds serialT 0x5A, Reg.noValue⟩, ⟨Reg.noValue, Reg.noValue⟩] } ∧
      wholeWriteOf (.ptgl 1 0x0001) = some 1 ∧ exec (.ptgl 1 0x0001) s = .next t ∧
      s.config.buses[1]? = some (.shift serialT) ∧ s.shiftRx[1]? = some rx ∧ serialT.bits ≤ 16 ∧
      Level s serialT.clk false ∧ Level t serialT.clk true ∧ Level s serialT.dat true ∧ Level t serialT.dat true ∧
      rx.sr = rxHolds serialT 0x5A := by
  refine ⟨_, _, _, rfl, rfl, eq_next_of ready (by decide +kernel), rfl, rfl, by decide +kernel, ?_⟩
  unfold Level
  decide +kernel

/-- Chip-select of bus 1 released by a write of its whole port, the clock kept high; and a write that keeps it. -/
theorem witness_ShiftRegisterFollowsItsLines_write :
    ∃ s t u rx, s = { ready with ports := [portT 0 0, portT 0x0001 0] } ∧
      wholeWriteOf (.pwr 1 0x0005) = some 1 ∧ exec (.pwr 1 0x0005) s = .next t ∧
      s.config.buses[1]? = some (.shift serialT) ∧ s.shiftRx[1]? = some rx ∧
      pinLevel s.ports serialT.clk = pinLevel t.ports serialT.clk ∧ serialT.cs.isNull = false ∧
      Level s serialT.cs (!s.config.csActiveLow) ∧ Level t serialT.cs s.config.csActiveLow ∧
      exec (.pwr 1 0x0009) s = .next u ∧ pinLevel s.ports serialT.cs = pinLevel u.ports serialT.cs := by
  refine ⟨_, _, _, _, rfl, rfl, eq_next_of ready (by decide +kernel), rfl, rfl, by decide +kernel, by decide +kernel,
    ?_, ?_, eq_next_of ready (by decide +kernel), by decide +kernel⟩ <;> (unfold Level; decide +kernel)

/-- The first number past the lists; a list whose second port is not enabled, the first being so; a list that runs. -/
theorem witness_ListWriteDrivesItsPins :
    ready.config.lists.length ≤ (4 : Byte).toNat ∧
    (2 < ready.config.lists.length ∧ portsOf (listPins ready.config 2) = [0] ++ 1 :: [] ∧
      (∀ r ∈ [0], ({ ready with ports := [portT 0 0, Port.reset] } : State).enabled r = true) ∧
      ({ ready with ports := [portT 0 0, Port.reset] } : State).enabled 1 = false) ∧
    ∃ xs, ready.config.lists[(2 : Byte).toNat]? = some xs ∧ Pin.noRepeats xs = true ∧ PinsUsable ready xs := by
  refine ⟨by decide +kernel, by decide +kernel, _, rfl, ?_⟩
  unfold PinsUsable
  decide +kernel

theorem witness_ListReadPacksItsPins :
    ∃ xs, ready.config.lists[(2 : Byte).toNat]? = some xs ∧ xs.length ≤ 16 ∧ PinsUsable ready xs := by
  refine ⟨_, rfl, ?_⟩
  unfold PinsUsable
  decide +kernel

/-- List 1, pins 4 to 11 of port 0; and a run up to pin 15 (list 3). -/
theorem witness_ContiguousRunIsOneAlignedTransfer :
    (∃ xs, ready.config.lists[(1 : Byte).toNat]? = some xs ∧ (0 : Byte) ≠ nullPort ∧ ready.enabled 0 = true ∧
      4 + 8 ≤ 16 ∧ xs.length = 8 ∧ (∀ i, i < 8 → xs[i]? = some ⟨0, Fin.ofNat 16 (4 + i)⟩) ∧
      (0x0FF0 : Half) = ((1#16 <<< 8) - 1) <<< 4) ∧
    ∃ xs, ready.config.lists[(3 : Byte).toNat]? = some xs ∧ ready.enabled 1 = true ∧ 8 + 8 ≤ 16 ∧ xs.length = 8 ∧
      (∀ i, i < 8 → xs[i]? = some ⟨1, Fin.ofNat 16 (8 + i)⟩) ∧ (0xFF00 : Half) = ((1#16 <<< 8) - 1) <<< 8 :=
  ⟨⟨_, rfl, by decide +kernel⟩, _, rfl, by decide +kernel⟩

theorem fresh_consistent : Consistent fresh := by constructor <;> decide +kernel

theorem witness_DirectBusInitConfiguresItsPins :
    ∃ cfg xs, Consistent fresh ∧ fresh.config.buses[(0 : Byte).toNat]? = some (.direct 0 cfg) ∧
      fresh.config.lists[0]? = some xs ∧ PinsUsable fresh xs ∧ fresh.busReady.getD 0 false = false := by
  refine ⟨_, _, fresh_consistent, rfl, rfl, ?_⟩
  unfold PinsUsable
  decide +kernel

theorem witness_SerialBusInitIdlesItsLines :
    Consistent fresh ∧ fresh.config.buses[(1 : Byte).toNat]? = some (.shift serialT) ∧
    Pin.noRepeats [serialT.clk, serialT.dat, serialT.cs, serialT.din] = true ∧
    PinsUsable fresh (busLines fresh.config 1) ∧ fresh.busReady.getD 1 false = false ∧
    serialT.cs.isNull = false ∧ serialT.din.isNull = false := by
  refine ⟨fresh_consistent, rfl, ?_⟩
  unfold PinsUsable
  decide +kernel

theorem witness_DirectBusWritePresentsTheByte :
    ∃ cfg xs, ready.config.buses[(0 : Byte).toNat]? = some (.direct 0 cfg) ∧ ready.config.lists[0]? = some xs ∧
      Pin.noRepeats xs = true ∧ BusUsable ready 0 :=
  ⟨_, _, rfl, rfl, by decide +kernel, (busReadable_ready 0 (by decide)).1⟩

theorem witness_SerialWritePulsesMsbFirst :
    ready.config.buses[(1 : Byte).toNat]? = some (.shift serialT) ∧ serialT.clk.isNull = false ∧
    serialT.dat.isNull = false ∧ BusUsable ready 1 :=
  ⟨rfl, by decide +kernel, by decide +kernel, (busReadable_ready 1 (by decide)).1⟩

theorem witness_SerialReceiverGetsTheByte :
    Consistent ready ∧ ready.config.buses[(1 : Byte).toNat]? = some (.shift serialT) ∧ LinesApart serialT ∧
    BusUsable ready 1 ∧ serialT.cs.isNull = false :=
  ⟨ready_consistent, rfl, by unfold LinesApart; decide +kernel, (busReadable_ready 1 (by decide)).1, by decide +kernel⟩

theorem witness_DirectBusReadSamplesItsPins :
    ∃ cfg xs, Consistent ready ∧ ready.config.buses[(2 : Byte).toNat]? = some (.direct 3 cfg) ∧
      ready.config.lists[3]? = some xs ∧ BusReadable ready 2 :=
  ⟨_, _, ready_consistent, rfl, rfl, busReadable_ready 2 (by decide)⟩

/-- The input line is no output, and its first answer waits. -/
theorem witness_SerialReadDrivesSeedAndSamples :
    Consistent ready ∧ ready.config.buses[(1 : Byte).toNat]? = some (.shift serialT) ∧ LinesApart serialT ∧
    BusReadable ready 1 ∧ serialT.din.isNull = false ∧
    outputPin ready serialT.din.port.toNat serialT.din.pos.val = false ∧ 7 < serialT.bits ∧
    ({ ready with pads := [8, 0, 0, 0, 0, 0, 0, 8] } : State).pads[7]? = some 8 :=
  ⟨ready_consistent, rfl, by unfold LinesApart; decide +kernel, busReadable_ready 1 (by decide), by decide +kernel⟩

/-- Each selector at its first absent and last present number, each device before and after its initialisation. -/
theorem witness_SelectorsThenLifecycleAreChecked :
    ready.config.buses.length ≤ (3 : Byte).toNat ∧ (2 : Byte).toNat < ready.config.buses.length ∧
    ready.busReady.getD (2 : Byte).toNat false = true ∧ fresh.busReady.getD (2 : Byte).toNat false = false ∧
    ready.config.fonts.length ≤ (4 : Byte).toNat ∧ ready.config.debs.length ≤ (1 : Byte).toNat ∧
    (0 : Byte).toNat < ready.config.debs.length ∧ (ready.deb 0).ready = true ∧ (fresh.deb 0).ready = false ∧
    ready.dstate ≠ .uninitialized ∧ fresh.dstate = .uninitialized ∧
    fresh.busReady.getD fresh.config.disp.bus false = false := by decide +kernel

theorem witness_DisplayInitIssuesTheSequence :
    ∃ s, s = { ready with dstate := .uninitialized } ∧ Consistent s ∧ s.dstate = .uninitialized ∧ DisplayUsable s ∧
      PinsUsable s (controlPins s.config) ∧
      Pin.noRepeats (controlPins s.config ++ busPins s.config s.config.disp.bus) = true ∧
      s.config.disp.res.isNull = false ∧ s.config.disp.stb.isNull = false ∧ s.config.disp.dc.isNull = false := by
  refine ⟨_, rfl, by constructor <;> decide +kernel, ?_⟩
  unfold DisplayUsable BusUsable BusWired PinsUsable
  decide +kernel

/-- A display with a chip-select: the remaining pin of the last clause. -/
theorem witness_DisplayInitIssuesTheSequence_cs :
    ∃ s, s = { ready with dstate := .uninitialized, config := { cT with disp := { cT.disp with cs := ⟨1, 7⟩ } } } ∧
      Consistent s ∧ s.dstate = .uninitialized ∧ DisplayUsable s ∧ PinsUsable s (controlPins s.config) ∧
      Pin.noRepeats (controlPins s.config ++ busPins s.config s.config.disp.bus) = true ∧
      s.config.disp.cs.isNull = false := by
  refine ⟨_, rfl, by constructor <;> decide +kernel, ?_⟩
  unfold DisplayUsable BusUsable BusWired PinsUsable
  decide +kernel

/-- Not ready; x1 one past the clipped x2; the last buffer address that fits and the one after it; bytes with a value. -/
theorem witness_PutPageClipsAndStreams :
    fresh.dstate ≠ .ready ∧ ready.dstate = .ready ∧ min (200 : Half).toNat ready.config.profile.width = 128 ∧
    128 < (129 : Half).toNat ∧ (0 : Half).toNat ≤ 128 ∧ ready.config.bufSize < (0x0381 : Half).toNat + 128 ∧
    (0x0380 : Half).toNat + 128 ≤ ready.config.bufSize ∧ ready.buf.get? ((0x0100 : Half).toNat + 1) = some 0xC3 ∧
    Consistent ready ∧ DisplayUsable ready :=
  ⟨by decide +kernel, by decide +kernel, by decide +kernel, by decide +kernel, by decide +kernel, by decide +kernel,
    by decide +kernel, by decide +kernel, ready_consistent, displayUsable_ready.1⟩

theorem witness_PutPageFillsTheRam :
    Consistent ready ∧ DisplayUsable ready ∧ ready.dstate = .ready ∧
    (126 : Half).toNat ≤ min (130 : Half).toNat ready.config.profile.width ∧
    7 = min (9 : Byte).toNat (ready.config.profile.pages - 1) ∧
    2 = min (130 : Half).toNat ready.config.profile.width - (126 : Half).toNat ∧
    (0x0100 : Half).toNat + 2 ≤ ready.config.bufSize ∧ ready.buf.get? ((0x0100 : Half).toNat + 1) = some 0xC3 :=
  ⟨ready_consistent, displayUsable_ready.1, by decide +kernel⟩

/-- x inside, at and past the width. -/
theorem witness_PutByteWritesOneColumn :
    fresh.dstate ≠ .ready ∧ ready.dstate = .ready ∧ ready.config.profile.width < (129 : Half).toNat ∧
    (128 : Half).toNat ≤ ready.config.profile.width ∧ (127 : Half).toNat < ready.config.profile.width ∧
    7 = min (255 : Byte).toNat (ready.config.profile.pages - 1) ∧ Consistent ready ∧ DisplayUsable ready :=
  ⟨by decide +kernel, by decide +kernel, by decide +kernel, by decide +kernel, by decide +kernel, by decide +kernel,
    ready_consistent, displayUsable_ready.1⟩

theorem witness_ClearZeroesTheWholeRam :
    fresh.dstate ≠ .ready ∧ Consistent small ∧ DisplayUsable small ∧ small.dstate = .ready :=
  ⟨by decide +kernel, small_consistent, displayUsable_ready.2, by decide +kernel⟩

theorem witness_FillWritesEveryVisibleColumn :
    fresh.dstate ≠ .ready ∧ Consistent small ∧ DisplayUsable small ∧ small.dstate = .ready :=
  ⟨by decide +kernel, small_consistent, displayUsable_ready.2, by decide +kernel⟩

/-- The same byte over the direct bus and, under the same number, over a serial one. -/
theorem witness_TransportIsTransparent :
    ∃ s' t t', s' = { ready with config := { cT with buses := [.shift serialT, .shift serialT, .direct 3 ⟨0, 0, 0, 2, 0⟩] } } ∧
      isDisplayOp (.dputb 127 7 0x3C) = true ∧ s'.config = { ready.config with buses := s'.config.buses } ∧
      s'.buf = ready.buf ∧ s'.draws = ready.draws ∧ exec (.dputb 127 7 0x3C) ready = .next t ∧
      exec (.dputb 127 7 0x3C) s' = .next t' :=
  ⟨_, _, _, rfl, rfl, rfl, rfl, rfl, eq_next_of ready (by decide +kernel), eq_next_of ready (by decide +kernel)⟩

/-- Rows 3 to 12 round to 0 to 15; the strip at 0x0100 holds bytes. -/
theorem witness_FlushDrawsTheRectangle :
    roundRows 3 12 = (0, 15) ∧ Consistent ready ∧ DisplayUsable ready ∧ ready.dstate = .ready ∧ 126 ≤ 127 ∧ 3 ≤ 12 ∧
    127 < ready.config.profile.width ∧ 12 / 8 < ready.config.profile.pages ∧
    0x0100 + (15 / 8 + 1 - 0 / 8) * (127 + 1 - 126) ≤ ready.config.bufSize ∧
    ready.buf.get? (flushByte 126 0 (127 + 1 - 126) 0x0100 127 5) = some 0xC3 :=
  ⟨by decide +kernel, ready_consistent, displayUsable_ready.1, by decide +kernel⟩

/-- Font 0 covers 0x41 and 0x42; the code points on either side of it miss. -/
theorem witness_GlyphLookupTranscodesOrMisses :
    ∃ font, ready.config.fonts[(0 : Byte).toNat]? = some font ∧ (0x40 : BitVec 32).toNat < font.first ∧
      font.first + font.count ≤ (0x43 : BitVec 32).toNat ∧ font.first ≤ (0x41 : BitVec 32).toNat ∧
      (0x42 : BitVec 32).toNat < font.first + font.count := ⟨_, rfl, by decide +kernel⟩

/-- A glyph of width 1 under either numbering, and one of width 8. -/
theorem witness_NarrowGlyphsPassAndSquareOnesTranspose :
    (∃ f, ready.config.fonts[(0 : Byte).toNat]? = some f ∧ f.first ≤ (0x42 : BitVec 32).toNat ∧
      (0x42 : BitVec 32).toNat < f.first + f.count ∧ f.width = 1 ∧ 0 < f.heightInBytes ∧
      ready.config.glyphSrcMsbFirst = false ∧
      ({ ready with config := { cT with glyphSrcMsbFirst := true } } : State).config.glyphSrcMsbFirst = true) ∧
    ∃ f, ready.config.fonts[(2 : Byte).toNat]? = some f ∧ f.first ≤ (0x20 : BitVec 32).toNat ∧
      (0x20 : BitVec 32).toNat < f.first + f.count ∧ f.width = 8 ∧ 0 < f.heightInBytes :=
  ⟨⟨_, rfl, by decide +kernel⟩, _, rfl, by decide +kernel⟩

theorem witness_DebounceInitIsIdle :
    (0 : Byte).toNat < fresh.config.debs.length ∧ fresh.debs.length = fresh.config.debs.length ∧
    (fresh.deb 0).ready = false := by decide +kernel

/-- A poll that reads nonzero and one that reads zero. -/
theorem witness_PollCountsAndEmits :
    Consistent ready ∧ (0 : Byte).toNat < ready.config.debs.length ∧ (ready.deb 0).ready = true ∧
    2 = debBus ready.config 0 ∧ BusReadable ready 2 ∧
    nextIs (exec (.kpoll 0) { ready with pads := [0x0100] }) (fun t => t.busTrace == [.busRd 2 1]) = true ∧
    nextIs (exec (.kpoll 0) { ready with pads := [0x0000] }) (fun t => t.busTrace == [.busRd 2 0]) = true :=
  ⟨ready_consistent, by decide +kernel, by decide +kernel, by decide +kernel, busReadable_ready 2 (by decide),
    by decide +kernel⟩

theorem pollRun_cons {d : Byte} {s u : State} {m : Byte} {ms : List Byte}
    (h : nextIs (exec (.kpoll d) s) (fun t => t.busTrace == s.busTrace ++ [.busRd (debBus s.config d.toNat) m]) = true)
    (rest : PollRun d (nextOf s (exec (.kpoll d) s)) ms u) : PollRun d s (m :: ms) u := by
  cases ho : exec (.kpoll d) s with
  | next t =>
    simp only [ho, nextIs, beq_iff_eq, nextOf] at h rest
    exact .poll ho h rest
  | fault f => rw [ho] at h; cases h
  | refused r => rw [ho] at h; cases h

/-- The state after n polls. -/
def polled (s : State) : Nat → State
  | 0 => s
  | n + 1 => nextOf (polled s n) (exec (.kpoll 0) (polled s n))

/-- Idle, then polls of 1, 3, 2 and 0, with a threshold of 3. -/
theorem witness_HoldEmitsOneLongTapAndOneRelease :
    ∃ s t u, 1 ≤ s.thresh (0 : Byte).toNat ∧ s.thresh (0 : Byte).toNat ≤ s.config.cntMax ∧
      (s.deb (0 : Byte).toNat).prev = false ∧ (s.deb (0 : Byte).toNat).cnt = 0 ∧ (∀ m ∈ [(1 : Byte), 3, 2], m ≠ 0) ∧
      PollRun 0 s [1, 3, 2] t ∧ PollRun 0 t [0] u := by
  refine ⟨{ ready with pads := [0x0100, 0x0300, 0x0200, 0] }, polled { ready with pads := [0x0100, 0x0300, 0x0200, 0] } 3,
    polled { ready with pads := [0x0100, 0x0300, 0x0200, 0] } 4, by decide +kernel, by decide +kernel, by decide +kernel,
    by decide +kernel, by decide +kernel, ?_, ?_⟩
  · exact pollRun_cons (by decide +kernel) (pollRun_cons (by decide +kernel) (pollRun_cons (by decide +kernel) (.done _)))
  · exact pollRun_cons (by decide +kernel) (.done _)

end Sys2Proof.Tests
end

section
/-! What only grows (spec 00 R15, 10 R20 and R28, 20 R79, 43 R201, 70 R310): one relation between a state and a later
one, kept by every action of any list of actions and by every way contexts move, so that a step from any state has it. -/

namespace Sys2Proof.Machine

/-- The numbers and command lists of all contexts, the running one first. -/
def State.programs (s : State) : List (Nat × List Word) := (s.ctx :: s.parked).map (fun c => (c.id, c.prog))

/-- What every step keeps, as `Grows` does for traces, enable bits and buses, and besides: the configuration, the
contexts' command lists in some order, the debounce states that `KINIT` made ready, and that the display has left
`Uninitialized`. -/
structure OnlyGrows (s t : State) : Prop where
  config : t.config = s.config
  programs : t.programs.Perm s.programs
  grows : Grows s t
  deb : ∀ d, (s.deb d).ready = true → (t.deb d).ready = true
  display : s.dstate ≠ .uninitialized → t.dstate ≠ .uninitialized

theorem OnlyGrows.refl (s : State) : OnlyGrows s s := ⟨rfl, .refl _, .refl s, fun _ h => h, fun h => h⟩

theorem OnlyGrows.trans {s t u : State} (h : OnlyGrows s t) (k : OnlyGrows t u) : OnlyGrows s u :=
  ⟨k.config.trans h.config, k.programs.trans h.programs, h.grows.trans k.grows, fun d e => k.deb d (h.deb d e),
    fun e => k.display (h.display e)⟩

/-! ### Actions -/

theorem pollState_ready (cntMax : Nat) (d : Deb) (m : Byte) : (pollState cntMax d m).ready = d.ready := by
  unfold pollState; split <;> rfl

theorem pollDone_ready (d : Deb) (m : Byte) : (pollDone d m).ready = d.ready := by
  unfold pollDone; split <;> rfl

theorem dispTarget_ne_uninitialized (t : DispStep) : dispTarget t ≠ .uninitialized := by cases t <;> decide

/-- A debounce state written over another no less ready leaves every one as ready as it was. -/
theorem deb_ready_set {debs : List Deb} {d : Nat} {x : Deb}
    (hx : (debs.getD d Deb.reset).ready = true → x.ready = true) (e : Nat)
    (h : (debs.getD e Deb.reset).ready = true) : ((debs.set d x).getD e Deb.reset).ready = true := by
  simp only [List.getD_eq_getElem?_getD, List.getElem?_set] at hx h ⊢
  by_cases he : d = e
  · subst he
    by_cases hl : d < debs.length
    · simpa [hl] using hx h
    · simp [List.getElem?_eq_none (Nat.le_of_not_lt hl), Deb.reset] at h
  · simpa [he] using h

@[simp] theorem rxCmd_debs (s : State) (c : RxCmd) : (s.rxCmd c).debs = s.debs := by cases c <;> rfl

@[simp] theorem rxData_debs (s : State) (b : Byte) : (s.rxData b).debs = s.debs := by
  unfold State.rxData; split <;> rfl

@[simp] theorem emitEvent_debs (s : State) : s.emitEvent.debs = s.debs := by
  unfold State.emitEvent; split <;> rfl

@[simp] theorem pinWrite_debs (s : State) (x : Pin) (high : Bool) : (s.pinWrite x high).debs = s.debs := by
  unfold State.pinWrite; split <;> rfl

/-- No action takes back a `KINIT` (R310): only three actions write a debounce state, one of them to create it. -/
theorem runAct_deb_ready (a : Act) (s : State) (d : Nat) (h : (s.deb d).ready = true) :
    ((runAct a s).deb d).ready = true := by
  cases a
  case debInit e => exact deb_ready_set (fun _ => rfl) d h
  case pollUpdate e => exact deb_ready_set (fun hr => (pollState_ready _ _ _).trans hr) d h
  case pollEnd e => exact deb_ready_set (fun hr => (pollDone_ready _ _).trans hr) d h
  case bsrBit x i src => simpa [runAct, State.deb] using h
  case emit => simpa [runAct, State.deb] using h
  case dispCmd c byte => simpa [runAct, State.deb] using h
  case dispData src => simpa [runAct, State.deb] using h
  all_goals exact h

@[simp] theorem rxCmd_dstate (s : State) (c : RxCmd) : (s.rxCmd c).dstate = s.dstate := by cases c <;> rfl

@[simp] theorem rxData_dstate (s : State) (b : Byte) : (s.rxData b).dstate = s.dstate := by
  unfold State.rxData; split <;> rfl

@[simp] theorem emitEvent_dstate (s : State) : s.emitEvent.dstate = s.dstate := by
  unfold State.emitEvent; split <;> rfl

@[simp] theorem pinWrite_dstate (s : State) (x : Pin) (high : Bool) : (s.pinWrite x high).dstate = s.dstate := by
  unfold State.pinWrite; split <;> rfl

/-- No action leads back to `Uninitialized` (R201): one action moves `DSTATE`, and none of its targets is that. -/
theorem runAct_display (a : Act) (s : State) (h : s.dstate ≠ .uninitialized) :
    (runAct a s).dstate ≠ .uninitialized := by
  cases a
  case dispGo t => exact dispTarget_ne_uninitialized t
  case bsrBit x i src => simpa [runAct] using h
  case emit => simpa [runAct] using h
  case dispCmd c byte => simpa [runAct] using h
  case dispData src => simpa [runAct] using h
  all_goals exact h

theorem SameHost.programs {s t : State} (h : SameHost s t) : t.programs = s.programs := by
  simp [State.programs, h.id, h.prog, h.parked]

theorem runAct_onlyGrows (a : Act) (s : State) : OnlyGrows s (runAct a s) :=
  ⟨runAct_config a s, .of_eq (runAct_sameHost a s).programs, runAct_grows a s, runAct_deb_ready a s,
    runAct_display a s⟩

theorem runActs_onlyGrows (as : List Act) (s : State) : OnlyGrows s (runActs as s) :=
  runActs_induct (OnlyGrows.refl s) (fun a _ t h => h.trans (runAct_onlyGrows a t))

theorem runSome_onlyGrows (n : Nat) (as : List Act) (s : State) : OnlyGrows s (runSome n as s).1 := by
  fun_induction runSome n as s with
  | case1 n s => exact .refl s
  | case2 a as s _ => exact .refl s
  | case3 a as s _ m ih => exact (runAct_onlyGrows a s).trans ih
  | case4 n a as s _ ih => exact (runAct_onlyGrows a s).trans ih

/-! ### Contexts -/

/-- Another running context and other parked ones, with the same command lists in some order. -/
theorem onlyGrows_of_contexts {s : State} {c : Ctx} {cs : List Ctx}
    (h : ({ s with ctx := c, parked := cs } : State).programs.Perm s.programs) :
    OnlyGrows s { s with ctx := c, parked := cs } :=
  ⟨rfl, h, .of_eq rfl rfl rfl rfl rfl rfl, fun _ h => h, fun h => h⟩

theorem onlyGrows_of_perm {s : State} {c : Ctx} {cs : List Ctx} (h : (s.ctx :: s.parked).Perm (c :: cs)) :
    OnlyGrows s { s with ctx := c, parked := cs } :=
  onlyGrows_of_contexts (h.symm.map _)

/-- The running context changed, but not its number and its command list. -/
theorem setCtx_onlyGrows {s : State} {c : Ctx} (hi : c.id = s.ctx.id) (hp : c.prog = s.ctx.prog) :
    OnlyGrows s (s.setCtx c) :=
  onlyGrows_of_contexts (.of_eq (by simp [State.programs, hi, hp]))

theorem beginOp_onlyGrows (s : State) : OnlyGrows s s.beginOp := setCtx_onlyGrows rfl rfl

theorem exec_onlyGrows {i : Instr} {s t : State} (h : exec i s = .next t) : OnlyGrows s t := by
  obtain ⟨-, rfl⟩ := exec_eq_next.mp h
  exact (beginOp_onlyGrows s).trans (runActs_onlyGrows _ _)

theorem finishOp_onlyGrows (s : State) : OnlyGrows s (finishOp s) :=
  (setCtx_onlyGrows (c := { s.ctx with queue := [] }) rfl rfl).trans (runActs_onlyGrows _ _)

theorem sliceOp_onlyGrows (n : Nat) (s : State) : OnlyGrows s (sliceOp n s) :=
  (runSome_onlyGrows n s.ctx.queue s).trans (setCtx_onlyGrows rfl rfl)

theorem handOver_onlyGrows (s : State) : OnlyGrows s (handOver s) := by
  unfold handOver
  split
  · exact .refl s
  · next c cs hp => exact onlyGrows_of_perm (hp ▸ (List.perm_append_singleton s.ctx (c :: cs)).symm)

theorem selectCtx_onlyGrows {id : Nat} {s t : State} (h : selectCtx id s = some t) : OnlyGrows s t := by
  unfold selectCtx at h
  split at h
  · cases h
    exact .refl s
  · split at h
    · next c cs hc =>
      cases h
      exact onlyGrows_of_perm (((takeCtx_perm hc).cons s.ctx).trans (List.perm_append_singleton s.ctx (c :: cs)).symm)
    · cases h

/-- Issuing an operation changes only the running context, and not its command list. -/
theorem loadOp_onlyGrows {s t : State} (h : loadOp s = .next t) : OnlyGrows s t := by
  unfold loadOp at h
  split at h
  · cases h
    exact .refl s
  · split at h
    · cases h
      exact .refl s
    · split at h
      · cases h
      · split at h <;> cases h
        exact setCtx_onlyGrows rfl rfl

/-! ### Steps -/

theorem runNext_onlyGrows {s t : State} (h : runNext s = .next t) : OnlyGrows s t := by
  unfold runNext at h
  split at h
  · cases h
    exact finishOp_onlyGrows s
  · split at h
    · cases h
      exact handOver_onlyGrows s
    · split at h
      · cases h
      · exact exec_onlyGrows h

theorem setBuf_onlyGrows (s : State) (m : Memory) : OnlyGrows s { s with buf := m } :=
  ⟨rfl, .refl _, .of_eq rfl rfl rfl rfl rfl rfl, fun _ h => h, fun h => h⟩

theorem setSched_onlyGrows (s : State) (ts : List Turn) : OnlyGrows s { s with sched := ts } :=
  ⟨rfl, .refl _, .of_eq rfl rfl rfl rfl rfl rfl, fun _ h => h, fun h => h⟩

theorem runTurn_onlyGrows {turn : Turn} {s t : State} (h : runTurn turn s = .next t) : OnlyGrows s t := by
  cases turn with
  | poke a byte =>
    simp only [runTurn] at h
    cases h
    split
    · exact setBuf_onlyGrows s _
    · exact .refl s
  | run id n =>
    simp only [runTurn] at h
    split at h
    · cases h
      exact .refl s
    · next s1 h1 =>
      split at h <;> cases h
      next s2 h2 => exact (selectCtx_onlyGrows h1).trans ((loadOp_onlyGrows h2).trans (sliceOp_onlyGrows n s2))

/-- A step is a turn of the schedule or the running context's next operation. -/
theorem step_onlyGrows {s t : State} (h : step s = .next t) : OnlyGrows s t := by
  unfold step runStep at h
  split at h
  · exact runNext_onlyGrows h
  · next ts _ => exact (setSched_onlyGrows s ts).trans (runTurn_onlyGrows h)

/-- Settles O16: every action and every way contexts move keeps the relation `OnlyGrows`, so a step has it. -/
theorem everyStepOnlyGrows : Obligations.EveryStepOnlyGrows := by
  intro s t h
  obtain ⟨hconfig, hprograms, hgrows, hdeb, hdisplay⟩ := step_onlyGrows h
  exact ⟨hconfig, hprograms, hgrows.pin, hgrows.bus, hgrows.disp, hgrows.ev, hgrows.en, hgrows.ready, hdeb, hdisplay⟩

end Sys2Proof.Machine
end

section
/-! The step and the running context (spec 10 R20 and R25, 20 R72 and R79, 60 R297): a step is the operation it
decodes, a placed word is fetched and decoded back, and an operation moves its own context on by one command. -/

namespace Sys2Proof

/-- The decoder finds each operation's operands in the fields the encoder put them in, and zeros in the others. -/
theorem decodeFields_encodeFields (w : Word) (i : Instr) : decodeFields w (encodeFields i) = .ok i := by
  cases i
  case gbmp f cp =>
    have hcp : cp.extractLsb' 16 16 ++ cp.extractLsb' 0 16 = cp :=
      (BitVec.extractLsb'_append_extractLsb'_eq_extractLsb' rfl).trans BitVec.extractLsb'_eq_self
    simp [decodeFields, encodeFields, mustBeZero, hcp]
  all_goals simp [decodeFields, encodeFields, mustBeZero, lowByte, highZero_setWidth]

/-- R91 to R93: an operation's word decodes to the operation. -/
@[simp] theorem decode_encode (i : Instr) : decode (encode i) = .ok i := by
  rw [decode, encode, CommandWord.ofWord_toWord, decodeFields_encodeFields]

end Sys2Proof

namespace Sys2Proof.Machine

/-! ### The step -/

/-- Settles O5: with no turn scheduled and no operation half done, `step` is the fetch, the decoder and `exec`. -/
theorem stepRunsTheDecodedOperation : Obligations.StepRunsTheDecodedOperation := by
  intro s w i hsched hqueue hfetch hdecode
  simp [step, runStep, runNext, hsched, hqueue, hfetch, hdecode]

/-- A list too short for the index is filled up to it, so the word placed there is always found. -/
theorem getElem?_setWordAt (ws : List Word) (n : Nat) (w : Word) : (setWordAt ws n w)[n]? = some w := by
  fun_induction setWordAt ws n w with
  | case1 => rfl
  | case2 n w ih => simpa using ih
  | case3 => rfl
  | case4 x ws n w ih => simpa using ih

theorem fetch_placeWord (s : State) (w : Word) : fetch (placeWord s w) = some w :=
  getElem?_setWordAt s.ctx.prog s.ctx.cp w

theorem withFetchWord_toNat (s : State) (w : Word) : s.withFetchWord 64 w.toNat = placeWord s w := by
  rw [State.withFetchWord, Nat.mod_eq_of_lt w.isLt, BitVec.ofNat_toNat, BitVec.setWidth_eq]

/-- Settles O6: the placed word is the one fetched, with nothing scheduled or half done before it. -/
theorem stepRunsAPlacedWord : Obligations.StepRunsAPlacedWord := by
  intro s i
  rw [withFetchWord_toNat]
  exact stepRunsTheDecodedOperation _ (encode i) i rfl rfl (fetch_placeWord s _) (decode_encode i)

/-! ### The running context -/

/-- An operation's `cp` moves when its last action retires it, and that leaves no local variable (R25). -/
theorem exec_retires {i : Instr} {s t : State} (h : exec i s = .next t) :
    t.ctx.cp = s.ctx.cp + 1 ∧ t.ctx.locals = Locals.empty := by
  obtain ⟨-, rfl⟩ := exec_eq_next.mp h
  rw [runActs_append]
  refine ⟨?_, rfl⟩
  show (runActs (planOf i s).acts s.beginOp).ctx.cp + 1 = _
  rw [runActs_cp (noRetire_planOf i s)]
  rfl

/-- Settles O8: no action touches what the host owns (`exec_sameHost`), and the last one alone moves `cp`. -/
theorem operationAdvancesItsContextOnly : Obligations.OperationAdvancesItsContextOnly := by
  intro i s t h
  obtain ⟨hcp, hlocals⟩ := exec_retires h
  obtain ⟨hconfig, hbuf, hparked, hsched, hid, hprog, hqueue⟩ := exec_sameHost h
  exact ⟨hcp, hprog, hid, hqueue, hlocals, hparked, hbuf, hconfig, hsched⟩

end Sys2Proof.Machine
end

section
/-! What display writes do to the display receiver (spec 10 R38): the pin-level body of a byte does not reach it, the
addressing commands set its pointers, each data byte fills the cell they point at. From one page write (43 R215, R220)
to the flush of a rectangle (43 R226, R227). -/

namespace Sys2Proof.Machine

/-! ### The pin-level body of a byte -/

/-- The state with its lines, the shift registers on them and the traces of pins, bus and display blanked: what the
pin-level body of a display byte leaves as it is. -/
def State.behindLines (s : State) : State :=
  { s with ports := [], shiftRx := [], pinTrace := [], busTrace := [], dispTrace := [] }

/-- States that agree behind the lines have the same receiver. -/
theorem receiver_of_behindLines {s t : State} (h : t.behindLines = s.behindLines) :
    t.pp = s.pp ∧ t.cptr = s.cptr ∧ t.gram = s.gram :=
  ⟨(congrArg State.pp h :), (congrArg State.cptr h :), (congrArg State.gram h :)⟩

/-- The actions that drive lines, wait, or note a bus write: those of the body of `Present` (R205). -/
def drivesLines : Act → Bool
  | .bsr _ _ _ => true
  | .bsrBit _ _ _ => true
  | .bsrList _ _ _ => true
  | .hold _ => true
  | .busWr _ _ => true
  | _ => false

theorem behindLines_runAct {a : Act} (h : drivesLines a = true) (s : State) :
    (runAct a s).behindLines = s.behindLines := by
  cases a
  case bsrBit x i src =>
    simp only [runAct, State.pinWrite]
    split <;> rfl
  case bsr | bsrList | hold | busWr => rfl
  all_goals simp [drivesLines] at h

theorem behindLines_runActs {as : List Act} (h : ∀ a ∈ as, drivesLines a = true) (s : State) :
    (runActs as s).behindLines = s.behindLines :=
  runActs_induct (P := fun t => t.behindLines = s.behindLines) rfl
    (fun a ha t ht => (behindLines_runAct (h a ha) t).trans ht)

theorem drivesLines_pinSet (x : Pin) : ∀ a ∈ pinSet x, drivesLines a = true := by
  unfold pinSet; split <;> simp [drivesLines]

theorem drivesLines_pinClear (x : Pin) : ∀ a ∈ pinClear x, drivesLines a = true := by
  unfold pinClear; split <;> simp [drivesLines]

theorem drivesLines_pinWriteBit (x : Pin) (i : Nat) (src : Src) : ∀ a ∈ pinWriteBit x i src, drivesLines a = true := by
  unfold pinWriteBit; split <;> simp [drivesLines]

theorem drivesLines_assertCs (c : Config) (x : Pin) : ∀ a ∈ assertCs c x, drivesLines a = true := by
  unfold assertCs; split
  · exact drivesLines_pinClear x
  · exact drivesLines_pinSet x

theorem drivesLines_releaseCs (c : Config) (x : Pin) : ∀ a ∈ releaseCs c x, drivesLines a = true := by
  unfold releaseCs; split
  · exact drivesLines_pinSet x
  · exact drivesLines_pinClear x

theorem drivesLines_serialBits (w : ShiftCfg) (src : Src) (n : Nat) :
    ∀ a ∈ serialBits w src n, drivesLines a = true := by
  induction n with
  | zero => simp [serialBits]
  | succ n ih =>
    simp only [serialBits, List.forall_mem_append, List.forall_mem_singleton]
    exact ⟨⟨⟨⟨⟨drivesLines_pinClear _, drivesLines_pinWriteBit _ _ _⟩, rfl⟩, drivesLines_pinSet _⟩, rfl⟩, ih⟩

theorem drivesLines_busWriteActs (c : Config) (b : Nat) (src : Src) :
    ∀ a ∈ busWriteActs c b src, drivesLines a = true := by
  unfold busWriteActs
  refine List.forall_mem_cons.mpr ⟨rfl, ?_⟩
  split
  · simp [listWriteActs, drivesLines]
  · simp only [serialWrite, List.forall_mem_append]
    exact ⟨⟨drivesLines_assertCs _ _, drivesLines_serialBits _ _ _⟩, drivesLines_releaseCs _ _⟩
  · simp

theorem drivesLines_strobeActs (d : DispWiring) : ∀ a ∈ strobeActs d, drivesLines a = true := by
  unfold strobeActs; split
  · simp
  · simp only [List.forall_mem_append, List.forall_mem_singleton]
    exact ⟨⟨drivesLines_pinClear _, rfl⟩, drivesLines_pinSet _⟩

theorem drivesLines_presentBody (c : Config) (data : Bool) (src : Src) :
    ∀ a ∈ presentBody c data src, drivesLines a = true := by
  simp only [presentBody, List.forall_mem_append]
  refine ⟨⟨⟨⟨?_, drivesLines_assertCs _ _⟩, drivesLines_busWriteActs _ _ _⟩, drivesLines_strobeActs _⟩,
    drivesLines_releaseCs _ _⟩
  split
  · exact drivesLines_pinSet _
  · exact drivesLines_pinClear _

/-- A command reaches the receiver as its meaning to the pointers alone (R205, R38). -/
theorem behindLines_cmdActs (c : Config) (x : RxCmd × Byte) (s : State) :
    (runActs (cmdActs c x) s).behindLines = s.behindLines.rxCmd x.1 := by
  rw [cmdActs, runActs_cons, behindLines_runActs (drivesLines_presentBody _ _ _)]
  obtain ⟨cmd, byte⟩ := x
  cases cmd <;> rfl

/-- A data byte reaches the receiver as that byte alone (R205, R38). -/
theorem behindLines_dataActs (c : Config) (src : Src) (s : State) :
    (runActs (dataActs c src) s).behindLines =
      (s.rxData ((srcValue s.ctx.locals src).setWidth 8)).behindLines := by
  rw [dataActs, runActs_cons, behindLines_runActs (drivesLines_presentBody _ _ _)]
  rfl

/-! ### The receiver's pointers -/

/-- What a display profile bounds: at least one and at most 16 pages of at most 255 columns, the visible ones among
them (R40). -/
theorem profile_bounds {p : Profile} (h : p.ok = true) :
    1 ≤ p.pages ∧ p.pages ≤ 16 ∧ p.ramWidth ≤ 255 ∧ p.colOffset + p.width ≤ p.ramWidth := by
  simp only [Profile.ok, Bool.and_eq_true, decide_eq_true_eq, beq_iff_eq] at h
  omega

/-- Both pointers of the receiver hold a value: page pg, physical column col (R38). -/
structure PointsAt (s : State) (pg col : Nat) : Prop where
  pp : s.pp = regOf (BitVec.allOnes 4) (BitVec.ofNat 4 pg)
  cptr : s.cptr = regOf (BitVec.allOnes 8) (BitVec.ofNat 8 col)

theorem regOf_allOnes {w : Nat} (v : BitVec w) : regOf (BitVec.allOnes w) v = ⟨v, BitVec.allOnes w⟩ := by
  rw [regOf, BitVec.and_allOnes]

/-- Writing the high and then the low half of a byte register writes the byte. -/
theorem regWrite_halves (r : Reg 8) (col : Nat) :
    regWrite (regWrite r 0xF0#8 ((BitVec.ofNat 4 (col / 16)).setWidth 8 <<< 4)) 0x0F#8
        ((BitVec.ofNat 4 col).setWidth 8) = regOf (BitVec.allOnes 8) (BitVec.ofNat 8 col) := by
  have hlow : ∀ i < 8, (0x0F#8).getLsbD i = decide (i < 4) := by decide
  have hhigh : ∀ i < 8, (0xF0#8).getLsbD i = decide (4 ≤ i) := by decide
  simp only [regWrite, regOf_allOnes, Reg.mk.injEq]
  constructor
  · apply BitVec.eq_of_getLsbD_eq
    intro i hi
    simp only [BitVec.getLsbD_or, BitVec.getLsbD_and, BitVec.getLsbD_not, BitVec.getLsbD_shiftLeft,
      BitVec.getLsbD_setWidth, BitVec.getLsbD_ofNat, hlow i hi, hhigh i hi, Nat.testBit_div_two_pow (n := 4) col]
    by_cases h : i < 4
    · simp [h, hi]
    · have hup : 4 ≤ i := by omega
      have hsub : i - 4 < 4 := by omega
      have hsub8 : i - 4 < 8 := by omega
      simp [h, hi, hup, hsub, hsub8]
  · rw [BitVec.or_assoc]
    exact BitVec.or_allOnes

/-- `SetAddr(pg, col)` points the receiver there, whatever its pointers held, and does nothing else behind the lines
(R213, R38). -/
theorem behindLines_setAddrActs (c : Config) (pg col : Nat) (s : State) :
    (runActs (setAddrActs c pg col) s).behindLines =
      { s with
        pp := regOf (BitVec.allOnes 4) (BitVec.ofNat 4 pg)
        cptr := regOf (BitVec.allOnes 8) (BitVec.ofNat 8 col) }.behindLines := by
  simp only [setAddrActs, setAddrCmds, List.flatMap_cons, List.flatMap_nil, List.append_nil, runActs_append,
    behindLines_cmdActs]
  rw [← regWrite_halves s.cptr, regOf_allOnes]
  rfl

/-- With the pointers inside the RAM a data byte goes to the cell they point at and moves the column on (R38). -/
theorem rxData_pointsAt {s : State} {pg col : Nat} (b : Byte) (h : PointsAt s pg col)
    (hprofile : s.config.profile.ok = true) (hpg : pg < s.config.profile.pages)
    (hcol : col < s.config.profile.ramWidth) :
    s.rxData b = { s with
      gram := s.gram.put (256 * pg + col) b
      cptr := regOf (BitVec.allOnes 8) (BitVec.ofNat 8 (col + 1)) } := by
  obtain ⟨-, hpages, hram, -⟩ := profile_bounds hprofile
  have hpg' : (BitVec.ofNat 4 pg).toNat = pg := (BitVec.toNat_ofNat _ _).trans (Nat.mod_eq_of_lt (by omega))
  have hcol' : (BitVec.ofNat 8 col).toNat = col := (BitVec.toNat_ofNat _ _).trans (Nat.mod_eq_of_lt (by omega))
  rw [rxData_at b (h.pp.trans (regOf_allOnes _)) (h.cptr.trans (regOf_allOnes _)) (by omega) (by omega), hpg', hcol',
    regOf_allOnes, BitVec.ofNat_add]
  rfl

/-! ### One page write -/

/-- Page pg of the RAM, from column col on, holds the n bytes of `buf` from address a on, where they hold a value; no
other cell differs (R220). -/
structure RowDrawn (buf before after : Memory) (pg col a n : Nat) : Prop where
  written : ∀ j byte, j < n → buf.get? (a + j) = some byte → after.get? (256 * pg + (col + j)) = some byte
  kept : ∀ x, (∀ j, j < n → x ≠ 256 * pg + (col + j)) → after.get? x = before.get? x

theorem RowDrawn.empty (buf before : Memory) (pg col a : Nat) : RowDrawn buf before before pg col a 0 :=
  ⟨fun _ _ hj => absurd hj (Nat.not_lt_zero _), fun _ _ => rfl⟩

/-- One more byte, at the next column. -/
theorem RowDrawn.put {buf before after : Memory} {pg col a n : Nat} {b : Byte}
    (h : RowDrawn buf before after pg col a n) (hb : ∀ byte, buf.get? (a + n) = some byte → b = byte) :
    RowDrawn buf before (after.put (256 * pg + (col + n)) b) pg col a (n + 1) := by
  constructor
  · intro j byte hj hbyte
    rcases Nat.lt_succ_iff_lt_or_eq.mp hj with hj | rfl
    · rw [Memory.get?_put_other (by omega)]
      exact h.written j byte hj hbyte
    · rw [Memory.get?_put_same, hb byte hbyte]
  · intro x hx
    rw [Memory.get?_put_other (hx n (by omega))]
    exact h.kept x (fun j hj => hx j (by omega))

theorem bufValue_eq {s : State} {a : Nat} {b : Byte} (h : s.buf.get? a = some b) : s.bufValue a = b := by
  simp [State.bufValue, h]

theorem streamActs_succ (c : Config) (a n : Nat) :
    streamActs c a (n + 1) = streamActs c a n ++ .bufRead (a + n) :: dataActs c .loaded := by
  simp [streamActs, List.range_succ]

/-- One byte of the stream: what the buffer's byte reads as goes to the cell pointed at (R215, R38). -/
theorem runActs_streamByte {s : State} {pg col : Nat} (c : Config) (a : Nat) (h : PointsAt s pg col)
    (hprofile : s.config.profile.ok = true) (hpg : pg < s.config.profile.pages)
    (hcol : col < s.config.profile.ramWidth) :
    PointsAt (runActs (.bufRead a :: dataActs c .loaded) s) pg (col + 1) ∧
      (runActs (.bufRead a :: dataActs c .loaded) s).gram = s.gram.put (256 * pg + col) (s.bufValue a) := by
  have hread : PointsAt (s.bufRead a) pg col := ⟨h.pp, h.cptr⟩
  have hbyte : (srcValue (s.bufRead a).ctx.locals .loaded).setWidth 8 = s.bufValue a := by
    simp [State.bufRead, srcValue]
  have hrun := behindLines_dataActs c .loaded (s.bufRead a)
  rw [hbyte, rxData_pointsAt _ hread hprofile hpg hcol] at hrun
  obtain ⟨hpp, hcptr, hgram⟩ := receiver_of_behindLines hrun
  exact ⟨⟨hpp.trans h.pp, hcptr⟩, hgram⟩

/-- The stream of a page write draws its row (R215, R220), by induction on the number of bytes. -/
theorem runActs_streamActs {s : State} {pg col n : Nat} (c : Config) (a : Nat) (h : PointsAt s pg col)
    (hprofile : s.config.profile.ok = true) (hpg : pg < s.config.profile.pages)
    (hcol : col + n ≤ s.config.profile.ramWidth) :
    PointsAt (runActs (streamActs c a n) s) pg (col + n) ∧
      RowDrawn s.buf s.gram (runActs (streamActs c a n) s).gram pg col a n := by
  induction n with
  | zero => exact ⟨h, .empty _ _ _ _ _⟩
  | succ n ih =>
    obtain ⟨hpoints, hrow⟩ := ih (by omega)
    have hhost := runActs_sameHost s (streamActs c a n)
    rw [streamActs_succ, runActs_append]
    obtain ⟨hpoints', hgram⟩ := runActs_streamByte c (a + n) hpoints (by rwa [hhost.config]) (by rwa [hhost.config])
      (by rw [hhost.config]; omega)
    refine ⟨hpoints', ?_⟩
    rw [hgram]
    exact hrow.put (fun byte hbyte => bufValue_eq (by rwa [hhost.buf]))

/-- Addressing and then streaming draws the row whatever the receiver's pointers held (R215, R220). -/
theorem runActs_setAddr_stream (c : Config) (s : State) {pg col a n : Nat} (hprofile : s.config.profile.ok = true)
    (hpg : pg < s.config.profile.pages) (hcol : col + n ≤ s.config.profile.ramWidth) :
    PointsAt (runActs (setAddrActs c pg col ++ streamActs c a n) s) pg (col + n) ∧
      RowDrawn s.buf s.gram (runActs (setAddrActs c pg col ++ streamActs c a n) s).gram pg col a n := by
  obtain ⟨hpp, hcptr, hgram⟩ := receiver_of_behindLines (behindLines_setAddrActs c pg col s)
  have hconfig := runActs_config s (setAddrActs c pg col)
  have hbuf := (runActs_sameHost s (setAddrActs c pg col)).buf
  have hrow := runActs_streamActs c a ⟨hpp, hcptr⟩ (by rwa [hconfig]) (by rwa [hconfig]) (by rwa [hconfig])
  rwa [← runActs_append, hbuf, hgram] at hrow

/-- The transitions of `DSTATE` stand round the actions of a write transaction (R201, R213). -/
theorem runActs_writing (acts bs : List Act) (s : State) :
    runActs (writing acts ++ bs) s =
      runActs (.dispGo .toReady :: bs) (runActs acts (runAct (.dispGo .toWriting) s)) := by
  simp [writing, runActs_append]

/-- A page write whose checks hold addresses its clamped page and draws the clipped row there (R215, R220). -/
theorem exec_dputp_draws {x1 x2 : Half} {page : Byte} {buf : Half} {s : State} {pg col n : Nat}
    (hpg : pg = clampPage s.config page.toNat) (hcol : col = physColumn s.config x1.toNat)
    (hn : n = clipX2 s.config x2.toNat - x1.toNat) (hprofile : s.config.profile.ok = true)
    (hdisplay : DisplayUsable s) (hready : s.dstate = .ready) (hx : x1.toNat ≤ clipX2 s.config x2.toNat)
    (hbuf : buf.toNat + n ≤ s.config.bufSize) :
    ∃ t, exec (.dputp x1 x2 page buf) s = .next t ∧ t.dstate = .ready ∧ PointsAt t pg (col + n) ∧
      RowDrawn s.buf s.gram t.gram pg col buf.toNat n := by
  obtain ⟨hpages, -, -, hwidth⟩ := profile_bounds hprofile
  have hpg' : pg < s.config.profile.pages := by rw [hpg, clampPage]; omega
  have hcol' : col + n ≤ s.config.profile.ramWidth := by
    simp only [clipX2] at hx hn
    simp only [hcol, physColumn]
    omega
  obtain ⟨hpoints, hrow⟩ := runActs_setAddr_stream s.config (runAct (.dispGo .toWriting) s.beginOp)
    (a := buf.toNat) hprofile hpg' hcol'
  subst hpg hcol hn
  refine ⟨_, exec_eq_next.mpr ⟨?_, rfl⟩, ?_⟩
  · simp only [planOf, planDputp, List.forall_mem_append, List.forall_mem_cons]
    exact ⟨⟨by simp [dispReadyCheck, hready], by simpa using hx, by simpa using hbuf, by simp⟩,
      presentChecks_holds hdisplay⟩
  · simp only [planOf, planDputp, runActs_writing]
    generalize runActs _ (runAct (.dispGo .toWriting) s.beginOp) = u at hpoints hrow ⊢
    exact ⟨rfl, ⟨hpoints.pp, hpoints.cptr⟩, hrow⟩

/-! ### Operations one after another -/

/-- A list of operations that goes on has gone on through its first. -/
theorem execAll_cons_eq_next {i : Instr} {is : List Instr} {s t : State} :
    execAll (i :: is) s = .next t ↔ ∃ u, exec i s = .next u ∧ execAll is u = .next t := by
  rw [execAll]
  cases exec i s <;> simp

theorem execAll_append {is js : List Instr} {s t : State} (h : execAll is s = .next t) :
    execAll (is ++ js) s = execAll js t := by
  induction is generalizing s with
  | nil => cases h; rfl
  | cons i is ih =>
    obtain ⟨u, hu, hrest⟩ := execAll_cons_eq_next.mp h
    rw [List.cons_append, execAll, hu]
    exact ih hrest

/-- A relation that every operation which goes on keeps holds after a list of them. -/
theorem execAll_induct {R : State → State → Prop} (refl : ∀ s, R s s) (trans : ∀ {s t u}, R s t → R t u → R s u)
    (hexec : ∀ {i s t}, exec i s = .next t → R s t) {is : List Instr} {s t : State}
    (h : execAll is s = .next t) : R s t := by
  induction is generalizing s with
  | nil => cases h; exact refl t
  | cons i is ih =>
    obtain ⟨u, hu, hrest⟩ := execAll_cons_eq_next.mp h
    exact trans (hexec hu) (ih hrest)

theorem execAll_sameHost {is : List Instr} {s t : State} (h : execAll is s = .next t) : SameHost s t :=
  execAll_induct SameHost.refl .trans exec_sameHost h

theorem execAll_grows {is : List Instr} {s t : State} (h : execAll is s = .next t) : Grows s t :=
  execAll_induct Grows.refl .trans exec_grows h

/-- Pins stay usable: no enable bit is cleared and the configuration is the same. -/
theorem PinsUsable.of_grows {s t : State} {xs : List Pin} (h : PinsUsable s xs) (hconfig : t.config = s.config)
    (hgrows : Grows s t) : PinsUsable t xs := fun x hx =>
  (h x hx).imp id (fun ⟨hexists, hen⟩ => ⟨by rwa [State.portExists, hconfig], hgrows.en _ hen⟩)

/-- A usable display stays usable. -/
theorem DisplayUsable.of_grows {s t : State} (h : DisplayUsable s) (hconfig : t.config = s.config)
    (hgrows : Grows s t) : DisplayUsable t := by
  obtain ⟨⟨⟨hbus, hlist, hbusPins⟩, hbusReady⟩, hpins⟩ := h
  rw [DisplayUsable, BusUsable, BusWired, hconfig]
  exact ⟨⟨⟨hbus, hlist, hbusPins.of_grows hconfig hgrows⟩, hgrows.ready _ hbusReady⟩, hpins.of_grows hconfig hgrows⟩

/-! ### A flush -/

/-- Pages pg to pg + m − 1 of the RAM, from column col on, hold the m strips of w bytes of `buf` from address a on,
where they hold a value; no other cell differs (R226). -/
structure BandsDrawn (buf before after : Memory) (pg col a w m : Nat) : Prop where
  written : ∀ k j byte, k < m → j < w → buf.get? (a + k * w + j) = some byte →
    after.get? (256 * (pg + k) + (col + j)) = some byte
  kept : ∀ x, (∀ k j, k < m → j < w → x ≠ 256 * (pg + k) + (col + j)) → after.get? x = before.get? x

theorem BandsDrawn.empty (buf before : Memory) (pg col a w : Nat) : BandsDrawn buf before before pg col a w 0 :=
  ⟨fun _ _ _ hk => absurd hk (Nat.not_lt_zero _), fun _ _ => rfl⟩

/-- One more band, on the next page; a row's columns are below 256, so it overwrites no earlier band. -/
theorem BandsDrawn.snoc {buf before middle after : Memory} {pg col a w m : Nat} (hcol : col + w ≤ 256)
    (h : BandsDrawn buf before middle pg col a w m) (hrow : RowDrawn buf middle after (pg + m) col (a + m * w) w) :
    BandsDrawn buf before after pg col a w (m + 1) := by
  constructor
  · intro k j byte hk hj hbyte
    rcases Nat.lt_succ_iff_lt_or_eq.mp hk with hk | rfl
    · rw [hrow.kept _ (fun i hi => by omega)]
      exact h.written k j byte hk hj hbyte
    · exact hrow.written j byte hj hbyte
  · intro x hx
    rw [hrow.kept x (fun j hj => hx m j (by omega) hj)]
    exact h.kept x (fun k j hk hj => hx k j (by omega) hj)

/-- Band k of a flush of the columns x1 to x2 from page pg on (R226). -/
def flushBand (x1 x2 pg buf k : Nat) : Instr :=
  .dputp (BitVec.ofNat 16 x1) (BitVec.ofNat 16 (x2 + 1)) (BitVec.ofNat 8 (pg + k))
    (BitVec.ofNat 16 (buf + k * (x2 - x1 + 1)))

theorem flush_eq (x1 y1 x2 y2 buf : Nat) :
    flush x1 y1 x2 y2 buf = (List.range (y2 / 8 + 1 - y1 / 8)).map (flushBand x1 x2 (y1 / 8) buf) := rfl

theorem bufSize_le {c : Config} (h : c.wellFormed = true) : c.bufSize ≤ 65536 := by
  simp only [Config.wellFormed, Config.sizesOk, Bool.and_eq_true, decide_eq_true_eq] at h
  tauto

theorem profile_ok {c : Config} (h : c.wellFormed = true) : c.profile.ok = true := by
  simp only [Config.wellFormed, Bool.and_eq_true] at h
  tauto

/-- A band on a page of the panel is clipped and clamped nowhere, and draws its strip (R215, R226). -/
theorem exec_flushBand_draws {x1 x2 pg buf k : Nat} {s : State} (hconfig : s.config.wellFormed = true)
    (hdisplay : DisplayUsable s) (hready : s.dstate = .ready) (hx : x1 ≤ x2) (hwidth : x2 < s.config.profile.width)
    (hpage : pg + k < s.config.profile.pages) (hbuf : buf + k * (x2 - x1 + 1) + (x2 - x1 + 1) ≤ s.config.bufSize) :
    ∃ t, exec (flushBand x1 x2 pg buf k) s = .next t ∧ t.dstate = .ready ∧
      RowDrawn s.buf s.gram t.gram (pg + k) (x1 + s.config.profile.colOffset) (buf + k * (x2 - x1 + 1))
        (x2 - x1 + 1) := by
  have hprofile := profile_ok hconfig
  have hsize := bufSize_le hconfig
  obtain ⟨-, hpages, hram, hvisible⟩ := profile_bounds hprofile
  have hx1 : (BitVec.ofNat 16 x1).toNat = x1 := (BitVec.toNat_ofNat _ _).trans (Nat.mod_eq_of_lt (by omega))
  have hx2 : (BitVec.ofNat 16 (x2 + 1)).toNat = x2 + 1 := (BitVec.toNat_ofNat _ _).trans (Nat.mod_eq_of_lt (by omega))
  have hpg : (BitVec.ofNat 8 (pg + k)).toNat = pg + k := (BitVec.toNat_ofNat _ _).trans (Nat.mod_eq_of_lt (by omega))
  have hstrip : (BitVec.ofNat 16 (buf + k * (x2 - x1 + 1))).toNat = buf + k * (x2 - x1 + 1) :=
    (BitVec.toNat_ofNat _ _).trans (Nat.mod_eq_of_lt (by omega))
  obtain ⟨t, hexec, hstate, -, hrow⟩ := exec_dputp_draws (x1 := BitVec.ofNat 16 x1) (x2 := BitVec.ofNat 16 (x2 + 1))
    (page := BitVec.ofNat 8 (pg + k)) (buf := BitVec.ofNat 16 (buf + k * (x2 - x1 + 1))) (pg := pg + k)
    (col := x1 + s.config.profile.colOffset) (n := x2 - x1 + 1)
    (by rw [hpg, clampPage]; omega) (by rw [hx1, physColumn]) (by rw [hx1, hx2, clipX2]; omega) hprofile hdisplay hready
    (by rw [hx1, hx2, clipX2]; omega) (by rw [hstrip]; exact hbuf)
  exact ⟨t, hexec, hstate, hstrip ▸ hrow⟩

/-- The bands of a flush draw their strips one below the other (R226), by induction on their number. -/
theorem execAll_flushBands_draws {x1 x2 pg buf m : Nat} {s : State} (hconfig : s.config.wellFormed = true)
    (hdisplay : DisplayUsable s) (hready : s.dstate = .ready) (hx : x1 ≤ x2) (hwidth : x2 < s.config.profile.width)
    (hpage : pg + m ≤ s.config.profile.pages) (hbuf : buf + m * (x2 - x1 + 1) ≤ s.config.bufSize) :
    ∃ t, execAll ((List.range m).map (flushBand x1 x2 pg buf)) s = .next t ∧ t.dstate = .ready ∧
      BandsDrawn s.buf s.gram t.gram pg (x1 + s.config.profile.colOffset) buf (x2 - x1 + 1) m := by
  obtain ⟨-, -, hram, hvisible⟩ := profile_bounds (profile_ok hconfig)
  induction m with
  | zero => exact ⟨s, rfl, hready, .empty _ _ _ _ _ _⟩
  | succ m ih =>
    rw [Nat.succ_mul] at hbuf
    obtain ⟨t, hbands, hstate, hdrawn⟩ := ih (by omega) (by omega)
    have hhost := execAll_sameHost hbands
    obtain ⟨u, hband, hstate', hrow⟩ := exec_flushBand_draws (s := t) (pg := pg) (buf := buf) (k := m)
      (by rwa [hhost.config]) (hdisplay.of_grows hhost.config (execAll_grows hbands)) hstate hx
      (by rwa [hhost.config]) (by rw [hhost.config]; omega) (by rw [hhost.config]; omega)
    refine ⟨u, ?_, hstate', hdrawn.snoc (by omega) ?_⟩
    · rw [List.range_succ, List.map_append, execAll_append hbands]
      simp [execAll, hband]
    · rwa [hhost.buf, hhost.config] at hrow

/-- R227: rounding takes the rows to the nearest whole pages round them. -/
theorem roundRows_bounds {y1 y2 r1 r2 : Nat} (h : roundRows y1 y2 = (r1, r2)) :
    r1 % 8 = 0 ∧ r1 ≤ y1 ∧ y1 < r1 + 8 ∧ r2 % 8 = 7 ∧ y2 ≤ r2 ∧ r2 < y2 + 8 := by
  simp only [roundRows, Prod.mk.injEq] at h
  omega

/-- Settles O54: the rounded rows are whole pages, so the rectangle is the bands of its flush; band k is the rows
r1 + 8k to r1 + 8k + 7. -/
theorem flushDrawsTheRectangle : Obligations.FlushDrawsTheRectangle := by
  intro x1 y1 x2 y2 r1 r2 buf s hround hs hdisplay hready hx hy hwidth hpage hbuf
  have hrows := roundRows_bounds hround
  have hstrip : x2 + 1 - x1 = x2 - x1 + 1 := by omega
  rw [hstrip] at hbuf ⊢
  obtain ⟨t, hexec, hstate, hdrawn⟩ := execAll_flushBands_draws (pg := r1 / 8) (m := r2 / 8 + 1 - r1 / 8) hs.config
    hdisplay hready hx hwidth (by omega) hbuf
  refine ⟨hrows, t, by rw [flush_eq, hexec], hstate, fun x y byte hx1 hx2 hy1 hy2 hbyte => ?_, fun a ha => ?_⟩
  · have hcell := hdrawn.written (y / 8 - r1 / 8) (x - x1) byte (by omega) (by omega) hbyte
    have hindex : 256 * (r1 / 8 + (y / 8 - r1 / 8)) + (x1 + s.config.profile.colOffset + (x - x1)) =
        256 * (y / 8) + (x + s.config.profile.colOffset) := by omega
    rwa [hindex] at hcell
  · refine hdrawn.kept a (fun k j hk hj => ?_)
    have hcell := ha (x1 + j) (r1 + 8 * k) (by omega) (by omega) (by omega) (by omega)
    omega

end Sys2Proof.Machine
end

section
/-! An operation run micro-step by micro-step with no other context between (spec 20 R66, R72): a turn that covers all
that is left of an operation finishes it, so issuing an operation and giving it a long enough turn is performing it. -/

namespace Sys2Proof.Machine

/-! ### A turn that covers what is left -/

/-- Clearing the queue after the actions or before them is one: no action looks at it (`runActs_queue`). -/
theorem sliceOp_eq_finishOp {n : Nat} {s : State} (h : s.ctx.queue.countP isMicro ≤ n) :
    sliceOp n s = finishOp s := by
  rw [sliceOp, runSome_all h, finishOp, runActs_queue]

/-! ### Issuing an operation -/

/-- A list of actions issued in the running context: all of them still to do, the local variables empty (R25). -/
def State.issue (s : State) (as : List Act) : State := s.setCtx { s.ctx with queue := as, locals := Locals.empty }

/-- What was issued, finished at once, is what the whole operation does. -/
theorem finishOp_issue {s : State} (as : List Act) (hqueue : s.ctx.queue = []) :
    finishOp (s.issue as) = runActs as s.beginOp := by
  have hbegin : (s.issue as).setCtx { (s.issue as).ctx with queue := [] } = s.beginOp := by
    simp [State.issue, State.setCtx, State.beginOp, State.setLocals, hqueue]
  rw [finishOp, hbegin]
  rfl

/-- A failing check refuses the operation as it is issued (R281, R285). -/
theorem loadOp_refused {s : State} {i : Instr} {r : Refusal} (h : StandsAt s.ctx i)
    (hr : firstRefusal (planOf i s).checks = some r) : loadOp s = .refused r := by
  obtain ⟨hqueue, hfetch⟩ := h
  simp [loadOp, fetch, hqueue, hfetch, hr]

/-- With no failing check the operation's actions wait to be done (R285). -/
theorem loadOp_next {s : State} {i : Instr} (h : StandsAt s.ctx i)
    (hr : firstRefusal (planOf i s).checks = none) : loadOp s = .next (s.issue ((planOf i s).acts ++ [.retire])) := by
  obtain ⟨hqueue, hfetch⟩ := h
  simp [loadOp, fetch, hqueue, hfetch, hr, State.issue]

/-! ### The whole operation -/

/-- What an operation does is settled by its operands and the state, whatever turns are still to come (log 10). -/
theorem planOf_sched (i : Instr) (s : State) (ts : List Turn) : planOf i { s with sched := ts } = planOf i s := by
  cases i <;> rfl

/-- `retire` is bookkeeping and no micro-step, so a turn need not count it (log 11). -/
theorem countP_isMicro_retire (as : List Act) : (as ++ [Act.retire]).countP isMicro = as.countP isMicro := by
  simp [isMicro]

/-- A turn of the running context that covers the operation it stands at is that operation, refused or done. -/
theorem runTurn_eq_exec {s : State} {i : Instr} {n : Nat} (h : StandsAt s.ctx i)
    (hn : (planOf i s).acts.countP isMicro ≤ n) : runTurn (.run s.ctx.id n) s = exec i s := by
  have ⟨hqueue, _⟩ := h
  rw [exec_eq_perform]
  cases hr : firstRefusal (planOf i s).checks with
  | some r => simp [runTurn, selectCtx, loadOp_refused h hr, perform_eq_refused.mpr hr]
  | none =>
    have hslice : sliceOp n (s.issue ((planOf i s).acts ++ [.retire])) =
        runActs ((planOf i s).acts ++ [.retire]) s.beginOp :=
      (sliceOp_eq_finishOp ((countP_isMicro_retire _).trans_le hn)).trans (finishOp_issue _ hqueue)
    simp [runTurn, selectCtx, loadOp_next h hr, hslice, perform_next (firstRefusal_eq_none.mp hr)]

/-- Settles O7: the step takes the turn off the schedule, which no plan looks at, and the turn covers the operation. -/
theorem uninterruptedSliceIsTheWholeOperation : Obligations.UninterruptedSliceIsTheWholeOperation := by
  intro s i n ts hstands hsched hn
  calc step s = runTurn (.run s.ctx.id n) { s with sched := ts } := by rw [step, runStep, hsched]
    _ = exec i { s with sched := ts } := runTurn_eq_exec (s := { s with sched := ts }) hstands (by rwa [planOf_sched])

end Sys2Proof.Machine
end

section
/-! The decoder and the opcode table (spec 30 R93 to R96): a row matches a word field by field, the row that has a
word's operation code says whether the word is an operation or reserved, and a word of no row's code is no operation. -/

namespace Sys2Proof

/-! ### Rows and fields -/

/-- A mask over a word is a mask over each of its fields (R91). -/
theorem CommandWord.ofWord_and (w m : Word) : ofWord (w &&& m) =
    ⟨(ofWord w).opc &&& (ofWord m).opc, (ofWord w).sel &&& (ofWord m).sel, (ofWord w).a &&& (ofWord m).a,
      (ofWord w).b &&& (ofWord m).b, (ofWord w).c &&& (ofWord m).c⟩ := by
  simp only [ofWord, BitVec.extractLsb'_and]

theorem CommandWord.ofWord_inj {w v : Word} : ofWord w = ofWord v ↔ w = v :=
  ⟨fun h => by rw [← toWord_ofWord w, h, toWord_ofWord], congrArg _⟩

/-- A row matches a word exactly if every field of the word has the row's bits under the row's mask (R94). -/
theorem OpcodeRow.matches_iff (r : OpcodeRow) (w : Word) : r.matches w = true ↔
    (CommandWord.ofWord w).opc &&& (CommandWord.ofWord r.mask).opc = (CommandWord.ofWord r.bits).opc ∧
    (CommandWord.ofWord w).sel &&& (CommandWord.ofWord r.mask).sel = (CommandWord.ofWord r.bits).sel ∧
    (CommandWord.ofWord w).a &&& (CommandWord.ofWord r.mask).a = (CommandWord.ofWord r.bits).a ∧
    (CommandWord.ofWord w).b &&& (CommandWord.ofWord r.mask).b = (CommandWord.ofWord r.bits).b ∧
    (CommandWord.ofWord w).c &&& (CommandWord.ofWord r.mask).c = (CommandWord.ofWord r.bits).c := by
  rw [OpcodeRow.matches, beq_iff_eq, ← CommandWord.ofWord_inj, CommandWord.ofWord_and]
  exact iff_of_eq (CommandWord.mk.injEq ..)

/-- The must-be-zero bits of a field, as a row's mask writes them (R94, R95). -/
theorem highZero_iff (k : Nat) (x : Half) : highZero k x = true ↔ x &&& (BitVec.allOnes 16 <<< k) = 0 := by
  rw [highZero, beq_iff_eq, ← BitVec.shiftLeft_ushiftRight]
  constructor <;> intro h
  · simp [h]
  · ext i hi
    have hbit : (x >>> k <<< k).getLsbD (k + i) = false := by simp [h]
    by_cases hlt : k + i < 16
    · simpa [hlt] using hbit
    · simp [BitVec.getLsbD_of_ge x (k + i) (by omega)]

theorem and_ones8 (x : Byte) : x &&& 0xFF#8 = x := BitVec.and_allOnes

theorem and_ones16 (x : Half) : x &&& 0xFFFF#16 = x := BitVec.and_allOnes

/-! ### Operation codes -/

theorem OpcodeRow.sameOpc_iff {r : OpcodeRow} {w : Word} :
    r.sameOpc w = true ↔ (CommandWord.ofWord w).opc = (CommandWord.ofWord r.bits).opc := beq_iff_eq

/-- The mask of every row tests the whole operation code (R94). -/
theorem OpcodeRow.sameOpc_of_matches {r : OpcodeRow} {w : Word} (hr : r ∈ opcodeTable) (h : r.matches w = true) :
    r.sameOpc w = true := by
  have hmask : ∀ r ∈ opcodeTable, (CommandWord.ofWord r.mask).opc = 0xFF#8 := by decide
  obtain ⟨hopc, -⟩ := (r.matches_iff w).mp h
  rw [hmask r hr, and_ones8] at hopc
  exact sameOpc_iff.mpr hopc

/-- No two rows have one operation code (R93). -/
theorem OpcodeRow.eq_of_sameOpc {r₁ r₂ : OpcodeRow} {w : Word} (hr₁ : r₁ ∈ opcodeTable) (hr₂ : r₂ ∈ opcodeTable)
    (h₁ : r₁.sameOpc w = true) (h₂ : r₂.sameOpc w = true) : r₁ = r₂ := by
  have hinj : ∀ r ∈ opcodeTable, ∀ r' ∈ opcodeTable,
      (CommandWord.ofWord r.bits).opc = (CommandWord.ofWord r'.bits).opc → r = r' := by decide
  exact hinj r₁ hr₁ r₂ hr₂ ((sameOpc_iff.mp h₁).symm.trans (sameOpc_iff.mp h₂))

/-! ### The decoder, row by row -/

/-- An operation without must-be-zero fields, as `DPUTP` is, answers like one whose fields are all zero. -/
theorem ok_eq_mustBeZero (w : Word) (i : Instr) : .ok i = mustBeZero w true i := rfl

theorem mustBeZero_congr {w : Word} {y z : Bool} {i : Instr} (h : y = true ↔ z = true) :
    mustBeZero w y i = mustBeZero w z i := by
  rw [Bool.eq_iff_iff.mpr h]

theorem mustBeZero_eq_ok {w : Word} {z : Bool} {i j : Instr} : mustBeZero w z i = .ok j ↔ z = true ∧ i = j := by
  cases z <;> simp [mustBeZero]

/-- The row with a word's operation code says whether the word is its operation or reserved (R94, R95): the decoder's
must-be-zero fields are the row's mask. -/
theorem decode_of_sameOpc {r : OpcodeRow} {w : Word} (hr : r ∈ opcodeTable) (h : r.sameOpc w = true) :
    ∃ i, opcode i = w.extractLsb' 56 8 ∧ decode w = mustBeZero w (r.matches w) i := by
  have hopc := OpcodeRow.sameOpc_iff.mp h
  fin_cases hr
  all_goals
    simp only [CommandWord.ofWord, BitVec.ofNat_eq_ofNat, BitVec.reduceExtractLsb'] at hopc
    simp only [decode, decodeFields, CommandWord.ofWord, hopc, ok_eq_mustBeZero w]
    refine ⟨_, rfl, mustBeZero_congr ?_⟩
    simp [OpcodeRow.matches_iff, CommandWord.ofWord, hopc, highZero_iff, and_ones16, and_ones8, and_assoc]

/-- A word whose operation code no row has is no operation: each arm of the decoder but the last has a row's (R96). -/
theorem decode_of_noOpc {w : Word} (h : ∀ r ∈ opcodeTable, r.sameOpc w = false) :
    decode w = .error (.illegalOpcode w) := by
  have hopc : ∀ r ∈ opcodeTable, (CommandWord.ofWord w).opc ≠ (CommandWord.ofWord r.bits).opc :=
    fun r hr => beq_eq_false_iff_ne.mp (h r hr)
  rw [decode, decodeFields.eq_def]
  split
  case h_25 => rfl
  all_goals
    next hcode =>
      rw [hcode] at hopc
      exact absurd hopc (by decide)

/-- What the decoder does not answer as no operation has a row's operation code (R96). -/
theorem exists_sameOpc_of_decode {w : Word} (h : decode w ≠ .error (.illegalOpcode w)) :
    ∃ r ∈ opcodeTable, r.sameOpc w = true := by
  by_contra hnone
  exact h (decode_of_noOpc (by simpa using hnone))

theorem exists_decode_iff (w : Word) : (∃ i, decode w = .ok i) ↔ ∃ r ∈ opcodeTable, r.matches w = true := by
  constructor
  · rintro ⟨i, hi⟩
    obtain ⟨r, hr, hopc⟩ := exists_sameOpc_of_decode (w := w) (by simp [hi])
    obtain ⟨j, -, hj⟩ := decode_of_sameOpc hr hopc
    exact ⟨r, hr, (mustBeZero_eq_ok.mp (hj.symm.trans hi)).1⟩
  · rintro ⟨r, hr, hm⟩
    obtain ⟨i, -, hi⟩ := decode_of_sameOpc hr (OpcodeRow.sameOpc_of_matches hr hm)
    exact ⟨i, hi.trans (mustBeZero_eq_ok.mpr ⟨hm, rfl⟩)⟩

theorem opcode_of_decode {w : Word} {i : Instr} (h : decode w = .ok i) : opcode i = w.extractLsb' 56 8 := by
  obtain ⟨r, hr, hopc⟩ := exists_sameOpc_of_decode (w := w) (by simp [h])
  obtain ⟨j, hj, hdecode⟩ := decode_of_sameOpc hr hopc
  obtain ⟨-, rfl⟩ := mustBeZero_eq_ok.mp (hdecode.symm.trans h)
  exact hj

theorem decode_eq_reserved_iff (w : Word) : decode w = .error (.reservedField w) ↔
    (∃ r ∈ opcodeTable, r.sameOpc w = true) ∧ ∀ r ∈ opcodeTable, r.matches w = false := by
  constructor
  · intro h
    have hnone : ¬∃ r ∈ opcodeTable, r.matches w = true := by simp [← exists_decode_iff, h]
    exact ⟨exists_sameOpc_of_decode (by simp [h]), by simpa using hnone⟩
  · rintro ⟨⟨r, hr, hopc⟩, hnone⟩
    obtain ⟨i, -, hi⟩ := decode_of_sameOpc hr hopc
    rw [hi, hnone r hr]
    rfl

/-- Settles O2: the one row with a word's operation code decides, and a row that matches has the word's code. -/
theorem decoderSelectsByOperationCode : Obligations.DecoderSelectsByOperationCode :=
  ⟨exists_decode_iff, fun _ _ => opcode_of_decode, decode_eq_reserved_iff, fun _ _ _ hr₁ hr₂ h₁ h₂ =>
    OpcodeRow.eq_of_sameOpc hr₁ hr₂ (OpcodeRow.sameOpc_of_matches hr₁ h₁) (OpcodeRow.sameOpc_of_matches hr₂ h₂)⟩

end Sys2Proof

namespace Sys2Proof.Machine

/-- A word the decoder answers an error for is refused by that error's name where it would run (R95, R96). -/
theorem step_refused_of_decode {s : State} {w : Word} {e : DecodeError} (hsched : s.sched = [])
    (hqueue : s.ctx.queue = []) (hfetch : fetch s = some w) (hdecode : decode w = .error e) :
    step s = .refused (decodeRefusal e) := by
  simp [step, runStep, runNext, hsched, hqueue, hfetch, hdecode]

/-- Settles O3: the decoder's error is the refusal's name. -/
theorem undecodableWordsAreRefusedByName : Obligations.UndecodableWordsAreRefusedByName := by
  intro s w hsched hqueue hfetch
  exact ⟨fun hnone => step_refused_of_decode hsched hqueue hfetch (decode_of_noOpc hnone), fun hopc hnone =>
    step_refused_of_decode hsched hqueue hfetch ((decode_eq_reserved_iff w).mpr ⟨hopc, hnone⟩)⟩

end Sys2Proof.Machine
end

section
/-! The event word (spec 30 R103): its fields as the bits it is put together from. -/

namespace Sys2Proof.Machine

/-- The word of a `LongTap`: the kind, the long flag and the bits above them are zero (R103). -/
theorem eventWord_longTap (m : Byte) : eventWord (.longTap m) = 0#8 ++ m := by
  rw [eventWord, BitVec.setWidth_eq_append (by decide)]
  rfl

/-- The word of a `Release`, from bit 15 down: six zeros, the long flag, the kind, the mask (R103). -/
theorem eventWord_release (m : Byte) (long : Bool) :
    eventWord (.release m long) = 0#6 ++ BitVec.ofBool long ++ 1#1 ++ m := by
  have hflags : (if long then 0x0300#16 else 0x0100#16) = 0#6 ++ BitVec.ofBool long ++ 1#1 ++ 0#8 := by
    cases long <;> decide
  have hmask : m.setWidth 16 = 0#8 ++ m := BitVec.setWidth_eq_append (by decide)
  rw [eventWord, hflags, hmask, BitVec.or_append, BitVec.or_zero, BitVec.zero_or]

/-- Settles O60: each field is one of the pieces its word is put together from. -/
theorem eventWordLayout : Obligations.EventWordLayout := by
  intro m long
  rw [eventWord_longTap, eventWord_release]
  refine ⟨BitVec.extractLsb'_append_eq_right, BitVec.extractLsb'_append_eq_left,
    BitVec.extractLsb'_append_eq_right, ?_, ?_, ?_⟩
  · rw [BitVec.getLsbD_append, if_neg (by decide)]
    cases long <;> decide
  · rw [BitVec.getLsbD_append, if_neg (by decide)]
    cases long <;> decide
  · rw [BitVec.extractLsb'_append_eq_of_le (by decide)]
    cases long <;> decide

end Sys2Proof.Machine
end

section
/-! Refusals by name (spec 30 R97, 60 R282 and R290, 70 R314): the first failing check is the refusal, and a selector
is checked before the lifecycle of what it selects. -/

namespace Sys2Proof.Machine

/-- An operation whose first check fails is refused for it. -/
theorem exec_refused_first {i : Instr} {s : State} {holds : Bool} {r : Refusal} {cs : List Check}
    (hplan : (planOf i s).checks = ⟨holds, r⟩ :: cs) (h : holds = false) : exec i s = .refused r := by
  rw [exec_eq_perform, perform_eq_refused, hplan]
  simp [firstRefusal, h]

/-- An operation whose first check holds and whose second fails is refused for the second. -/
theorem exec_refused_second {i : Instr} {s : State} {c : Check} {holds : Bool} {r : Refusal} {cs : List Check}
    (hplan : (planOf i s).checks = c :: ⟨holds, r⟩ :: cs) (hc : c.holds = true) (h : holds = false) :
    exec i s = .refused r := by
  rw [exec_eq_perform, perform_eq_refused, hplan]
  simp [firstRefusal, hc, h]

/-- Settles O46: each refusal is the first or the second check of its operation, the selector's before the
lifecycle's. -/
theorem selectorsThenLifecycleAreChecked : Obligations.SelectorsThenLifecycleAreChecked := by
  intro x byte cp s
  refine ⟨fun h => ?_, fun h hready => ?_, fun h hready => ?_, fun h => ?_, fun h => ?_, fun h hready => ?_,
    fun h hready => ?_, fun h => ?_, fun h hready => ?_⟩
  · have hsel : decide (x.toNat < s.config.buses.length) = false := decide_eq_false h.not_gt
    exact ⟨exec_refused_first rfl hsel, exec_refused_first rfl hsel, exec_refused_first rfl hsel⟩
  · exact exec_refused_second rfl (decide_eq_true h) (by simpa using hready)
  · exact ⟨exec_refused_second rfl (decide_eq_true h) hready, exec_refused_second rfl (decide_eq_true h) hready⟩
  · exact exec_refused_first rfl (decide_eq_false h.not_gt)
  · have hsel : decide (x.toNat < s.config.debs.length) = false := decide_eq_false h.not_gt
    exact ⟨exec_refused_first rfl hsel, exec_refused_first rfl hsel⟩
  · exact exec_refused_second rfl (decide_eq_true h) (by simpa using hready)
  · exact exec_refused_second rfl (decide_eq_true h) hready
  · exact exec_refused_first rfl (beq_eq_false_iff_ne.mpr h)
  · exact exec_refused_second rfl (beq_iff_eq.mpr h) hready

end Sys2Proof.Machine
end

section
/-! When an operation goes on (spec 30 R97, 60 R281 to R283, 70 R312): with every present port enabled, a well-formed
configuration leaves the checks of its pins, lists and buses nothing to refuse, so what is left of an operation's checks
is its own operands and the lifecycle of the devices it uses. -/

namespace Sys2Proof.Machine

/-! ### What a well-formed configuration says of the wiring -/

theorem wellFormed_wiring {c : Config} (h : c.wellFormed = true) :
    (∀ l ∈ c.lists, c.listOk l = true) ∧ (∀ b ∈ c.buses, c.busOk b = true) ∧ c.dispOk = true ∧
      ∀ d ∈ c.debs, c.debOk d = true := by
  simp only [Config.wellFormed, Bool.and_eq_true, List.all_eq_true] at h
  tauto

/-- Every pin of a list is the null pin or on a present port (R32, R283). -/
theorem pinOk_listPins {c : Config} (h : c.wellFormed = true) (l : Nat) : ∀ x ∈ listPins c l, c.pinOk x = true := by
  obtain ⟨hlists, -⟩ := wellFormed_wiring h
  cases hl : c.lists[l]? with
  | none => simp [listPins, hl]
  | some xs =>
    have hok := hlists xs (List.mem_of_getElem? hl)
    simp only [Config.listOk, Bool.and_eq_true, List.all_eq_true] at hok
    obtain ⟨⟨-, hpins⟩, -⟩ := hok
    rwa [listPins_of_get hl]

theorem busOk_get {c : Config} (h : c.wellFormed = true) {b : Nat} {x : BusCfg} (hb : c.buses[b]? = some x) :
    c.busOk x = true := by
  obtain ⟨-, hbuses, -⟩ := wellFormed_wiring h
  exact hbuses x (List.mem_of_getElem? hb)

/-- A direct bus has a list, and an AF number that every real pin's port allows (R168). -/
theorem busOk_direct {c : Config} {l : Nat} {cfg : PinCfg} (h : c.busOk (.direct l cfg) = true) :
    l < c.lists.length ∧ ∀ x ∈ listPins c l, x.isNull = false → cfg.af.toNat ≤ c.afMax x.port.toNat := by
  simp only [Config.busOk] at h
  split at h
  · next xs hl =>
    simp only [Bool.and_eq_true, List.all_eq_true, Bool.or_eq_true, decide_eq_true_eq] at h
    obtain ⟨-, haf⟩ := h
    rw [listPins_of_get hl]
    exact ⟨lt_of_list hl, fun x hx hnull => (haf x hx).resolve_left (by simp [hnull])⟩
  · cases h

/-- Every line of a shift-register bus is the null pin or on a present port (R34, R283). -/
theorem busOk_shift {c : Config} {w : ShiftCfg} (h : c.busOk (.shift w) = true) :
    ∀ x ∈ [w.clk, w.dat, w.cs, w.din], c.pinOk x = true := by
  simp only [Config.busOk, Bool.and_eq_true, List.all_eq_true] at h
  tauto

theorem pinOk_busLines {c : Config} (h : c.wellFormed = true) (b : Nat) : ∀ x ∈ busLines c b, c.pinOk x = true := by
  unfold busLines
  split
  · exact pinOk_listPins h _
  · next hb => exact busOk_shift (busOk_get h hb)
  · simp

theorem busListExists_of_wellFormed {c : Config} (h : c.wellFormed = true) (b : Nat) : busListExists c b = true := by
  unfold busListExists
  split
  · next hb => exact decide_eq_true (busOk_direct (busOk_get h hb)).1
  · rfl

/-- A bus write drives lines of its bus only. -/
theorem mem_busLines_of_busPins {c : Config} {b : Nat} : ∀ x ∈ busPins c b, x ∈ busLines c b := by
  unfold busPins busLines
  split <;> simp +contextual

/-- The display's bus exists and its control pins are null or on present ports (R37). -/
theorem dispOk_iff {c : Config} : c.dispOk = true ↔
    c.disp.bus < c.buses.length ∧ ∀ x ∈ controlPins c, c.pinOk x = true := by
  simp only [Config.dispOk, controlPins, Bool.and_eq_true, decide_eq_true_eq, List.all_eq_true]

/-- The bus a debounce detector polls exists (R10). -/
theorem debBus_lt {c : Config} (h : c.wellFormed = true) {d : Nat} (hd : d < c.debs.length) :
    debBus c d < c.buses.length := by
  obtain ⟨-, -, -, hdebs⟩ := wellFormed_wiring h
  have hok := hdebs _ (List.getElem_mem hd)
  simp only [Config.debOk, Bool.and_eq_true, decide_eq_true_eq] at hok
  obtain ⟨⟨⟨hbus, -⟩, -⟩, -⟩ := hok
  simpa [debBus, List.getElem?_eq_getElem hd] using hbus

/-! ### Checks with every present port enabled -/

/-- Every present port is enabled. -/
def PortsEnabled (s : State) : Prop := ∀ p, s.portExists p = true → s.enabled p = true

section
variable {s : State}

theorem pinsUsable_of_pinOk (hen : PortsEnabled s) {xs : List Pin} (h : ∀ x ∈ xs, s.config.pinOk x = true) :
    PinsUsable s xs := by
  intro x hx
  rcases Bool.or_eq_true_iff.mp (h x hx) with hnull | hport
  · exact .inl hnull
  · exact .inr ⟨hport, hen _ hport⟩

/-- A port operation goes on where its selector names a port and, on a real one, its own checks hold. -/
theorem portPlan_checks_iff (hen : PortsEnabled s) {p : Byte} {cs : List Check} {as ns : List Act} :
    (∀ c ∈ (portPlan s p cs as ns).checks, c.holds = true) ↔
      s.config.selOk p = true ∧ (p = nullPort ∨ ∀ c ∈ cs, c.holds = true) := by
  unfold portPlan
  split
  · next hp => simp [Config.selOk, hp]
  · next hp =>
    have hport : s.config.portPresent p.toNat = true → s.enabled p.toNat = true := hen p.toNat
    simp only [portChecks, List.cons_append, List.nil_append, List.forall_mem_cons, State.portExists, Config.selOk,
      Bool.or_eq_true, beq_iff_eq, hp, false_or]
    tauto

theorem planPen_checks_iff (p : Byte) :
    (∀ c ∈ (planPen p s).checks, c.holds = true) ↔ s.config.selOk p = true := by
  unfold planPen
  split
  · next hp => simp [Config.selOk, hp]
  · next hp => simp [Config.selOk, hp, State.portExists]

theorem overlapChecks_iff (p : Nat) (clr set : Half) :
    (∀ c ∈ overlapChecks s p clr set, c.holds = true) ↔ s.config.casOverlap ≠ .refuse ∨ clr &&& set = 0 := by
  unfold overlapChecks
  split
  · next h => simp [h]
  · next h => simp [h]

theorem fieldChecks_iff (p : Byte) (k : BitVec 3) (v : BitVec 4) :
    (p = nullPort ∨ ∀ c ∈ fieldChecks s p.toNat k v, c.holds = true) ↔ s.config.fieldOk p k v = true := by
  unfold fieldChecks Config.fieldOk
  cases CfgReg.ofNumber k with
  | none => simp
  | some r => simp

variable (hconfig : s.config.wellFormed = true) (hen : PortsEnabled s)
include hconfig hen

theorem pinsUsable_busLines (b : Nat) : PinsUsable s (busLines s.config b) :=
  pinsUsable_of_pinOk hen (pinOk_busLines hconfig b)

theorem listAccessChecks_iff (l : Nat) :
    (∀ c ∈ listAccessChecks s l, c.holds = true) ↔ l < s.config.lists.length :=
  ⟨fun h => of_decide_eq_true (h _ (List.mem_cons_self ..)), fun h =>
    listAccessChecks_holds h (pinsUsable_of_pinOk hen (pinOk_listPins hconfig l))⟩

theorem busReadable_of_ready {b : Nat} (hb : b < s.config.buses.length) (hready : s.busReady.getD b false = true) :
    BusReadable s b :=
  ⟨⟨⟨hb, busListExists_of_wellFormed hconfig b, (pinsUsable_busLines hconfig hen b).mono mem_busLines_of_busPins⟩,
    hready⟩, pinsUsable_busLines hconfig hen b⟩

theorem busWriteChecks_iff (b : Nat) : (∀ c ∈ busWriteChecks s b, c.holds = true) ↔
    b < s.config.buses.length ∧ s.busReady.getD b false = true := by
  constructor
  · intro h
    exact ⟨of_decide_eq_true (h _ (.head _)), h _ (.tail _ (.head _))⟩
  · rintro ⟨hb, hready⟩
    exact busWriteChecks_holds (busReadable_of_ready hconfig hen hb hready).1

theorem busReadChecks_iff (b : Nat) : (∀ c ∈ busReadChecks s b, c.holds = true) ↔
    b < s.config.buses.length ∧ s.busReady.getD b false = true := by
  constructor
  · intro h
    exact ⟨of_decide_eq_true (h _ (.head _)), h _ (.tail _ (.head _))⟩
  · rintro ⟨hb, hready⟩
    exact busReadChecks_holds (busReadable_of_ready hconfig hen hb hready)

theorem pinsUsable_controlPins : PinsUsable s (controlPins s.config) := by
  obtain ⟨-, -, hdisp, -⟩ := wellFormed_wiring hconfig
  exact pinsUsable_of_pinOk hen (dispOk_iff.mp hdisp).2

theorem displayUsable_of_ready (hready : s.busReady.getD s.config.disp.bus false = true) : DisplayUsable s := by
  obtain ⟨-, -, hdisp, -⟩ := wellFormed_wiring hconfig
  have ⟨hbus, _⟩ := busReadable_of_ready hconfig hen (dispOk_iff.mp hdisp).1 hready
  have ⟨⟨_, _, hpins⟩, _⟩ := hbus
  refine ⟨hbus, fun x hx => ?_⟩
  rcases List.mem_append.mp hx with hx | hx
  · exact (pinsUsable_controlPins hconfig hen).mono (by simp +contextual [controlPins]) x hx
  · exact hpins x hx

theorem presentChecks_iff : (∀ c ∈ presentChecks s, c.holds = true) ↔
    s.busReady.getD s.config.disp.bus false = true := by
  constructor
  · intro h
    refine ((busWriteChecks_iff hconfig hen s.config.disp.bus).mp fun c hc => h c ?_).2
    simp [presentChecks, hc]
  · intro hready
    exact presentChecks_holds (displayUsable_of_ready hconfig hen hready)

/-- `BINIT` asks for a bus that is not initialised yet (R165, R314): its pins and its AF number were checked when the
configuration was built. -/
theorem planBinit_checks_iff (b : Byte) : (∀ c ∈ (planBinit b s).checks, c.holds = true) ↔
    b.toNat < s.config.buses.length ∧ s.busReady.getD b.toNat false = false := by
  have hlines := pinsUsable_busLines hconfig hen b.toNat
  simp only [planBinit, List.cons_append, List.nil_append, List.forall_mem_cons, decide_eq_true_eq,
    Bool.not_eq_true']
  refine and_congr_right fun _ => and_iff_left ?_
  simp only [busLines] at hlines
  split
  · next l cfg hb =>
    simp only [hb] at hlines
    obtain ⟨-, haf⟩ := busOk_direct (busOk_get hconfig hb)
    intro c hc
    obtain ⟨q, hq, hc⟩ := List.mem_flatMap.mp hc
    obtain ⟨x, hx, hnull, rfl⟩ := mem_portsOf.mp hq
    obtain ⟨hport, hon⟩ := (hlines x hx).resolve_left (by simp [hnull])
    simp only [portChecks, List.cons_append, List.nil_append, List.mem_cons, List.not_mem_nil, or_false] at hc
    rcases hc with rfl | rfl | rfl
    · exact hport
    · exact hon
    · exact decide_eq_true (haf x hx hnull)
  · next w hb =>
    simp only [hb] at hlines
    exact pinsChecks_holds.mpr (hlines.mono (by simp))
  · simp

/-- `DINIT` happens once and needs its bus initialised (R210, R314). -/
theorem planDinit_checks_iff : (∀ c ∈ (planDinit s).checks, c.holds = true) ↔
    s.dstate = .uninitialized ∧ s.busReady.getD s.config.disp.bus false = true := by
  have hpins : ∀ c ∈ pinsChecks s [s.config.disp.res, s.config.disp.cs, s.config.disp.stb, s.config.disp.dc],
      c.holds = true :=
    pinsChecks_holds.mpr ((pinsUsable_controlPins hconfig hen).mono (by simp [controlPins]))
  have hpresent := presentChecks_iff hconfig hen
  simp only [planDinit, List.cons_append, List.nil_append, List.append_assoc, List.forall_mem_cons,
    List.forall_mem_append, beq_iff_eq]
  tauto

/-- A display write's checks: the display is ready, its operands are in range, its bus can be used (R215). -/
theorem displayWriteChecks_iff (cs : List Check) :
    (∀ c ∈ dispReadyCheck s :: (cs ++ presentChecks s), c.holds = true) ↔
      (∀ c ∈ cs, c.holds = true) ∧ s.dstate = .ready ∧ s.busReady.getD s.config.disp.bus false = true := by
  have hpresent := presentChecks_iff hconfig hen
  simp only [List.forall_mem_cons, List.forall_mem_append, dispReadyCheck, beq_iff_eq]
  tauto

/-- `KPOLL` needs its detector and the bus it polls initialised (R262). -/
theorem planKpoll_checks_iff (d : Byte) : (∀ c ∈ (planKpoll d s).checks, c.holds = true) ↔
    d.toNat < s.config.debs.length ∧ (s.deb d.toNat).ready = true ∧
      s.busReady.getD (debBus s.config d.toNat) false = true := by
  have hread := busReadChecks_iff hconfig hen (debBus s.config d.toNat)
  have hbus : d.toNat < s.config.debs.length → debBus s.config d.toNat < s.config.buses.length := debBus_lt hconfig
  simp only [planKpoll, debExistsCheck, List.cons_append, List.nil_append, List.forall_mem_cons,
    decide_eq_true_eq]
  tauto

end

/-- An operation goes on exactly if all its checks hold (R281, R285). -/
theorem goesOn_iff {i : Instr} {s : State} : GoesOn i s ↔ ∀ c ∈ (planOf i s).checks, c.holds = true := by
  simp [GoesOn, exec_eq_next]

/-- Settles O17: unit by unit, the checks of the plan are the operands' and the lifecycle's conditions. -/
theorem operationsGoOnExactlyWhenWellFormed : Obligations.OperationsGoOnExactlyWhenWellFormed := by
  intro i s hs hen
  have hconfig := hs.config
  rw [goesOn_iff]
  cases i
  case pset p _ | pclr p _ | ptgl p _ | pwr p _ | prd p | prdo p =>
    refine (portPlan_checks_iff hen).trans ?_
    show _ ↔ s.config.selOk p = true ∧ True
    simp
  case pcas p clr set =>
    refine (portPlan_checks_iff hen).trans ?_
    show _ ↔ (s.config.selOk p && (p == nullPort || s.config.casOverlap != .refuse || clr &&& set == 0)) = true ∧ True
    simp [overlapChecks_iff, or_assoc]
  case pfldm p mask k v =>
    refine (portPlan_checks_iff hen).trans ?_
    show _ ↔ (s.config.selOk p && s.config.fieldOk p k v) = true ∧ True
    simp [fieldChecks_iff]
  case pcfgr p mask cfg =>
    refine (portPlan_checks_iff hen).trans ?_
    show _ ↔ (s.config.selOk p && (p == nullPort || decide (cfg.af.toNat ≤ s.config.afMax p.toNat))) = true ∧ True
    simp
  case prdc p k =>
    refine (portPlan_checks_iff hen).trans ?_
    show _ ↔ (s.config.selOk p && (p == nullPort || (CfgReg.ofNumber k).isSome)) = true ∧ True
    simp
  case pen p => exact (planPen_checks_iff p).trans (and_iff_left trivial).symm
  case lwr l _ | lrd l =>
    refine (listAccessChecks_iff hconfig hen l.toNat).trans ?_
    show _ ↔ decide _ = true ∧ True
    simp
  case binit b => exact (planBinit_checks_iff hconfig hen b).trans (and_congr_left' decide_eq_true_iff.symm)
  case bwr b _ => exact (busWriteChecks_iff hconfig hen b.toNat).trans (and_congr_left' decide_eq_true_iff.symm)
  case brd b => exact (busReadChecks_iff hconfig hen b.toNat).trans (and_congr_left' decide_eq_true_iff.symm)
  case dinit => exact (planDinit_checks_iff hconfig hen).trans (and_iff_right rfl).symm
  case dputb x page byte =>
    refine (displayWriteChecks_iff hconfig hen [_]).trans (and_congr_left' ?_)
    show _ ↔ decide (x.toNat ≤ s.config.profile.width) = true
    simp [clipX2]
  case dputp x1 x2 page buf =>
    refine (displayWriteChecks_iff hconfig hen [_, _]).trans (and_congr_left' ?_)
    show _ ↔ (decide (x1.toNat ≤ clipX2 s.config x2.toNat) &&
      decide (buf.toNat + (clipX2 s.config x2.toNat - x1.toNat) ≤ s.config.bufSize)) = true
    simp
  case dclr | dfill _ =>
    exact (displayWriteChecks_iff hconfig hen []).trans (and_congr_left' (by simp [Instr.wellFormed]))
  case gbmp f cp =>
    show _ ↔ decide (f.toNat < s.config.fonts.length) = true ∧ True
    simp [planOf, planGbmp]
  case kinit d =>
    show _ ↔ decide (d.toNat < s.config.debs.length) = true ∧ (s.deb d.toNat).ready = false
    simp [planOf, planKinit, debExistsCheck]
  case kpoll d => exact (planKpoll_checks_iff hconfig hen d).trans (and_congr_left' decide_eq_true_iff.symm)

end Sys2Proof.Machine
end

section
/-! The port check (spec 40 R121, R122): every port operation has one plan's shape, so what a port that is absent, not
enabled or null does to it is said once for all of them. -/

namespace Sys2Proof.Machine

/-- Every port operation but `PEN` checks its port first, and on the null port leaves at most a 0 in `RES`. -/
theorem planOf_port {i : Instr} {p : Byte} (s : State) (h : portSelector i = some p) (hpen : i ≠ .pen p) :
    ∃ cs as, planOf i s = portPlan s p cs as (if portReads i then [.resConst 0] else []) := by
  cases i <;> cases h
  case pen => exact absurd rfl hpen
  all_goals exact ⟨_, _, rfl⟩

theorem portPlan_real {s : State} {p : Byte} {cs : List Check} {as ns : List Act} (h : p ≠ nullPort) :
    portPlan s p cs as ns = ⟨portChecks s p.toNat ++ cs, as⟩ := if_neg h

theorem planPen_real {s : State} {p : Byte} (h : p ≠ nullPort) :
    planPen p s = ⟨[⟨s.portExists p.toNat, .noSuchPort p.toNat⟩], [.enable p.toNat]⟩ := if_neg h

/-- Settles O19: the port's two checks stand first in the plan, and `PEN` makes the first of them. -/
theorem portIsCheckedFirst : Obligations.PortIsCheckedFirst := by
  intro i p s hsel hp
  by_cases hpen : i = .pen p
  · subst hpen
    exact ⟨exec_refused_first (congrArg Plan.checks (planPen_real hp)), fun _ _ hne => absurd rfl hne⟩
  · obtain ⟨cs, as, hplan⟩ := planOf_port s hsel hpen
    have hchecks := congrArg Plan.checks (hplan.trans (portPlan_real hp))
    exact ⟨exec_refused_first hchecks, fun hexists hen _ => exec_refused_second hchecks hexists hen⟩

/-- A port operation on the null port retires, with a 0 in `RES` if it reads (R122). -/
theorem exec_nullPort {i : Instr} {s : State} (h : portSelector i = some nullPort) :
    exec i s = .next { s with ctx := if portReads i then advancedRes s.ctx 0 else advanced s.ctx } := by
  by_cases hpen : i = .pen nullPort
  · subst hpen
    rfl
  · obtain ⟨cs, as, hplan⟩ := planOf_port s h hpen
    rw [exec_eq_perform, hplan, portPlan_null]
    cases portReads i <;> rfl

theorem execNrd_nullPort {x : Pin} {s : State} (h : x.port = nullPort) :
    execNrd x s = .next { s with ctx := advancedRes s.ctx 0 } := by
  have hread : execPrd x.port s = .next { s with ctx := advancedRes s.ctx 0 } :=
    exec_nullPort (i := .prd x.port) (congrArg some h)
  simp [execNrd, hread, State.setRes, advancedRes]

/-- Settles O20: the null-port form of a plan has no check and at most one action besides `retire`. -/
theorem nullPortDoesNothing : Obligations.NullPortDoesNothing :=
  ⟨fun _ _ => exec_nullPort, fun _ _ => execNrd_nullPort⟩

end Sys2Proof.Machine
end

section
/-! Writes of an output register (spec 40 R123 to R128, R140): which bits one write gives a value, and that it moves
nothing but the register and the receivers whose lines are on its port. -/

namespace Sys2Proof.Machine

/-! ### Reads before a write -/

/-- From s to m an operation has at most read: of the running context only the local variables differ, and besides it
only `PIN_TRACE`, the answers that wait and the draws counted. -/
structure OnlyRead (s m : State) : Prop where
  frame : m = { s with ctx := m.ctx, pinTrace := m.pinTrace, pads := m.pads, draws := m.draws }
  ctx : m.ctx = { s.ctx with locals := m.ctx.locals }

theorem OnlyRead.trans {s m n : State} (h : OnlyRead s m) (k : OnlyRead m n) : OnlyRead s n := by
  have hframe := k.frame
  have hctx := k.ctx
  rw [h.frame] at hframe
  rw [h.ctx] at hctx
  exact ⟨hframe, hctx⟩

theorem onlyRead_beginOp (s : State) : OnlyRead s s.beginOp := ⟨rfl, rfl⟩

theorem onlyRead_odrRead (s : State) (p : Nat) : OnlyRead s (s.odrRead p) := ⟨rfl, rfl⟩

/-! ### The receivers on other ports -/

theorem risingEdge_self (x : Option Bool) : risingEdge x x = .none := by
  rcases x with _ | _ | _ <;> rfl

/-- A pin off the port that is written keeps its level. -/
theorem pinLevel_set_other {ports : List Port} {p : Nat} {q : Port} {x : Pin} (h : onPort x p = false) :
    pinLevel (ports.set p q) x = pinLevel ports x := by
  unfold pinLevel
  cases hnull : x.isNull
  · have hne : p ≠ x.port.toNat := fun he => by simp [onPort, hnull, he] at h
    simp [List.getD_eq_getElem?_getD, hne]
  · rfl

/-- A chip-select off the port that is written, whose level stays, is not released (R35, R182). -/
theorem csReleased_other {low : Bool} {w : ShiftCfg} {before after : List Port} {p : Nat} (clr set : Half)
    (hport : onPort w.cs p = false) (hlevel : pinLevel after w.cs = pinLevel before w.cs) :
    csReleased low w before after p clr set = .none := by
  unfold csReleased
  rw [hlevel, hport]
  split
  · rfl
  · split
    · rfl
    · next hlow => simp [not_not.mp hlow]

/-- A receiver with its clock and chip-select on other ports sees nothing of a write (R35). -/
theorem shiftRxAfter_other {low : Bool} {w : ShiftCfg} {ports : List Port} {p : Nat} {q : Port} (clr set : Half)
    (rx : ShiftRx) (hclk : onPort w.clk p = false) (hcs : onPort w.cs p = false) :
    shiftRxAfter low w ports (ports.set p q) p clr set rx = rx := by
  simp [shiftRxAfter, srAfter, pinLevel_set_other hclk, risingEdge_self,
    csReleased_other clr set hcs (pinLevel_set_other hcs)]

/-- Each shift bus's receiver goes through the write by itself (R35). -/
theorem getElem?_shiftRxAll_other (low : Bool) (ports : List Port) (p : Nat) (q : Port) (clr set : Half)
    (bs : List BusCfg) (rxs : List ShiftRx) (b : Nat)
    (h : ∀ w, bs[b]? = some (.shift w) → onPort w.clk p = false ∧ onPort w.cs p = false) :
    (shiftRxAll low ports (ports.set p q) p clr set bs rxs)[b]? = rxs[b]? := by
  fun_induction shiftRxAll low ports (ports.set p q) p clr set bs rxs generalizing b with
  | case1 w bs rx rxs ih =>
    cases b with
    | zero =>
      obtain ⟨hclk, hcs⟩ := h w rfl
      simp [shiftRxAfter_other clr set rx hclk hcs]
    | succ b => exact ih b h
  | case2 l c bs rx rxs ih =>
    cases b with
    | zero => rfl
    | succ b => exact ih b h
  | case3 => rfl

/-! ### One write -/

/-- An operation whose last micro-step writes port p's output register, after reads alone, changes that register and the
receivers on its lines. -/
theorem setOdr_effect {s m : State} {p : Nat} (r : Reg 16) (clr set : Half) (item : PinItem) (hp : p < s.ports.length)
    (hm : OnlyRead s m) (hpads : m.pads = s.pads) :
    (runAct .retire ((m.setOdr p r clr set).tracePin item)).port p = { s.port p with odr := r } ∧
      OnlyOdrOf s (runAct .retire ((m.setOdr p r clr set).tracePin item)) p := by
  have hframe := hm.frame
  rw [hpads] at hframe
  generalize m.ctx = c, m.pinTrace = items, m.draws = d at hframe
  subst hframe
  have hset (q : Nat) := port_set (State.setOdr { s with ctx := c, pinTrace := items, draws := d } p r clr set) s.ports
    p q _ rfl
  have hsame : (runAct .retire ((State.setOdr { s with ctx := c, pinTrace := items, draws := d } p r clr set).tracePin
      item)).port p = { s.port p with odr := r } :=
    (hset p).trans (if_pos ⟨rfl, hp⟩)
  refine ⟨hsame, by rw [hsame], fun q hq => ?_, fun b hb => ?_, rfl⟩
  · exact (hset q).trans (if_neg fun h => hq h.1.symm)
  · exact getElem?_shiftRxAll_other _ _ _ _ _ _ _ _ b hb

/-! ### Set and clear -/

/-- One set/clear write as a whole operation (R123). -/
theorem bsrEffect_bsrWrite {s : State} {p : Nat} (clr set : Half) (hp : p < s.ports.length) :
    BsrEffect s (runAct .retire (s.beginOp.bsrWrite p clr set)) p clr set := by
  obtain ⟨hport, honly⟩ := setOdr_effect (odrAfterBsr s.config.casOverlap (s.port p).odr clr set)
    clr set (.bsrW p set clr) hp (onlyRead_beginOp s) rfl
  refine ⟨fun b hb => ?_, rfl, rfl, rfl, honly⟩
  refine (congrArg (fun q : Port => regBit q.odr b) hport).trans ((regBit_odrAfterBsr _ _ _ _ hb).trans ?_)
  cases clr.getLsbD b <;> cases set.getLsbD b <;> simp

/-- `PSET`, `PCLR` and `PCAS` are one set/clear write, unless `CAS_OVERLAP` refuses its masks (R124 to R126). -/
theorem exec_setClear {i : Instr} {p : Byte} {clr set : Half} {s : State} (h : setClearOf i = some (p, clr, set))
    (hp : PortUsable s p) (hmasks : clr &&& set = 0 ∨ s.config.casOverlap ≠ .refuse) :
    exec i s = .next (runAct .retire (s.beginOp.bsrWrite p.toNat clr set)) := by
  cases i <;> cases h
  case pset | pclr => exact portPlan_next hp (by simp)
  case pcas => exact portPlan_next hp (overlapChecks_holds hmasks)

/-- Only `PCAS` can have masks that overlap (R126). -/
theorem exec_setClear_refused {i : Instr} {p : Byte} {clr set : Half} {s : State}
    (h : setClearOf i = some (p, clr, set)) (hp : PortUsable s p) (hmasks : clr &&& set ≠ 0)
    (hrefuse : s.config.casOverlap = .refuse) : exec i s = .refused (.casOverlap p.toNat (clr &&& set)) := by
  cases i <;> cases h
  case pset | pclr => simp at hmasks
  case pcas => exact portPlan_refused hp (by simpa [overlapChecks, hrefuse, firstRefusal] using hmasks)

/-- Settles O21: each of the three operations is one set/clear write. -/
theorem setClearWritesOnlyItsMasks : Obligations.SetClearWritesOnlyItsMasks := fun _ _ _ _ _ h hp =>
  ⟨fun hmasks => ⟨_, exec_setClear h hp hmasks, bsrEffect_bsrWrite _ _ (lt_of_usable hp)⟩,
    exec_setClear_refused h hp⟩

/-! ### Whole writes -/

theorem regBit_regOf_allOnes {w : Nat} (v : BitVec w) {b : Nat} (hb : b < w) :
    regBit (regOf (BitVec.allOnes w) v) b = some (v.getLsbD b) := by
  simp [regBit_regOf, hb]

theorem lt_of_regBit {w : Nat} {r : Reg w} {b : Nat} {x : Bool} (h : regBit r b = some x) : b < w := by
  unfold regBit at h
  split at h
  · next hk => exact BitVec.lt_of_getLsbD hk
  · cases h

theorem regBit_of_ge {w : Nat} (r : Reg w) {b : Nat} (hb : w ≤ b) : regBit r b = none := by
  simp [regBit, BitVec.getLsbD_of_ge _ _ hb]

/-- Settles O23: the one write leaves every bit with the value's. -/
theorem writeOverwritesThePort : Obligations.WriteOverwritesThePort := by
  intro p value s hp
  have hexec : exec (.pwr p value) s = .next (runAct .retire (s.beginOp.odrWrite p.toNat value)) :=
    portPlan_next hp (by simp)
  obtain ⟨hport, honly⟩ := setOdr_effect (regOf (BitVec.allOnes 16) value) 0 0 (.odrW p.toNat value) (lt_of_usable hp)
    (onlyRead_beginOp s) rfl
  exact ⟨_, hexec, fun b hb => hport ▸ regBit_regOf_allOnes value hb, rfl, rfl, rfl, honly⟩

/-- A read of `ODR` has every bit the register holds (R48). -/
theorem readsAs_odrValue (s : State) (p : Nat) : ReadsAs (s.port p).odr (s.odrValue p) :=
  fun _ _ => getLsbD_regRead

/-- `PTGL` writes back the value it read, flipped where the mask is set (R127). -/
theorem exec_ptgl {p : Byte} {s : State} (mask : Half) (hp : PortUsable s p) :
    ∃ t, exec (.ptgl p mask) s = .next t ∧
      t.pinTrace = s.pinTrace ++ [.odrR p.toNat (s.odrValue p.toNat), .odrW p.toNat (s.odrValue p.toNat ^^^ mask)] ∧
      (t.port p.toNat).odr = regOf (BitVec.allOnes 16) (s.odrValue p.toNat ^^^ mask) ∧
      t.ctx = advanced s.ctx ∧ OnlyOdrOf s t p.toNat := by
  have hexec : exec (.ptgl p mask) s = .next (runAct .retire ((s.beginOp.odrRead p.toNat).odrWrite p.toNat
      (((s.odrValue p.toNat).setWidth 64).setWidth 16 ^^^ mask))) :=
    portPlan_next hp (by simp)
  rw [BitVec.setWidth_setWidth_of_le _ (by decide), BitVec.setWidth_eq] at hexec
  obtain ⟨hport, honly⟩ := setOdr_effect (regOf (BitVec.allOnes 16) (s.odrValue p.toNat ^^^ mask)) 0 0
    (.odrW p.toNat (s.odrValue p.toNat ^^^ mask)) (lt_of_usable hp)
    ((onlyRead_beginOp s).trans (onlyRead_odrRead s.beginOp p.toNat)) rfl
  exact ⟨_, hexec, List.append_assoc _ [_] [_], congrArg Port.odr hport, rfl, honly⟩

/-- A usable port stays usable: no operation disables one or changes the configuration. -/
theorem PortUsable.of_exec {i : Instr} {s t : State} {p : Byte} (h : PortUsable s p) (hexec : exec i s = .next t) :
    PortUsable t p := by
  obtain ⟨hreal, hexists, hen⟩ := h
  exact ⟨hreal, by rwa [State.portExists, (exec_sameHost hexec).config], (exec_grows hexec).en _ hen⟩

/-- A bit that held a value holds it flipped where the mask of `PTGL` is set (R127). -/
theorem regBit_toggled {w : Nat} {r : Reg w} {v : BitVec w} (mask : BitVec w) (hv : ReadsAs r v) {b : Nat} {x : Bool}
    (hx : regBit r b = some x) : regBit (regOf (BitVec.allOnes w) (v ^^^ mask)) b = some (x ^^ mask.getLsbD b) := by
  rw [regBit_regOf_allOnes _ (lt_of_regBit hx), BitVec.getLsbD_xor, hv b x hx]

/-- Settles O22: what is written back is a value read, so each bit held is flipped by the mask and flipped back by a
second `PTGL`. -/
theorem toggleFlipsItsMask : Obligations.ToggleFlipsItsMask := by
  intro p mask s hp
  obtain ⟨t, hexec, htrace, hodr, hctx, honly⟩ := exec_ptgl mask hp
  have hflip : ∀ b x, regBit (s.port p.toNat).odr b = some x →
      regBit (t.port p.toNat).odr b = some (x ^^ mask.getLsbD b) := fun b x hx => by
    rw [hodr]
    exact regBit_toggled mask (readsAs_odrValue s _) hx
  refine ⟨t, _, hexec, readsAs_odrValue s _, htrace, hflip, hctx, honly, fun hall => ?_⟩
  obtain ⟨u, hexec', -, hodr', -⟩ := exec_ptgl mask (hp.of_exec hexec)
  refine ⟨u, hexec', fun b => ?_⟩
  by_cases hb : b < 16
  · obtain ⟨x, hx⟩ := Option.isSome_iff_exists.mp (hall b hb)
    rw [hodr', regBit_toggled mask (readsAs_odrValue t _) (hflip b x hx), hx, Bool.xor_assoc, Bool.xor_self,
      Bool.xor_false]
  · rw [regBit_of_ge _ (by omega), regBit_of_ge _ (by omega)]

end Sys2Proof.Machine
end

section
/-! Reads of a port (spec 10 R23 and R48, 40 R129, R130, R136): each keeps the value it read in `RES` and in
`PIN_TRACE`, and changes nothing else. -/

namespace Sys2Proof.Machine

/-! ### What is read -/

/-- A sample has the `ODR` bit of each push-pull output (R23). -/
theorem isSample_sampleValue (s : State) (p : Nat) : IsSample s p (s.sampleValue p) := by
  intro i x hout hx
  rw [getLsbD_sampleValue s p i (lt_of_regBit hx)]
  exact (if_pos hout).trans (readsAs_odrValue s p i x hx)

/-- Where an answer of the environment waits, a sample shows it on every other pin (R23, R46). -/
theorem showsPads_sampleValue {s : State} {a : Half} (p : Nat) (h : s.pads.head? = some a) :
    ShowsPads s p (s.sampleValue p) a := by
  have hanswer : s.padAnswer = a := by
    unfold State.padAnswer
    split
    · next hpads => simpa [hpads] using h
    · next hpads => simp [hpads] at h
  intro i hi hout
  rw [getLsbD_sampleValue s p i hi, ← hanswer]
  exact if_neg (Bool.eq_false_iff.mp hout)

/-- A read of a configuration register has every bit the register holds (R48). -/
theorem readsAs_cfgValue (s : State) (p : Nat) (k : CfgReg) : ReadsAs (cfgReg (s.port p) k) (s.cfgValue p k) :=
  fun _ _ => getLsbD_regRead

theorem width_pos (c : Config) (k : CfgReg) : 0 < c.width k := by
  rcases width_cases c k with h | h <;> omega

theorem width_le (c : Config) (k : CfgReg) : c.width k ≤ 4 := by
  rcases width_cases c k with h | h <;> omega

theorem mem_allRegs (r : CfgReg) : r ∈ allRegs := by cases r <;> simp [allRegs]

/-- All 16 fields of a register, and no bit above them (R26). -/
theorem getLsbD_fullMask {N : Nat} (hN : 0 < N) (hN4 : N ≤ 4) (b : Nat) :
    (fullMask N).getLsbD b = decide (b < 16 * N) := by
  rw [fullMask, getLsbD_expand hN hN4, show (0xFFFF#16) = BitVec.allOnes 16 from rfl, BitVec.getLsbD_allOnes]
  exact decide_eq_decide.mpr (Nat.div_lt_iff_lt_mul hN)

/-- Above its fields a well kept register has no bit with a value. -/
theorem cfgReg_known_above {c : Config} {q : Port} (h : portOk c q = true) (k : CfgReg) {b : Nat}
    (hb : 16 * c.width k ≤ b) : (cfgReg q k).known.getLsbD b = false := by
  simp only [portOk, Bool.and_eq_true, List.all_eq_true] at h
  obtain ⟨-, hregs⟩ := h
  obtain ⟨hknown, -⟩ := (regOk_iff _ _).mp (hregs k (mem_allRegs k))
  by_contra hset
  have := hknown b (by simpa using hset)
  rw [getLsbD_fullMask (width_pos c k) (width_le c k), decide_eq_true_eq] at this
  omega

/-- A configuration register reads 0 above its fields (R30, R136). -/
theorem cfgValue_above {s : State} {p : Nat} (h : portOk s.config (s.port p) = true) (k : CfgReg) {b : Nat}
    (hb : 16 * s.config.width k ≤ b) : (s.cfgValue p k).getLsbD b = false := by
  have hfull : (fullMask (s.config.width k)).getLsbD b = false := by
    rw [getLsbD_fullMask (width_pos _ k) (width_le _ k)]
    exact decide_eq_false (by omega)
  simp [State.cfgValue, regRead, cfgReg_known_above h k hb, hfull]

/-! ### The operations -/

theorem onlyRead_samplePort (s : State) (p : Nat) : OnlyRead s (s.samplePort p) := ⟨rfl, rfl⟩

theorem onlyRead_cfgRead (s : State) (p : Nat) (k : CfgReg) : OnlyRead s (s.cfgRead p k) := ⟨rfl, rfl⟩

/-- An operation that reads and then retires with a result changes no register but `RES` (R68). -/
theorem onlyRes_setRes {s m : State} (v : Word) (hm : OnlyRead s m) : OnlyRes s (runAct .retire (m.setRes v)) := by
  obtain ⟨hframe, hctx⟩ := hm
  generalize m.ctx.locals = l at hctx
  generalize m.ctx = c, m.pinTrace = items, m.pads = pads, m.draws = d at hframe hctx
  subst hframe hctx
  exact ⟨rfl, rfl⟩

/-- Settles O24: the one sample is what goes to `RES`. -/
theorem readSamplesThePort : Obligations.ReadSamplesThePort := by
  intro p s hp
  have hexec : exec (.prd p) s = .next (runAct .retire
      ((s.beginOp.samplePort p.toNat).setRes ((s.sampleValue p.toNat).setWidth 64))) :=
    portPlan_next hp (by simp)
  have honly := onlyRes_setRes ((s.sampleValue p.toNat).setWidth 64)
    ((onlyRead_beginOp s).trans (onlyRead_samplePort s.beginOp p.toNat))
  exact ⟨_, _, hexec, isSample_sampleValue s _, fun _ => showsPads_sampleValue _, rfl, rfl, rfl, honly⟩

/-- Settles O25: what was read of `ODR` is what goes to `RES`. -/
theorem readOutputGivesOdr : Obligations.ReadOutputGivesOdr := by
  intro p s hp
  have hexec : exec (.prdo p) s = .next (runAct .retire
      ((s.beginOp.odrRead p.toNat).setRes ((s.odrValue p.toNat).setWidth 64))) :=
    portPlan_next hp (by simp)
  have honly := onlyRes_setRes ((s.odrValue p.toNat).setWidth 64)
    ((onlyRead_beginOp s).trans (onlyRead_odrRead s.beginOp p.toNat))
  exact ⟨_, _, hexec, readsAs_odrValue s _, rfl, rfl, by simp [runAct, State.odrRead], honly⟩

theorem ofNumber_eq_some {k : BitVec 3} {r : CfgReg} (h : r.number = k.toNat) : CfgReg.ofNumber k = some r := by
  unfold CfgReg.ofNumber
  rw [← h]
  cases r <;> rfl

theorem ofNumber_eq_none {k : BitVec 3} (h : 4 < k.toNat) : CfgReg.ofNumber k = none := by
  unfold CfgReg.ofNumber
  split
  case h_6 => rfl
  all_goals omega

/-- Settles O30: what was read of the register is what goes to `RES`. -/
theorem readBackGivesTheRegister : Obligations.ReadBackGivesTheRegister := by
  intro p k s hp
  refine ⟨fun hk => portPlan_refused hp (by simp [firstRefusal, ofNumber_eq_none hk]), fun r hr => ?_⟩
  have hk := ofNumber_eq_some hr
  have hexec : exec (.prdc p k) s = .next (runAct .retire
      ((s.beginOp.cfgRead p.toNat r).setRes (s.cfgValue p.toNat r))) := by
    refine (portPlan_next hp (by simp [hk])).trans ?_
    rw [hk]
    rfl
  have honly := onlyRes_setRes (s.cfgValue p.toNat r)
    ((onlyRead_beginOp s).trans (onlyRead_cfgRead s.beginOp p.toNat r))
  exact ⟨_, _, hexec, readsAs_cfgValue s _ r, fun hok b => cfgValue_above hok r, rfl, rfl,
    by simp [runAct, State.cfgRead], honly⟩

end Sys2Proof.Machine
end

section
/-! Operations of one pin (spec 40 R140): the port operation with the mask of the pin alone. -/

namespace Sys2Proof.Machine

theorem isNull_of_usable {s : State} {x : Pin} (h : PortUsable s x.port) : x.isNull = false :=
  beq_eq_false_iff_ne.mpr h.1

/-- One set/clear write of a pin to a level (R140). -/
theorem exec_nwr {x : Pin} {s : State} (bit : Bool) (h : PortUsable s x.port) :
    ∃ t, exec (nwr x bit) s = .next t ∧
      BsrEffect s t x.port.toNat (if bit then 0 else pinMask x) (if bit then pinMask x else 0) := by
  have hset : setClearOf (nwr x bit) = some (x.port, if bit then 0 else pinMask x, if bit then pinMask x else 0) := by
    cases bit <;> rfl
  exact (setClearWritesOnlyItsMasks _ _ _ _ s hset h).1 (.inl (by cases bit <;> simp))

/-- A set/clear write of one pin leaves its `ODR` bit at the level and every other bit as it was. -/
theorem BsrEffect.regBit_pin {s t : State} {x : Pin} {bit : Bool}
    (h : BsrEffect s t x.port.toNat (if bit then 0 else pinMask x) (if bit then pinMask x else 0)) {b : Nat}
    (hb : b < 16) : regBit (t.port x.port.toNat).odr b =
      if b = x.pos.val then some bit else regBit (s.port x.port.toNat).odr b := by
  obtain ⟨hbits, -⟩ := h
  rw [hbits b hb]
  cases bit <;> simp [getLsbD_pinMask]

/-- One bit of a sample, shifted down and masked (R107). -/
theorem shiftRight_and_one (v : Half) (i : Nat) : (v.setWidth 64 >>> i) &&& 1 = if v.getLsbD i then 1 else 0 := by
  have hbit : (v.setWidth 64 >>> i).getLsbD 0 = v.getLsbD i := by
    rw [BitVec.getLsbD_ushiftRight, Nat.add_zero, BitVec.getLsbD_setWidth]
    by_cases h : i < 64
    · simp [h]
    · rw [BitVec.getLsbD_of_ge v i (by omega), Bool.and_false]
  rw [BitVec.ofNat_eq_ofNat, BitVec.and_one_eq_setWidth_ofBool_getLsbD, hbit]
  cases v.getLsbD i <;> rfl

/-- Settles O33: each operation of a pin is the port operation whose statement is O21, O22, O24 or O20. -/
theorem pinOperationsTouchOnePin : Obligations.PinOperationsTouchOnePin := by
  refine ⟨fun x s h => ⟨fun bit => ?_, ?_, ?_⟩, fun x s h => ?_⟩
  · obtain ⟨t, hexec, heffect⟩ := exec_nwr bit h
    have hbits := fun b => heffect.regBit_pin (b := b)
    obtain ⟨-, htrace, -, -, honly⟩ := heffect
    refine ⟨t, hexec, by simp [hbits _ x.pos.isLt], ?_, fun q b hb hnot => ?_, honly⟩
    · rw [htrace]
      cases bit <;> rfl
    · obtain ⟨-, hother, -⟩ := honly
      by_cases hq : q = x.port.toNat
      · subst hq
        have hne : b ≠ x.pos.val := fun he => hnot ⟨x, by simp, isNull_of_usable h, rfl, he.symm⟩
        rw [hbits b hb, if_neg hne]
      · rw [hother q hq]
  · obtain ⟨t, v, hexec, -, htrace, hflip, -, honly, -⟩ := toggleFlipsItsMask x.port (pinMask x) s h
    simp only [getLsbD_pinMask] at hflip
    exact ⟨t, v, hexec, htrace, fun b hb => by simpa using hflip _ b hb,
      fun i b hi hb => by simpa [hi] using hflip i b hb, honly⟩
  · obtain ⟨t, v, hexec, hsample, -, -, htrace, hres, -, hctx⟩ := readSamplesThePort x.port s h
    have hnrd : execNrd x s = .next (t.setRes (if v.getLsbD x.pos.val then 1 else 0)) := by
      rw [execNrd, show execPrd x.port s = .next t from hexec]
      simp only [hres, shiftRight_and_one]
    refine ⟨_, v, hnrd, hsample, htrace, ?_⟩
    rw [State.setRes_ctx, hctx]
    rfl
  · exact ⟨exec_nullPort (congrArg some h), exec_nullPort (congrArg some h), exec_nullPort (congrArg some h),
      execNrd_nullPort h⟩

end Sys2Proof.Machine
end

section
/-! Fields of a configuration register (spec 40 R131 to R134, R139): the merge of a field, bit by bit, over values and
over registers some bits of which hold no value. -/

namespace Sys2Proof.Machine

/-! ### Bits and fields of a word -/

section
variable {N : Nat} (hN : 0 < N) (hN4 : N ≤ 4)
include hN hN4

/-- Bit b of field i of a merge: the value's for a pin of the mask, else the old one (R132). -/
theorem getLsbD_merge_field (old : Word) (m : Half) (v : BitVec 4) {i b : Nat} (hi : i < 16) (hb : b < N) :
    (merge N old m v).getLsbD (N * i + b) = if m.getLsbD i then v.getLsbD b else old.getLsbD (N * i + b) := by
  have hlt : N * i + b < 64 := by
    have := Nat.mul_le_mul hN4 (Nat.le_of_lt_succ hi)
    omega
  rw [getLsbD_merge hN hN4 old m v hlt, Nat.mul_add_div hN, Nat.mul_add_mod, Nat.div_eq_of_lt hb, Nat.mod_eq_of_lt hb,
    Nat.add_zero]

theorem getLsbD_rep_field (m : Half) (v : BitVec 4) {i b : Nat} (hb : b < N) :
    (rep N m v).getLsbD (N * i + b) = (m.getLsbD i && v.getLsbD b) := by
  rw [getLsbD_rep hN hN4, Nat.mul_add_div hN, Nat.mul_add_mod, Nat.div_eq_of_lt hb, Nat.mod_eq_of_lt hb, Nat.add_zero]

theorem getLsbD_expand_field (m : Half) {i b : Nat} (hb : b < N) :
    (expand N m).getLsbD (N * i + b) = m.getLsbD i := by
  rw [getLsbD_expand hN hN4, Nat.mul_add_div hN, Nat.div_eq_of_lt hb, Nat.add_zero]

theorem getLsbD_fullMask_field {i b : Nat} (hi : i < 16) (hb : b < N) :
    (fullMask N).getLsbD (N * i + b) = true := by
  rw [fullMask, getLsbD_expand_field hN hN4 _ hb, show (0xFFFF#16) = BitVec.allOnes 16 from rfl, BitVec.getLsbD_allOnes]
  exact decide_eq_true hi

omit hN in
theorem getLsbD_fieldOf (r : Word) (i b : Nat) :
    (fieldOf N r i).getLsbD b = (decide (b < N) && r.getLsbD (N * i + b)) := by
  rw [fieldOf, BitVec.getLsbD_and, BitVec.getLsbD_ushiftRight, getLsbD_ones hN4, Bool.and_comm]

/-- Writing all ones into the fields of a mask sets the whole of them (R139). -/
theorem rep_ones (m : Half) : rep N m (BitVec.ofNat 4 (2 ^ N - 1)) = expand N m := by
  refine BitVec.eq_of_getLsbD_eq fun b _ => ?_
  have hmod : b % N < N := Nat.mod_lt b hN
  have hfits : b % N < 4 := by omega
  simp [getLsbD_rep hN hN4, getLsbD_expand hN hN4, BitVec.getLsbD_ofNat, Nat.testBit_two_pow_sub_one, hmod, hfits]

/-- A value stays inside the fields of its mask (R132). -/
theorem rep_and_not_expand (m : Half) (v : BitVec 4) : rep N m v &&& ~~~expand N m = 0 := by
  refine BitVec.eq_of_getLsbD_eq fun b hb => ?_
  rw [BitVec.getLsbD_and, BitVec.getLsbD_not, getLsbD_rep hN hN4, getLsbD_expand hN hN4]
  cases m.getLsbD (b / N) <;> simp

/-- A field after a merge: the value for a pin of the mask, else the old field (R132). -/
theorem fieldOf_merge (old : Word) (m : Half) {v : BitVec 4} (hv : v.toNat < 2 ^ N) {i : Nat} (hi : i < 16) :
    fieldOf N (merge N old m v) i = if m.getLsbD i then v.setWidth 64 else fieldOf N old i := by
  refine BitVec.eq_of_getLsbD_eq fun b hb => ?_
  rw [getLsbD_fieldOf hN4]
  by_cases hbN : b < N
  · rw [getLsbD_merge_field hN hN4 old m v hi hbN]
    split
    · simp only [BitVec.getLsbD_setWidth, hb, hbN, decide_true, Bool.true_and]
    · simp only [getLsbD_fieldOf hN4, hbN, decide_true, Bool.true_and]
  · have hhigh : v.getLsbD b = false :=
      Nat.testBit_lt_two_pow (lt_of_lt_of_le hv (Nat.pow_le_pow_right (by omega) (by omega)))
    split
    · simp only [BitVec.getLsbD_setWidth, hhigh, hbN, decide_false, Bool.false_and, Bool.and_false]
    · simp only [getLsbD_fieldOf hN4, hbN, decide_false, Bool.false_and]

end

/-- Settles O27: the three laws hold of every width from 1 to 4. -/
theorem mergeRoundTrips : Obligations.MergeRoundTrips := by
  intro N old m v hN hv
  have hpos : 0 < N := by omega
  have hle : N ≤ 4 := by omega
  exact ⟨fun i => fieldOf_merge hpos hle old m hv, rep_ones hpos hle m, rep_and_not_expand hpos hle m v⟩

/-! ### Registers some bits of which hold no value -/

/-- A register after a merge: a field outside the mask that had no value still has none (R134). -/
def mergedReg (N : Nat) (old : Reg 64) (mask : Half) (v : BitVec 4) : Reg 64 :=
  { val := merge N (old.val &&& old.known) mask v &&& ((old.known ||| expand N mask) &&& fullMask N)
    known := (old.known ||| expand N mask) &&& fullMask N }

theorem regBit_mergedReg {N : Nat} (hN : 0 < N) (hN4 : N ≤ 4) (old : Reg 64) (mask : Half) (v : BitVec 4) {i b : Nat}
    (hi : i < 16) (hb : b < N) : regBit (mergedReg N old mask v) (N * i + b) =
      if mask.getLsbD i then some (v.getLsbD b) else regBit old (N * i + b) := by
  simp only [regBit, mergedReg, BitVec.getLsbD_and, BitVec.getLsbD_or, getLsbD_merge_field hN hN4 _ mask v hi hb,
    getLsbD_expand_field hN hN4 mask hb, getLsbD_fullMask_field hN hN4 hi hb, Bool.and_true]
  cases mask.getLsbD i
  · cases old.known.getLsbD (N * i + b) <;> simp
  · simp

end Sys2Proof.Machine
end

section
/-! Writes of configuration registers (spec 40 R133 to R135): one write of one register, and what a list of them does to
the port. -/

namespace Sys2Proof.Machine

/-! ### Which registers were written -/

theorem OnlyCfgOf.trans {s u t : State} {p : Nat} (h : OnlyCfgOf s u p) (k : OnlyCfgOf u t p) : OnlyCfgOf s t p := by
  obtain ⟨hodr, hen, hother, hframe⟩ := h
  obtain ⟨hodr', hen', hother', hframe'⟩ := k
  refine ⟨hodr'.trans hodr, hen'.trans hen, fun q hq => (hother' q hq).trans (hother q hq), ?_⟩
  rw [hframe] at hframe'
  exact hframe'

/-- From s to t, of port p the registers of the list were written, each as `R` says of its content before and after, and
no other register of any port. -/
structure CfgWritten (R : CfgReg → Reg 64 → Reg 64 → Prop) (p : Nat) (rs : List CfgReg) (s t : State) : Prop where
  written : ∀ r ∈ rs, R r (cfgReg (s.port p) r) (cfgReg (t.port p) r)
  others : ∀ r ∉ rs, cfgReg (t.port p) r = cfgReg (s.port p) r
  frame : OnlyCfgOf s t p

section
variable {R : CfgReg → Reg 64 → Reg 64 → Prop} {p : Nat} {s t u : State}

theorem cfgWritten_nil (ht : t = { s with pinTrace := t.pinTrace, ctx := t.ctx, draws := t.draws }) :
    CfgWritten R p [] s t := by
  have hport : ∀ q, t.port q = s.port q := fun q => by rw [ht]; rfl
  exact ⟨by simp, fun r _ => by rw [hport], by rw [hport], by rw [hport], fun q _ => hport q, by rw [ht]⟩

theorem CfgWritten.append {rs qs : List CfgReg} (h : CfgWritten R p rs s u) (k : CfgWritten R p qs u t)
    (hdisjoint : rs.Disjoint qs) : CfgWritten R p (rs ++ qs) s t := by
  refine ⟨fun r hr => ?_, fun r hr => ?_, h.frame.trans k.frame⟩
  · rcases List.mem_append.mp hr with hr | hr
    · rw [k.others r (hdisjoint hr)]
      exact h.written r hr
    · rw [← h.others r fun hrs => hdisjoint hrs hr]
      exact k.written r hr
  · rw [List.mem_append, not_or] at hr
    exact (k.others r hr.2).trans (h.others r hr.1)

/-- One write of one register. -/
theorem setCfg_written {r : CfgReg} {reg : Reg 64} (v : Word) (hp : p < s.ports.length)
    (hR : R r (cfgReg (s.port p) r) reg) : CfgWritten R p [r] s (s.setCfg p r reg v) := by
  have hport := setCfg_port_same r reg v hp
  refine ⟨fun j hj => ?_, fun j hj => ?_, ?_, ?_, fun q hq => setCfg_port_other r reg v hq.symm, rfl⟩
  · rw [List.mem_singleton.mp hj, hport, cfgReg_withCfgReg_same]
    exact hR
  · rw [hport, cfgReg_withCfgReg_other _ _ fun h => hj (List.mem_singleton.mpr h.symm)]
  · rw [hport, withCfgReg_odr]
  · rw [hport, withCfgReg_en]

end

/-! ### Merges -/

/-- Register r was merged with the field value `v r` under the mask (R134). -/
def Merged (c : Config) (mask : Half) (v : CfgReg → BitVec 4) (r : CfgReg) (old new : Reg 64) : Prop :=
  new = mergedReg (c.width r) old mask (v r)

/-- A field after its merge holds the value where the mask has its pin, else what it held, a value or none (R134). -/
theorem Merged.regBit_field {c : Config} {mask : Half} {v : CfgReg → BitVec 4} {r : CfgReg} {old new : Reg 64}
    (h : Merged c mask v r old new) {i b : Nat} (hi : i < 16) (hb : b < c.width r) :
    regBit new (c.width r * i + b) =
      if mask.getLsbD i then some ((v r).getLsbD b) else regBit old (c.width r * i + b) := by
  rw [h]
  exact regBit_mergedReg (width_pos c r) (width_le c r) old mask (v r) hi hb

/-- The two items of one merge of a register that was read as `old` (R134). -/
def fieldItems (c : Config) (p : Nat) (mask : Half) (v : CfgReg → BitVec 4) (old : CfgReg → Word) (r : CfgReg) :
    List PinItem :=
  [.cfgR p r (old r), .cfgW p r (merge (c.width r) (old r) mask (v r))]

/-- The read and the merging write of one register (R134). -/
theorem cfgMerge_written {s : State} {p : Nat} (mask : Half) (v : CfgReg → BitVec 4) (r : CfgReg)
    (hp : p < s.ports.length) :
    CfgWritten (Merged s.config mask v) p [r] s ((s.cfgRead p r).cfgMerge p r mask (v r)) := by
  have hread : CfgWritten (Merged s.config mask v) p [] s (s.cfgRead p r) := cfgWritten_nil rfl
  exact hread.append (setCfg_written _ hp rfl) (by simp)

theorem pinTrace_cfgMerge (s : State) (p : Nat) (mask : Half) (v : CfgReg → BitVec 4) (r : CfgReg) :
    ((s.cfgRead p r).cfgMerge p r mask (v r)).pinTrace =
      s.pinTrace ++ fieldItems s.config p mask v (s.cfgValue p) r := List.append_assoc _ [_] [_]

/-- The field value fits register r of port p (R134). -/
def FieldFits (c : Config) (p : Nat) (r : CfgReg) (v : BitVec 4) : Prop :=
  v.toNat < 2 ^ c.width r ∧ (r = .af → v.toNat ≤ c.afMax p)

/-- `PFLDM` with a value that fits merges its one register (R134). -/
theorem exec_pfldm {p : Byte} {mask : Half} {k : BitVec 3} {r : CfgReg} {s : State} {c : Config} (v : CfgReg → BitVec 4)
    (hc : s.config = c) (hp : PortUsable s p) (hk : CfgReg.ofNumber k = some r)
    (hfits : FieldFits c p.toNat r (v r)) :
    ∃ t, exec (.pfldm p mask k (v r)) s = .next t ∧ CfgWritten (Merged c mask v) p.toNat [r] s t ∧
      t.pinTrace = s.pinTrace ++ fieldItems c p.toNat mask v (s.cfgValue p.toNat) r ∧ t.ctx = advanced s.ctx := by
  subst hc
  have hchecks : ∀ c ∈ fieldChecks s p.toNat k (v r), c.holds = true := by
    obtain ⟨hlt, hmax⟩ := hfits
    simp only [fieldChecks, hk, List.forall_mem_cons]
    exact ⟨decide_eq_true hlt, by simpa [or_iff_not_imp_left] using hmax, by simp⟩
  have hexec : exec (.pfldm p mask k (v r)) s =
      .next (runAct .retire ((s.beginOp.cfgRead p.toNat r).cfgMerge p.toNat r mask (v r))) := by
    refine (portPlan_next hp hchecks).trans ?_
    rw [hk]
    rfl
  have hbegin : CfgWritten (Merged s.config mask v) p.toNat [] s s.beginOp := cfgWritten_nil rfl
  have hmerge := cfgMerge_written (s := s.beginOp) mask v r (lt_of_usable hp)
  have hretire : CfgWritten (Merged s.config mask v) p.toNat [] _
      (runAct .retire ((s.beginOp.cfgRead p.toNat r).cfgMerge p.toNat r mask (v r))) := cfgWritten_nil rfl
  exact ⟨_, hexec, (hbegin.append hmerge (by simp)).append hretire (by simp),
    pinTrace_cfgMerge s.beginOp p.toNat mask v r, rfl⟩

/-- Settles O28: the checks in their order, else one merge. -/
theorem fieldMergePreservesOtherFields : Obligations.FieldMergePreservesOtherFields := by
  intro p mask k v s hp
  refine ⟨fun hk => portPlan_refused hp (by simp [fieldChecks, ofNumber_eq_none hk, firstRefusal]), fun r hr => ?_⟩
  have hk := ofNumber_eq_some hr
  refine ⟨fun hv => portPlan_refused hp ?_, fun hv haf hmax => portPlan_refused hp ?_, fun hv haf => ?_⟩
  · simp [fieldChecks, hk, firstRefusal, hv.not_gt]
  · subst haf
    simp [fieldChecks, hk, firstRefusal, hv, hmax.not_ge]
  · obtain ⟨t, hexec, hwritten, htrace, hctx⟩ := exec_pfldm (mask := mask) (fun _ => v) rfl hp hk ⟨hv, haf⟩
    exact ⟨t, s.cfgValue p.toNat r, hexec, fun j x _ hx => readsAs_cfgValue s _ r j x hx, htrace,
      fun i b hi hb => (hwritten.written r (by simp)).regBit_field hi hb, fun j hj => hwritten.others j (by simpa),
      hctx, hwritten.frame⟩

/-- The items between s and t are those of one merge for each register of the list, each read with the bits its
register held in s (R135). -/
def ItemsOfMerges (c : Config) (p : Nat) (mask : Half) (v : CfgReg → BitVec 4) (rs : List CfgReg)
    (s t : State) : Prop :=
  ∃ old : CfgReg → Word, (∀ r ∈ rs, ReadsAs (cfgReg (s.port p) r) (old r)) ∧
    t.pinTrace = s.pinTrace ++ rs.flatMap (fieldItems c p mask v old)

/-- The items of a merge of r, then those of merges of other registers: the first merge changed none of what these
read. -/
theorem ItemsOfMerges.cons {c : Config} {p : Nat} {mask : Half} {v : CfgReg → BitVec 4} {r : CfgReg} {rs : List CfgReg}
    {R : CfgReg → Reg 64 → Reg 64 → Prop} {s u t : State} (hr : r ∉ rs) (hwritten : CfgWritten R p [r] s u)
    (htrace : u.pinTrace = s.pinTrace ++ fieldItems c p mask v (s.cfgValue p) r)
    (h : ItemsOfMerges c p mask v rs u t) : ItemsOfMerges c p mask v (r :: rs) s t := by
  obtain ⟨old, hold, hrest⟩ := h
  have hne : ∀ q ∈ rs, q ≠ r := fun q hq => ne_of_mem_of_not_mem hq hr
  refine ⟨Function.update old r (s.cfgValue p r), fun q hq => ?_, ?_⟩
  · rcases List.mem_cons.mp hq with rfl | hq
    · rw [Function.update_self]
      exact readsAs_cfgValue s p q
    · rw [Function.update_of_ne (hne q hq), ← hwritten.others q (by simpa using hne q hq)]
      exact hold q hq
  · have hitems : rs.flatMap (fieldItems c p mask v (Function.update old r (s.cfgValue p r))) =
        rs.flatMap (fieldItems c p mask v old) :=
      List.flatMap_congr fun q hq => by rw [fieldItems, Function.update_of_ne (hne q hq), fieldItems]
    rw [hrest, htrace, List.flatMap_cons, hitems, List.append_assoc, fieldItems, fieldItems, Function.update_self]

/-- `PFLDM` for every register of a list, one after another, merges each (R135), by induction on the list. -/
theorem execAll_pfldm {p : Byte} {c : Config} (mask : Half) (v : CfgReg → BitVec 4) {rs : List CfgReg} (hrs : rs.Nodup)
    {s : State} (hc : s.config = c) (hp : PortUsable s p) (hfits : ∀ r ∈ rs, FieldFits c p.toNat r (v r)) :
    ∃ t, execAll (rs.map fun k => .pfldm p mask (BitVec.ofNat 3 k.number) (v k)) s = .next t ∧
      CfgWritten (Merged c mask v) p.toNat rs s t ∧ ItemsOfMerges c p.toNat mask v rs s t ∧
      t.ctx = advanced^[rs.length] s.ctx := by
  induction rs generalizing s with
  | nil => exact ⟨s, rfl, cfgWritten_nil rfl, ⟨fun _ => 0, by simp, by simp⟩, rfl⟩
  | cons r rs ih =>
    obtain ⟨hr, hrs⟩ := List.nodup_cons.mp hrs
    obtain ⟨hfit, hfits⟩ := List.forall_mem_cons.mp hfits
    have hk : CfgReg.ofNumber (BitVec.ofNat 3 r.number) = some r := by cases r <;> rfl
    obtain ⟨u, hexec, hwritten, htrace, hctx⟩ := exec_pfldm (mask := mask) v hc hp hk hfit
    obtain ⟨t, hrest, hwritten', hitems, hctx'⟩ :=
      ih hrs ((exec_sameHost hexec).config.trans hc) (hp.of_exec hexec) hfits
    exact ⟨t, execAll_cons_eq_next.mpr ⟨u, hexec, hrest⟩, hwritten.append hwritten' (by simpa),
      hitems.cons hr hwritten htrace, hctx'.trans (congrArg _ hctx)⟩

/-- The sub-fields of a record fit their registers, if its AF number does (R100, log 26). -/
theorem fieldFits_fields {c : Config} {p : Nat} {cfg : PinCfg} (hmax : cfg.af.toNat ≤ c.afMax p)
    (haf : cfg.af.toNat < 2 ^ c.width .af) (r : CfgReg) : FieldFits c p r (cfg.fields.get r) := by
  have hsub : ∀ x : BitVec 2, (x.setWidth 4).toNat < 2 ^ c.width r := fun x => by
    have hx : (x.setWidth 4).toNat < 2 ^ 2 := by simp; omega
    exact lt_of_lt_of_le hx (Nat.pow_le_pow_right (by omega) (by rcases width_cases c r with h | h <;> omega))
  cases r
  case af => exact ⟨haf, fun _ => hmax⟩
  all_goals exact ⟨hsub _, fun h => by cases h⟩

/-- Settles O34: `PCFGM` is `PFLDM` for each of the five registers. -/
theorem wholeRecordMerge : Obligations.WholeRecordMerge := by
  intro p mask cfg s hp hmax haf
  obtain ⟨t, hexec, hwritten, ⟨old, hold, htrace⟩, hctx⟩ := execAll_pfldm mask cfg.fields.get (rs := allRegs)
    (by decide) rfl hp fun r _ => fieldFits_fields hmax haf r
  refine ⟨t, hexec, fun r i b hi hb => (hwritten.written r (mem_allRegs r)).regBit_field hi hb,
    ⟨fun _ => old, fun r => hold r (mem_allRegs r), ?_⟩, hctx, hwritten.frame⟩
  rw [htrace, mergeItems, mergeItems, List.append_nil]
  rfl

end Sys2Proof.Machine
end

section
/-! Replace-all (spec 40 R133) and enabling a port (R137): five whole-register writes without a read, and the one write
of the enable bit. -/

namespace Sys2Proof.Machine

/-! ### The value replace-all writes -/

section
variable {N : Nat} (hN : 0 < N) (hN4 : N ≤ 4)
include hN hN4

/-- Bit b of field i of what replace-all writes: the record's in the mask, else the forced code's or the draw's. -/
theorem getLsbD_replaceValue_field (mask : Half) (v : BitVec 4) (outside : Option (BitVec 4)) (u : Word) {i b : Nat}
    (hi : i < 16) (hb : b < N) : (replaceValue N mask v outside u).getLsbD (N * i + b) =
      if mask.getLsbD i then v.getLsbD b
      else outside.elim (u.getLsbD (N * i + b)) (·.getLsbD b) := by
  have hlt : N * i + b < 64 := by
    have := Nat.mul_le_mul hN4 (Nat.le_of_lt_succ hi)
    omega
  cases outside with
  | some code =>
    simp only [replaceValue, BitVec.getLsbD_or, getLsbD_rep_field hN hN4 _ _ hb, BitVec.getLsbD_not, hi, decide_true]
    cases mask.getLsbD i <;> simp
  | none =>
    simp only [replaceValue, drawnBits_eq, BitVec.getLsbD_or, BitVec.getLsbD_and, BitVec.getLsbD_not,
      getLsbD_rep_field hN hN4 _ _ hb, getLsbD_expand_field hN hN4 _ hb, getLsbD_fullMask_field hN hN4 hi hb, hlt,
      decide_true]
    cases mask.getLsbD i <;> simp

/-- A value in fields has no bit above the register. -/
theorem rep_and_fullMask (m : Half) (v : BitVec 4) : rep N m v &&& fullMask N = rep N m v := by
  refine BitVec.eq_of_getLsbD_eq fun b _ => ?_
  rw [BitVec.getLsbD_and, getLsbD_rep hN hN4, getLsbD_fullMask hN hN4]
  by_cases h : b < 16 * N
  · simp [h]
  · have hdiv : 16 ≤ b / N := (Nat.le_div_iff_mul_le hN).mpr (by omega)
    simp [BitVec.getLsbD_of_ge m _ hdiv]

theorem replaceValue_and_fullMask (mask : Half) (v : BitVec 4) (outside : Option (BitVec 4)) (u : Word) :
    replaceValue N mask v outside u &&& fullMask N = replaceValue N mask v outside u := by
  cases outside with
  | some code => simp only [replaceValue, BitVec.and_or_distrib_right, rep_and_fullMask hN hN4]
  | none =>
    have hdraw : u &&& (fullMask N &&& ~~~expand N mask) &&& fullMask N = u &&& (fullMask N &&& ~~~expand N mask) := by
      grind
    simp only [replaceValue, drawnBits_eq, BitVec.and_or_distrib_right, rep_and_fullMask hN hN4, hdraw]

end

/-! ### The five writes -/

/-- Register r was replaced: the field values `v r` in the mask, what R133 says of it outside. -/
def Replaced (c : Config) (mask : Half) (v : CfgReg → BitVec 4) (r : CfgReg) (_old new : Reg 64) : Prop :=
  ∃ u, new = regOf (fullMask (c.width r)) (replaceValue (c.width r) mask (v r) (replaceOutside c r) u)

/-- Every bit of a replaced register holds a value (R133). -/
theorem Replaced.regBit_field {c : Config} {mask : Half} {v : CfgReg → BitVec 4} {r : CfgReg} {old new : Reg 64}
    (h : Replaced c mask v r old new) : ∃ u : Word, ∀ i b, i < 16 → b < c.width r →
      regBit new (c.width r * i + b) = some (if mask.getLsbD i then (v r).getLsbD b
        else (replaceOutside c r).elim (u.getLsbD (c.width r * i + b)) (·.getLsbD b)) := by
  obtain ⟨u, rfl⟩ := h
  refine ⟨u, fun i b hi hb => ?_⟩
  rw [regBit_regOf, if_pos (getLsbD_fullMask_field (width_pos c r) (width_le c r) hi hb),
    getLsbD_replaceValue_field (width_pos c r) (width_le c r) _ _ _ _ hi hb]

theorem cfgReg_cfgReplace {s : State} {p : Nat} (r : CfgReg) (mask : Half) (v : BitVec 4)
    (outside : Option (BitVec 4)) (hp : p < s.ports.length) :
    cfgReg ((s.cfgReplace p r mask v outside).port p) r =
      regOf (fullMask (s.config.width r)) (replaceValue (s.config.width r) mask v outside s.freeWord) := by
  have hport := setCfg_port_same r
    (regOf (fullMask (s.config.width r)) (replaceValue (s.config.width r) mask v outside s.freeWord))
    (replaceValue (s.config.width r) mask v outside s.freeWord) hp
  exact (congrArg (cfgReg · r) hport).trans (cfgReg_withCfgReg_same _ _ _)

/-- One whole-register write of replace-all: the item shows what the register holds then (R133). -/
theorem cfgReplace_written {s : State} {c : Config} {p : Nat} (mask : Half) (v : CfgReg → BitVec 4) (r : CfgReg)
    (hc : s.config = c) (hp : p < s.ports.length) :
    CfgWritten (Replaced c mask v) p [r] s (s.cfgReplace p r mask (v r) (replaceOutside c r)) ∧
      (s.cfgReplace p r mask (v r) (replaceOutside c r)).pinTrace = s.pinTrace ++
        [.cfgW p r (cfgReg ((s.cfgReplace p r mask (v r) (replaceOutside c r)).port p) r).val] := by
  subst hc
  have hwritten : CfgWritten (Replaced s.config mask v) p [r] s
      (s.cfgReplace p r mask (v r) (replaceOutside s.config r)) :=
    (setCfg_written _ hp ⟨s.freeWord, rfl⟩).append (cfgWritten_nil rfl) (by simp)
  refine ⟨hwritten, ?_⟩
  rw [cfgReg_cfgReplace r mask (v r) (replaceOutside s.config r) hp, regOf,
    replaceValue_and_fullMask (width_pos _ r) (width_le _ r)]
  rfl

/-- The writes of replace-all over a list of registers (R133), by induction on the list: no write touches a register
written before it. -/
theorem runActs_cfgReplace {p : Nat} {c : Config} (mask : Half) (v : CfgReg → BitVec 4) {rs : List CfgReg}
    (hrs : rs.Nodup) {s : State} (hc : s.config = c) (hp : p < s.ports.length) :
    ∃ t, runActs (rs.map fun k => .cfgReplace p k mask (v k) (replaceOutside c k)) s = t ∧
      CfgWritten (Replaced c mask v) p rs s t ∧
      t.pinTrace = s.pinTrace ++ rs.map (fun r => .cfgW p r (cfgReg (t.port p) r).val) ∧ t.ctx = s.ctx := by
  induction rs generalizing s with
  | nil => exact ⟨s, rfl, cfgWritten_nil rfl, by simp, rfl⟩
  | cons r rs ih =>
    obtain ⟨hr, hrs⟩ := List.nodup_cons.mp hrs
    obtain ⟨hwritten, htrace⟩ := cfgReplace_written mask v r hc hp
    obtain ⟨t, hrest, hwritten', htrace', hctx⟩ := ih hrs (s := s.cfgReplace p r mask (v r) (replaceOutside c r)) hc
      (by simpa [State.cfgReplace, State.setCfg] using hp)
    refine ⟨t, hrest, hwritten.append hwritten' (by simpa), ?_, hctx⟩
    rw [htrace', htrace, ← hwritten'.others r hr, List.append_assoc, List.map_cons, List.singleton_append]

/-- Settles O29: the AF check, else the five writes. -/
theorem replaceAllForcesTheRest : Obligations.ReplaceAllForcesTheRest := by
  intro p mask cfg s hp
  refine ⟨fun hmax => portPlan_refused hp (by simp [firstRefusal, hmax.not_ge]), fun hmax => ?_⟩
  obtain ⟨t, hacts, hwritten, htrace, hctx⟩ := runActs_cfgReplace (s := s.beginOp) (c := s.config) mask cfg.fields.get
    (rs := allRegs) (by decide) rfl (lt_of_usable hp)
  have hexec : exec (.pcfgr p mask cfg) s = .next (runAct .retire t) := by
    refine (portPlan_next hp (by simpa using hmax)).trans ?_
    rw [runActs_append, hacts]
    rfl
  have hbegin : CfgWritten (Replaced s.config mask cfg.fields.get) p.toNat [] s s.beginOp := cfgWritten_nil rfl
  have hretire : CfgWritten (Replaced s.config mask cfg.fields.get) p.toNat [] t (runAct .retire t) :=
    cfgWritten_nil rfl
  have hall := (hbegin.append hwritten (by simp)).append hretire (by simp)
  refine ⟨_, hexec, fun r i b hi hb => ?_, htrace, ?_, hall.frame⟩
  · obtain ⟨u, hbits⟩ := (hall.written r (by simp [mem_allRegs])).regBit_field
    have hbit := hbits i b hi hb
    split
    · next hm => rw [hbit, if_pos hm]
    · next hm =>
      rw [if_neg hm] at hbit
      cases r
      case mode | pull => exact hbit
      all_goals exact Option.isSome_iff_exists.mpr ⟨_, hbit⟩
  · show advanced t.ctx = _
    rw [hctx]
    rfl

/-! ### Enabling a port -/

theorem lt_of_portPresent {c : Config} {p : Nat} (h : c.portPresent p = true) : p < c.ports.length := by
  by_contra hn
  simp [Config.portPresent, List.getElem?_eq_none (Nat.le_of_not_lt hn)] at h

/-- Settles O31: the one write of the port keeps everything of it but the enable bit. -/
theorem enableChangesOnlyTheEnableBit : Obligations.EnableChangesOnlyTheEnableBit := by
  intro p s hreal hexists hlen
  have hexec : exec (.pen p) s = .next (runAct .retire (s.beginOp.enablePort p.toNat)) := by
    refine (congrArg (perform · s) (planPen_real hreal)).trans ?_
    exact perform_next (by simpa using hexists)
  have hlt : p.toNat < s.ports.length := hlen ▸ lt_of_portPresent hexists
  have hport (q : Nat) := port_set (s.enablePort p.toNat) s.ports p.toNat q _ rfl
  refine ⟨_, hexec, (hport p.toNat).trans (if_pos ⟨rfl, hlt⟩),
    fun q hq => (hport q).trans (if_neg fun h => hq h.1.symm), rfl, rfl, rfl⟩

end Sys2Proof.Machine
end

section
/-! Pin lists (spec 41 R160 to R162): the ports of a list are checked, then written or sampled one after another, each
once; what the masks of the writes say of one pin and what the samples of one pin are carry over to the whole list. -/

namespace Sys2Proof.Machine

/-! ### The checks of a list -/

/-- The first port of a list that is not enabled is the one refused for (R161). -/
theorem firstRefusal_listChecks {s : State} {l q : Nat} {before after : List Nat}
    (hports : portsOf (listPins s.config l) = before ++ q :: after) (hbefore : ∀ r ∈ before, s.enabled r = true)
    (hq : s.enabled q = false) : firstRefusal (listChecks s l) = some (.portNotEnabled q) := by
  have hnone : firstRefusal (before.map fun r => ⟨s.enabled r, .portNotEnabled r⟩) = none :=
    firstRefusal_eq_none.mpr (by simpa using hbefore)
  rw [listChecks, hports, List.map_append, firstRefusal_append, hnone]
  simp [firstRefusal, hq]

theorem listRefusals_of_checks {i : Instr} {s : State} {l : Nat}
    (hplan : (planOf i s).checks = listAccessChecks s l) : ListRefusals i s l := by
  refine ⟨fun hl => exec_refused_first hplan (decide_eq_false hl.not_gt), fun before q after hl hports hbefore hq => ?_⟩
  rw [exec_eq_perform, perform_eq_refused, hplan]
  simp [listAccessChecks, firstRefusal, hl, firstRefusal_listChecks hports hbefore hq]

/-- A list of the configuration with usable pins passes its checks (R161). -/
theorem listAccessChecks_holds_of_get {s : State} {l : Nat} {xs : List Pin} (hl : s.config.lists[l]? = some xs)
    (h : PinsUsable s xs) : ∀ c ∈ listAccessChecks s l, c.holds = true :=
  listAccessChecks_holds (lt_of_list hl) (by rwa [listPins_of_get hl])

/-- The ports of usable pins are ports of the state. -/
theorem lt_of_mem_portsOf {s : State} {xs : List Pin} (h : PinsUsable s xs) : ∀ q ∈ portsOf xs, q < s.ports.length := by
  intro q hq
  obtain ⟨x, hx, hnull, rfl⟩ := mem_portsOf.mp hq
  exact lt_of_enabled ((h x hx).resolve_left (by simp [hnull])).2

/-! ### The pins of a list -/

theorem onPort_iff {x : Pin} {q : Nat} : onPort x q = true ↔ x.isNull = false ∧ x.port.toNat = q := by
  simp [onPort]

theorem pin_eq_of_onPort {x y : Pin} (hport : onPort y x.port.toNat = true) (hpos : y.pos.val = x.pos.val) : y = x := by
  obtain ⟨-, hport⟩ := onPort_iff.mp hport
  cases x
  cases y
  simp_all [BitVec.toNat_inj, Fin.val_inj]

theorem pairwise_of_noRepeats {xs : List Pin} (h : Pin.noRepeats xs = true) :
    xs.Pairwise fun x y => x.isNull = false → x ≠ y := by
  induction xs with
  | nil => exact .nil
  | cons x xs ih =>
    simp only [Pin.noRepeats, Bool.and_eq_true] at h
    obtain ⟨hhead, htail⟩ := h
    refine .cons (fun y hy hnull he => ?_) (ih htail)
    subst he
    simp [hnull, hy] at hhead

/-- A real pin stands at one place of a list without repeats (R32). -/
theorem index_unique_of_noRepeats {xs : List Pin} (h : Pin.noRepeats xs = true) {x : Pin} (hnull : x.isNull = false)
    {i k : Nat} (hi : xs[i]? = some x) (hk : xs[k]? = some x) : i = k := by
  obtain ⟨hilt, hix⟩ := List.getElem?_eq_some_iff.mp hi
  obtain ⟨hklt, hkx⟩ := List.getElem?_eq_some_iff.mp hk
  have hpairs := List.pairwise_iff_getElem.mp (pairwise_of_noRepeats h)
  rcases Nat.lt_trichotomy i k with hlt | heq | hgt
  · exact absurd (hix.trans hkx.symm) (hpairs i k hilt hklt hlt (hix ▸ hnull))
  · exact heq
  · exact absurd (hkx.trans hix.symm) (hpairs k i hklt hilt hgt (hkx ▸ hnull))

/-- Of a list without repeats only place i tells something about the pin that stands there (R160). -/
theorem exists_index_iff {xs : List Pin} (h : Pin.noRepeats xs = true) {x : Pin} (hnull : x.isNull = false) {i : Nat}
    (hi : xs[i]? = some x) (P : Nat → Prop) :
    (∃ k y, xs[k]? = some y ∧ onPort y x.port.toNat = true ∧ P (0 + k) ∧ y.pos.val = x.pos.val) ↔ P i := by
  simp only [Nat.zero_add]
  constructor
  · rintro ⟨k, y, hk, hport, hP, hpos⟩
    obtain rfl := pin_eq_of_onPort hport hpos
    rwa [index_unique_of_noRepeats h hnull hi hk]
  · exact fun hP => ⟨i, x, hi, onPort_iff.mpr ⟨hnull, rfl⟩, hP, rfl⟩

/-- The masks of a list write hold bits of the list's pins only (R160). -/
theorem names_of_masks {xs : List Pin} {v : Half} {q b : Nat}
    (h : (clrMask q v 0 xs).getLsbD b = true ∨ (setMask q v 0 xs).getLsbD b = true) : Names xs q b := by
  rw [getLsbD_clrMask, getLsbD_setMask] at h
  obtain ⟨k, x, hk, hport, -, hpos⟩ | ⟨k, x, hk, hport, -, hpos⟩ := h
  all_goals
    obtain ⟨hnull, hport⟩ := onPort_iff.mp hport
    exact ⟨x, List.mem_of_getElem? hk, hnull, hport, hpos⟩

/-! ### List writes -/

/-- `ODR` of port q after its write of a list write (R161). -/
def listOdr (ov : CasOverlap) (xs : List Pin) (v : Half) (q : Nat) (odr : Reg 16) : Reg 16 :=
  odrAfterBsr ov odr (clrMask q v 0 xs) (setMask q v 0 xs)

/-- The pin at place i gets bit i of the value, whatever `CAS_OVERLAP` says (R160, R161). -/
theorem regBit_listOdr_pin (ov : CasOverlap) {xs : List Pin} (h : Pin.noRepeats xs = true) (v : Half) (odr : Reg 16)
    {x : Pin} (hnull : x.isNull = false) {i : Nat} (hi : xs[i]? = some x) :
    regBit (listOdr ov xs v x.port.toNat odr) x.pos.val = some (v.getLsbD i) := by
  have hset : (setMask x.port.toNat v 0 xs).getLsbD x.pos.val = v.getLsbD i := Bool.eq_iff_iff.mpr
    ((getLsbD_setMask ..).trans (exists_index_iff h hnull hi fun k => v.getLsbD k = true))
  have hclr : (clrMask x.port.toNat v 0 xs).getLsbD x.pos.val = !v.getLsbD i := Bool.eq_iff_iff.mpr
    (((getLsbD_clrMask ..).trans (exists_index_iff h hnull hi fun k => v.getLsbD k = false)).trans
      (by simp))
  rw [listOdr, regBit_odrAfterBsr _ _ _ _ x.pos.isLt, hset, hclr]
  cases v.getLsbD i <;> simp

/-- A pin the list does not name keeps its bit, a value or none (R161). -/
theorem regBit_listOdr_other (ov : CasOverlap) {xs : List Pin} (v : Half) {q : Nat} (odr : Reg 16) {b : Nat}
    (hb : b < 16) (hnot : ¬Names xs q b) : regBit (listOdr ov xs v q odr) b = regBit odr b := by
  rw [listOdr, regBit_odrAfterBsr _ _ _ _ hb, if_neg fun h => hnot (names_of_masks (Bool.or_eq_true_iff.mp h))]

/-- From s to t the ports `qs` were written, each with its masks of the list and the value, and besides them only the
receivers and `PIN_TRACE` differ. -/
structure PortsWritten (xs : List Pin) (v : Half) (qs : List Nat) (s t : State) : Prop where
  port : ∀ q, t.port q =
    if q ∈ qs then { s.port q with odr := listOdr s.config.casOverlap xs v q (s.port q).odr } else s.port q
  trace : t.pinTrace = s.pinTrace ++ qs.map fun q => .bsrW q (setMask q v 0 xs) (clrMask q v 0 xs)
  frame : t = { s with ports := t.ports, shiftRx := t.shiftRx, pinTrace := t.pinTrace }

/-- A first write, then the others: no port is written twice. -/
theorem PortsWritten.cons {xs : List Pin} {v : Half} {q : Nat} {qs : List Nat} {s t : State} (hnot : q ∉ qs)
    (hlt : q < s.ports.length)
    (h : PortsWritten xs v qs (s.bsrWrite q (clrMask q v 0 xs) (setMask q v 0 xs)) t) :
    PortsWritten xs v (q :: qs) s t := by
  refine ⟨fun p => ?_, h.trace.trans (List.append_assoc _ [_] _), h.frame⟩
  rw [h.port p]
  by_cases hp : p = q
  · subst hp
    rw [if_neg hnot, if_pos (List.mem_cons_self ..), bsrWrite_port_same _ _ hlt]
    rfl
  · simp only [List.mem_cons, hp, false_or, bsrWrite_port_other _ _ (Ne.symm hp)]
    rfl

/-- The write actions of some ports of a list write just those ports (R161). -/
theorem portsWritten_runActs {l : Nat} {xs : List Pin} {src : Src} {qs : List Nat} {s : State}
    (hl : listPins s.config l = xs) (hnodup : qs.Nodup) (hlt : ∀ q ∈ qs, q < s.ports.length) :
    PortsWritten xs (srcValue s.ctx.locals src) qs s (runActs (qs.map fun q => .bsrList q l src) s) := by
  subst hl
  induction qs generalizing s with
  | nil => exact ⟨fun _ => rfl, (List.append_nil _).symm, rfl⟩
  | cons q qs ih =>
    obtain ⟨hnot, hnodup⟩ := List.nodup_cons.mp hnodup
    obtain ⟨hq, hqs⟩ := List.forall_mem_cons.mp hlt
    have hlen := (bsrWrite_grows s q (clrMask q (srcValue s.ctx.locals src) 0 (listPins s.config l))
      (setMask q (srcValue s.ctx.locals src) 0 (listPins s.config l))).portsLen
    exact .cons hnot hq (ih hnodup (hlen ▸ hqs))

/-- Once all its ports are written, a list without repeats shows the value (R161). -/
theorem PortsWritten.listDriven {xs : List Pin} {v : Half} {s t : State} (h : PortsWritten xs v (portsOf xs) s t)
    (hxs : Pin.noRepeats xs = true) : ListDriven s t xs v := by
  refine ⟨fun i x hi hnull => ?_, ⟨fun q b hb hnot => ?_, fun q => ?_⟩, h.trace⟩
  · rw [h.port, if_pos (mem_portsOf.mpr ⟨x, List.mem_of_getElem? hi, hnull, rfl⟩)]
    exact regBit_listOdr_pin _ hxs v _ hnull hi
  · rw [h.port]
    split
    · exact regBit_listOdr_other _ v _ hb hnot
    · rfl
  · rw [h.port]
    split <;> rfl

/-- Settles O36: the checks by name, else one write for each port, whose masks give each pin its bit. -/
theorem listWriteDrivesItsPins : Obligations.ListWriteDrivesItsPins := by
  intro l value s
  refine ⟨listRefusals_of_checks rfl, fun xs hl hxs hpins => ?_⟩
  have hwritten := portsWritten_runActs (s := s.beginOp) (src := .imm value) (listPins_of_get hl) (portsOf_nodup xs)
    (lt_of_mem_portsOf hpins)
  have hexec : exec (.lwr l value) s =
      .next (runAct .retire (runActs ((portsOf xs).map fun q => .bsrList q l.toNat (.imm value)) s.beginOp)) := by
    refine (perform_next (listAccessChecks_holds_of_get hl hpins)).trans ?_
    simp only [planLwr, listWriteActs, listPins_of_get hl, runActs_append, runActs_cons, runActs_nil]
  have hretired := congrArg (runAct .retire) hwritten.frame
  refine ⟨_, hexec, hwritten.listDriven hxs, congrArg State.ctx hretired, ?_⟩
  rw [hretired]
  rfl

/-! ### List reads -/

/-- From s to t the ports `qs` were sampled, port q's sample being `smp q`: each a sample of its port that shows the
answer of its own turn, all of them kept and traced (R23, R46). -/
structure PortsSampled (smp : Nat → Half) (qs : List Nat) (s t : State) : Prop where
  isSample : ∀ q ∈ qs, IsSample s q (smp q)
  showsPads : ∀ (k q : Nat) (a : Half), qs[k]? = some q → s.pads[k]? = some a → ShowsPads s q (smp q) a
  samples : t.ctx.locals.samples = s.ctx.locals.samples ++ qs.map fun q => (q, smp q)
  pads : t.pads = s.pads.drop qs.length
  trace : t.pinTrace = s.pinTrace ++ qs.map fun q => .idrR q (smp q)
  onlyRead : OnlyRead s t

/-- A first sample, then the others. -/
theorem PortsSampled.cons {smp : Nat → Half} {q : Nat} {qs : List Nat} {s t : State} (hq : smp q = s.sampleValue q)
    (h : PortsSampled smp qs (s.samplePort q) t) : PortsSampled smp (q :: qs) s t where
  isSample := List.forall_mem_cons.mpr ⟨hq ▸ isSample_sampleValue s q, h.isSample⟩
  showsPads k p a hk ha := by
    cases k with
    | zero =>
      obtain rfl : q = p := Option.some.inj hk
      rw [hq]
      exact showsPads_sampleValue q (List.head?_eq_getElem? ▸ ha)
    | succ k => exact h.showsPads k p a hk (List.getElem?_tail ▸ ha)
  samples := by
    rw [h.samples, List.map_cons, hq]
    exact List.append_assoc _ [_] _
  pads := h.pads.trans (by simp [State.samplePort])
  trace := by
    rw [h.trace, List.map_cons, hq]
    exact List.append_assoc _ [_] _
  onlyRead := (onlyRead_samplePort s q).trans h.onlyRead

/-- Another name for the samples of the same ports. -/
theorem PortsSampled.congr {smp smp' : Nat → Half} {qs : List Nat} {s t : State} (h : PortsSampled smp qs s t)
    (heq : ∀ q ∈ qs, smp' q = smp q) : PortsSampled smp' qs s t where
  isSample q hq := heq q hq ▸ h.isSample q hq
  showsPads k q a hk := heq q (List.mem_of_getElem? hk) ▸ h.showsPads k q a hk
  samples := h.samples.trans (by simp +contextual [heq])
  pads := h.pads
  trace := h.trace.trans (by simp +contextual [heq])
  onlyRead := h.onlyRead

/-- The sample actions of some ports, each once, sample just those ports (R162). -/
theorem portsSampled_runActs {qs : List Nat} (hnodup : qs.Nodup) (s : State) :
    ∃ smp, PortsSampled smp qs s (runActs (qs.map .sample) s) := by
  induction qs generalizing s with
  | nil => exact ⟨fun _ => 0, by simp, by simp, by simp, rfl, by simp, rfl, rfl⟩
  | cons q qs ih =>
    obtain ⟨hnot, hnodup⟩ := List.nodup_cons.mp hnodup
    obtain ⟨smp, h⟩ := ih hnodup (s.samplePort q)
    refine ⟨Function.update smp q (s.sampleValue q), .cons (Function.update_self ..) (h.congr fun p hp => ?_)⟩
    exact Function.update_of_ne (ne_of_mem_of_not_mem hp hnot) ..

theorem sampleOf_map {smp : Nat → Half} {q : Nat} {qs : List Nat} (hq : q ∈ qs) :
    sampleOf q (qs.map fun p => (p, smp p)) = smp q := by
  induction qs with
  | nil => cases hq
  | cons p qs ih =>
    simp only [List.map_cons, sampleOf]
    by_cases hp : p = q
    · simp [hp]
    · simpa [hp] using ih ((List.mem_cons.mp hq).resolve_left (Ne.symm hp))

theorem getLsbD_setWidth_of_le {w n : Nat} (v : BitVec w) (h : w ≤ n) (i : Nat) :
    (v.setWidth n).getLsbD i = v.getLsbD i := by
  rw [← BitVec.testBit_toNat, BitVec.toNat_setWidth_of_le h, BitVec.testBit_toNat]

/-- The packed samples of all ports of a list are its pins' samples, low to high (R162). -/
theorem getLsbD_packSamples_ports {xs : List Pin} (hlen : xs.length ≤ 16) (smp : Nat → Half) (i : Nat) :
    (packSamples ((portsOf xs).map fun q => (q, smp q)) 0 xs).getLsbD i =
      xs[i]?.any fun x => !x.isNull && (smp x.port.toNat).getLsbD x.pos.val := by
  rw [getLsbD_packSamples _ _ _ (by omega), Nat.sub_zero, decide_eq_true (Nat.zero_le i), Bool.true_and]
  cases hi : xs[i]? with
  | none => rfl
  | some x =>
    simp only [Option.any_some]
    cases hnull : x.isNull with
    | true => rfl
    | false => rw [sampleOf_map (mem_portsOf.mpr ⟨x, List.mem_of_getElem? hi, hnull, rfl⟩)]

/-- The body of a list read samples the list, its result being the word that goes to `RES` (R162). -/
theorem listSampled_runActs {l : Nat} {xs : List Pin} {s : State} (hl : listPins s.config l = xs)
    (hlen : xs.length ≤ 16) (hempty : s.ctx.locals.samples = []) :
    ∃ m smp, runActs (listReadActs s.config l) s = m ∧ ListSampled s m xs smp m.ctx.locals.t ∧ OnlyRead s m := by
  obtain ⟨smp, h⟩ := portsSampled_runActs (portsOf_nodup xs) s
  refine ⟨runAct (.packList l) (runActs ((portsOf xs).map .sample) s), smp, ?_,
    ⟨h.isSample, h.showsPads, h.pads, h.trace, fun i => ?_⟩, h.onlyRead.trans ⟨rfl, rfl⟩⟩
  · rw [listReadActs, hl, runActs_append]
    rfl
  · show ((packSamples _ 0 (listPins _ l)).setWidth 64).getLsbD i = _
    rw [runActs_config, hl, h.samples, hempty, List.nil_append, getLsbD_setWidth_of_le _ (by decide),
      getLsbD_packSamples_ports hlen]
    cases xs[i]? <;> rfl

/-- Settles O37: the checks by name, else one sample for each port, packed pin by pin. -/
theorem listReadPacksItsPins : Obligations.ListReadPacksItsPins := by
  intro l s
  refine ⟨listRefusals_of_checks rfl, fun xs hl hlen hpins => ?_⟩
  obtain ⟨m, smp, hacts, hsampled, honly⟩ :=
    listSampled_runActs (s := s.beginOp) (listPins_of_get hl) hlen rfl
  have hexec : exec (.lrd l) s = .next (runAct .retire (m.setRes m.ctx.locals.t)) := by
    refine (perform_next (listAccessChecks_holds_of_get hl hpins)).trans ?_
    rw [← hacts]
    simp only [planLrd, runActs_append, runActs_cons, runActs_nil]
    rfl
  exact ⟨_, smp, hexec, hsampled, onlyRes_setRes _ ((onlyRead_beginOp s).trans honly)⟩

end Sys2Proof.Machine
end

section
/-! No operation reads an external receiver (spec 10 R35 and R38, 43 R202, 60 R296): with the receivers blanked every
action does the same, so an operation is refused alike, or its next state is the same but for them. -/

namespace Sys2Proof.Machine

/-- The state with every external receiver blanked: the shift registers, the display RAM and its pointers. -/
def State.sansReceivers (s : State) : State :=
  { s with shiftRx := [], gram := [], pp := Reg.noValue, cptr := Reg.noValue }

/-- States that agree with the receivers blanked differ in nothing but the receivers. -/
theorem eq_of_sansReceivers {s t : State} (h : s.sansReceivers = t.sansReceivers) :
    s = { t with shiftRx := s.shiftRx, gram := s.gram, pp := s.pp, cptr := s.cptr } := by
  cases s
  cases t
  simp_all [State.sansReceivers]

theorem sansReceivers_rxData (s : State) (b : Byte) : (s.rxData b).sansReceivers = s.sansReceivers := by
  unfold State.rxData
  split <;> rfl

/-- What an action does outside the receivers does not depend on them. -/
theorem sansReceivers_runAct (a : Act) (s : State) :
    (runAct a s.sansReceivers).sansReceivers = (runAct a s).sansReceivers := by
  have hctx : s.sansReceivers.ctx = s.ctx := rfl
  cases a
  case bsrBit x i src =>
    simp only [runAct, State.pinWrite, hctx]
    split <;> rfl
  case emit =>
    simp only [runAct, State.emitEvent, hctx]
    split <;> rfl
  case dispCmd c byte => cases c <;> rfl
  case dispData src =>
    have hbyte := fun t => congrArg (State.traceDisp · (.data ((srcValue s.ctx.locals src).setWidth 8)))
      (sansReceivers_rxData t ((srcValue s.ctx.locals src).setWidth 8))
    exact (hbyte s.sansReceivers).trans (hbyte s).symm
  all_goals rfl

theorem sansReceivers_runActs (as : List Act) (s : State) :
    (runActs as s.sansReceivers).sansReceivers = (runActs as s).sansReceivers := by
  induction as generalizing s with
  | nil => rfl
  | cons a as ih => rw [runActs_cons, runActs_cons, ← ih (runAct a s), ← sansReceivers_runAct a s, ih]

/-- An operation's checks and actions are settled without the receivers. -/
theorem planOf_sansReceivers (i : Instr) (s : State) : planOf i s.sansReceivers = planOf i s := by
  cases i <;> rfl

/-- Settles O18: the plan is the same, so are the checks, and its actions differ in nothing but the receivers. -/
theorem receiversAreNeverReadBack : Obligations.ReceiversAreNeverReadBack := by
  intro i s rx gram pp cptr
  generalize hu : { s with shiftRx := rx, gram := gram, pp := pp, cptr := cptr } = u
  have hblank : u.sansReceivers = s.sansReceivers := hu ▸ rfl
  have hplan : planOf i u = planOf i s := by
    rw [← planOf_sansReceivers, hblank, planOf_sansReceivers]
  refine ⟨fun r hr => ?_, fun t ht => ?_⟩
  · rw [exec_eq_perform, perform_eq_refused] at hr ⊢
    rwa [hplan]
  · obtain ⟨hchecks, rfl⟩ := exec_eq_next.mp ht
    refine ⟨_, _, _, _, exec_eq_next.mpr ⟨hplan ▸ hchecks, Eq.symm (eq_of_sansReceivers ?_)⟩⟩
    rw [hplan, ← sansReceivers_runActs _ u.beginOp, ← sansReceivers_runActs _ s.beginOp]
    exact congrArg (fun v => (runActs _ v.beginOp).sansReceivers) hblank

end Sys2Proof.Machine
end

section
/-! Driving lines (spec 40 R140, 41 R161 and R166, 42 R182 and R185, 43 R205): which pins a list of actions drives and
what `PIN_TRACE` and `BUS_TRACE` gain, from one set/clear write to the pin-level body of a display byte. -/

namespace Sys2Proof.Machine

/-! ### States between which only lines were driven -/

theorem OdrOnlyAt.trans {s t u : State} {xs : List Pin} (h : OdrOnlyAt s t xs) (k : OdrOnlyAt t u xs) :
    OdrOnlyAt s u xs := fun q b hb hnot => (k q b hb hnot).trans (h q b hb hnot)

theorem OdrOnlyAt.mono {s t : State} {xs ys : List Pin} (h : OdrOnlyAt s t xs) (hxs : ∀ x ∈ xs, x ∈ ys) :
    OdrOnlyAt s t ys := fun q b hb hnot => h q b hb fun ⟨x, hx, hname⟩ => hnot ⟨x, hxs x hx, hname⟩

theorem DrivesOnly.odr {s t : State} {xs : List Pin} (h : DrivesOnly s t xs) : OdrOnlyAt s t xs := h.1

theorem DrivesOnly.cfgReg {s t : State} {xs : List Pin} (h : DrivesOnly s t xs) (q : Nat) (r : CfgReg) :
    cfgReg (t.port q) r = cfgReg (s.port q) r := by
  obtain ⟨-, hport⟩ := h
  rw [hport q]
  cases r <;> rfl

theorem DrivesOnly.en {s t : State} {xs : List Pin} (h : DrivesOnly s t xs) (q : Nat) :
    (t.port q).en = (s.port q).en := by
  obtain ⟨-, hport⟩ := h
  rw [hport q]

theorem DrivesOnly.refl (s : State) (xs : List Pin) : DrivesOnly s s xs := ⟨fun _ _ _ _ => rfl, fun _ => rfl⟩

theorem DrivesOnly.trans {s t u : State} {xs : List Pin} (h : DrivesOnly s t xs) (k : DrivesOnly t u xs) :
    DrivesOnly s u xs := by
  obtain ⟨hodr, hport⟩ := h
  obtain ⟨hodr', hport'⟩ := k
  exact ⟨hodr.trans hodr', fun q => (hport' q).trans (by rw [hport q])⟩

/-- States with the same ports differ in no pin. -/
theorem drivesOnly_of_ports {s t : State} (h : t.ports = s.ports) (xs : List Pin) : DrivesOnly s t xs := by
  have hport (q : Nat) : t.port q = s.port q := by rw [State.port, h, State.port]
  exact ⟨fun q b _ _ => by rw [hport], fun q => by rw [hport]⟩

/-- From s to t pins of `xs` alone were driven, with these items on `PIN_TRACE` and `BUS_TRACE`; besides them only the
receivers on the lines differ. -/
structure Drives (xs : List Pin) (pins : List PinItem) (writes : List BusItem) (s t : State) : Prop where
  only : DrivesOnly s t xs
  pin : t.pinTrace = s.pinTrace ++ pins
  bus : t.busTrace = s.busTrace ++ writes
  frame : t = { s with ports := t.ports, shiftRx := t.shiftRx, pinTrace := t.pinTrace, busTrace := t.busTrace }

theorem Drives.refl (xs : List Pin) (s : State) : Drives xs [] [] s s :=
  ⟨.refl s xs, (List.append_nil _).symm, (List.append_nil _).symm, rfl⟩

theorem Drives.trans {xs : List Pin} {ps qs : List PinItem} {vs ws : List BusItem} {s t u : State}
    (h : Drives xs ps vs s t) (k : Drives xs qs ws t u) : Drives xs (ps ++ qs) (vs ++ ws) s u where
  only := h.only.trans k.only
  pin := by rw [k.pin, h.pin, List.append_assoc]
  bus := by rw [k.bus, h.bus, List.append_assoc]
  frame := by
    have hframe := k.frame
    rw [h.frame] at hframe
    exact hframe

/-- Of a set/clear write whose masks hold bits of pins of `xs` alone, those pins may move (R123). -/
theorem drives_bsrWrite {xs : List Pin} {s : State} {p : Nat} {clr set : Half}
    (h : ∀ b, clr.getLsbD b = true ∨ set.getLsbD b = true → Names xs p b) :
    Drives xs [.bsrW p set clr] [] s (s.bsrWrite p clr set) := by
  refine ⟨⟨fun q b hb hnot => ?_, fun q => ?_⟩, rfl, (List.append_nil _).symm, rfl⟩
  · rw [port_set (s.bsrWrite p clr set) s.ports p q _ rfl]
    split
    · next hq =>
      obtain ⟨rfl, -⟩ := hq
      exact (regBit_odrAfterBsr _ _ _ _ hb).trans (if_neg fun hm => hnot (h b (Bool.or_eq_true_iff.mp hm)))
    · rfl
  · rw [port_set (s.bsrWrite p clr set) s.ports p q _ rfl]
    split
    · next hq =>
      obtain ⟨rfl, -⟩ := hq
      rfl
    · rfl

/-! ### Actions that drive lines -/

/-- In every state of configuration `c` where `src` stands for `v` the actions drive pins of `xs` alone, with these
items. -/
def ActsDrive (c : Config) (src : Src) (v : Half) (xs : List Pin) (as : List Act) (pins : List PinItem)
    (writes : List BusItem) : Prop :=
  ∀ s : State, s.config = c → srcValue s.ctx.locals src = v → Drives xs pins writes s (runActs as s)

section
variable {c : Config} {src : Src} {v : Half} {xs : List Pin}

theorem actsDrive_nil : ActsDrive c src v xs [] [] [] := fun s _ _ => .refl xs s

theorem ActsDrive.append {as bs : List Act} {ps qs : List PinItem} {vs ws : List BusItem}
    (h : ActsDrive c src v xs as ps vs) (k : ActsDrive c src v xs bs qs ws) :
    ActsDrive c src v xs (as ++ bs) (ps ++ qs) (vs ++ ws) := fun s hc hv => by
  have hfirst := h s hc hv
  have hctx : (runActs as s).ctx = s.ctx := by rw [hfirst.frame]
  rw [runActs_append]
  exact hfirst.trans (k _ (by rw [runActs_config, hc]) (by rw [hctx, hv]))

theorem actsDrive_hold (n : Nat) : ActsDrive c src v xs [.hold n] [.hold n] [] := fun _ _ _ =>
  ⟨drivesOnly_of_ports rfl xs, rfl, (List.append_nil _).symm, rfl⟩

theorem actsDrive_busWr (b : Nat) :
    ActsDrive c src v xs [.busWr b src] [] [.busWr b (v.setWidth 8)] := fun s _ hv =>
  ⟨drivesOnly_of_ports rfl xs, (List.append_nil _).symm, by rw [← hv]; rfl, rfl⟩

/-- The write of a pin to a level (R140). -/
def lineActs (x : Pin) (high : Bool) : List Act := if high then pinSet x else pinClear x

theorem assertCs_eq (c : Config) (x : Pin) : assertCs c x = lineActs x (!c.csActiveLow) := by
  unfold assertCs lineActs
  cases c.csActiveLow <;> rfl

theorem releaseCs_eq (c : Config) (x : Pin) : releaseCs c x = lineActs x c.csActiveLow := rfl

theorem runActs_lineActs {x : Pin} (high : Bool) (s : State) (h : x.isNull = false) :
    runActs (lineActs x high) s = s.pinWrite x high := by
  cases high <;> simp [lineActs, pinSet, pinClear, h, State.pinWrite, runAct]

theorem lineActs_null {x : Pin} (high : Bool) (h : x.isNull = true) : lineActs x high = [] := by
  cases high <;> simp [lineActs, pinSet, pinClear, h]

/-- A pin's write drives that pin (R140). -/
theorem drives_lineActs {x : Pin} (high : Bool) (hx : x ∈ xs) (s : State) :
    Drives xs (lineItems x high) [] s (runActs (lineActs x high) s) := by
  cases hnull : x.isNull
  · rw [runActs_lineActs high s hnull]
    have hmask : ∀ b, (pinMask x).getLsbD b = true → Names xs x.port.toNat b := fun b hb => by
      rw [getLsbD_pinMask, decide_eq_true_eq] at hb
      exact ⟨x, hx, hnull, rfl, hb.symm⟩
    cases high
    · simpa [lineItems, hnull, State.pinWrite] using
        drives_bsrWrite (s := s) (clr := pinMask x) (set := 0) (by simpa using hmask)
    · simpa [lineItems, hnull, State.pinWrite] using
        drives_bsrWrite (s := s) (clr := 0) (set := pinMask x) (by simpa using hmask)
  · simpa [lineItems, lineActs_null high hnull, hnull] using Drives.refl xs s

theorem actsDrive_lineActs {x : Pin} (high : Bool) (hx : x ∈ xs) :
    ActsDrive c src v xs (lineActs x high) (lineItems x high) [] := fun s _ _ => drives_lineActs high hx s

/-- The write of a pin to a bit of a value (R140). -/
theorem actsDrive_pinWriteBit {x : Pin} (i : Nat) (hx : x ∈ xs) :
    ActsDrive c src v xs (pinWriteBit x i src) (lineItems x (v.getLsbD i)) [] := fun s _ hv => by
  have hacts : runActs (pinWriteBit x i src) s = runActs (lineActs x (v.getLsbD i)) s := by
    cases hnull : x.isNull
    · rw [runActs_lineActs _ s hnull, ← hv]
      simp [pinWriteBit, hnull, runAct]
    · simp [pinWriteBit, lineActs_null _ hnull, hnull]
  rw [hacts]
  exact drives_lineActs _ hx s

/-! ### A bus write -/

/-- The write of some ports of a list, each once (R161). -/
theorem actsDrive_bsrList {l : Nat} (hl : ∀ x ∈ listPins c l, x ∈ xs) (qs : List Nat) :
    ActsDrive c src v xs (qs.map fun q => .bsrList q l src)
      (qs.map fun q => .bsrW q (setMask q v 0 (listPins c l)) (clrMask q v 0 (listPins c l))) [] := by
  induction qs with
  | nil => exact actsDrive_nil
  | cons q qs ih =>
    refine ActsDrive.append (as := [_]) (ps := [_]) (vs := []) (fun s hc hv => ?_) ih
    subst hc hv
    refine drives_bsrWrite fun b hb => ?_
    obtain ⟨x, hx, hname⟩ := names_of_masks hb
    exact ⟨x, hl x hx, hname⟩

theorem pulseItems_eq {w : ShiftCfg} (b : Bool) (hclk : w.clk.isNull = false) (hdat : w.dat.isNull = false) :
    pulseItems w b =
      lineItems w.clk false ++ lineItems w.dat b ++ [.hold w.delay] ++ lineItems w.clk true ++ [.hold w.delay] := by
  cases b <;> simp [pulseItems, lineItems, hclk, hdat]

/-- The pulses of a serial write (R185). -/
theorem actsDrive_serialBits {w : ShiftCfg} (hclk : w.clk.isNull = false) (hdat : w.dat.isNull = false)
    (hclkMem : w.clk ∈ xs) (hdatMem : w.dat ∈ xs) (n : Nat) :
    ActsDrive c src v xs (serialBits w src n) (pulsesItems w v n) [] := by
  induction n with
  | zero => exact actsDrive_nil
  | succ n ih =>
    rw [serialBits, pulsesItems, pulseItems_eq _ hclk hdat]
    exact (((((actsDrive_lineActs false hclkMem).append (actsDrive_pinWriteBit n hdatMem)).append
      (actsDrive_hold _)).append (actsDrive_lineActs true hclkMem)).append (actsDrive_hold _)).append ih

/-- A serial write: chip-select round the pulses (R185, R187). -/
theorem actsDrive_serialWrite {w : ShiftCfg} (hclk : w.clk.isNull = false) (hdat : w.dat.isNull = false)
    (hw : ∀ x ∈ [w.clk, w.dat, w.cs], x ∈ xs) :
    ActsDrive c src v xs (serialWrite c w src) (serialItems c.csActiveLow w v) [] := by
  simp only [List.forall_mem_cons] at hw
  obtain ⟨hclkMem, hdatMem, hcsMem, -⟩ := hw
  rw [serialWrite, assertCs_eq, releaseCs_eq]
  exact ((actsDrive_lineActs _ hcsMem).append (actsDrive_serialBits hclk hdat hclkMem hdatMem _)).append
    (actsDrive_lineActs _ hcsMem)

theorem busOk_shift_lines {c : Config} {w : ShiftCfg} (h : c.busOk (.shift w) = true) :
    w.clk.isNull = false ∧ w.dat.isNull = false := by
  simp only [Config.busOk, Bool.and_eq_true, Bool.not_eq_true'] at h
  tauto

theorem setWidth_byte (b : Byte) : (b.setWidth 16).setWidth 8 = b := by
  rw [BitVec.setWidth_setWidth_of_le _ (by decide), BitVec.setWidth_eq]

/-- The body of a bus write of a byte, whatever the kind of bus (R166). -/
theorem actsDrive_busWriteActs {b : Nat} {byte : Byte} (hc : c.wellFormed = true) (hxs : ∀ x ∈ busPins c b, x ∈ xs) :
    ActsDrive c src (byte.setWidth 16) xs (busWriteActs c b src) (busItems c b byte) [.busWr b byte] := by
  have hbusWr := actsDrive_busWr (c := c) (src := src) (v := byte.setWidth 16) (xs := xs) b
  rw [setWidth_byte] at hbusWr
  cases hb : c.buses[b]? with
  | none =>
    simp only [busWriteActs, busItems, hb]
    exact hbusWr
  | some bus =>
    cases bus with
    | direct l cfg =>
      simp only [busPins, hb] at hxs
      simp only [busWriteActs, busItems, hb]
      exact hbusWr.append (actsDrive_bsrList hxs _)
    | shift w =>
      obtain ⟨hclk, hdat⟩ := busOk_shift_lines (busOk_get hc hb)
      simp only [busPins, hb] at hxs
      simp only [busWriteActs, busItems, hb]
      exact hbusWr.append (actsDrive_serialWrite hclk hdat hxs)

/-! ### The pin-level body of a display byte -/

/-- The items of the strobe line, none with the null pin (R205, log 24). -/
def strobeItems (d : DispWiring) : List PinItem :=
  if d.stb.isNull then [] else lineItems d.stb false ++ [.hold d.stbDelay] ++ lineItems d.stb true

theorem strobeItems_strobe (d : DispWiring) : StrobeItems d (strobeItems d) := by
  unfold StrobeItems strobeItems
  split
  · exact .inl rfl
  · rfl

theorem actsDrive_strobeActs {d : DispWiring} (hstb : d.stb ∈ xs) :
    ActsDrive c src v xs (strobeActs d) (strobeItems d) [] := by
  unfold strobeActs strobeItems
  split
  · exact actsDrive_nil
  · exact ((actsDrive_lineActs false hstb).append (actsDrive_hold _)).append (actsDrive_lineActs true hstb)

/-- What `Present` does once `D_DC` is at the kind's level (R205). -/
def presentTail (c : Config) (src : Src) : List Act :=
  lineActs c.disp.cs (!c.csActiveLow) ++ busWriteActs c c.disp.bus src ++ strobeActs c.disp ++
    lineActs c.disp.cs c.csActiveLow

theorem presentBody_eq (c : Config) (data : Bool) (src : Src) :
    presentBody c data src = lineActs c.disp.dc data ++ presentTail c src := by
  simp only [presentBody, presentTail, assertCs_eq, releaseCs_eq, lineActs, List.append_assoc]

/-- Once `D_DC` is at its level, `Present` drives the other pins of a display write (R205). -/
theorem actsDrive_presentTail {byte : Byte} (hc : c.wellFormed = true)
    (hxs : ∀ x ∈ c.disp.cs :: c.disp.stb :: busPins c c.disp.bus, x ∈ xs) :
    ActsDrive c src (byte.setWidth 16) xs (presentTail c src)
      (lineItems c.disp.cs (!c.csActiveLow) ++ busItems c c.disp.bus byte ++ strobeItems c.disp ++
        lineItems c.disp.cs c.csActiveLow) [.busWr c.disp.bus byte] := by
  simp only [List.forall_mem_cons] at hxs
  obtain ⟨hcs, hstb, hbus⟩ := hxs
  exact (((actsDrive_lineActs _ hcs).append (actsDrive_busWriteActs hc hbus)).append
    (actsDrive_strobeActs hstb)).append (actsDrive_lineActs _ hcs)

/-- The pin-level body of a display byte (R205). -/
theorem actsDrive_presentBody {byte : Byte} (data : Bool) (hc : c.wellFormed = true)
    (hxs : ∀ x ∈ displayPins c, x ∈ xs) :
    ActsDrive c src (byte.setWidth 16) xs (presentBody c data src) (presentItems c (strobeItems c.disp) data byte)
      [.busWr c.disp.bus byte] := by
  obtain ⟨hdc, hrest⟩ := List.forall_mem_cons.mp hxs
  rw [presentBody_eq]
  simpa only [presentItems, List.append_assoc, List.nil_append] using
    (actsDrive_lineActs data hdc).append (actsDrive_presentTail hc hrest)

end

end Sys2Proof.Machine
end

section
/-! Issuing display bytes (spec 43 R204, R205, R213): what `DISP_TRACE`, `BUS_TRACE` and `PIN_TRACE` gain from one byte,
from the addressing commands and from a run of data bytes, and what a write transaction leaves. -/

namespace Sys2Proof.Machine

/-- From s to t the display unit issued these items, each with its pin-level body on pins of `xs` alone; besides them
only `DSTATE`, the receivers, local variables and the draws differ. -/
structure Issued (xs : List Pin) (items : List DispItem) (s t : State) : Prop where
  only : DrivesOnly s t xs
  disp : t.dispTrace = s.dispTrace ++ items
  bus : t.busTrace = s.busTrace ++ (items.filterMap itemByte).map (.busWr s.config.disp.bus)
  pin : t.pinTrace = s.pinTrace ++ items.flatMap (itemPins s.config (strobeItems s.config.disp))
  ctx : t.ctx = { s.ctx with locals := t.ctx.locals }
  frame : t = { s with ports := t.ports, shiftRx := t.shiftRx, dstate := t.dstate, gram := t.gram, pp := t.pp
                       cptr := t.cptr, pinTrace := t.pinTrace, busTrace := t.busTrace, dispTrace := t.dispTrace
                       ctx := t.ctx, draws := t.draws }

theorem Issued.config {xs : List Pin} {items : List DispItem} {s t : State} (h : Issued xs items s t) :
    t.config = s.config := (congrArg State.config h.frame :)

theorem Issued.trans {xs : List Pin} {is js : List DispItem} {s t u : State} (h : Issued xs is s t)
    (k : Issued xs js t u) : Issued xs (is ++ js) s u where
  only := h.only.trans k.only
  disp := by rw [k.disp, h.disp, List.append_assoc]
  bus := by rw [k.bus, h.bus, h.config, List.append_assoc, List.filterMap_append, List.map_append]
  pin := by rw [k.pin, h.pin, h.config, List.append_assoc, List.flatMap_append]
  ctx := by
    have hctx := k.ctx
    rw [h.ctx] at hctx
    exact hctx
  frame := by
    have hframe := k.frame
    rw [h.frame] at hframe
    exact hframe

/-- Bookkeeping in local variables, `DSTATE` and draws issues nothing. -/
theorem issued_nil {xs : List Pin} {s t : State} (hctx : t.ctx = { s.ctx with locals := t.ctx.locals })
    (h : t = { s with dstate := t.dstate, ctx := t.ctx, draws := t.draws }) : Issued xs [] s t where
  only := drivesOnly_of_ports (congrArg State.ports h :) xs
  disp := by rw [List.append_nil, h]
  bus := by rw [List.filterMap_nil, List.map_nil, List.append_nil, h]
  pin := by rw [List.flatMap_nil, List.append_nil, h]
  ctx := hctx
  frame := by rw [h]

theorem issued_dispGo (xs : List Pin) (d : DispStep) (s : State) : Issued xs [] s (runAct (.dispGo d) s) :=
  issued_nil rfl rfl

/-! ### One byte -/

/-- An item is traced and reaches the display's receiver, then the lines (R205, R206). -/
theorem issued_item {xs : List Pin} {item : DispItem} {s u t : State}
    (hu : u = { s with gram := u.gram, pp := u.pp, cptr := u.cptr, dispTrace := s.dispTrace ++ [item] })
    (h : Drives xs (itemPins s.config (strobeItems s.config.disp) item)
      (([item].filterMap itemByte).map (.busWr s.config.disp.bus)) u t) : Issued xs [item] s t := by
  obtain ⟨honly, hpin, hbus, hframe⟩ := h
  rw [hu] at honly hpin hbus hframe
  refine ⟨honly, ?_, hbus, ?_, ?_, ?_⟩
  · rw [hframe]
  · rw [List.flatMap_singleton, hpin]
  · rw [hframe]
  · rw [hframe]

theorem issued_cmdActs {xs : List Pin} {s : State} (x : RxCmd × Byte) (hc : s.config.wellFormed = true)
    (hxs : ∀ y ∈ displayPins s.config, y ∈ xs) : Issued xs [.cmd x.2] s (runActs (cmdActs s.config x) s) := by
  obtain ⟨cmd, byte⟩ := x
  have hconfig := runAct_config (.dispCmd cmd byte) s
  refine issued_item (u := runAct (.dispCmd cmd byte) s) ?_ (actsDrive_presentBody false hc hxs _ hconfig rfl)
  cases cmd <;> rfl

theorem issued_dataActs {xs : List Pin} {s : State} {src : Src} {byte : Byte}
    (hsrc : srcValue s.ctx.locals src = byte.setWidth 16) (hc : s.config.wellFormed = true)
    (hxs : ∀ y ∈ displayPins s.config, y ∈ xs) : Issued xs [.data byte] s (runActs (dataActs s.config src) s) := by
  have hu : ∃ gram pp cptr, runAct (.dispData src) s =
      { s with gram := gram, pp := pp, cptr := cptr, dispTrace := s.dispTrace ++ [.data byte] } := by
    simp only [runAct, hsrc, setWidth_byte, State.rxData]
    split <;> exact ⟨_, _, _, rfl⟩
  obtain ⟨gram, pp, cptr, hu⟩ := hu
  rw [dataActs, runActs_cons, hu]
  exact issued_item rfl (actsDrive_presentBody true hc hxs _ rfl hsrc)

/-! ### Several bytes -/

/-- In every state of configuration `c` the actions issue these items, on pins of `xs`. -/
def ActsIssue (c : Config) (xs : List Pin) (as : List Act) (items : List DispItem) : Prop :=
  ∀ s : State, s.config = c → Issued xs items s (runActs as s)

section
variable {c : Config} {xs : List Pin}

theorem actsIssue_nil : ActsIssue c xs [] [] := fun _ _ => issued_nil rfl rfl

theorem ActsIssue.append {as bs : List Act} {is js : List DispItem} (h : ActsIssue c xs as is)
    (k : ActsIssue c xs bs js) : ActsIssue c xs (as ++ bs) (is ++ js) := fun s hc => by
  rw [runActs_append]
  exact (h s hc).trans (k _ (by rw [runActs_config, hc]))

theorem ActsIssue.flatMap {α : Type} {f : α → List Act} {g : α → List DispItem} {l : List α}
    (h : ∀ a ∈ l, ActsIssue c xs (f a) (g a)) : ActsIssue c xs (l.flatMap f) (l.flatMap g) := by
  induction l with
  | nil => exact actsIssue_nil
  | cons a l ih =>
    obtain ⟨ha, hl⟩ := List.forall_mem_cons.mp h
    exact ha.append (ih hl)

variable (hc : c.wellFormed = true) (hxs : ∀ x ∈ displayPins c, x ∈ xs)
include hc hxs

theorem actsIssue_cmdActs (x : RxCmd × Byte) : ActsIssue c xs (cmdActs c x) [.cmd x.2] := fun s hs => by
  subst hs
  exact issued_cmdActs x hc hxs

theorem actsIssue_fillActs (n : Nat) (byte : Byte) :
    ActsIssue c xs (fillActs c n byte) (List.replicate n (.data byte)) := by
  induction n with
  | zero => exact actsIssue_nil
  | succ n ih =>
    refine ActsIssue.append (is := [.data byte]) (fun s hs => ?_) ih
    subst hs
    exact issued_dataActs rfl hc hxs

omit hc hxs in
theorem map_setAddrCmds {pg col : Nat} (hpg : pg < 16) (hcol : col < 256) :
    (setAddrCmds c pg col).map (fun x => DispItem.cmd x.2) = addressItems c pg col := by
  have hnibble (n : Nat) : (BitVec.ofNat 4 n).setWidth 8 = BitVec.ofNat 8 (n % 16) :=
    BitVec.eq_of_toNat_eq (by simp)
  simp only [setAddrCmds, addressItems, List.map_cons, List.map_nil, hnibble, Nat.mod_eq_of_lt hpg]
  rw [Nat.mod_eq_of_lt (by omega : col / 16 < 16)]

/-- `SetAddr` issues the three addressing commands (R204, R213). -/
theorem actsIssue_setAddrActs {pg col : Nat} (hpg : pg < 16) (hcol : col < 256) :
    ActsIssue c xs (setAddrActs c pg col) (addressItems c pg col) := by
  rw [← map_setAddrCmds hpg hcol, List.map_eq_flatMap]
  exact ActsIssue.flatMap fun x _ => actsIssue_cmdActs hc hxs x

end

/-- A stream issues, one by one, what the pixel buffer's bytes read as (R215). -/
theorem issued_streamActs {c : Config} {xs : List Pin} {s : State} (hc : c.wellFormed = true)
    (hxs : ∀ x ∈ displayPins c, x ∈ xs) (a n : Nat) (hs : s.config = c) :
    ∃ ds : List Byte, ds.length = n ∧ (∀ j byte, j < n → s.buf.get? (a + j) = some byte → ds[j]? = some byte) ∧
      Issued xs (ds.map .data) s (runActs (streamActs c a n) s) := by
  subst hs
  induction n with
  | zero => exact ⟨[], rfl, fun _ _ hj => absurd hj (Nat.not_lt_zero _), issued_nil rfl rfl⟩
  | succ n ih =>
    obtain ⟨ds, hlen, hds, hissued⟩ := ih
    rw [streamActs_succ, runActs_append]
    generalize runActs (streamActs s.config a n) s = u at hissued ⊢
    have hconfig : u.config = s.config := hissued.config
    have hbuf : u.buf = s.buf := (congrArg State.buf hissued.frame :)
    have hread : Issued xs [] u (u.bufRead (a + n)) := issued_nil rfl rfl
    have hdata : Issued xs [.data (u.bufValue (a + n))] (u.bufRead (a + n))
        (runActs (dataActs s.config .loaded) (u.bufRead (a + n))) := by
      rw [← hconfig] at hc hxs ⊢
      exact issued_dataActs (s := u.bufRead (a + n)) rfl hc hxs
    refine ⟨ds ++ [u.bufValue (a + n)], by simp [hlen], fun j byte hj hbyte => ?_, ?_⟩
    · rcases Nat.lt_succ_iff_lt_or_eq.mp hj with hj | rfl
      · rw [List.getElem?_append_left (by omega)]
        exact hds j byte hj hbyte
      · rw [← hlen, List.getElem?_concat_length, hlen, bufValue_eq (by rwa [hbuf])]
    · rw [List.map_append]
      exact hissued.trans (hread.trans hdata)

/-- Addressing and then streaming issues the three commands, then the bytes (R213, R215). -/
theorem issued_setAddr_stream {c : Config} {xs : List Pin} {s : State} {pg col : Nat} (hc : c.wellFormed = true)
    (hxs : ∀ x ∈ displayPins c, x ∈ xs) (hpg : pg < 16) (hcol : col < 256) (a n : Nat) (hs : s.config = c) :
    ∃ ds : List Byte, ds.length = n ∧ (∀ j byte, j < n → s.buf.get? (a + j) = some byte → ds[j]? = some byte) ∧
      Issued xs (addressItems c pg col ++ ds.map .data) s
        (runActs (setAddrActs c pg col ++ streamActs c a n) s) := by
  have haddr := actsIssue_setAddrActs hc hxs hpg hcol s hs
  have hhost := runActs_sameHost s (setAddrActs c pg col)
  obtain ⟨ds, hlen, hds, hstream⟩ := issued_streamActs hc hxs a n (hhost.config.trans hs)
  rw [runActs_append]
  exact ⟨ds, hlen, hhost.buf ▸ hds, haddr.trans hstream⟩

/-! ### A write transaction -/

/-- Where a display write starts: `DSTATE` is `Writing`, no local variable holds anything (R201). -/
def State.beginWrite (s : State) : State := runAct (.dispGo .toWriting) s.beginOp

/-- A display write whose checks hold issues the items of its transaction; `DSTATE` is `Ready` again (R201, R213). -/
theorem exec_writing {i : Instr} {s : State} {acts : List Act} {items : List DispItem}
    (hchecks : ∀ c ∈ (planOf i s).checks, c.holds = true) (hacts : (planOf i s).acts = writing acts)
    (h : Issued (displayPins s.config) items s.beginWrite (runActs acts s.beginWrite)) :
    ∃ t, exec i s = .next t ∧ DisplayFrame s t ∧ Issues s t [] items ∧
      t.gram = (runActs acts s.beginWrite).gram := by
  have hexec := exec_eq_next.mpr ⟨hchecks, rfl⟩
  rw [hacts, runActs_writing] at hexec
  obtain ⟨honly, hdisp, hbus, hpin, hctx, hframe⟩ := h
  change exec i s = .next (runActs _ (runActs acts s.beginWrite)) at hexec
  generalize runActs acts s.beginWrite = u at hexec honly hdisp hbus hpin hctx hframe ⊢
  refine ⟨_, hexec, ⟨honly, rfl, ?_, ?_⟩, ⟨hdisp, hbus, _, strobeItems_strobe _, ?_⟩, rfl⟩
  · show { u.ctx with cp := u.ctx.cp + 1, locals := Locals.empty } = _
    rw [hctx]
    rfl
  · rw [hframe]
    rfl
  · rw [List.append_nil]
    exact hpin

/-- The checks of a display write (R215): the display is ready, the operation's own hold, the display can be used. -/
theorem displayWrite_checks {s : State} {cs : List Check} (hready : s.dstate = .ready) (hdisplay : DisplayUsable s)
    (h : ∀ c ∈ cs, c.holds = true) : ∀ c ∈ dispReadyCheck s :: (cs ++ presentChecks s), c.holds = true := by
  simp only [List.forall_mem_cons, List.forall_mem_append]
  exact ⟨by simp [dispReadyCheck, hready], h, presentChecks_holds hdisplay⟩

/-! ### `DPUTP` -/

theorem planDputp_checks_hold {x1 x2 : Half} {page : Byte} {buf : Half} {s : State} (hready : s.dstate = .ready)
    (hdisplay : DisplayUsable s) (hx : x1.toNat ≤ clipX2 s.config x2.toNat)
    (hbuf : buf.toNat + (clipX2 s.config x2.toNat - x1.toNat) ≤ s.config.bufSize) :
    ∀ c ∈ (planDputp x1 x2 page buf s).checks, c.holds = true :=
  displayWrite_checks hready hdisplay
    (cs := [⟨decide (x1.toNat ≤ clipX2 s.config x2.toNat), _⟩, ⟨decide (_ ≤ s.config.bufSize), _⟩])
    (by simpa using ⟨hx, hbuf⟩)

/-- Settles O48: the three checks in their order, else one transaction that addresses and streams. -/
theorem putPageClipsAndStreams : Obligations.PutPageClipsAndStreams := by
  rintro x1 x2 page buf s x2c pg n rfl rfl rfl
  have hready : s.dstate = .ready → (dispReadyCheck s).holds = true := fun h => by simp [dispReadyCheck, h]
  refine ⟨fun h => exec_refused_first rfl (beq_eq_false_iff_ne.mpr h),
    fun h hx => exec_refused_second rfl (hready h) (decide_eq_false hx.not_ge), fun h hx hbuf => ?_,
    fun hs hdisplay h hx hbuf => ?_⟩
  · rw [exec_eq_perform, perform_eq_refused]
    simp [planOf, planDputp, clipX2, firstRefusal, hready h, Nat.not_le.mpr hbuf, le_min_iff.mp hx]
  · obtain ⟨hpages, hpages16, hram, hvisible⟩ := profile_bounds (profile_ok hs.config)
    obtain ⟨ds, hlen, hds, hissued⟩ := issued_setAddr_stream (s := s.beginWrite) hs.config (fun _ hx => hx)
      (pg := clampPage s.config page.toNat) (col := physColumn s.config x1.toNat) (by rw [clampPage]; omega)
      (by rw [physColumn]; omega) buf.toNat (clipX2 s.config x2.toNat - x1.toNat) rfl
    obtain ⟨t, hexec, hframe, hissues, -⟩ := exec_writing (i := .dputp x1 x2 page buf)
      (planDputp_checks_hold h hdisplay hx hbuf) rfl hissued
    exact ⟨t, ds, hexec, hlen, hds, hissues, hframe⟩

end Sys2Proof.Machine
end

section
/-! Display writes of one byte value (spec 43 R216 to R218): what fills one row, and page by page the whole display RAM,
do to its cells (spec 10 R38). -/

namespace Sys2Proof.Machine

/-! ### Cells -/

/-- The cells of `P` hold the byte; no other cell differs. -/
structure Filled (before after : Memory) (byte : Byte) (P : Nat → Prop) : Prop where
  written : ∀ a, P a → after.get? a = some byte
  kept : ∀ a, ¬P a → after.get? a = before.get? a

theorem Filled.none (m : Memory) (byte : Byte) {P : Nat → Prop} (h : ∀ a, ¬P a) : Filled m m byte P :=
  ⟨fun a ha => absurd ha (h a), fun _ _ => rfl⟩

theorem filled_put (m : Memory) (a : Nat) (byte : Byte) : Filled m (m.put a byte) byte (· = a) :=
  ⟨fun _ ha => ha ▸ Memory.get?_put_same m a byte, fun _ ha => Memory.get?_put_other ha⟩

/-- Filling some cells and then others fills both. -/
theorem Filled.trans {before middle after : Memory} {byte : Byte} {P Q R : Nat → Prop}
    (h : Filled before middle byte P) (k : Filled middle after byte Q) (hR : ∀ a, R a ↔ P a ∨ Q a) :
    Filled before after byte R := by
  refine ⟨fun a ha => ?_, fun a ha => ?_⟩
  · by_cases hQ : Q a
    · exact k.written a hQ
    · rw [k.kept a hQ]
      exact h.written a (((hR a).mp ha).resolve_right hQ)
  · rw [hR, not_or] at ha
    rw [k.kept a ha.2, h.kept a ha.1]

/-- What a cell holds, with the filled ones told by any condition that says the same. -/
theorem Filled.get?_eq {before after : Memory} {byte : Byte} {P : Nat → Prop} (h : Filled before after byte P)
    {a : Nat} {q : Prop} [Decidable q] (hq : q ↔ P a) :
    after.get? a = if q then some byte else before.get? a := by
  split
  · next ha => exact h.written a (hq.mp ha)
  · next ha => exact h.kept a fun hP => ha (hq.mpr hP)

/-- A transaction that fills cells goes on with what it issues, its frame and those cells. -/
theorem exec_filling {i : Instr} {s : State} {acts : List Act} {items : List DispItem} {byte : Byte} {P : Nat → Prop}
    (hchecks : ∀ c ∈ (planOf i s).checks, c.holds = true) (hacts : (planOf i s).acts = writing acts)
    (hissue : ActsIssue s.config (displayPins s.config) acts items)
    (hfill : Filled s.beginWrite.gram (runActs acts s.beginWrite).gram byte P) :
    ∃ t, exec i s = .next t ∧ DisplayFrame s t ∧ Issues s t [] items ∧ Filled s.gram t.gram byte P := by
  obtain ⟨t, hexec, hframe, hissues, hgram⟩ := exec_writing hchecks hacts (hissue s.beginWrite rfl)
  rw [← hgram] at hfill
  exact ⟨t, hexec, hframe, hissues, hfill⟩

/-! ### One row -/

/-- The cells of page pg from column col on, n of them. -/
def RowCells (pg col n a : Nat) : Prop := 256 * pg + col ≤ a ∧ a < 256 * pg + (col + n)

/-- Data bytes of one value, the pointers inside the RAM, fill the cells from there on (R38), by induction on their
number. -/
theorem filled_fillActs {s : State} {pg col n : Nat} (c : Config) (byte : Byte) (h : PointsAt s pg col)
    (hprofile : s.config.profile.ok = true) (hpg : pg < s.config.profile.pages)
    (hcol : col + n ≤ s.config.profile.ramWidth) :
    Filled s.gram (runActs (fillActs c n byte) s).gram byte (RowCells pg col n) := by
  induction n generalizing s col with
  | zero => exact .none _ _ fun a ha => by simp only [RowCells] at ha; omega
  | succ n ih =>
    have hrun := behindLines_dataActs c (.imm (byte.setWidth 16)) s
    rw [srcValue, setWidth_byte, rxData_pointsAt byte h hprofile hpg (by omega)] at hrun
    obtain ⟨hpp, hcptr, hgram⟩ := receiver_of_behindLines hrun
    have hconfig := runActs_config s (dataActs c (.imm (byte.setWidth 16)))
    have hrest := ih (s := runActs (dataActs c (.imm (byte.setWidth 16))) s) (col := col + 1) ⟨hpp.trans h.pp, hcptr⟩
      (by rwa [hconfig]) (by rwa [hconfig]) (by rw [hconfig]; omega)
    rw [hgram] at hrest
    have hacts : fillActs c (n + 1) byte = dataActs c (.imm (byte.setWidth 16)) ++ fillActs c n byte := rfl
    rw [hacts, runActs_append]
    exact (filled_put _ _ _).trans hrest fun a => by simp only [RowCells]; omega

/-- The actions that address page pg at column col and write n bytes of one value there (R213, R216). -/
def rowActs (c : Config) (pg col n : Nat) (byte : Byte) : List Act := setAddrActs c pg col ++ fillActs c n byte

/-- The items of one row: the addressing commands and the n data bytes. -/
def rowItems (c : Config) (pg col n : Nat) (byte : Byte) : List DispItem :=
  addressItems c pg col ++ List.replicate n (.data byte)

theorem actsIssue_rowActs {c : Config} {xs : List Pin} (hc : c.wellFormed = true) (hxs : ∀ x ∈ displayPins c, x ∈ xs)
    {pg col : Nat} (hpg : pg < 16) (hcol : col < 256) (n : Nat) (byte : Byte) :
    ActsIssue c xs (rowActs c pg col n byte) (rowItems c pg col n byte) :=
  (actsIssue_setAddrActs hc hxs hpg hcol).append (actsIssue_fillActs hc hxs n byte)

/-- The actions of a row fill its cells, whatever the receiver's pointers held (R38). -/
theorem filled_rowActs {s : State} {pg col n : Nat} (c : Config) (byte : Byte) (hprofile : s.config.profile.ok = true)
    (hpg : pg < s.config.profile.pages) (hcol : col + n ≤ s.config.profile.ramWidth) :
    Filled s.gram (runActs (rowActs c pg col n byte) s).gram byte (RowCells pg col n) := by
  obtain ⟨hpp, hcptr, hgram⟩ := receiver_of_behindLines (behindLines_setAddrActs c pg col s)
  have hconfig := runActs_config s (setAddrActs c pg col)
  have hrow := filled_fillActs c byte ⟨hpp, hcptr⟩ (by rwa [hconfig]) (by rwa [hconfig]) (by rwa [hconfig])
  rwa [← runActs_append, hgram] at hrow

/-- Settles O50: the checks in their order, else a transaction of one row, of one byte or of none. -/
theorem putByteWritesOneColumn : Obligations.PutByteWritesOneColumn := by
  rintro x page byte s pg rfl
  have hready : s.dstate = .ready → (dispReadyCheck s).holds = true := fun h => by simp [dispReadyCheck, h]
  refine ⟨fun h => exec_refused_first rfl (beq_eq_false_iff_ne.mpr h), fun h hx => ?_, fun hs hdisplay h hx => ?_⟩
  · have hclip : clipX2 s.config (x.toNat + 1) = s.config.profile.width := min_eq_right (by omega)
    rw [← hclip] at hx ⊢
    exact exec_refused_second rfl (hready h) (decide_eq_false hx.not_ge)
  · have hprofile := profile_ok hs.config
    obtain ⟨hpages, hpages16, hram, hvisible⟩ := profile_bounds hprofile
    have hclip : x.toNat ≤ clipX2 s.config (x.toNat + 1) := le_min (by omega) hx
    have hpg : clampPage s.config page.toNat < s.config.profile.pages := by rw [clampPage]; omega
    have hcol : physColumn s.config x.toNat + (clipX2 s.config (x.toNat + 1) - x.toNat) ≤
        s.config.profile.ramWidth := by
      rw [physColumn, clipX2]; omega
    obtain ⟨t, hexec, hframe, hissues, hfilled⟩ := exec_filling (i := .dputb x page byte)
      (displayWrite_checks (cs := [⟨decide (x.toNat ≤ clipX2 s.config (x.toNat + 1)), _⟩]) h hdisplay
        (by simpa using hclip)) rfl
      (actsIssue_rowActs hs.config (fun _ hx => hx) (by omega : clampPage s.config page.toNat < 16)
        (by omega : physColumn s.config x.toNat < 256) (clipX2 s.config (x.toNat + 1) - x.toNat) byte)
      (filled_rowActs s.config byte hprofile hpg hcol)
    have hn : clipX2 s.config (x.toNat + 1) - x.toNat = if x.toNat < s.config.profile.width then 1 else 0 := by
      rw [clipX2]
      split <;> omega
    rw [hn] at hissues hfilled
    refine ⟨t, hexec, hframe, ?_, fun a => hfilled.get?_eq ?_⟩
    · convert hissues using 1
      split <;> rfl
    · rw [RowCells, clampPage, physColumn]
      split <;> omega

/-! ### Every page -/

theorem width_add_extOffset {p : Profile} (h : p.ok = true) : p.width + p.extOffset = p.ramWidth := by
  simp only [Profile.ok, Bool.and_eq_true, decide_eq_true_eq, beq_iff_eq] at h
  omega

/-- The cells of n columns from col on, of pages 0 to m − 1. -/
def PageCells (col n m a : Nat) : Prop := a / 256 < m ∧ col ≤ a % 256 ∧ a % 256 < col + n

/-- One row on every page fills those cells of every page (R217, R218), by induction on the number of pages. -/
theorem filled_pages {s : State} {col n m : Nat} (c : Config) (byte : Byte) (hprofile : s.config.profile.ok = true)
    (hm : m ≤ s.config.profile.pages) (hcol : col + n ≤ s.config.profile.ramWidth) :
    Filled s.gram (runActs ((List.range m).flatMap fun pg => rowActs c pg col n byte) s).gram byte
      (PageCells col n m) := by
  obtain ⟨-, -, hram, -⟩ := profile_bounds hprofile
  induction m with
  | zero => exact .none _ _ fun a ha => Nat.not_lt_zero _ ha.1
  | succ m ih =>
    have hconfig := runActs_config s ((List.range m).flatMap fun pg => rowActs c pg col n byte)
    have hrow := filled_rowActs (s := runActs ((List.range m).flatMap fun pg => rowActs c pg col n byte) s) (pg := m)
      (col := col) (n := n) c byte (by rwa [hconfig]) (by rw [hconfig]; omega) (by rwa [hconfig])
    rw [List.range_succ, List.flatMap_append, runActs_append, List.flatMap_singleton]
    exact (ih (by omega)).trans hrow fun a => by simp only [PageCells, RowCells]; omega

/-- A transaction of one row on every page goes on and fills those cells of every page. -/
theorem exec_pages {i : Instr} {s : State} {col n : Nat} {byte : Byte} (hs : Consistent s)
    (hchecks : ∀ c ∈ (planOf i s).checks, c.holds = true) (hcol : col + n ≤ s.config.profile.ramWidth)
    (hacts : (planOf i s).acts =
      writing ((List.range s.config.profile.pages).flatMap fun pg => rowActs s.config pg col n byte)) :
    ∃ t, exec i s = .next t ∧ DisplayFrame s t ∧
      Issues s t [] ((List.range s.config.profile.pages).flatMap fun pg => rowItems s.config pg col n byte) ∧
      Filled s.gram t.gram byte (PageCells col n s.config.profile.pages) := by
  have hprofile := profile_ok hs.config
  obtain ⟨-, hpages, hram, -⟩ := profile_bounds hprofile
  exact exec_filling hchecks hacts
    (ActsIssue.flatMap fun pg hpg => actsIssue_rowActs hs.config (fun _ hx => hx)
      (lt_of_lt_of_le (List.mem_range.mp hpg) hpages) (by omega) n byte)
    (filled_pages s.config byte hprofile (le_refl _) hcol)

/-- Settles O51: one row on every page, of 0, from column 0 over the whole width of the RAM. -/
theorem clearZeroesTheWholeRam : Obligations.ClearZeroesTheWholeRam := by
  intro s
  refine ⟨fun h => exec_refused_first rfl (beq_eq_false_iff_ne.mpr h), fun hs hdisplay h => ?_⟩
  have hwidth : s.config.profile.width + s.config.profile.extOffset = s.config.profile.ramWidth :=
    width_add_extOffset (profile_ok hs.config)
  obtain ⟨t, hexec, hframe, hissues, hfilled⟩ := exec_pages (i := .dclr) hs
    (displayWrite_checks (cs := []) h hdisplay (by simp)) (by omega : 0 + _ ≤ s.config.profile.ramWidth) rfl
  rw [hwidth] at hissues hfilled
  exact ⟨t, hexec, hframe, hissues, fun a => hfilled.get?_eq (by simp [PageCells])⟩

/-- Settles O52: one row on every page, of the byte, from the first visible column over the visible width. -/
theorem fillWritesEveryVisibleColumn : Obligations.FillWritesEveryVisibleColumn := by
  intro byte s
  refine ⟨fun h => exec_refused_first rfl (beq_eq_false_iff_ne.mpr h), fun hs hdisplay h => ?_⟩
  obtain ⟨-, -, -, hvisible⟩ := profile_bounds (profile_ok hs.config)
  obtain ⟨t, hexec, hframe, hissues, hfilled⟩ := exec_pages (i := .dfill byte) hs
    (displayWrite_checks (cs := []) h hdisplay (by simp)) hvisible rfl
  exact ⟨t, hexec, hframe, hissues, fun _ => hfilled.get?_eq Iff.rfl⟩

end Sys2Proof.Machine
end

section
/-! Configuring pins (spec 40 R134 and R135, 43 R210): the merges of one pin's record, and of every real pin of a list,
field by field and item by item. -/

namespace Sys2Proof.Machine

/-- The merges of some registers of one port, each once, one after another (R135), by induction on the registers. -/
theorem runActs_mergeActs {c : Config} {p : Nat} (mask : Half) (v : CfgReg → BitVec 4) {rs : List CfgReg}
    (hrs : rs.Nodup) {s : State} (hs : s.config = c) (hp : p < s.ports.length) :
    ∃ t, runActs (rs.flatMap fun r => mergeActs p mask r (v r)) s = t ∧ CfgWritten (Merged c mask v) p rs s t ∧
      ItemsOfMerges c p mask v rs s t ∧ t.ctx = { s.ctx with locals := t.ctx.locals } := by
  induction rs generalizing s with
  | nil => exact ⟨s, rfl, cfgWritten_nil rfl, ⟨fun _ => 0, by simp, by simp⟩, rfl⟩
  | cons r rs ih =>
    obtain ⟨hr, hrs⟩ := List.nodup_cons.mp hrs
    have hwritten := cfgMerge_written mask v r hp
    have htrace := pinTrace_cfgMerge s p mask v r
    rw [hs] at hwritten htrace
    have hlen : (runActs (mergeActs p mask r (v r)) s).ports.length = s.ports.length := (runActs_grows s _).portsLen
    obtain ⟨t, hrun, hwritten', hitems, hctx⟩ := ih hrs ((runActs_config s (mergeActs p mask r (v r))).trans hs)
      (hlen ▸ hp)
    refine ⟨t, ?_, hwritten.append hwritten' (by simpa), hitems.cons hr hwritten htrace, hctx⟩
    rw [List.flatMap_cons, runActs_append, hrun]

theorem names_cons {x : Pin} {xs : List Pin} {q i : Nat} :
    Names (x :: xs) q i ↔ (x.isNull = false ∧ x.port.toNat = q ∧ x.pos.val = i) ∨ Names xs q i := by
  simp [Names]

/-- A later job's reads, numbered from 0. -/
theorem mergeItems_succ (c : Config) (old : Nat → CfgReg → Word) (i : Nat) (js : List MergeJob) :
    mergeItems c old (i + 1) js = mergeItems c (fun n => old (n + 1)) i js := by
  induction js generalizing i with
  | nil => rfl
  | cons j js ih => rw [mergeItems, mergeItems, ih]

/-- The reads of a first job, then those of the others. -/
def consReads (first : CfgReg → Word) (rest : Nat → CfgReg → Word) : Nat → CfgReg → Word
  | 0 => first
  | n + 1 => rest n

theorem mergeItems_cons (c : Config) (first : CfgReg → Word) (rest : Nat → CfgReg → Word) (j : MergeJob)
    (js : List MergeJob) : mergeItems c (consReads first rest) 0 (j :: js) =
      allRegs.flatMap (fieldItems c j.port j.mask j.fields.get first) ++ mergeItems c rest 0 js := by
  rw [mergeItems, mergeItems_succ]
  rfl

theorem pinJobs_cons_real {x : Pin} {xs : List Pin} {cfg : PinFields} (h : x.isNull = false) :
    pinJobs (x :: xs) cfg = ⟨x.port.toNat, pinMask x, cfg⟩ :: pinJobs xs cfg := by
  simp [pinJobs, h]

theorem pinJobs_cons_null {x : Pin} {xs : List Pin} {cfg : PinFields} (h : x.isNull = true) :
    pinJobs (x :: xs) cfg = pinJobs xs cfg := by
  simp [pinJobs, h]

/-- From s to t every real pin of the list got the record in its fields (R135); no other field, no output register and
no enable bit differs. -/
structure PinsConfigured (xs : List Pin) (cfg : PinFields) (s t : State) : Prop where
  named : ∀ q i, Names xs q i → ∀ (r : CfgReg) (b : Nat), b < s.config.width r →
    regBit (cfgReg (t.port q) r) (s.config.width r * i + b) = some ((cfg.get r).getLsbD b)
  others : ∀ q i, i < 16 → ¬Names xs q i → ∀ (r : CfgReg) (b : Nat), b < s.config.width r →
    regBit (cfgReg (t.port q) r) (s.config.width r * i + b) = regBit (cfgReg (s.port q) r) (s.config.width r * i + b)
  odr : ∀ q, (t.port q).odr = (s.port q).odr
  en : ∀ q, (t.port q).en = (s.port q).en
  pin : ∃ old, t.pinTrace = s.pinTrace ++ mergeItems s.config old 0 (pinJobs xs cfg)
  ctx : t.ctx = { s.ctx with locals := t.ctx.locals }
  frame : t = { s with ports := t.ports, pinTrace := t.pinTrace, ctx := t.ctx, draws := t.draws }

theorem PinsConfigured.nil (cfg : PinFields) (s : State) : PinsConfigured [] cfg s s where
  named := fun q i h => by simp [Names] at h
  others := fun _ _ _ _ _ _ _ => rfl
  odr := fun _ => rfl
  en := fun _ => rfl
  pin := ⟨fun _ _ => 0, (List.append_nil _).symm⟩
  ctx := rfl
  frame := rfl

theorem PinsConfigured.cons_null {x : Pin} {xs : List Pin} {cfg : PinFields} {s t : State} (hx : x.isNull = true)
    (h : PinsConfigured xs cfg s t) : PinsConfigured (x :: xs) cfg s t := by
  have hnames (q i : Nat) : Names (x :: xs) q i ↔ Names xs q i := by simp [names_cons, hx]
  exact { h with
    named := fun q i hn => h.named q i ((hnames q i).mp hn)
    others := fun q i hi hn => h.others q i hi fun hxs => hn ((hnames q i).mpr hxs)
    pin := (pinJobs_cons_null (xs := xs) (cfg := cfg) hx).symm ▸ h.pin }

/-- The field of a pin after the merges of one pin's record: that pin has it, every other keeps its own. -/
theorem regBit_merged_pin {x : Pin} {cfg : PinFields} {s u : State}
    (h : CfgWritten (Merged s.config (pinMask x) cfg.get) x.port.toNat allRegs s u) {q i : Nat} (hi : i < 16)
    (r : CfgReg) {b : Nat} (hb : b < s.config.width r) :
    regBit (cfgReg (u.port q) r) (s.config.width r * i + b) =
      if x.port.toNat = q ∧ x.pos.val = i then some ((cfg.get r).getLsbD b)
      else regBit (cfgReg (s.port q) r) (s.config.width r * i + b) := by
  obtain ⟨-, -, hother, -⟩ := h.frame
  by_cases hq : x.port.toNat = q
  · subst hq
    simp [(h.written r (mem_allRegs r)).regBit_field hi hb, getLsbD_pinMask, eq_comm]
  · rw [hother q (Ne.symm hq), if_neg fun hpin => hq hpin.1]

/-- A first real pin, then the others; where a later pin is the same one, it gets the same record again. -/
theorem PinsConfigured.cons_real {x : Pin} {xs : List Pin} {cfg : PinFields} {s u t : State} (hx : x.isNull = false)
    (hwritten : CfgWritten (Merged s.config (pinMask x) cfg.get) x.port.toNat allRegs s u)
    (hitems : ItemsOfMerges s.config x.port.toNat (pinMask x) cfg.get allRegs s u)
    (hctx : u.ctx = { s.ctx with locals := u.ctx.locals }) (h : PinsConfigured xs cfg u t) :
    PinsConfigured (x :: xs) cfg s t := by
  obtain ⟨hodr, hen, hother, hframe⟩ := hwritten.frame
  have hconfig : u.config = s.config := (congrArg State.config hframe :)
  have hbit {q i : Nat} (hi : i < 16) := regBit_merged_pin (q := q) hwritten hi
  obtain ⟨hnamed', hothers', hodr', hen', ⟨old', hpin'⟩, hctx', hframe'⟩ := h
  rw [hconfig] at hnamed' hothers' hpin'
  constructor
  case named =>
    intro q i hn r b hb
    by_cases hxs : Names xs q i
    · exact hnamed' q i hxs r b hb
    · obtain ⟨-, rfl, rfl⟩ := (names_cons.mp hn).resolve_right hxs
      rw [hothers' _ _ x.pos.isLt hxs r b hb, hbit x.pos.isLt r hb, if_pos ⟨rfl, rfl⟩]
  case others =>
    intro q i hi hn r b hb
    rw [names_cons, not_or] at hn
    rw [hothers' q i hi hn.2 r b hb, hbit hi r hb, if_neg fun hpin => hn.1 ⟨hx, hpin⟩]
  case odr =>
    intro q
    rw [hodr']
    by_cases hq : q = x.port.toNat
    · rw [hq, hodr]
    · rw [hother q hq]
  case en =>
    intro q
    rw [hen']
    by_cases hq : q = x.port.toNat
    · rw [hq, hen]
    · rw [hother q hq]
  case pin =>
    obtain ⟨old, -, hpin⟩ := hitems
    exact ⟨consReads old old', by
      rw [hpin', hpin, pinJobs_cons_real hx, mergeItems_cons, List.append_assoc]⟩
  case ctx =>
    rw [hctx] at hctx'
    exact hctx'
  case frame =>
    rw [hframe] at hframe'
    exact hframe'

/-- Every real pin of a list configured, one after another (R184, R210), by induction on the list. -/
theorem pinsConfigured_runActs {xs : List Pin} (cfg : PinFields) {s : State}
    (h : ∀ x ∈ xs, x.isNull = false → x.port.toNat < s.ports.length) :
    PinsConfigured xs cfg s (runActs (xs.flatMap fun x => pinCfgActs x cfg) s) := by
  induction xs generalizing s with
  | nil => exact .nil cfg s
  | cons x xs ih =>
    obtain ⟨hx, hxs⟩ := List.forall_mem_cons.mp h
    rw [List.flatMap_cons, runActs_append]
    cases hnull : x.isNull with
    | true =>
      have hacts : pinCfgActs x cfg = [] := by simp [pinCfgActs, hnull]
      rw [hacts]
      exact (ih hxs).cons_null hnull
    | false =>
      have hacts : pinCfgActs x cfg = pcfgmActs x.port.toNat (pinMask x) cfg := by simp [pinCfgActs, hnull]
      obtain ⟨u, hrun, hwritten, hitems, hctx⟩ := runActs_mergeActs (s := s) (pinMask x) cfg.get (rs := allRegs)
        (by decide) rfl (hx hnull)
      have hlen : u.ports.length = s.ports.length := hrun ▸ (runActs_grows s _).portsLen
      rw [hacts, pcfgmActs, hrun]
      exact .cons_real hnull hwritten hitems hctx (ih (hlen ▸ hxs))

end Sys2Proof.Machine
end

section
/-! Initialising the display (spec 43 R206, R207, R210): the idle levels, the control pins' configuration, then the
reset pulse and the eleven commands, after which every control pin is at its idle level. -/

namespace Sys2Proof.Machine

/-! ### The parts of `DINIT` -/

/-- The writes of the four idle levels (R210). -/
def idleActs (c : Config) : List Act :=
  lineActs c.disp.res true ++ lineActs c.disp.cs c.csActiveLow ++ lineActs c.disp.stb true ++ lineActs c.disp.dc false

/-- The reset pulse and the transition before it (R201, R206). -/
def resetActs (c : Config) : List Act := .dispGo .toResetting :: resetPulse c

/-- The commands of the sequence and the transitions round them (R201, R207). -/
def sequenceActs (c : Config) : List Act :=
  .dispGo .toCommandInit :: ((initSeq c).flatMap (fun b => cmdActs c (.other, b)) ++ [.dispGo .toReady])

/-- What follows once the control pins are configured. -/
def startActs (c : Config) : List Act := resetActs c ++ sequenceActs c

theorem planDinit_acts (s : State) : (planDinit s).acts =
    idleActs s.config ++ (controlPins s.config).flatMap (fun x => pinCfgActs x (driveCfg s.config)) ++
      startActs s.config := by
  have hcfg : driveCfg s.config = s.config.outputCfg := rfl
  simp only [planDinit, hcfg, idleActs, startActs, resetActs, sequenceActs, controlPins, releaseCs_eq, lineActs,
    if_true, Bool.false_eq_true, if_false, List.append_assoc, List.cons_append, List.nil_append]

section
variable {c : Config} {xs : List Pin}

theorem actsDrive_idleActs {src : Src} {v : Half} (hxs : ∀ x ∈ controlPins c, x ∈ xs) :
    ActsDrive c src v xs (idleActs c)
      (lineItems c.disp.res true ++ lineItems c.disp.cs c.csActiveLow ++ lineItems c.disp.stb true ++
        lineItems c.disp.dc false) [] := by
  simp only [controlPins, List.forall_mem_cons] at hxs
  obtain ⟨hres, hcs, hdc, hstb, -⟩ := hxs
  exact (((actsDrive_lineActs _ hres).append (actsDrive_lineActs _ hcs)).append (actsDrive_lineActs _ hstb)).append
    (actsDrive_lineActs _ hdc)

/-- The reset pulse issues `Reset` (R206). -/
theorem actsIssue_resetActs (hres : c.disp.res ∈ xs) : ActsIssue c xs (resetActs c) [.reset] := by
  refine ActsIssue.append (as := [_]) (is := []) (fun s _ => issued_dispGo xs _ s) (fun s hs => ?_)
  subst hs
  have hpulse := (((actsDrive_lineActs (c := s.config) (src := .imm 0) (v := 0) false hres).append
    (actsDrive_hold s.config.disp.resetHold)).append (actsDrive_lineActs true hres)).append
    (actsDrive_hold s.config.disp.resetRecover)
  exact issued_item (u := s.traceDisp .reset) rfl (hpulse (s.traceDisp .reset) rfl rfl)

/-- The sequence issues its commands (R207). -/
theorem actsIssue_sequenceActs (hc : c.wellFormed = true) (hxs : ∀ x ∈ displayPins c, x ∈ xs) :
    ActsIssue c xs (sequenceActs c) ((initSeq c).map .cmd) := by
  have hcmds := ActsIssue.flatMap (l := initSeq c) fun b _ => actsIssue_cmdActs hc hxs (.other, b)
  rw [← List.map_eq_flatMap] at hcmds
  have hready := hcmds.append (bs := [.dispGo .toReady]) (js := []) fun s _ => issued_dispGo xs _ s
  rw [List.append_nil] at hready
  exact ActsIssue.append (as := [_]) (is := []) (fun s _ => issued_dispGo xs _ s) hready

theorem actsIssue_startActs (hc : c.wellFormed = true) (hxs : ∀ x ∈ displayPins c, x ∈ xs) (hres : c.disp.res ∈ xs) :
    ActsIssue c xs (startActs c) (.reset :: (initSeq c).map .cmd) :=
  (actsIssue_resetActs hres).append (actsIssue_sequenceActs hc hxs)

end

theorem dstate_startActs (c : Config) (s : State) : (runActs (startActs c) s).dstate = .ready := by
  rw [startActs, runActs_append, sequenceActs, runActs_cons, runActs_append]
  rfl

/-! ### The receiver -/

/-- The actions of reset pulse and sequence leave the display's receiver as it is: its commands are none that address
(log 17). -/
def sparesReceiver : Act → Bool
  | .dispReset => true
  | .dispGo _ => true
  | .dispCmd x _ => x == .other
  | a => drivesLines a

theorem receiver_runAct {a : Act} (h : sparesReceiver a = true) (s : State) :
    (runAct a s).pp = s.pp ∧ (runAct a s).cptr = s.cptr ∧ (runAct a s).gram = s.gram := by
  unfold sparesReceiver at h
  split at h
  · exact ⟨rfl, rfl, rfl⟩
  · exact ⟨rfl, rfl, rfl⟩
  · next x byte =>
    obtain rfl : x = .other := beq_iff_eq.mp h
    exact ⟨rfl, rfl, rfl⟩
  · exact receiver_of_behindLines (behindLines_runAct h s)

theorem receiver_runActs {as : List Act} (h : ∀ a ∈ as, sparesReceiver a = true) (s : State) :
    (runActs as s).pp = s.pp ∧ (runActs as s).cptr = s.cptr ∧ (runActs as s).gram = s.gram :=
  runActs_induct (P := fun t => t.pp = s.pp ∧ t.cptr = s.cptr ∧ t.gram = s.gram) ⟨rfl, rfl, rfl⟩
    fun a ha t ⟨hpp, hcptr, hgram⟩ => by
      obtain ⟨hpp', hcptr', hgram'⟩ := receiver_runAct (h a ha) t
      exact ⟨hpp'.trans hpp, hcptr'.trans hcptr, hgram'.trans hgram⟩

theorem sparesReceiver_of_drivesLines {as : List Act} (h : ∀ a ∈ as, drivesLines a = true) :
    ∀ a ∈ as, sparesReceiver a = true := by
  intro a ha
  have hdrives := h a ha
  unfold sparesReceiver
  split
  · rfl
  · rfl
  · cases hdrives
  · exact hdrives

theorem sparesReceiver_resetActs (c : Config) : ∀ a ∈ resetActs c, sparesReceiver a = true := by
  simp only [resetActs, resetPulse, List.forall_mem_append, List.forall_mem_cons]
  exact ⟨rfl, ⟨⟨⟨⟨rfl, by simp⟩, sparesReceiver_of_drivesLines (drivesLines_pinClear _)⟩, rfl, by simp⟩,
    sparesReceiver_of_drivesLines (drivesLines_pinSet _)⟩, rfl, by simp⟩

theorem sparesReceiver_sequenceActs (c : Config) : ∀ a ∈ sequenceActs c, sparesReceiver a = true := by
  simp only [sequenceActs, List.forall_mem_append, List.forall_mem_cons]
  refine ⟨rfl, fun a ha => ?_, rfl, by simp⟩
  obtain ⟨b, -, ha⟩ := List.mem_flatMap.mp ha
  rcases List.mem_cons.mp ha with rfl | ha
  · rfl
  · exact sparesReceiver_of_drivesLines (drivesLines_presentBody _ _ _) a ha

/-- Reset pulse and sequence reach no cell and no pointer of the receiver (R210, log 17). -/
theorem receiver_startActs (c : Config) (s : State) :
    (runActs (startActs c) s).pp = s.pp ∧ (runActs (startActs c) s).cptr = s.cptr ∧
      (runActs (startActs c) s).gram = s.gram :=
  receiver_runActs (List.forall_mem_append.mpr ⟨sparesReceiver_resetActs c, sparesReceiver_sequenceActs c⟩) s

/-! ### Levels -/

theorem pinLevel_real (s : State) {x : Pin} (h : x.isNull = false) :
    pinLevel s.ports x = regBit (s.port x.port.toNat).odr x.pos.val := by
  simp [pinLevel, h, State.port]

/-- A real pin that was not driven keeps its level. -/
theorem OdrOnlyAt.pinLevel {s t : State} {xs : List Pin} {x : Pin} (h : OdrOnlyAt s t xs) (hnull : x.isNull = false)
    (hx : x ∉ xs) : pinLevel t.ports x = pinLevel s.ports x := by
  rw [pinLevel_real t hnull, pinLevel_real s hnull]
  refine h _ _ x.pos.isLt fun ⟨y, hy, hynull, hport, hpos⟩ => hx ?_
  rwa [← pin_eq_of_onPort (onPort_iff.mpr ⟨hynull, hport⟩) hpos]

theorem runActs_ports_length (as : List Act) (s : State) : (runActs as s).ports.length = s.ports.length :=
  (runActs_grows s as).portsLen

/-- A write leaves a real pin at its level (R140). -/
theorem level_lineActs {s : State} {x : Pin} (high : Bool) (hnull : x.isNull = false)
    (hp : x.port.toNat < s.ports.length) : Level (runActs (lineActs x high) s) x high := by
  rw [Level, pinLevel_real _ hnull, runActs_lineActs high s hnull, State.pinWrite]
  cases high
  · simp [bsrWrite_port_same _ _ hp, regBit_odrAfterBsr, getLsbD_pinMask]
  · simp [bsrWrite_port_same _ _ hp, regBit_odrAfterBsr, getLsbD_pinMask]

/-- The reset pulse ends with a real `D_RES` high (R206). -/
theorem level_resetActs {c : Config} {s : State} (hnull : c.disp.res.isNull = false)
    (hp : c.disp.res.port.toNat < s.ports.length) : Level (runActs (resetActs c) s) c.disp.res true := by
  have hacts : resetActs c = ([Act.dispGo .toResetting, Act.dispReset] ++ pinClear c.disp.res ++
      [Act.hold c.disp.resetHold]) ++ lineActs c.disp.res true ++ [Act.hold c.disp.resetRecover] := by
    simp [resetActs, resetPulse, lineActs]
  rw [hacts, runActs_append, runActs_append]
  exact level_lineActs (x := c.disp.res) true hnull (by rwa [runActs_ports_length])

/-- The control pins of a display write, as real pins, are no other pins of it. -/
structure ControlsApart (c : Config) : Prop where
  dc : c.disp.dc.isNull = false → c.disp.dc ∉ c.disp.cs :: c.disp.stb :: busPins c c.disp.bus
  stb : c.disp.stb.isNull = false → c.disp.stb ∉ [c.disp.cs]

/-- The control pins of a display write are at the levels `Present` leaves them at (R205). -/
structure PresentLevels (c : Config) (data : Bool) (t : State) : Prop where
  dc : c.disp.dc.isNull = false → Level t c.disp.dc data
  stb : c.disp.stb.isNull = false → Level t c.disp.stb true
  cs : c.disp.cs.isNull = false → Level t c.disp.cs c.csActiveLow

/-- Levels are read off the ports alone. -/
theorem PresentLevels.of_ports {c : Config} {data : Bool} {s t : State} (h : PresentLevels c data s)
    (hports : t.ports = s.ports) : PresentLevels c data t := by
  obtain ⟨hdc, hstb, hcs⟩ := h
  unfold Level at hdc hstb hcs
  rw [← hports] at hdc hstb hcs
  exact ⟨hdc, hstb, hcs⟩

theorem presentLevels_presentBody {c : Config} {src : Src} {byte : Byte} (data : Bool) {s : State}
    (hc : c.wellFormed = true) (hs : s.config = c) (hsrc : srcValue s.ctx.locals src = byte.setWidth 16)
    (hapart : ControlsApart c)
    (hpins : ∀ x ∈ displayPins c, x.isNull = false → x.port.toNat < s.ports.length) :
    PresentLevels c data (runActs (presentBody c data src) s) := by
  simp only [displayPins, List.cons_append, List.nil_append, List.forall_mem_cons] at hpins
  obtain ⟨hdc, hcs, hstb, -⟩ := hpins
  constructor
  case dc =>
    intro hnull
    have hline := drives_lineActs data (List.mem_singleton_self c.disp.dc) s
    have htail := actsDrive_presentTail hc (fun _ hx => hx) _ ((runActs_config s (lineActs c.disp.dc data)).trans hs)
      ((congrArg (srcValue ·.ctx.locals src) hline.frame).trans hsrc)
    rw [presentBody_eq, runActs_append, Level, htail.only.odr.pinLevel hnull (hapart.dc hnull)]
    exact level_lineActs data hnull (hdc hnull)
  case stb =>
    intro hnull
    have hacts : presentBody c data src = (if data then pinSet c.disp.dc else pinClear c.disp.dc) ++
        assertCs c c.disp.cs ++ busWriteActs c c.disp.bus src ++ (pinClear c.disp.stb ++ [.hold c.disp.stbDelay] ++
          lineActs c.disp.stb true) ++ lineActs c.disp.cs c.csActiveLow := by
      simp [presentBody, strobeActs, hnull, lineActs, releaseCs_eq]
    rw [hacts, runActs_append, Level,
      (drives_lineActs _ (List.mem_singleton_self c.disp.cs) _).only.odr.pinLevel hnull (hapart.stb hnull),
      runActs_append, runActs_append]
    exact level_lineActs true hnull (by simpa only [runActs_ports_length] using hstb hnull)
  case cs =>
    intro hnull
    have hacts : presentBody c data src = (if data then pinSet c.disp.dc else pinClear c.disp.dc) ++
        assertCs c c.disp.cs ++ busWriteActs c c.disp.bus src ++ strobeActs c.disp ++
          lineActs c.disp.cs c.csActiveLow := by
      rw [presentBody, releaseCs_eq]
    rw [hacts, runActs_append]
    exact level_lineActs _ hnull (by simpa only [runActs_ports_length] using hcs hnull)

/-- After the sequence the control pins of a display write are at the levels its last command leaves (R205, R207). -/
theorem presentLevels_sequenceActs {c : Config} {s : State} (hc : c.wellFormed = true) (hs : s.config = c)
    (hapart : ControlsApart c)
    (hpins : ∀ x ∈ displayPins c, x.isNull = false → x.port.toNat < s.ports.length) :
    PresentLevels c false (runActs (sequenceActs c) s) := by
  have hseq : initSeq c = (initSeq c).dropLast ++ [c.cmd.displayOn] := rfl
  have hacts : sequenceActs c = (Act.dispGo .toCommandInit ::
      ((initSeq c).dropLast.flatMap (fun b => cmdActs c (.other, b)) ++ [Act.dispCmd .other c.cmd.displayOn])) ++
        presentBody c false (.imm (c.cmd.displayOn.setWidth 16)) ++ [Act.dispGo .toReady] := by
    rw [sequenceActs, hseq]
    simp [cmdActs]
  rw [hacts, runActs_append, runActs_append, runActs_cons, runActs_nil]
  exact (presentLevels_presentBody false hc ((runActs_config s _).trans hs) rfl hapart
    (by rwa [runActs_ports_length])).of_ports rfl

/-- With the display's real pins all different each control pin is apart from the others, and `D_RES` from every pin of
a display write. -/
theorem controlsApart_of_noRepeats {c : Config} (h : Pin.noRepeats (controlPins c ++ busPins c c.disp.bus) = true) :
    ControlsApart c ∧ (c.disp.res.isNull = false → c.disp.res ∉ displayPins c) := by
  have hpairs := pairwise_of_noRepeats h
  simp only [controlPins, List.cons_append, List.nil_append, List.pairwise_cons, List.forall_mem_cons] at hpairs
  obtain ⟨⟨hrescs, hresdc, hresstb, hresbus⟩, ⟨hcsdc, hcsstb, -⟩, ⟨hdcstb, hdcbus⟩, -⟩ := hpairs
  refine ⟨⟨fun hnull => ?_, fun hnull => ?_⟩, fun hnull => ?_⟩
  · simp only [List.mem_cons, not_or]
    exact ⟨fun he => hcsdc (he ▸ hnull) he.symm, hdcstb hnull, fun hb => hdcbus _ hb hnull rfl⟩
  · simp only [List.mem_singleton]
    exact fun he => hcsstb (he ▸ hnull) he.symm
  · simp only [displayPins, List.cons_append, List.nil_append, List.mem_cons, not_or]
    exact ⟨hresdc hnull, hrescs hnull, hresstb hnull, fun hb => hresbus _ hb hnull rfl⟩

/-- With the display's real pins all different, reset pulse and sequence leave each control pin at its idle level. -/
theorem levels_startActs {c : Config} {s : State} (hc : c.wellFormed = true) (hs : s.config = c)
    (hcontrols : ∀ x ∈ controlPins c, x.isNull = false → x.port.toNat < s.ports.length)
    (hpins : ∀ x ∈ displayPins c, x.isNull = false → x.port.toNat < s.ports.length)
    (h : Pin.noRepeats (controlPins c ++ busPins c c.disp.bus) = true) :
    (c.disp.res.isNull = false → Level (runActs (startActs c) s) c.disp.res true) ∧
      (c.disp.cs.isNull = false → Level (runActs (startActs c) s) c.disp.cs c.csActiveLow) ∧
      (c.disp.stb.isNull = false → Level (runActs (startActs c) s) c.disp.stb true) ∧
      (c.disp.dc.isNull = false → Level (runActs (startActs c) s) c.disp.dc false) := by
  obtain ⟨hapart, hres⟩ := controlsApart_of_noRepeats h
  have hmiddle : (runActs (resetActs c) s).config = c := (runActs_config s _).trans hs
  have hlevels := presentLevels_sequenceActs hc hmiddle hapart (by rwa [runActs_ports_length])
  have hsequence := actsIssue_sequenceActs hc (fun _ hx => hx) _ hmiddle
  rw [startActs, runActs_append]
  refine ⟨fun hnull => ?_, hlevels.cs, hlevels.stb, hlevels.dc⟩
  rw [Level, hsequence.only.odr.pinLevel hnull (hres hnull)]
  exact level_resetActs hnull (hcontrols _ (List.mem_cons_self ..) hnull)

/-! ### Idle levels, configuration, items: three parts in a row -/

section
variable {s a b e : State} {controls xs : List Pin} {idle : List PinItem} {cfg : PinFields} {items : List DispItem}
  (hidle : Drives controls idle [] s.beginOp a) (hconf : PinsConfigured controls cfg a b)
  (hissued : Issued xs items b e)

include hidle in
theorem Drives.config_begin : a.config = s.config := (congrArg State.config hidle.frame :)

include hidle hconf in
theorem PinsConfigured.config_begin : b.config = s.config :=
  (congrArg State.config hconf.frame :).trans hidle.config_begin

include hidle hconf hissued

theorem issues_of_parts : ∃ old, Issues s (runAct .retire e)
    (idle ++ mergeItems s.config old 0 (pinJobs controls cfg)) items := by
  have hconfig := hconf.config_begin hidle
  obtain ⟨old, hpin⟩ := hconf.pin
  have hbus : b.busTrace = s.busTrace :=
    ((congrArg State.busTrace hconf.frame :).trans hidle.bus).trans (List.append_nil _)
  have hdisp : b.dispTrace = s.dispTrace :=
    (congrArg State.dispTrace hconf.frame :).trans (congrArg State.dispTrace hidle.frame :)
  refine ⟨old, hissued.disp.trans (by rw [hdisp]), hissued.bus.trans (by rw [hbus, hconfig]), _,
    strobeItems_strobe _, hissued.pin.trans ?_⟩
  rw [hpin, hidle.pin, hidle.config_begin, hconfig, State.beginOp_pinTrace, List.append_assoc s.pinTrace]

omit hidle in
theorem pinHasCfg_of_parts : ∀ x ∈ controls, x.isNull = false → PinHasCfg (runAct .retire e) x cfg := by
  intro x hx hnull r i hi
  have hconfig : (runAct .retire e).config = a.config := hissued.config.trans (congrArg State.config hconf.frame :)
  rw [hconfig] at hi ⊢
  show regBit (cfgReg (e.port x.port.toNat) r) _ = _
  rw [hissued.only.cfgReg]
  exact hconf.named _ _ ⟨x, hx, hnull, rfl, rfl⟩ r i hi

theorem cfgOnlyAt_of_parts : CfgOnlyAt s (runAct .retire e) controls := by
  refine ⟨fun q i hi hnot r j hj => ?_, fun q => ?_⟩
  · show regBit (cfgReg (e.port q) r) _ = regBit (cfgReg (s.beginOp.port q) r) _
    rw [hissued.only.cfgReg, ← hidle.only.cfgReg q r, ← hidle.config_begin]
    exact hconf.others q i hi hnot r j (by rwa [hidle.config_begin])
  · exact (hissued.only.en q).trans ((hconf.en q).trans (hidle.only.en q))

theorem odrOnlyAt_of_parts (hxs : ∀ x ∈ controls, x ∈ xs) : OdrOnlyAt s (runAct .retire e) xs := by
  intro q i hi hnot
  have hmiddle : regBit (b.port q).odr i = regBit (a.port q).odr i := by rw [hconf.odr]
  exact (hissued.only.odr q i hi hnot).trans (hmiddle.trans (hidle.only.odr.mono hxs q i hi hnot))

theorem ctx_of_parts : (runAct .retire e).ctx = advanced s.ctx := by
  have hctx := hissued.ctx
  rw [hconf.ctx, hidle.frame] at hctx
  show { e.ctx with cp := e.ctx.cp + 1, locals := Locals.empty } = _
  rw [hctx]
  rfl

/-- Where the display's receiver is spared, nothing but lines, traces, `DSTATE`, the context and the draws differ. -/
theorem frame_of_parts (hrx : e.pp = b.pp ∧ e.cptr = b.cptr ∧ e.gram = b.gram) :
    runAct .retire e = { s with
      ports := (runAct .retire e).ports, shiftRx := (runAct .retire e).shiftRx, dstate := (runAct .retire e).dstate
      pinTrace := (runAct .retire e).pinTrace, busTrace := (runAct .retire e).busTrace
      dispTrace := (runAct .retire e).dispTrace, ctx := (runAct .retire e).ctx
      draws := (runAct .retire e).draws } := by
  obtain ⟨hpp, hcptr, hgram⟩ := hrx
  have hframe := hissued.frame
  rw [hpp, hcptr, hgram, hconf.frame, hidle.frame] at hframe
  rw [hframe]
  rfl

end

/-! ### The whole operation -/

theorem PinsUsable.lt_length {s : State} {xs : List Pin} (h : PinsUsable s xs) :
    ∀ x ∈ xs, x.isNull = false → x.port.toNat < s.ports.length := fun x hx hnull =>
  lt_of_enabled ((h x hx).resolve_left (by simp [hnull])).2

theorem planDinit_checks_hold {s : State} (hstate : s.dstate = .uninitialized) (hdisplay : DisplayUsable s)
    (hcontrols : PinsUsable s (controlPins s.config)) : ∀ c ∈ (planDinit s).checks, c.holds = true := by
  have hpins := pinsChecks_holds.mpr (hcontrols.mono (xs := [s.config.disp.res, s.config.disp.cs, s.config.disp.stb,
    s.config.disp.dc]) (by simp [controlPins]))
  have ⟨⟨_, hready⟩, _⟩ := hdisplay
  simp only [planDinit, List.cons_append, List.nil_append, List.append_assoc, List.forall_mem_cons,
    List.forall_mem_append]
  exact ⟨by simp [hstate], hready, hpins, presentChecks_holds hdisplay⟩

theorem exec_dinit {s : State} (hstate : s.dstate = .uninitialized) (hdisplay : DisplayUsable s)
    (hcontrols : PinsUsable s (controlPins s.config)) : exec .dinit s =
      .next (runAct .retire (runActs (startActs s.config) (runActs
        ((controlPins s.config).flatMap (fun x => pinCfgActs x (driveCfg s.config)))
        (runActs (idleActs s.config) s.beginOp)))) := by
  refine (perform_next (planDinit_checks_hold hstate hdisplay hcontrols)).trans ?_
  rw [planDinit_acts, runActs_append, runActs_append, runActs_append]
  rfl

/-- Settles O47: the idle levels lead to a, the pins' configuration to b, reset pulse and sequence to e; the last byte
of the sequence leaves the levels. -/
theorem displayInitIssuesTheSequence : Obligations.DisplayInitIssuesTheSequence := by
  intro s hs hstate hdisplay hcontrols
  have hmem : ∀ x ∈ displayPins s.config, x ∈ controlPins s.config ++ busPins s.config s.config.disp.bus := by
    simp +contextual [displayPins, controlPins]
  have ⟨_, hpins⟩ := hdisplay
  have hexec := exec_dinit hstate hdisplay hcontrols
  have hidle := actsDrive_idleActs (c := s.config) (fun _ hx => hx) s.beginOp rfl (rfl : srcValue _ (.imm 0) = 0)
  have hlen : _ = s.ports.length := runActs_ports_length (idleActs s.config) s.beginOp
  generalize runActs (idleActs s.config) s.beginOp = a at hexec hidle hlen
  have hconf := pinsConfigured_runActs (xs := controlPins s.config) (driveCfg s.config) (s := a)
    (hlen ▸ hcontrols.lt_length)
  have hlen' := runActs_ports_length ((controlPins s.config).flatMap (fun x => pinCfgActs x (driveCfg s.config))) a
  rw [hlen] at hlen'
  generalize runActs ((controlPins s.config).flatMap (fun x => pinCfgActs x (driveCfg s.config))) a = b
    at hexec hconf hlen'
  have hconfig := hconf.config_begin hidle
  have hissued := actsIssue_startActs hs.config hmem (by simp [controlPins]) b hconfig
  have hready := dstate_startActs s.config b
  have hrx := receiver_startActs s.config b
  have hlevels := levels_startActs hs.config hconfig (hlen' ▸ hcontrols.lt_length) (hlen' ▸ hpins.lt_length)
  generalize runActs (startActs s.config) b = e at hexec hissued hready hrx hlevels
  obtain ⟨old, hissues⟩ := issues_of_parts hidle hconf hissued
  exact ⟨_, hexec, hready, ⟨old, hissues⟩, pinHasCfg_of_parts hconf hissued,
    cfgOnlyAt_of_parts hidle hconf hissued,
    odrOnlyAt_of_parts hidle hconf hissued (fun _ hx => List.mem_append_left _ hx), hlevels,
    ctx_of_parts hidle hconf hissued, frame_of_parts hidle hconf hissued hrx⟩

end Sys2Proof.Machine
end

section
/-! The glyph lookup (spec 44 R242 to R244): the destination bytes one after the other, each made of the bits of its
row-plane, then the result word as the fields it is put together from (R104). -/

namespace Sys2Proof.Machine

/-! ### The result word -/

/-- A present result, from bit 63 down: the present bit over 31 zeros, `GLEN`, the height, the width (R104, R242). -/
theorem glyphResult_eq_append (glen height width : Nat) : glyphResult glen height width =
    0x80000000#32 ++ BitVec.ofNat 16 glen ++ BitVec.ofNat 8 height ++ BitVec.ofNat 8 width := by
  rw [← BitVec.setWidth_eq (0x80000000#32 ++ BitVec.ofNat 16 glen ++ BitVec.ofNat 8 height ++ BitVec.ofNat 8 width),
    BitVec.setWidth_append_append_append_eq_shiftLeft_setWidth_or]
  rfl

theorem glyphResult_fields (glen height width : Nat) :
    (glyphResult glen height width).getLsbD 63 = true ∧ (glyphResult glen height width).extractLsb' 32 31 = 0 ∧
    (glyphResult glen height width).extractLsb' 16 16 = BitVec.ofNat 16 glen ∧
    (glyphResult glen height width).extractLsb' 8 8 = BitVec.ofNat 8 height ∧
    (glyphResult glen height width).extractLsb' 0 8 = BitVec.ofNat 8 width := by
  rw [glyphResult_eq_append]
  refine ⟨?_, ?_, ?_, ?_, BitVec.extractLsb'_append_eq_right⟩
  · rw [BitVec.getLsbD_append, BitVec.getLsbD_append, BitVec.getLsbD_append]
    rfl
  · rw [BitVec.extractLsb'_append_eq_of_le (by decide), BitVec.extractLsb'_append_eq_of_le (by decide),
      BitVec.extractLsb'_append_eq_of_le (by decide)]
    decide
  · rw [BitVec.extractLsb'_append_eq_of_le (by decide), BitVec.extractLsb'_append_eq_of_le (by decide)]
    exact BitVec.extractLsb'_append_eq_right
  · rw [BitVec.extractLsb'_append_eq_of_le (by decide)]
    exact BitVec.extractLsb'_append_eq_right

/-! ### Transcoding -/

/-- The bit of the blob that bit k of destination index n of glyph g comes from (R243). -/
def glyphSourceBit (msbFirst : Bool) (f : Font) (g n k : Nat) : Bool :=
  (f.blob.getD (rowPlane f g n + streamIndex f n k / 8) 0).getLsbD (streamPos msbFirst (streamIndex f n k))

/-- Destination index `h·W + i` stands in row-plane h (R243). -/
theorem glyphIndex_div (h : Nat) {i w : Nat} (hi : i < w) : (h * w + i) / w = h := by
  rw [Nat.mul_comm, Nat.mul_add_div (by omega), Nat.div_eq_of_lt hi, Nat.add_zero]

/-- For destination index `n = h·W + i`: stream bit `k·W + i` of row-plane h (R241, R243, R244). -/
theorem glyphSourceBit_row (msbFirst : Bool) {f : Font} (g h k : Nat) {i : Nat} (hi : i < f.width) :
    glyphSourceBit msbFirst f g (h * f.width + i) k =
      (f.blob.getD (g * (f.width * f.heightInBytes) + h * f.width + (k * f.width + i) / 8) 0).getLsbD
        (if msbFirst then 7 - (k * f.width + i) % 8 else (k * f.width + i) % 8) := by
  rw [glyphSourceBit, rowPlane, streamIndex, streamPos, glyphIndex_div h hi, Nat.mul_add_mod_of_lt hi, Nat.mul_assoc]

/-- The first m bytes are those of glyph g, bit by bit; the others are as before (R243). -/
structure Transcoded (msbFirst : Bool) (f : Font) (g m : Nat) (before after : Memory) : Prop where
  written : ∀ n < m, ∀ k < 8, (after.get? n).map (fun d => d.getLsbD k) = some (glyphSourceBit msbFirst f g n k)
  kept : ∀ n, m ≤ n → after.get? n = before.get? n

theorem Transcoded.put {msbFirst : Bool} {f : Font} {g m : Nat} {before after : Memory} {d : Byte}
    (h : Transcoded msbFirst f g m before after) (hd : ∀ k < 8, d.getLsbD k = glyphSourceBit msbFirst f g m k) :
    Transcoded msbFirst f g (m + 1) before (after.put m d) := by
  constructor
  · intro n hn k hk
    rcases Nat.lt_succ_iff_lt_or_eq.mp hn with hlt | rfl
    · rw [Memory.get?_put_other (by omega)]
      exact h.written n hlt k hk
    · rw [Memory.get?_put_same, Option.map_some, hd k hk]
  · intro n hn
    rw [Memory.get?_put_other (by omega)]
    exact h.kept n (by omega)

/-- The actions for the first m destination bytes write those of `GBUF`, and beside them only local variables. -/
theorem runActs_glyphBytes (msbFirst : Bool) {fno : Nat} {f : Font} (g m : Nat) {s : State}
    (hf : s.config.fonts[fno]? = some f) :
    ∃ l gbuf, runActs ((List.range m).flatMap (glyphByteActs msbFirst fno f g)) s =
        s.setCtx { s.ctx with locals := l, gbuf := gbuf } ∧ Transcoded msbFirst f g m s.ctx.gbuf gbuf := by
  induction m with
  | zero => exact ⟨s.ctx.locals, s.ctx.gbuf, rfl, ⟨fun _ hn => absurd hn (Nat.not_lt_zero _), fun _ _ => rfl⟩⟩
  | succ m ih =>
    obtain ⟨l, gbuf, hrun, htrans⟩ := ih
    obtain ⟨l', d, hbyte, hbits⟩ := runActs_glyphByteActs msbFirst g m
      (s := s.setCtx { s.ctx with locals := l, gbuf := gbuf }) hf
    rw [List.range_succ, List.flatMap_append, runActs_append, List.flatMap_singleton, hrun, hbyte]
    exact ⟨l', gbuf.put m d, rfl, htrans.put hbits⟩

/-! ### The whole operation -/

theorem fontHas_iff {f : Font} {cp : Nat} : fontHas f cp = true ↔ f.first ≤ cp ∧ cp < f.first + f.count := by
  simp [fontHas]

section
variable {f : Byte} {cp : BitVec 32} {font : Font} {s : State} (hfont : s.config.fonts[f.toNat]? = some font)
include hfont

/-- With a font that exists `GBMP` goes on (R242). -/
theorem exec_gbmp : exec (.gbmp f cp) s = .next (runActs
    (glyphActs s.config.glyphSrcMsbFirst f.toNat font cp.toNat ++ [.retire]) s.beginOp) := by
  obtain ⟨hlt, -⟩ := List.getElem?_eq_some_iff.mp hfont
  refine (perform_next (pl := planGbmp f cp s) (by simpa [planGbmp] using hlt)).trans ?_
  simp only [planGbmp, hfont]

/-- A code point outside the font's range gives 0 and touches no buffer (R242, R245). -/
theorem exec_gbmp_absent (hcp : ¬fontHas font cp.toNat = true) :
    exec (.gbmp f cp) s = .next { s with ctx := advancedRes s.ctx 0 } := by
  rw [exec_gbmp hfont, glyphActs, if_neg hcp]
  rfl

/-- A code point of the font has its glyph transcoded into `GBUF`, and its sizes in `GLEN` and `RES` (R242). -/
theorem exec_gbmp_present (hcp : fontHas font cp.toNat = true) :
    ∃ gbuf, exec (.gbmp f cp) s = .next { s with
        ctx := { advanced s.ctx with
          res := glyphResult (font.width * font.heightInBytes) font.height font.width
          gbuf := gbuf, glen := font.width * font.heightInBytes } } ∧
      Transcoded s.config.glyphSrcMsbFirst font (cp.toNat - font.first) (font.width * font.heightInBytes) s.ctx.gbuf
        gbuf := by
  obtain ⟨l, gbuf, hrun, htrans⟩ := runActs_glyphBytes s.config.glyphSrcMsbFirst (cp.toNat - font.first)
    (font.width * font.heightInBytes) (s := s.beginOp) hfont
  refine ⟨gbuf, ?_, htrans⟩
  rw [exec_gbmp hfont, glyphActs, if_pos hcp, transcodeActs, runActs_append, runActs_append, hrun]
  simp [runAct, State.setCtx, State.setRes, State.beginOp, State.setLocals, advanced]

end

/-- Settles O55: destination index `h·W + i` lies below `W·HB`, so its byte is one of those transcoded. -/
theorem glyphLookupTranscodesOrMisses : Obligations.GlyphLookupTranscodesOrMisses := by
  intro f cp font s hfont
  refine ⟨fun houtside => exec_gbmp_absent hfont (by rw [fontHas_iff]; omega), fun hfirst hlast => ?_⟩
  obtain ⟨gbuf, hexec, htrans⟩ := exec_gbmp_present hfont (fontHas_iff.mpr ⟨hfirst, hlast⟩)
  refine ⟨_, hexec, rfl, rfl, fun h i k hh hi hk => ?_, htrans.kept, glyphResult_fields _ _ _⟩
  have hn : h * font.width + i < font.width * font.heightInBytes := by
    rwa [Nat.mul_comm font.width, ← Nat.div_lt_iff_lt_mul (by omega), glyphIndex_div h hi]
  rw [← glyphSourceBit_row _ _ _ _ hi]
  exact htrans.written _ hn k hk

end Sys2Proof.Machine
end

section
/-! Every step keeps a state consistent (spec 10 sections 2, 3 and 5, 45 R260 and R263): actions keep it
(`runAct_consistent`), and so does every way contexts move. -/

namespace Sys2Proof.Machine

/-! ### Actions -/

theorem runSome_consistent {n : Nat} {as : List Act} {s : State} (h : Consistent s) :
    Consistent (runSome n as s).1 := by
  fun_induction runSome n as s with
  | case1 n s => exact h
  | case2 a as s _ => exact h
  | case3 a as s _ m ih => exact ih (runAct_consistent a h)
  | case4 n a as s _ ih => exact ih (runAct_consistent a h)

/-! ### Contexts -/

/-- The running context is issued other actions, or left with others. -/
theorem setQueue_consistent {s : State} (h : Consistent s) (as : List Act) (l : Locals) :
    Consistent (s.setCtx { s.ctx with queue := as, locals := l }) := setCtx_consistent h _ h.gbuf_wf

theorem exec_consistent {i : Instr} {s t : State} (hs : Consistent s) (h : exec i s = .next t) : Consistent t := by
  obtain ⟨-, rfl⟩ := exec_eq_next.mp h
  exact runActs_consistent _ (setCtx_consistent hs _ hs.gbuf_wf)

theorem finishOp_consistent {s : State} (h : Consistent s) : Consistent (finishOp s) :=
  runActs_consistent _ (setQueue_consistent h _ _)

theorem sliceOp_consistent (n : Nat) {s : State} (h : Consistent s) : Consistent (sliceOp n s) :=
  setQueue_consistent (runSome_consistent h) _ _

theorem handOver_consistent {s : State} (h : Consistent s) : Consistent (handOver s) := by
  unfold handOver
  split
  · exact h
  · next c cs hp =>
    exact consistent_of_perm h c _ (hp ▸ (List.perm_append_singleton s.ctx (c :: cs)).symm)

theorem selectCtx_consistent {id : Nat} {s t : State} (hs : Consistent s) (h : selectCtx id s = some t) :
    Consistent t := by
  unfold selectCtx at h
  split at h
  · cases h
    exact hs
  · split at h
    · next c cs hc =>
      cases h
      exact consistent_of_perm hs c _
        (((takeCtx_perm hc).cons s.ctx).trans (List.perm_append_singleton s.ctx (c :: cs)).symm)
    · cases h

theorem loadOp_consistent {s t : State} (hs : Consistent s) (h : loadOp s = .next t) : Consistent t := by
  unfold loadOp at h
  split at h
  · cases h
    exact hs
  · split at h
    · cases h
      exact hs
    · split at h
      · cases h
      · split at h <;> cases h
        exact setQueue_consistent hs _ _

/-! ### Steps -/

theorem runNext_consistent {s t : State} (hs : Consistent s) (h : runNext s = .next t) : Consistent t := by
  unfold runNext at h
  split at h
  · cases h
    exact finishOp_consistent hs
  · split at h
    · cases h
      exact handOver_consistent hs
    · split at h
      · cases h
      · exact exec_consistent hs h

theorem runTurn_consistent {turn : Turn} {s t : State} (hs : Consistent s) (h : runTurn turn s = .next t) :
    Consistent t := by
  cases turn with
  | poke a byte =>
    simp only [runTurn] at h
    cases h
    split
    · exact { hs with buf := Memory.put_wf _ _ hs.buf }
    · exact hs
  | run id n =>
    simp only [runTurn] at h
    split at h
    · cases h
      exact hs
    · next s1 h1 =>
      split at h <;> cases h
      next s2 h2 => exact sliceOp_consistent n (loadOp_consistent (selectCtx_consistent hs h1) h2)

/-- Settles O15: a step is a turn of the schedule or the running context's next operation, and both move a consistent
state by actions, by a reordering of the contexts and by one byte of the pixel buffer at most. -/
theorem everyStepKeepsConsistency : Obligations.EveryStepKeepsConsistency := by
  intro s t hs h
  unfold step runStep at h
  split at h
  · exact runNext_consistent hs h
  · next turn ts _ => exact runTurn_consistent (s := { s with sched := ts }) { hs with } h

end Sys2Proof.Machine
end

section
/-! Reading a bus (spec 41 R162 and R167, 42 R186): whatever the kind of bus and its wiring, a read drives pins of the
bus alone and changes besides them only receivers, traces and local variables; of a well-formed bus it reads a byte. -/

namespace Sys2Proof.Machine

/-! ### States between which only lines were driven and sampled -/

/-- From s to t pins of `xs` alone were driven, n serial bits were taken, and besides the lines with the receivers on
them only `PIN_TRACE`, the pads' answers, the draws and the local variables differ. -/
structure LinesRead (xs : List Pin) (n : Nat) (s t : State) : Prop where
  only : DrivesOnly s t xs
  bits : t.ctx.locals.bits.length = s.ctx.locals.bits.length + n
  frame : t = { s with ports := t.ports, shiftRx := t.shiftRx, pinTrace := t.pinTrace, pads := t.pads
                       draws := t.draws, ctx := { s.ctx with locals := t.ctx.locals } }

theorem LinesRead.trans {xs : List Pin} {m n : Nat} {s t u : State} (h : LinesRead xs m s t)
    (k : LinesRead xs n t u) : LinesRead xs (m + n) s u where
  only := h.only.trans k.only
  bits := by rw [k.bits, h.bits, Nat.add_assoc]
  frame := by
    have hframe := k.frame
    rw [h.frame] at hframe
    exact hframe

/-- In every state of configuration `c` the actions drive pins of `xs` alone and take n serial bits. -/
def ActsRead (c : Config) (xs : List Pin) (as : List Act) (n : Nat) : Prop :=
  ∀ s : State, s.config = c → LinesRead xs n s (runActs as s)

section
variable {c : Config} {xs : List Pin}

theorem actsRead_nil : ActsRead c xs [] 0 := fun s _ => ⟨.refl s xs, rfl, rfl⟩

theorem ActsRead.append {as bs : List Act} {m n : Nat} (h : ActsRead c xs as m) (k : ActsRead c xs bs n) :
    ActsRead c xs (as ++ bs) (m + n) := fun s hc => by
  rw [runActs_append]
  exact (h s hc).trans (k _ (by rw [runActs_config, hc]))

/-- Actions that drive lines, whatever value they drive, and note no bus write. -/
theorem actsRead_of_actsDrive {src : Src} {as : List Act} {items : Half → List PinItem}
    (h : ∀ v, ActsDrive c src v xs as (items v) []) : ActsRead c xs as 0 := fun s hc => by
  obtain ⟨honly, -, hbus, hframe⟩ := h _ s hc rfl
  rw [hbus, List.append_nil] at hframe
  exact ⟨honly, by rw [hframe, Nat.add_zero], by rw [hframe]⟩

theorem actsRead_lineActs {x : Pin} (high : Bool) (hx : x ∈ xs) : ActsRead c xs (lineActs x high) 0 :=
  actsRead_of_actsDrive (src := .loaded) fun _ => actsDrive_lineActs high hx

theorem actsRead_hold (n : Nat) : ActsRead c xs [.hold n] 0 :=
  actsRead_of_actsDrive (src := .loaded) fun _ => actsDrive_hold n

/-- One sample of a port (R23). -/
theorem actsRead_sample (p : Nat) : ActsRead c xs [.sample p] 0 := fun _ _ => ⟨drivesOnly_of_ports rfl xs, rfl, rfl⟩

theorem actsRead_packList (l : Nat) : ActsRead c xs [.packList l] 0 :=
  fun _ _ => ⟨drivesOnly_of_ports rfl xs, rfl, rfl⟩

theorem actsRead_packSerial (n : Nat) (msbFirst : Bool) : ActsRead c xs [.packSerial n msbFirst] 0 :=
  fun _ _ => ⟨drivesOnly_of_ports rfl xs, rfl, rfl⟩

/-! ### A read of either kind of bus -/

theorem actsRead_listReadActs (l : Nat) : ActsRead c xs (listReadActs c l) 0 := by
  refine ActsRead.append (m := 0) (n := 0) ?_ (actsRead_packList l)
  induction portsOf (listPins c l) with
  | nil => exact actsRead_nil
  | cons q qs ih => exact (actsRead_sample q).append ih

theorem actsRead_serialBits {w : ShiftCfg} (src : Src) (hclk : w.clk ∈ xs) (hdat : w.dat ∈ xs) (n : Nat) :
    ActsRead c xs (serialBits w src n) 0 := by
  induction n with
  | zero => exact actsRead_nil
  | succ n ih =>
    have hbit : ActsRead c xs (pinWriteBit w.dat n src) 0 := actsRead_of_actsDrive fun _ => actsDrive_pinWriteBit n hdat
    exact (((((actsRead_lineActs false hclk).append hbit).append (actsRead_hold _)).append
      (actsRead_lineActs true hclk)).append (actsRead_hold _)).append ih

theorem actsRead_serialWrite {w : ShiftCfg} (src : Src) (hclk : w.clk ∈ xs) (hdat : w.dat ∈ xs) (hcs : w.cs ∈ xs) :
    ActsRead c xs (serialWrite c w src) 0 := by
  rw [serialWrite, assertCs_eq, releaseCs_eq]
  exact ((actsRead_lineActs _ hcs).append (actsRead_serialBits src hclk hdat _)).append (actsRead_lineActs _ hcs)

/-- One sample of the input line takes one bit, also with the null pin (R186). -/
theorem actsRead_serialSample (x : Pin) : ActsRead c xs (serialSample x) 1 := by
  have htake (pos : Option (Fin 16)) : ActsRead c xs [.takeBit pos] 1 := fun _ _ =>
    ⟨drivesOnly_of_ports rfl xs, List.length_append, rfl⟩
  unfold serialSample
  split
  · exact htake _
  · exact (actsRead_sample _).append (htake _)

theorem actsRead_serialPulses {w : ShiftCfg} (hclk : w.clk ∈ xs) (n : Nat) :
    ActsRead c xs (List.replicate n (serialPulse w)).flatten n := by
  induction n with
  | zero => exact actsRead_nil
  | succ n ih =>
    have hpulse : ActsRead c xs (serialPulse w) 1 :=
      ((((actsRead_lineActs false hclk).append (actsRead_hold _)).append (actsRead_lineActs true hclk)).append
        (actsRead_hold _)).append (actsRead_serialSample _)
    rw [List.replicate_succ, List.flatten_cons, Nat.add_comm]
    exact hpulse.append ih

end

/-- The pulses of a serial read, its write of the seed before them (R186). -/
def serialShiftActs (c : Config) (w : ShiftCfg) : List Act :=
  serialWrite c w (.imm w.seed) ++ (List.replicate w.bits (serialPulse w)).flatten

theorem actsRead_serialShiftActs {c : Config} {xs : List Pin} {w : ShiftCfg} (h : ∀ x ∈ [w.clk, w.dat, w.cs], x ∈ xs) :
    ActsRead c xs (serialShiftActs c w) w.bits := by
  simp only [List.forall_mem_cons] at h
  obtain ⟨hclk, hdat, hcs, -⟩ := h
  exact Nat.zero_add w.bits ▸ (actsRead_serialWrite _ hclk hdat hcs).append (actsRead_serialPulses hclk _)

/-- A bus read up to its result and trace item (R167). -/
def busBodyActs (c : Config) (b : Nat) : List Act :=
  match c.buses[b]? with
  | some (.direct l _) => listReadActs c l
  | some (.shift w) => serialShiftActs c w ++ [.packSerial w.bits w.readMsbFirst]
  | none => []

theorem busReadActs_eq (c : Config) (b : Nat) : busReadActs c b = busBodyActs c b ++ [.busRd b] := by
  unfold busReadActs busBodyActs serialRead
  cases c.buses[b]? with
  | none => rfl
  | some bus => cases bus <;> rfl

/-- A bus read drives the pins a bus write drives, its seed being one (R167, R186). -/
theorem exists_actsRead_busBodyActs (c : Config) (b : Nat) : ∃ n, ActsRead c (busPins c b) (busBodyActs c b) n := by
  unfold busBodyActs busPins
  cases c.buses[b]? with
  | none => exact ⟨_, actsRead_nil⟩
  | some bus =>
    cases bus with
    | direct l cfg => exact ⟨_, actsRead_listReadActs l⟩
    | shift w => exact ⟨_, (actsRead_serialShiftActs fun _ => id).append (actsRead_packSerial _ _)⟩

/-! ### What is read is a byte -/

/-- Bits of a serial read go below bit n, if they are no more than n (R186). -/
theorem getLsbD_packBits_above {n : Nat} {msbFirst : Bool} {bits : List Bool} {j : Nat} (hn : n ≤ 16)
    (hj : j + bits.length ≤ n) {b : Nat} (hb : n ≤ b) : (packBits n msbFirst j bits).getLsbD b = false := by
  induction bits generalizing j with
  | nil => simp [packBits]
  | cons x bits ih =>
    rw [List.length_cons] at hj
    have hplace : (if msbFirst then n - 1 - j else j) < n := by split <;> omega
    have hne : b ≠ if msbFirst then n - 1 - j else j := by omega
    rw [packBits, BitVec.getLsbD_or, ih (by omega), Bool.or_false]
    cases x with
    | false => simp
    | true => rw [if_pos rfl, getLsbD_one_shiftLeft _ _ (by omega), decide_eq_false hne]

/-- A list of 8 pins packs to a byte (R162). -/
theorem getLsbD_packSamples_above {samples : List (Nat × Half)} {xs : List Pin} (hxs : xs.length ≤ 8) {b : Nat}
    (hb : 8 ≤ b) : (packSamples samples 0 xs).getLsbD b = false := by
  rw [getLsbD_packSamples _ _ _ (by omega), List.getElem?_eq_none (by omega), Bool.and_false]

/-- The widths of a well-formed bus: eight pins, or eight serial bits (D19). -/
theorem busOk_direct_length {c : Config} {l : Nat} {cfg : PinCfg} (h : c.busOk (.direct l cfg) = true) :
    (listPins c l).length = 8 := by
  simp only [Config.busOk] at h
  split at h
  · next xs hl =>
    simp only [Bool.and_eq_true, beq_iff_eq] at h
    obtain ⟨hlen, -⟩ := h
    rwa [listPins_of_get hl]
  · cases h

theorem busOk_shift_bits {c : Config} {w : ShiftCfg} (h : c.busOk (.shift w) = true) : w.bits = 8 := by
  simp only [Config.busOk, Bool.and_eq_true, beq_iff_eq] at h
  tauto

/-- The word a bus read leaves in `t` has no bit above a byte, if the operation began with no local variable. -/
theorem getLsbD_busBodyActs_above {s : State} {b i : Nat} (hc : s.config.wellFormed = true)
    (hlocals : s.ctx.locals = Locals.empty) (hi : 8 ≤ i) :
    (runActs (busBodyActs s.config b) s).ctx.locals.t.getLsbD i = false := by
  unfold busBodyActs
  cases hb : s.config.buses[b]? with
  | none =>
    show s.ctx.locals.t.getLsbD i = false
    rw [hlocals]
    exact BitVec.getLsbD_zero
  | some bus =>
    have hok := busOk_get hc hb
    cases bus with
    | direct l cfg =>
      simp only [listReadActs, runActs_append]
      show ((packSamples _ 0 (listPins (runActs _ s).config l)).setWidth 64).getLsbD i = false
      rw [runActs_config, getLsbD_setWidth_of_le _ (by decide),
        getLsbD_packSamples_above (busOk_direct_length hok).le hi]
    | shift w =>
      have hbits := (actsRead_serialShiftActs (c := s.config) (w := w) (fun _ => id) s rfl).bits
      have hw := busOk_shift_bits hok
      rw [hlocals, hw] at hbits
      simp only [runActs_append]
      show ((packBits w.bits w.readMsbFirst 0 (runActs _ s).ctx.locals.bits).setWidth 64).getLsbD i = false
      rw [hw, getLsbD_setWidth_of_le _ (by decide), getLsbD_packBits_above (by decide) (by rw [hbits]; decide) hi]

theorem setWidth_setWidth_byte {v : Word} (h : ∀ i, 8 ≤ i → v.getLsbD i = false) :
    (v.setWidth 8).setWidth 64 = v := by
  refine BitVec.eq_of_getLsbD_eq fun i hi => ?_
  rw [getLsbD_setWidth_of_le _ (by decide), BitVec.getLsbD_setWidth]
  by_cases hlt : i < 8
  · simp [hlt]
  · simp [hlt, h i (by omega)]

/-! ### The whole read -/

/-- The state once an operation that begins with a read of bus b has read it. -/
def State.afterBusRead (s : State) (b : Nat) : State := runActs (busReadActs s.config b) s.beginOp

/-- From s an operation has read bus b to r: it has driven pins of the bus alone, the word read is in `RES`, its byte in
`BUS_TRACE`. -/
structure BusReadDone (b : Nat) (s r : State) : Prop where
  only : DrivesOnly s r (busPins s.config b)
  bus : r.busTrace = s.busTrace ++ [.busRd b r.pollMask]
  ctx : r.ctx = { s.ctx with locals := r.ctx.locals, res := r.ctx.locals.t }
  frame : r = { s with ports := r.ports, shiftRx := r.shiftRx, pinTrace := r.pinTrace, busTrace := r.busTrace
                       pads := r.pads, draws := r.draws, ctx := r.ctx }

theorem busReadDone_afterBusRead (s : State) (b : Nat) : BusReadDone b s (s.afterBusRead b) := by
  obtain ⟨n, hread⟩ := exists_actsRead_busBodyActs s.config b
  obtain ⟨honly, -, hframe⟩ := hread s.beginOp rfl
  rw [State.afterBusRead, busReadActs_eq, runActs_append]
  generalize runActs (busBodyActs s.config b) s.beginOp = m at honly hframe
  refine ⟨honly, ?_, ?_, ?_⟩
  · have hbus : m.busTrace = s.busTrace := by rw [hframe]; rfl
    exact congrArg (· ++ _) hbus
  · have hctx : m.ctx = { s.ctx with locals := m.ctx.locals } := by rw [hframe]; rfl
    show { m.ctx with res := m.ctx.locals.t } = _
    rw [hctx]
    rfl
  · rw [hframe]
    rfl

/-- In a well-formed configuration the word read is the byte read (D19). -/
theorem pollMask_afterBusRead {s : State} (hc : s.config.wellFormed = true) (b : Nat) :
    (s.afterBusRead b).pollMask.setWidth 64 = (s.afterBusRead b).ctx.locals.t := by
  refine setWidth_setWidth_byte fun i hi => ?_
  rw [State.afterBusRead, busReadActs_eq, runActs_append]
  exact getLsbD_busBodyActs_above (s := s.beginOp) hc rfl hi

/-- `BRD` is that read (R167). -/
theorem exec_brd {s : State} {b : Byte} (h : BusReadable s b.toNat) :
    exec (.brd b) s = .next (runAct .retire (s.afterBusRead b.toNat)) := by
  refine (perform_next (busReadChecks_holds h)).trans ?_
  rw [runActs_append]
  rfl

end Sys2Proof.Machine
end

section
/-! The debounce detector (spec 45 R260 to R265, R268 and R269): creating a detector, one poll as what it makes of its
state and of the event trace, then a run of polls with nonzero reads and the release that ends it. -/

namespace Sys2Proof.Machine

/-! ### Creating a detector -/

/-- Settles O57: both checks hold, and the one action writes the detector's state. -/
theorem debounceInitIsIdle : Obligations.DebounceInitIsIdle := by
  intro d s hd hlen hready
  have hchecks : ∀ c ∈ (planKinit d s).checks, c.holds = true := by
    simp [planKinit, debExistsCheck, hd, hready]
  exact perform_next hchecks

/-! ### One poll -/

/-- A detector's state after a poll that read mask m (R262). -/
def Deb.polled (cntMax : Nat) (x : Deb) (m : Byte) : Deb := pollDone (pollState cntMax x m) m

theorem Deb.polled_of_ne_zero (cntMax : Nat) (x : Deb) {m : Byte} (hm : m ≠ 0) :
    x.polled cntMax m = ⟨x.ready, m, cntUp cntMax x.cnt, true⟩ := by
  have hm : (m != 0) = true := bne_iff_ne.mpr hm
  simp only [Deb.polled, pollDone, pollState, hm, if_true]

theorem Deb.polled_zero (cntMax : Nat) (x : Deb) : x.polled cntMax 0 = ⟨x.ready, 0, 0, false⟩ := rfl

theorem pollEvent_of_ne_zero (thresh : Nat) (x : Deb) {m : Byte} (hm : m ≠ 0) :
    pollEvent thresh x m = if x.cnt + 1 = thresh then some (.longTap m) else none := by
  have hm : (m != 0) = true := bne_iff_ne.mpr hm
  simp only [pollEvent, hm, if_true, beq_iff_eq]

theorem pollEvent_zero (thresh : Nat) (x : Deb) :
    pollEvent thresh x 0 = if x.prev then some (.release x.raw (decide (thresh ≤ x.cnt))) else none := rfl

/-- The items `EV_TRACE` gains from an event, if there is one (R268). -/
def eventItems (e : Option Event) (waiting : Bool) : List (Event × Bool) := e.toList.map (·, waiting)

theorem deb_set {s t : State} {d : Nat} {x : Deb} (h : t.debs = s.debs.set d x) (e : Nat) :
    t.deb e = if d = e ∧ d < s.debs.length then x else s.deb e := by
  simp only [State.deb, h, List.getD_eq_getElem?_getD, List.getElem?_set]
  by_cases he : d = e
  · subst he
    by_cases hl : d < s.debs.length <;> simp [hl]
  · simp [he]

theorem lt_of_deb_ready {s : State} {d : Nat} (h : (s.deb d).ready = true) : d < s.debs.length := by
  by_contra hn
  rw [State.deb, List.getD_eq_getElem?_getD, List.getElem?_eq_none (Nat.le_of_not_lt hn)] at h
  cases h

theorem thresh_congr {s t : State} (h : t.config = s.config) (d : Nat) : t.thresh d = s.thresh d := by
  rw [State.thresh, h, State.thresh]

/-- From r, where the bus is read, to t the end of a poll of detector d has counted or reset it and emitted
the event found, if any (R262). -/
structure Polled (d : Nat) (r t : State) : Prop where
  debs : t.debs = r.debs.set d ((r.deb d).polled r.config.cntMax r.pollMask)
  events : t.evTrace = r.evTrace ++ eventItems (pollEvent (r.thresh d) (r.deb d) r.pollMask) r.waitAnswer
  frame : t = { r with debs := t.debs, evTrace := t.evTrace, waits := t.waits, draws := t.draws
                       ctx := { r.ctx with locals := t.ctx.locals } }

theorem Polled.lines {d : Nat} {r t : State} (h : Polled d r t) :
    t.ports = r.ports ∧ t.pinTrace = r.pinTrace ∧ t.busTrace = r.busTrace :=
  ⟨(congrArg State.ports h.frame :), (congrArg State.pinTrace h.frame :), (congrArg State.busTrace h.frame :)⟩

theorem emitEvent_some {s : State} {e : Event} (h : s.ctx.locals.event = some e) : s.emitEvent =
    { s with evTrace := s.evTrace ++ [(e, s.waitAnswer)], waits := s.waits.tail, draws := s.draws + 1 } := by
  simp [State.emitEvent, h, State.drawn]

theorem emitEvent_none {s : State} (h : s.ctx.locals.event = none) : s.emitEvent = s := by
  simp [State.emitEvent, h]

theorem polled_runActs {d : Nat} {r : State} (hd : d < r.debs.length) :
    Polled d r (runActs [.pollUpdate d, .emit, .pollEnd d] r) := by
  have hdeb : (r.pollUpdate d).deb d = pollState r.config.cntMax (r.deb d) r.pollMask :=
    (deb_set (s := r) (t := r.pollUpdate d) rfl d).trans (if_pos ⟨rfl, hd⟩)
  have hset : (r.pollUpdate d).debs.set d (pollDone ((r.pollUpdate d).deb d) r.pollMask) =
      r.debs.set d ((r.deb d).polled r.config.cntMax r.pollMask) := by
    rw [hdeb]
    exact List.set_set ..
  show Polled d r ((r.pollUpdate d).emitEvent.pollEnd d)
  cases he : pollEvent (r.thresh d) (r.deb d) r.pollMask with
  | none =>
    rw [emitEvent_none he]
    exact ⟨hset, by rw [he]; exact (List.append_nil _).symm, rfl⟩
  | some e =>
    rw [emitEvent_some he]
    exact ⟨hset, by rw [he]; rfl, rfl⟩

/-- The state once a poll of detector d has read its bus and emitted its event, before it retires (R262). -/
def State.afterPoll (s : State) (d : Nat) : State :=
  runActs [.pollUpdate d, .emit, .pollEnd d] (s.afterBusRead (debBus s.config d))

/-- `KPOLL` is such a poll, if its checks hold (R262). -/
theorem exec_kpoll_eq_next {d : Byte} {s t : State} : exec (.kpoll d) s = .next t ↔
    (d.toNat < s.config.debs.length ∧ (s.deb d.toNat).ready = true ∧
      ∀ c ∈ busReadChecks s (debBus s.config d.toNat), c.holds = true) ∧ t = runAct .retire (s.afterPoll d.toNat) := by
  have hchecks : (∀ c ∈ (planKpoll d s).checks, c.holds = true) ↔ d.toNat < s.config.debs.length ∧
      (s.deb d.toNat).ready = true ∧ ∀ c ∈ busReadChecks s (debBus s.config d.toNat), c.holds = true := by
    simp [planKpoll, debExistsCheck]
  refine perform_eq_next.trans (and_congr hchecks (Eq.congr_right ?_))
  simp only [planKpoll, runActs_append]
  rfl

theorem BusReadDone.debs {b : Nat} {s r : State} (h : BusReadDone b s r) : r.debs = s.debs :=
  (congrArg State.debs h.frame :)

theorem polled_afterPoll {s : State} {d : Nat} (hd : d < s.debs.length) :
    Polled d (s.afterBusRead (debBus s.config d)) (s.afterPoll d) :=
  polled_runActs (by rwa [(busReadDone_afterBusRead s _).debs])

/-- What a poll whose read gave m leaves of the detectors and of `EV_TRACE` (R262). -/
structure PollStep (d : Nat) (s : State) (m : Byte) (t : State) : Prop where
  config : t.config = s.config
  deb : t.deb d = (s.deb d).polled s.config.cntMax m
  others : ∀ e, e ≠ d → t.deb e = s.deb e
  events : ∃ w, (∀ a, s.waits.head? = some a → w = a) ∧
    t.evTrace = s.evTrace ++ eventItems (pollEvent (s.thresh d) (s.deb d) m) w

theorem waitAnswer_eq {s : State} {a : Bool} (h : s.waits.head? = some a) : s.waitAnswer = a := by
  obtain ⟨ws, hws⟩ := List.head?_eq_some_iff.mp h
  rw [State.waitAnswer, hws]

/-- The read of the bus leaves the detectors, `EV_TRACE` and the answers of `WAITING()` as they were. -/
theorem pollStep_afterPoll {s : State} {d : Nat} (hd : d < s.debs.length) :
    PollStep d s (s.afterBusRead (debBus s.config d)).pollMask (runAct .retire (s.afterPoll d)) := by
  have hread := busReadDone_afterBusRead s (debBus s.config d)
  have hpoll := polled_afterPoll hd
  generalize s.afterBusRead (debBus s.config d) = r at hread hpoll
  have hconfig : r.config = s.config := (congrArg State.config hread.frame :)
  have hwaits : r.waits = s.waits := (congrArg State.waits hread.frame :)
  have hev : r.evTrace = s.evTrace := (congrArg State.evTrace hread.frame :)
  have hdeb (e : Nat) : r.deb e = s.deb e := by rw [State.deb, hread.debs, State.deb]
  have hset := hpoll.debs
  have hevents := hpoll.events
  rw [hdeb, hread.debs, hconfig] at hset
  rw [hdeb, thresh_congr hconfig, hev] at hevents
  exact ⟨(congrArg State.config hpoll.frame :).trans hconfig, (deb_set hset d).trans (if_pos ⟨rfl, hd⟩),
    fun e he => (deb_set hset e).trans (if_neg fun h => he h.1.symm),
    r.waitAnswer, fun a ha => waitAnswer_eq (hwaits ▸ ha), hevents⟩

/-! ### A run of nonzero reads -/

/-- A poll by the item its read left in `BUS_TRACE`. -/
theorem pollStep_of_exec {d m : Byte} {s t : State} (h : exec (.kpoll d) s = .next t)
    (hm : t.busTrace = s.busTrace ++ [.busRd (debBus s.config d.toNat) m]) : PollStep d.toNat s m t := by
  obtain ⟨⟨-, hready, -⟩, rfl⟩ := exec_kpoll_eq_next.mp h
  have hd := lt_of_deb_ready hready
  obtain ⟨-, -, hkeeps⟩ := (polled_afterPoll hd).lines
  have hitem := (hkeeps.trans (busReadDone_afterBusRead s _).bus).symm.trans hm
  obtain rfl : _ = m := by simpa using hitem
  exact pollStep_afterPoll hd

theorem PollStep.eventNames {d : Nat} {s t : State} {m : Byte} (h : PollStep d s m t) :
    t.evTrace.map Prod.fst = s.evTrace.map Prod.fst ++ (pollEvent (s.thresh d) (s.deb d) m).toList := by
  obtain ⟨w, -, hev⟩ := h.events
  rw [hev, List.map_append, eventItems, List.map_map]
  simp [Function.comp_def]

/-- The long taps of reads `ms`, all nonzero, from a hold counter k on: the one that takes the counter to T (R264). -/
def longTaps (T k : Nat) (ms : List Byte) : List Event :=
  if k < T ∧ T ≤ k + ms.length then [.longTap (ms.getD (T - 1 - k) 0)] else []

/-- Past the threshold no long tap comes any more. -/
theorem longTaps_of_le {T k : Nat} (h : T ≤ k) (ms : List Byte) : longTaps T k ms = [] :=
  if_neg fun ⟨hlt, _⟩ => absurd hlt h.not_gt

/-- A counter that saturates at its maximum misses no long tap of a threshold up to it (R263). -/
theorem longTaps_cntUp {T cntMax : Nat} (hT : T ≤ cntMax) (k : Nat) (ms : List Byte) :
    longTaps T (cntUp cntMax k) ms = longTaps T (k + 1) ms := by
  unfold cntUp
  split
  · rfl
  · rw [longTaps_of_le (by omega), longTaps_of_le (by omega)]

theorem longTaps_cons (T k : Nat) (m : Byte) (ms : List Byte) :
    longTaps T k (m :: ms) = (if k + 1 = T then [.longTap m] else []) ++ longTaps T (k + 1) ms := by
  unfold longTaps
  rcases Nat.lt_trichotomy (k + 1) T with hlt | rfl | hgt
  · have hpos : T - 1 - k = (T - 1 - (k + 1)) + 1 := by omega
    have hiff : (k < T ∧ T ≤ k + (m :: ms).length) ↔ k + 1 < T ∧ T ≤ k + 1 + ms.length := by
      rw [List.length_cons]
      omega
    rw [if_neg hlt.ne, List.nil_append, if_congr hiff (by rw [hpos, List.getD_cons_succ]) rfl]
  · simp
  · rw [← longTaps, ← longTaps, longTaps_of_le (Nat.le_of_lt_succ hgt), longTaps_of_le hgt.le, if_neg hgt.ne']
    rfl

/-- From s to t detector d was held through nonzero reads `ms` (R264, R265). -/
structure Held (d : Nat) (s : State) (ms : List Byte) (t : State) : Prop where
  config : t.config = s.config
  events : t.evTrace.map Prod.fst = s.evTrace.map Prod.fst ++ longTaps (s.thresh d) (s.deb d).cnt ms
  reached : s.thresh d ≤ (t.deb d).cnt ↔ s.thresh d ≤ (s.deb d).cnt + ms.length
  raw : (t.deb d).raw = ms.getLastD (s.deb d).raw
  prev : (t.deb d).prev = ((s.deb d).prev || !ms.isEmpty)

theorem Held.nil (d : Nat) (s : State) : Held d s [] s := by
  refine ⟨rfl, ?_, Iff.rfl, rfl, (Bool.or_false _).symm⟩
  have hnone : ¬((s.deb d).cnt < s.thresh d ∧ s.thresh d ≤ (s.deb d).cnt) := by omega
  simp [longTaps, hnone]

/-- A first nonzero read, then the others. -/
theorem Held.cons {d : Nat} {s u t : State} {m : Byte} {ms : List Byte} (hT : s.thresh d ≤ s.config.cntMax)
    (hm : m ≠ 0) (h : PollStep d s m u) (k : Held d u ms t) : Held d s (m :: ms) t := by
  have hdeb := h.deb
  rw [Deb.polled_of_ne_zero _ _ hm] at hdeb
  obtain ⟨hconfig, hevents, hreached, hraw, hprev⟩ := k
  simp only [thresh_congr h.config, hdeb] at hevents hreached hraw hprev
  refine ⟨hconfig.trans h.config, ?_, hreached.trans ?_, by rw [hraw, List.getLastD_cons], by rw [hprev]; simp⟩
  · rw [hevents, h.eventNames, pollEvent_of_ne_zero _ _ hm, longTaps_cons, List.append_assoc,
      longTaps_cntUp hT]
    split <;> rfl
  · unfold cntUp
    rw [List.length_cons]
    split <;> omega

/-- Every run of polls with nonzero reads is such a hold, by induction on the run. -/
theorem PollRun.held {d : Byte} {s t : State} {ms : List Byte} (h : PollRun d s ms t) (hms : ∀ m ∈ ms, m ≠ 0)
    (hT : s.thresh d.toNat ≤ s.config.cntMax) : Held d.toNat s ms t := by
  induction h with
  | done s => exact .nil _ s
  | poll hexec hm rest ih =>
    obtain ⟨hm0, hms⟩ := List.forall_mem_cons.mp hms
    have hstep := pollStep_of_exec hexec hm
    exact .cons hT hm0 hstep (ih hms (by rwa [thresh_congr hstep.config, hstep.config]))

/-- Settles O59: from Idle the counter starts at 0, so the long tap is that of the T-th read; the zero read releases
what was held. -/
theorem holdEmitsOneLongTapAndOneRelease : Obligations.HoldEmitsOneLongTapAndOneRelease := by
  intro d s t ms hT1 hT hprev hcnt hms hrun
  obtain ⟨hconfig, hevents, hreached, hraw, hactive⟩ := hrun.held hms hT
  rw [hcnt, Nat.zero_add] at hreached
  refine ⟨?_, fun u hne hzero => ?_⟩
  · rw [hevents, hcnt, longTaps, Nat.zero_add, Nat.sub_zero]
    simp [Nat.lt_of_lt_of_le Nat.zero_lt_one hT1]
  · cases hzero with
    | poll hexec hm rest =>
      cases rest
      have hstep := pollStep_of_exec hexec hm
      have hdeb := hstep.deb
      rw [Deb.polled_zero] at hdeb
      have hlast : ms.getLastD (s.deb d.toNat).raw = ms.getLastD 0 := by
        cases ms with
        | nil => exact absurd rfl hne
        | cons m ms => rw [List.getLastD_cons, List.getLastD_cons]
      have hheld : (t.deb d.toNat).prev = true := by simp [hactive, hne]
      refine ⟨?_, by rw [hdeb], by rw [hdeb], by rw [hdeb]⟩
      rw [hstep.eventNames, pollEvent_zero, if_pos hheld, hraw, hlast, thresh_congr hconfig,
        decide_eq_decide.mpr hreached]
      rfl

/-! ### What one poll leaves -/

/-- The context after a poll, its result the byte read. -/
theorem Polled.ctx_retire {d b : Nat} {s r t : State} (hpoll : Polled d r t) (hread : BusReadDone b s r)
    (hres : r.pollMask.setWidth 64 = r.ctx.locals.t) :
    (runAct .retire t).ctx = advancedRes s.ctx (r.pollMask.setWidth 64) := by
  have hctx : t.ctx = { r.ctx with locals := t.ctx.locals } := (congrArg State.ctx hpoll.frame :)
  show advanced t.ctx = _
  rw [hctx, hread.ctx, hres]
  rfl

theorem Polled.frame_over_read {d b : Nat} {s r t : State} (hpoll : Polled d r t) (hread : BusReadDone b s r) :
    t = { s with ports := t.ports, shiftRx := t.shiftRx, debs := t.debs, pinTrace := t.pinTrace
                 busTrace := t.busTrace, evTrace := t.evTrace, ctx := t.ctx, pads := t.pads, waits := t.waits
                 draws := t.draws } := by
  have hframe := hpoll.frame
  rw [hread.frame] at hframe
  rw [hframe]

/-- Settles O58: the bus is read as `BRD` reads it, and by the byte read the poll counts or resets; both branches leave
the rest of the state as the read left it. -/
theorem pollCountsAndEmits : Obligations.PollCountsAndEmits := by
  rintro d s bus hs hd hready rfl hbus
  have hlen : d.toNat < s.debs.length := hs.debsLen ▸ hd
  have hexec := exec_kpoll_eq_next.mpr ⟨⟨hd, hready, busReadChecks_holds hbus⟩, rfl⟩
  have hread := busReadDone_afterBusRead s (debBus s.config d.toNat)
  have hres := pollMask_afterBusRead hs.config (debBus s.config d.toNat)
  have hpoll := polled_afterPoll hlen
  obtain ⟨hports, hpins, hbusTrace⟩ := hpoll.lines
  obtain ⟨-, hdeb, hothers, w, hw, hev⟩ := pollStep_afterPoll hlen
  refine ⟨_, _, w, hexec, hpoll.ctx_retire hread hres, hbusTrace.trans hread.bus, hw, fun hm => ?_, fun hm => ?_,
    hothers, hread.only.trans (drivesOnly_of_ports hports _), fun b hb => ?_,
    congrArg (runAct .retire) (hpoll.frame_over_read hread)⟩
  · rw [hdeb, hev, Deb.polled_of_ne_zero _ _ hm, pollEvent_of_ne_zero _ _ hm, hready]
    refine ⟨rfl, ?_⟩
    split <;> rfl
  · rw [hdeb, hev, hm, Deb.polled_zero, pollEvent_zero, hready]
    refine ⟨rfl, ?_⟩
    split <;> rfl
  · have hbrd := exec_brd (hb ▸ hbus)
    rw [hb] at hbrd
    refine ⟨_, hbrd, ?_, hports.symm, hpins.symm⟩
    show (s.afterBusRead _).ctx.res = _
    rw [hread.ctx, hres]

end Sys2Proof.Machine
end

section
/-! A turn and the contexts it is not for (spec 60 R297): a turn makes its own context the running one, which only
reorders the contexts, and from there on nothing touches the parked ones. -/

namespace Sys2Proof.Machine

theorem takeCtx_id {id : Nat} {l cs : List Ctx} {c : Ctx} (h : takeCtx id l = some (c, cs)) : c.id = id := by
  induction l generalizing c cs with
  | nil => cases h
  | cons x xs ih =>
    simp only [takeCtx] at h
    split at h
    · next hx =>
      cases h
      exact hx
    · split at h
      · next d ds hd =>
        cases h
        exact ih hd
      · cases h

/-- Selecting a context makes one with its number the running one, and only reorders the contexts. -/
theorem selectCtx_id_perm {id : Nat} {s t : State} (h : selectCtx id s = some t) :
    t.ctx.id = id ∧ (s.ctx :: s.parked).Perm (t.ctx :: t.parked) := by
  unfold selectCtx at h
  split at h
  · next hid =>
    cases h
    exact ⟨hid, .refl _⟩
  · split at h
    · next c cs hc =>
      cases h
      exact ⟨takeCtx_id hc, ((takeCtx_perm hc).cons s.ctx).trans (List.perm_append_singleton s.ctx (c :: cs)).symm⟩
    · cases h

theorem loadOp_parked {s t : State} (h : loadOp s = .next t) : t.parked = s.parked := by
  unfold loadOp at h
  split at h
  · cases h
    rfl
  · split at h
    · cases h
      rfl
    · split at h
      · cases h
      · split at h <;> cases h
        rfl

theorem runSome_sameHost (n : Nat) (as : List Act) (s : State) : SameHost s (runSome n as s).1 := by
  fun_induction runSome n as s with
  | case1 n s => exact .refl s
  | case2 a as s _ => exact .refl s
  | case3 a as s _ m ih => exact (runAct_sameHost a s).trans ih
  | case4 n a as s _ ih => exact (runAct_sameHost a s).trans ih

theorem sliceOp_parked (n : Nat) (s : State) : (sliceOp n s).parked = s.parked :=
  (runSome_sameHost n s.ctx.queue s).parked

/-- A turn of a context that does not exist moves nothing; any other leaves parked what selecting its context parks. -/
theorem runTurn_run_parked {id n : Nat} {s t : State} (h : runTurn (.run id n) s = .next t) :
    t = s ∨ ∃ s1, selectCtx id s = some s1 ∧ t.parked = s1.parked := by
  simp only [runTurn] at h
  split at h
  · cases h
    exact .inl rfl
  · next s1 h1 =>
    split at h <;> cases h
    next s2 h2 => exact .inr ⟨s1, h1, (sliceOp_parked n s2).trans (loadOp_parked h2)⟩

/-- Settles O9: a context with another number is not the one the turn selects, so it is parked, and stays so. -/
theorem turnsLeaveOtherContextsAlone : Obligations.TurnsLeaveOtherContextsAlone := by
  intro s t id n ts hsched h c hc hne
  have hturn : runTurn (.run id n) { s with sched := ts } = .next t := by simpa [step, runStep, hsched] using h
  obtain rfl | ⟨s1, hselect, hparked⟩ := runTurn_run_parked hturn
  · exact hc
  · obtain ⟨hid, hperm⟩ := selectCtx_id_perm hselect
    have hother : c ≠ s1.ctx := fun heq => hne (heq ▸ hid)
    have hmem : c ∈ s1.parked := (List.mem_cons.mp (hperm.mem_iff.mp hc)).resolve_left hother
    exact List.mem_cons_of_mem _ (hparked ▸ hmem)

end Sys2Proof.Machine
end

section
/-! Decoding undoes encoding (spec 30 R91 to R93): a word that decodes puts its fields back from the operation, and the
eight bytes of a word, lowest address first, are the word again. -/

namespace Sys2Proof

/-! ### Words -/

/-- A field whose high bits are zero is its low part, widened. -/
theorem setWidth_of_highZero {k : Nat} {x : Half} (h : highZero k x = true) : (x.setWidth k).setWidth 16 = x := by
  ext i hi
  have hbits := congrArg (fun y => y.getLsbD (i - k)) (beq_iff_eq.mp h)
  by_cases hk : i < k
  · simp [hk, hi]
  · simp [show k + (i - k) = i by omega, hi] at hbits
    simp [hk, hbits]

theorem extractLsb'_append_halves (b c : Half) :
    (b ++ c : BitVec 32).extractLsb' 16 16 = b ∧ (b ++ c : BitVec 32).extractLsb' 0 16 = c :=
  ⟨BitVec.extractLsb'_append_eq_left, BitVec.extractLsb'_append_eq_right⟩

/-- The decoder leaves no bit of the fields out: what it does not put into an operand it checks to be zero. -/
theorem encodeFields_of_decodeFields {w : Word} {f : CommandWord} {i : Instr} (h : decodeFields w f = .ok i) :
    encodeFields i = f := by
  obtain ⟨opc, sel, a, b, c⟩ := f
  simp only [decodeFields] at h
  split at h
  case h_19 => cases h; rfl
  case h_25 => cases h
  all_goals
    obtain ⟨hz, rfl⟩ := mustBeZero_eq_ok.mp h
    simp_all [encodeFields, lowByte, setWidth_of_highZero, extractLsb'_append_halves]

/-- R91 to R93: a word decodes to the operation whose word it is. -/
theorem decode_eq_ok_iff {w : Word} {i : Instr} : decode w = .ok i ↔ encode i = w := by
  constructor
  · intro h
    rw [encode, encodeFields_of_decodeFields h, CommandWord.toWord_ofWord]
  · rintro rfl
    exact decode_encode i

/-! ### Bytes -/

theorem length_bytesOfWord (n : Nat) (w : Word) : (bytesOfWord n w).length = n := by
  induction n generalizing w with
  | zero => rfl
  | succ n ih => simp [bytesOfWord, ih]

/-- The low n bytes of a word hold its low 8·n bits. -/
theorem getLsbD_wordOfBytes_bytesOfWord (n : Nat) (w : Word) (i : Nat) :
    (wordOfBytes (bytesOfWord n w)).getLsbD i = (decide (i < 8 * n) && w.getLsbD i) := by
  induction n generalizing w i with
  | zero => simp [bytesOfWord, wordOfBytes]
  | succ n ih =>
    simp only [bytesOfWord, wordOfBytes, BitVec.getLsbD_or, BitVec.getLsbD_shiftLeft, BitVec.getLsbD_setWidth,
      BitVec.getLsbD_ushiftRight, ih]
    have hge := w.getLsbD_of_ge i
    by_cases hi : i < 8 <;> grind

theorem wordOfBytes_bytesOfWord (w : Word) : wordOfBytes (bytesOfWord 8 w) = w := by
  refine BitVec.eq_of_getLsbD_eq fun i hi => ?_
  rw [getLsbD_wordOfBytes_bytesOfWord, decide_eq_true hi, Bool.true_and]

theorem decodeBytes_encodeBytes (i : Instr) (rest : List Byte) :
    decodeBytes (encodeBytes i ++ rest) = .ok (i, rest) := by
  have hlen : (encodeBytes i).length = 8 := length_bytesOfWord 8 _
  have hword : wordOfBytes (encodeBytes i) = encode i := wordOfBytes_bytesOfWord _
  simp [decodeBytes, hlen, hword]

theorem decodeTableWord_encode (i : Instr) : decodeTableWord 64 (encode i).toNat = some i := by
  have hbytes : bytesOfWord 8 (BitVec.ofNat 64 ((encode i).toNat % 2 ^ 64)) = encodeBytes i ++ [] := by
    rw [Nat.mod_eq_of_lt (encode i).isLt, BitVec.ofNat_toNat, BitVec.setWidth_eq, encodeBytes, List.append_nil]
  rw [decodeTableWord, hbytes, decodeBytes_encodeBytes]

/-- Settles O1: the decoder and the encoder are inverse on words, and a word's bytes are the word. -/
theorem decodingInvertsEncoding : Obligations.DecodingInvertsEncoding :=
  ⟨fun _ _ => decode_eq_ok_iff, fun i rest => ⟨decodeBytes_encodeBytes i rest, decodeTableWord_encode i⟩⟩

/-- Settles O4: each of the seven words is the word of its operation. -/
theorem specWordsDecode : Obligations.SpecWordsDecode := by
  refine ⟨?_, ?_, ?_, ?_, ?_, ?_, ?_⟩ <;> exact decode_eq_ok_iff.mpr (by decide)

end Sys2Proof
end

section
/-! The state after reset (spec 10 R48 and section 11, 70 R310 and R311): nothing enabled, initialised or holding a
value, and consistent in every well-formed configuration. -/

namespace Sys2Proof.Machine

theorem getD_map_const {α β : Type} (l : List α) (b : β) (n : Nat) : (l.map fun _ => b).getD n b = b := by
  rw [List.getD_eq_getElem?_getD, List.getElem?_map]
  cases l[n]? <;> rfl

theorem regBit_noValue {w : Nat} (i : Nat) : regBit (Reg.noValue : Reg w) i = none := by
  simp [regBit, Reg.noValue]

@[simp] theorem resetWith_port (c : Config) (p : Nat) : (State.resetWith c).port p = Port.reset :=
  getD_map_const c.ports Port.reset p

@[simp] theorem resetWith_deb (c : Config) (d : Nat) : (State.resetWith c).deb d = Deb.reset :=
  getD_map_const c.debs Deb.reset d

theorem cfgReg_reset (k : CfgReg) : cfgReg Port.reset k = Reg.noValue := by
  cases k <;> rfl

/-- Every context of the reset state is one after reset (R48, R297). -/
theorem eq_reset_of_mem_resetWith {c : Config} {x : Ctx}
    (hx : x ∈ (State.resetWith c).ctx :: (State.resetWith c).parked) : ∃ id, x = Ctx.reset id := by
  rcases List.mem_cons.mp hx with rfl | hx
  · exact ⟨0, rfl⟩
  · obtain ⟨id, -, rfl⟩ := List.mem_map.mp hx
    exact ⟨id, rfl⟩

/-- Settles O13: ports, detectors and contexts are those of reset, whatever the configuration. -/
theorem resetLeavesNothingEnabled : Obligations.ResetLeavesNothingEnabled := by
  intro c
  refine ⟨fun p => ?_, getD_map_const c.buses false, rfl, fun d => ?_, fun p i => ⟨?_, fun k => ?_⟩, fun x hx => ?_,
    fun rx hrx i => ?_, fun _ => rfl, fun i => ⟨regBit_noValue i, regBit_noValue i⟩, rfl, rfl, rfl, rfl, fun hc => ?_⟩
  · rw [State.enabled, resetWith_port]
    rfl
  · rw [resetWith_deb]
    rfl
  · rw [resetWith_port]
    exact regBit_noValue i
  · rw [resetWith_port, cfgReg_reset]
    exact regBit_noValue i
  · obtain ⟨id, rfl⟩ := eq_reset_of_mem_resetWith hx
    exact ⟨rfl, rfl, fun _ => rfl⟩
  · obtain ⟨_, -, rfl⟩ := List.mem_map.mp hrx
    exact ⟨regBit_noValue i, regBit_noValue i⟩
  · simp [State.resetWith]
    omega

/-- Receivers without a value have the width of their buses (R35). -/
theorem shiftRxOk_reset (bs : List BusCfg) :
    shiftRxOk bs (bs.map fun _ => ⟨Reg.noValue, Reg.noValue⟩) = true := by
  induction bs with
  | nil => rfl
  | cons b bs ih =>
    cases b with
    | direct l cfg => exact ih
    | shift w => simpa [shiftRxOk, regOk_noValue] using ih

theorem resetWith_consistent {c : Config} (h : c.wellFormed = true) : Consistent (State.resetWith c) where
  config := h
  portsLen := List.length_map _
  busLen := List.length_map _
  rxLen := List.length_map _
  debsLen := List.length_map _
  ports := by simp [State.resetWith, portOk_reset]
  debs := by simp [State.resetWith, debStateOk, Deb.reset]
  rx := shiftRxOk_reset c.buses
  pp := regOk_noValue _
  cptr := regOk_noValue _
  buf := rfl
  gram := rfl
  gbufs := List.all_eq_true.mpr (resetWith_memory_wf c).2.2

/-- Settles O14: the configuration T passes the build-time checks. -/
theorem resetIsConsistent : Obligations.ResetIsConsistent :=
  ⟨fun _ => resetWith_consistent, resetWith_consistent (by decide)⟩

end Sys2Proof.Machine
end

section
/-! Bit expansion (spec 40 R131): its bits, and the laws that follow bit by bit. -/

namespace Sys2Proof.Machine

section
variable {N : Nat} (hN : 0 < N) (hN4 : N ≤ 4)
include hN hN4

/-- A pin's bit of the mask stands for a bit below `16·N` (R131). -/
theorem getLsbD_expand_lt (m : Half) (b : Nat) :
    (expand N m).getLsbD b = (decide (b < 16 * N) && m.getLsbD (b / N)) := by
  rw [getLsbD_expand hN hN4]
  by_cases hb : b / N < 16
  · simp [(Nat.div_lt_iff_lt_mul hN).mp hb]
  · simp [BitVec.getLsbD_of_ge m (b / N) (by omega)]

theorem expand_zero : expand N 0 = 0 := by
  refine BitVec.eq_of_getLsbD_eq fun b _ => ?_
  simp [getLsbD_expand hN hN4]

theorem expand_or (a b : Half) : expand N (a ||| b) = expand N a ||| expand N b := by
  refine BitVec.eq_of_getLsbD_eq fun i _ => ?_
  simp [getLsbD_expand hN hN4]

theorem expand_and (a b : Half) : expand N (a &&& b) = expand N a &&& expand N b := by
  refine BitVec.eq_of_getLsbD_eq fun i _ => ?_
  simp [getLsbD_expand hN hN4]

/-- The complement of a mask expands to the complement inside the `16·N` bits of the register (R131). -/
theorem expand_not (a : Half) : expand N (~~~a) = ~~~expand N a &&& fullMask N := by
  refine BitVec.eq_of_getLsbD_eq fun i hi => ?_
  rw [getLsbD_expand hN hN4, BitVec.getLsbD_and, BitVec.getLsbD_not, BitVec.getLsbD_not, getLsbD_expand hN hN4,
    getLsbD_fullMask hN hN4, decide_eq_true hi, Bool.true_and, Bool.and_comm]
  simp only [Nat.div_lt_iff_lt_mul hN]

end

/-- Settles O26: a field width is 2 or 4, where every law holds bit by bit. -/
theorem expansionReplicatesEachBit : Obligations.ExpansionReplicatesEachBit := by
  intro N h
  have hN : 0 < N := by omega
  have hN4 : N ≤ 4 := by omega
  refine ⟨getLsbD_expand_lt hN hN4, expand_zero hN hN4, ?_, expand_or hN hN4, expand_and hN hN4, expand_not hN hN4⟩
  rcases h with rfl | rfl <;> decide

end Sys2Proof.Machine
end

section
/-! Where a page write leaves the display RAM (spec 43 R220), and the two glyph widths a reader can check by eye (44
R247, R249, R250). -/

namespace Sys2Proof.Machine

/-- Settles O49: a page write draws its row and leaves the pointers behind it. -/
theorem putPageFillsTheRam : Obligations.PutPageFillsTheRam := by
  intro x1 x2 page buf s pg n c0 hs hdisplay hready hx hpg hn hc0 hbuf
  obtain ⟨t, hexec, -, hpoints, hrow⟩ := exec_dputp_draws hpg hc0 hn (profile_ok hs.config) hdisplay hready hx hbuf
  exact ⟨t, hexec, hrow.written, hrow.kept, hpoints.pp, hpoints.cptr⟩

/-- A row-plane of width 1 is one byte, its bits in the source's numbering (R247, R250). -/
theorem glyphSourceBit_width_one (msbFirst : Bool) {f : Font} (hwidth : f.width = 1) (g n : Nat) {k : Nat}
    (hk : k < 8) : glyphSourceBit msbFirst f g n k =
      (f.blob.getD (g * f.heightInBytes + n) 0).getLsbD (if msbFirst then 7 - k else k) := by
  have hrow := glyphSourceBit_row msbFirst (f := f) g n k (i := 0) (by omega)
  simpa [hwidth, Nat.div_eq_of_lt hk, Nat.mod_eq_of_lt hk] using hrow

/-- In a row-plane of width 8 stream bit `8·k + i` is bit i of byte k (R249). -/
theorem glyphSourceBit_width_eight {f : Font} (hwidth : f.width = 8) (g h : Nat) {i : Nat} (k : Nat) (hi : i < 8) :
    glyphSourceBit false f g (h * 8 + i) k = (f.blob.getD (g * (8 * f.heightInBytes) + h * 8 + k) 0).getLsbD i := by
  have hrow := glyphSourceBit_row false (f := f) g h k (i := i) (by omega)
  rwa [hwidth, glyphIndex_div k hi, Nat.mul_add_mod_of_lt hi, if_neg Bool.false_ne_true] at hrow

/-- Settles O56: each destination byte below `W·HB` is transcoded, and at these widths its source bits stand in one byte
or in one bit of eight. -/
theorem narrowGlyphsPassAndSquareOnesTranspose : Obligations.NarrowGlyphsPassAndSquareOnesTranspose := by
  intro f cp font s hfont hfirst hlast
  obtain ⟨gbuf, hexec, htrans⟩ := exec_gbmp_present hfont (fontHas_iff.mpr ⟨hfirst, hlast⟩)
  refine ⟨_, hexec, fun hwidth n hn => ?_, fun hwidth hmsb h i k hh hi hk => ?_⟩
  · have hbits := htrans.written n (by rwa [hwidth, Nat.one_mul])
    obtain ⟨d, hd, -⟩ := Option.map_eq_some_iff.mp (hbits 0 (by decide))
    have hbit : ∀ k < 8, d.getLsbD k = (font.blob.getD ((cp.toNat - font.first) * font.heightInBytes + n) 0).getLsbD
        (if s.config.glyphSrcMsbFirst then 7 - k else k) := fun k hk => by
      have hk' := hbits k hk
      rw [hd, glyphSourceBit_width_one _ hwidth _ _ hk] at hk'
      exact Option.some.inj hk'
    refine ⟨d, hd, fun hmsb => BitVec.eq_of_getLsbD_eq fun k hk => ?_, fun hmsb k hk => ?_⟩
    · simpa [hmsb] using hbit k hk
    · simpa [hmsb] using hbit k hk
  · rw [← glyphSourceBit_width_eight hwidth _ _ _ hi, ← hmsb]
    exact htrans.written _ (by rw [hwidth]; omega) k hk

end Sys2Proof.Machine
end

section
/-! Writes of an output register done twice (spec 20 R68), by two contexts in either order (R73), or between the read and
the write of a toggle (R75): one write is a write of some bits of the register, whatever the register held. -/

namespace Sys2Proof.Machine

/-! ### Writes of some bits -/

theorem regWrite_idem {w : Nat} (r : Reg w) (m v : BitVec w) : regWrite (regWrite r m v) m v = regWrite r m v := by
  simp only [regWrite, Reg.mk.injEq]
  refine ⟨BitVec.eq_of_getLsbD_eq fun i hi => ?_, by rw [BitVec.or_assoc, BitVec.or_self]⟩
  simp only [BitVec.getLsbD_or, BitVec.getLsbD_and, BitVec.getLsbD_not]
  cases m.getLsbD i <;> simp

/-- Writes of bits that are not the same ones commute. -/
theorem regWrite_comm {w : Nat} (r : Reg w) {m n : BitVec w} (v u : BitVec w) (h : m &&& n = 0) :
    regWrite (regWrite r m v) n u = regWrite (regWrite r n u) m v := by
  simp only [regWrite, Reg.mk.injEq]
  refine ⟨BitVec.eq_of_getLsbD_eq fun i hi => ?_, by rw [BitVec.or_assoc, BitVec.or_comm m, ← BitVec.or_assoc]⟩
  have hbit : (m.getLsbD i && n.getLsbD i) = false := by simp [← BitVec.getLsbD_and, h]
  simp only [BitVec.getLsbD_or, BitVec.getLsbD_and, BitVec.getLsbD_not, hi]
  cases hm : m.getLsbD i <;> cases hn : n.getLsbD i <;> simp_all

/-- A set/clear write gives the bits of its two masks values that what the register held has no part in (R123). -/
theorem exists_odrAfterBsr_eq (ov : CasOverlap) (clr set : Half) :
    ∃ v, ∀ odr, odrAfterBsr ov odr clr set = regWrite odr (clr ||| set) v := by
  cases ov <;> exact ⟨_, fun _ => rfl⟩

theorem odrAfterBsr_idem (ov : CasOverlap) (odr : Reg 16) (clr set : Half) :
    odrAfterBsr ov (odrAfterBsr ov odr clr set) clr set = odrAfterBsr ov odr clr set := by
  obtain ⟨v, hv⟩ := exists_odrAfterBsr_eq ov clr set
  rw [hv, hv, regWrite_idem]

theorem odrAfterBsr_comm (ov : CasOverlap) (odr : Reg 16) {c₁ s₁ c₂ s₂ : Half} (h : (c₁ ||| s₁) &&& (c₂ ||| s₂) = 0) :
    odrAfterBsr ov (odrAfterBsr ov odr c₁ s₁) c₂ s₂ = odrAfterBsr ov (odrAfterBsr ov odr c₂ s₂) c₁ s₁ := by
  obtain ⟨v₁, hv₁⟩ := exists_odrAfterBsr_eq ov c₁ s₁
  obtain ⟨v₂, hv₂⟩ := exists_odrAfterBsr_eq ov c₂ s₂
  rw [hv₁, hv₂, hv₂, hv₁, regWrite_comm _ _ _ h]

/-- A bit that is in neither mask keeps what it held (R123). -/
theorem regBit_odrAfterBsr_other (ov : CasOverlap) (odr : Reg 16) {clr set : Half} {k : Nat} (hk : k < 16)
    (h : (clr ||| set).getLsbD k = false) : regBit (odrAfterBsr ov odr clr set) k = regBit odr k := by
  rw [regBit_odrAfterBsr _ _ _ _ hk, ← BitVec.getLsbD_or, h]
  rfl

/-! ### Doing it again -/

theorem portUsable_of_exec {i : Instr} {p : Byte} {s t : State} (hsel : portSelector i = some p) (hp : p ≠ nullPort)
    (hpen : i ≠ .pen p) (h : exec i s = .next t) : PortUsable s p := by
  obtain ⟨habsent, hdisabled⟩ := portIsCheckedFirst i p s hsel hp
  have hexists : s.portExists p.toNat = true := by
    by_contra hn
    rw [habsent (Bool.eq_false_iff.mpr hn)] at h
    cases h
  refine ⟨hp, hexists, ?_⟩
  by_contra hn
  rw [hdisabled hexists (Bool.eq_false_iff.mpr hn) hpen] at h
  cases h

theorem portSelector_of_setClearOf {i : Instr} {p : Byte} {clr set : Half} (h : setClearOf i = some (p, clr, set)) :
    portSelector i = some p ∧ ∀ q, i ≠ .pen q := by
  cases i <;> cases h <;> exact ⟨rfl, fun _ => Instr.noConfusion⟩

/-- A set/clear write that goes on was of a usable port, with masks `CAS_OVERLAP` allows (R121, R123). -/
theorem setClear_of_exec {i : Instr} {p : Byte} {clr set : Half} {s t : State} (h : setClearOf i = some (p, clr, set))
    (hp : p ≠ nullPort) (hexec : exec i s = .next t) :
    PortUsable s p ∧ (clr &&& set = 0 ∨ s.config.casOverlap ≠ .refuse) := by
  obtain ⟨hsel, hpen⟩ := portSelector_of_setClearOf h
  have husable := portUsable_of_exec hsel hp (hpen p) hexec
  refine ⟨husable, ?_⟩
  by_contra hn
  rw [not_or, not_not] at hn
  rw [exec_setClear_refused h husable hn.1 hn.2] at hexec
  cases hexec

theorem exec_pwr {p : Byte} {s : State} (v : Half) (hp : PortUsable s p) :
    exec (.pwr p v) s = .next (runAct .retire (s.beginOp.odrWrite p.toNat v)) :=
  portPlan_next hp (by simp)

theorem exec_pen {p : Byte} {s : State} (hp : p ≠ nullPort) (hexists : s.portExists p.toNat = true) :
    exec (.pen p) s = .next (runAct .retire (s.beginOp.enablePort p.toNat)) := by
  refine (perform_next (pl := planPen p s) ?_).trans ?_ <;> simp [planPen_real hp, hexists, runAct]

theorem portExists_of_exec_pen {p : Byte} {s t : State} (hp : p ≠ nullPort) (h : exec (.pen p) s = .next t) :
    s.portExists p.toNat = true := by
  by_contra hn
  rw [(portIsCheckedFirst (.pen p) p s rfl hp).1 (Bool.eq_false_iff.mpr hn)] at h
  cases h

theorem port_congr {s t : State} (h : t.ports = s.ports) (p : Nat) : t.port p = s.port p := by
  rw [State.port, h]
  rfl

/-- A port put back as it is. -/
theorem set_port_self {s : State} {p : Nat} {q : Port} (h : q = s.port p) : s.ports.set p q = s.ports := by
  subst h
  by_cases hp : p < s.ports.length
  · rw [State.port, List.getD_eq_getElem _ _ hp, List.set_getElem_self]
  · exact List.set_eq_of_length_le (by omega)

theorem ports_bsrWrite_again {s t : State} {p : Nat} {clr set : Half} (hp : p < s.ports.length)
    (hports : t.ports = (s.bsrWrite p clr set).ports) (hconfig : t.config = s.config) :
    (t.bsrWrite p clr set).ports = t.ports := by
  have hport : t.port p = (s.bsrWrite p clr set).port p := port_congr hports p
  refine set_port_self ?_
  rw [hport, bsrWrite_port_same clr set hp, hconfig]
  simp only [odrAfterBsr_idem]

theorem ports_odrWrite_again {s t : State} {p : Nat} {v : Half} (hp : p < s.ports.length)
    (hports : t.ports = (s.odrWrite p v).ports) : (t.odrWrite p v).ports = t.ports := by
  have hport : t.port p = (s.odrWrite p v).port p := port_congr hports p
  refine set_port_self ?_
  rw [hport, odrWrite_port_same v hp]

theorem ports_enablePort_again {s t : State} {p : Nat} (hports : t.ports = (s.enablePort p).ports) :
    (t.enablePort p).ports = t.ports := by
  have hport : t.port p = (s.enablePort p).port p := port_congr hports p
  by_cases hp : p < s.ports.length
  · refine set_port_self ?_
    rw [hport, port_set (s.enablePort p) s.ports p p _ rfl, if_pos ⟨rfl, hp⟩]
  · exact List.set_eq_of_length_le (by rw [hports]; simpa [State.enablePort] using Nat.le_of_not_lt hp)

/-- What a repeated write may leave different: the receivers, `PIN_TRACE` and the running context (R68). -/
def Repeats (i : Instr) (t : State) : Prop :=
  ∃ u, exec i t = .next u ∧ u = { t with shiftRx := u.shiftRx, pinTrace := u.pinTrace, ctx := advanced t.ctx }

theorem repeats_of_ports {i : Instr} {t m : State} (hexec : exec i t = .next (runAct .retire m))
    (hframe : m = { t.beginOp with ports := m.ports, shiftRx := m.shiftRx, pinTrace := m.pinTrace })
    (hports : m.ports = t.ports) : Repeats i t := by
  rw [hports] at hframe
  exact ⟨_, hexec, congrArg (runAct .retire) hframe⟩

theorem repeats_setClear {i : Instr} {p : Byte} {clr set : Half} {s t : State} (h : setClearOf i = some (p, clr, set))
    (hp : p ≠ nullPort) (hexec : exec i s = .next t) : Repeats i t := by
  obtain ⟨husable, hmasks⟩ := setClear_of_exec h hp hexec
  have ht : t = runAct .retire (s.beginOp.bsrWrite p.toNat clr set) :=
    Host.Outcome.next.inj (hexec.symm.trans (exec_setClear h husable hmasks))
  have hagain := exec_setClear h (husable.of_exec hexec) (by rwa [(exec_sameHost hexec).config])
  exact repeats_of_ports hagain rfl
    (ports_bsrWrite_again (s := s.beginOp) (t := t.beginOp) (lt_of_usable husable) (by rw [ht]; rfl) (by rw [ht]; rfl))

theorem repeats_pwr {p : Byte} {v : Half} {s t : State} (hp : p ≠ nullPort) (hexec : exec (.pwr p v) s = .next t) :
    Repeats (.pwr p v) t := by
  have husable := portUsable_of_exec rfl hp (by simp) hexec
  have ht : t = runAct .retire (s.beginOp.odrWrite p.toNat v) :=
    Host.Outcome.next.inj (hexec.symm.trans (exec_pwr v husable))
  exact repeats_of_ports (exec_pwr v (husable.of_exec hexec)) rfl
    (ports_odrWrite_again (s := s.beginOp) (t := t.beginOp) (lt_of_usable husable) (by rw [ht]; rfl))

theorem repeats_pen {p : Byte} {s t : State} (hp : p ≠ nullPort) (hexec : exec (.pen p) s = .next t) :
    Repeats (.pen p) t := by
  have hexists := portExists_of_exec_pen hp hexec
  have ht : t = runAct .retire (s.beginOp.enablePort p.toNat) :=
    Host.Outcome.next.inj (hexec.symm.trans (exec_pen hp hexists))
  exact repeats_of_ports (exec_pen hp (by rwa [State.portExists, (exec_sameHost hexec).config])) rfl
    (ports_enablePort_again (s := s.beginOp) (t := t.beginOp) (by rw [ht]; rfl))

/-- On the null port nothing is written the first time or the second (R122). -/
theorem repeats_nullPort {i : Instr} {t : State} (h : portSelector i = some nullPort) (hread : portReads i = false) :
    Repeats i t := by
  refine ⟨_, exec_nullPort h, ?_⟩
  rw [hread]
  rfl

/-- Settles O12: the bits a write gives are the same the second time, and an enable bit set stays set. -/
theorem singleWritesAreIdempotent : Obligations.SingleWritesAreIdempotent := by
  rintro i s t (h | ⟨p, v, rfl⟩ | ⟨p, rfl⟩) hexec
  · obtain ⟨⟨p, clr, set⟩, h⟩ := Option.isSome_iff_exists.mp h
    by_cases hp : p = nullPort
    · subst hp
      exact repeats_nullPort (portSelector_of_setClearOf h).1 (by cases i <;> cases h <;> rfl)
    · exact repeats_setClear h hp hexec
  · by_cases hp : p = nullPort
    · exact repeats_nullPort (congrArg some hp) rfl
    · exact repeats_pwr hp hexec
  · by_cases hp : p = nullPort
    · exact repeats_nullPort (congrArg some hp) rfl
    · exact repeats_pen hp hexec

end Sys2Proof.Machine
end

section
/-! Set/clear writes of two contexts, turn by turn (spec 20 R66, R73, R75): a turn of a parked context is its operation in
the state that context runs in, and a toggle can stand between its read and its write while another context writes. -/

namespace Sys2Proof.Machine

/-! ### Turns of two contexts -/

/-- Context b, the only one parked, has become the running one, with the turns `ts` left. -/
def State.switched (s : State) (b : Ctx) (ts : List Turn) : State :=
  { s with ctx := b, parked := [s.ctx], sched := ts }

theorem step_turn {s : State} {turn : Turn} {ts : List Turn} (h : s.sched = turn :: ts) :
    step s = runTurn turn { s with sched := ts } := by
  rw [step, runStep, h]

/-- A turn of the running context that covers the operation it stands at (R66). -/
theorem step_run_self {s : State} {i : Instr} {n : Nat} {ts : List Turn} (hsched : s.sched = .run s.ctx.id n :: ts)
    (hstands : StandsAt s.ctx i) (hn : (planOf i s).acts.countP isMicro ≤ n) :
    step s = exec i { s with sched := ts } := by
  rw [step_turn hsched]
  exact runTurn_eq_exec (s := { s with sched := ts }) hstands (by rwa [planOf_sched])

theorem selectCtx_parked {s : State} {b : Ctx} (hparked : s.parked = [b]) (hid : s.ctx.id ≠ b.id) :
    selectCtx b.id s = some (s.switched b s.sched) := by
  simp [selectCtx, takeCtx, hid, hparked, State.switched]

/-- A turn of the parked context is a turn of the running one after the switch (R297). -/
theorem runTurn_switched {s : State} {b : Ctx} (n : Nat) (hparked : s.parked = [b]) (hid : s.ctx.id ≠ b.id) :
    runTurn (.run b.id n) s = runTurn (.run b.id n) (s.switched b s.sched) := by
  have hself : selectCtx b.id (s.switched b s.sched) = some (s.switched b s.sched) := if_pos rfl
  rw [runTurn, runTurn, selectCtx_parked hparked hid, hself]

theorem step_switched {s : State} {b : Ctx} {n : Nat} {ts : List Turn} (hsched : s.sched = .run b.id n :: ts)
    (hparked : s.parked = [b]) (hid : s.ctx.id ≠ b.id) : step s = runTurn (.run b.id n) (s.switched b ts) := by
  rw [step_turn hsched]
  exact runTurn_switched (s := { s with sched := ts }) n hparked hid

/-! ### Set and clear by two contexts -/

/-- A set/clear write is one micro-step (R124 to R126). -/
theorem countP_setClear {i : Instr} {p : Byte} {clr set : Half} (h : setClearOf i = some (p, clr, set)) (s : State) :
    (planOf i s).acts.countP isMicro ≤ 1 := by
  cases i <;> cases h <;> simp only [planOf, planPset, planPclr, planPcas, portPlan] <;> split <;> simp [isMicro]

/-- The masks of a set/clear write are masks `CAS_OVERLAP` allows. -/
theorem masks_allowed {c : Config} {clr set : Half} (h : c.casOverlap = .refuse → clr &&& set = 0) :
    clr &&& set = 0 ∨ c.casOverlap ≠ .refuse :=
  or_iff_not_imp_right.mpr fun hn => h (not_not.mp hn)

/-- A turn was one set/clear write of port p, with the turns `ts` left. -/
structure TurnWrote (p : Nat) (clr set : Half) (ts : List Turn) (s t : State) : Prop where
  ports : t.ports = (s.bsrWrite p clr set).ports
  config : t.config = s.config
  sched : t.sched = ts
  pin : t.pinTrace = s.pinTrace ++ [.bsrW p set clr]

/-- A turn of the running context that stands at a set/clear write is that write. -/
theorem step_setClear_self {s : State} {i : Instr} {p : Byte} {clr set : Half} {ts : List Turn}
    (hsched : s.sched = .run s.ctx.id 1 :: ts) (hstands : StandsAt s.ctx i) (h : setClearOf i = some (p, clr, set))
    (hp : PortUsable s p) (hmasks : s.config.casOverlap = .refuse → clr &&& set = 0) :
    ∃ t, step s = .next t ∧ TurnWrote p.toNat clr set ts s t ∧ t.ctx = advanced s.ctx ∧ t.parked = s.parked := by
  refine ⟨_, (step_run_self hsched hstands (countP_setClear h s)).trans
    (exec_setClear (s := { s with sched := ts }) h hp (masks_allowed hmasks)), ⟨rfl, rfl, rfl, rfl⟩, rfl, rfl⟩

/-- A turn of the parked context that stands at a set/clear write is that write. -/
theorem step_setClear_parked {s : State} {b : Ctx} {j : Instr} {p : Byte} {clr set : Half} {ts : List Turn}
    (hsched : s.sched = .run b.id 1 :: ts) (hparked : s.parked = [b]) (hid : s.ctx.id ≠ b.id) (hstands : StandsAt b j)
    (h : setClearOf j = some (p, clr, set)) (hp : PortUsable s p)
    (hmasks : s.config.casOverlap = .refuse → clr &&& set = 0) :
    ∃ t, step s = .next t ∧ TurnWrote p.toNat clr set ts s t ∧ t.ctx = advanced b ∧ t.parked = [s.ctx] := by
  have hexec := (runTurn_eq_exec (s := s.switched b ts) hstands (countP_setClear h _)).trans
    (exec_setClear (s := s.switched b ts) h hp (masks_allowed hmasks))
  exact ⟨_, (step_switched hsched hparked hid).trans hexec, ⟨rfl, rfl, rfl, rfl⟩, rfl, rfl⟩

/-- A usable port stays usable over a write, whichever contexts run before and after it. -/
theorem TurnWrote.portUsable {s t : State} {p : Byte} {q : Nat} {clr set : Half} {ts : List Turn}
    (h : TurnWrote q clr set ts s t) (hp : PortUsable s p) : PortUsable t p := by
  obtain ⟨hreal, hexists, hen⟩ := hp
  refine ⟨hreal, by rwa [State.portExists, h.config], ?_⟩
  have hgrown := (bsrWrite_grows s q clr set).en _ hen
  rwa [State.enabled, State.port, h.ports]

theorem TurnWrote.odr {s t : State} {p : Nat} {clr set : Half} {ts : List Turn} (h : TurnWrote p clr set ts s t)
    (hp : p < s.ports.length) :
    (t.port p).odr = odrAfterBsr s.config.casOverlap (s.port p).odr clr set := by
  rw [port_congr h.ports, bsrWrite_port_same clr set hp]

/-- The port registers after two such turns, and that one port's output register. -/
theorem TurnWrote.twice {s t u : State} {p : Nat} {c₁ s₁ c₂ s₂ : Half} {ts ts' : List Turn}
    (h : TurnWrote p c₁ s₁ ts s t) (k : TurnWrote p c₂ s₂ ts' t u) (hp : p < s.ports.length) :
    u.ports = s.ports.set p { s.port p with
      odr := odrAfterBsr s.config.casOverlap (odrAfterBsr s.config.casOverlap (s.port p).odr c₁ s₁) c₂ s₂ } := by
  have hport : t.port p = (s.bsrWrite p c₁ s₁).port p := port_congr h.ports p
  rw [bsrWrite_port_same c₁ s₁ hp] at hport
  have hset : u.ports = t.ports.set p { t.port p with
      odr := odrAfterBsr t.config.casOverlap (t.port p).odr c₂ s₂ } := k.ports
  rw [hset, hport, h.ports, h.config]
  exact List.set_set _

/-- A bit of the first of two writes with masks that share none is what that write made it. -/
theorem regBit_odrAfterBsr_first (ov : CasOverlap) (odr : Reg 16) {c₁ s₁ c₂ s₂ : Half} {k : Nat} (hk : k < 16)
    (h : (c₁ ||| s₁) &&& (c₂ ||| s₂) = 0) (hmask : (c₁ ||| s₁).getLsbD k = true) :
    regBit (odrAfterBsr ov (odrAfterBsr ov odr c₁ s₁) c₂ s₂) k = regBit (odrAfterBsr ov odr c₁ s₁) k := by
  have hbit := congrArg (fun m => m.getLsbD k) h
  simp only [BitVec.getLsbD_and, hmask, Bool.true_and] at hbit
  exact regBit_odrAfterBsr_other ov _ hk (by simpa using hbit)

/-- Settles O10: either order writes the two masks' bits, which no write of the other mask touches. -/
theorem disjointMasksDoNotRace : Obligations.DisjointMasksDoNotRace := by
  intro i j p c₁ s₁ c₂ s₂ s b hi hj hdisjoint hmasks hp hparked hid hstandsI hstandsJ
  have hlt := lt_of_usable hp
  obtain ⟨u, hu, huWrote, huCtx, huParked⟩ := step_setClear_self
    (s := { s with sched := [.run s.ctx.id 1, .run b.id 1] }) rfl hstandsI hi hp (fun hr => (hmasks hr).1)
  obtain ⟨v, hv, hvWrote, -, -⟩ := step_setClear_parked (s := u) (b := b) huWrote.sched (huParked.trans hparked)
    (by rwa [huCtx]) hstandsJ hj (huWrote.portUsable hp) (fun hr => (hmasks (huWrote.config ▸ hr)).2)
  obtain ⟨x, hx, hxWrote, hxCtx, hxParked⟩ := step_setClear_parked
    (s := { s with sched := [.run b.id 1, .run s.ctx.id 1] }) rfl hparked hid hstandsJ hj hp (fun hr => (hmasks hr).2)
  obtain ⟨y, hy, hyWrote, -, -⟩ := step_setClear_parked (s := x) (b := s.ctx) hxWrote.sched hxParked
    (by rw [hxCtx]; exact hid.symm) hstandsI hi (hxWrote.portUsable hp) (fun hr => (hmasks (hxWrote.config ▸ hr)).1)
  have hvports := huWrote.twice hvWrote hlt
  have hyports := hxWrote.twice hyWrote hlt
  have hports : v.ports = y.ports := by
    rw [hvports, hyports, odrAfterBsr_comm _ _ hdisjoint]
    rfl
  refine ⟨u, v, x, y, hu, hv, hx, hy, hports, fun k hk => ?_⟩
  rw [port_set v _ p.toNat p.toNat _ hvports, if_pos ⟨rfl, hlt⟩, huWrote.odr hlt, hxWrote.odr hlt]
  split
  · next hmask => exact regBit_odrAfterBsr_first _ _ hk hdisjoint hmask
  · next hmask =>
    rw [odrAfterBsr_comm _ _ hdisjoint]
    exact regBit_odrAfterBsr_other _ _ hk (Bool.eq_false_iff.mpr hmask)

/-! ### A toggle with a write between its read and its write -/

/-- A turn of the running context does its micro-steps once the operation is loaded (R66). -/
theorem runTurn_self {s m : State} (n : Nat) (h : loadOp s = .next m) :
    runTurn (.run s.ctx.id n) s = .next (sliceOp n m) := by
  simp [runTurn, selectCtx, h]

/-- A turn that covers what is left of an operation half done finishes it (R66). -/
theorem runTurn_eq_finishOp {s : State} {n : Nat} (hqueue : s.ctx.queue ≠ []) (hn : s.ctx.queue.countP isMicro ≤ n) :
    runTurn (.run s.ctx.id n) s = .next (finishOp s) := by
  obtain ⟨a, as, hcons⟩ := List.exists_cons_of_ne_nil hqueue
  rw [runTurn_self n (m := s) (by rw [loadOp, hcons]), sliceOp_eq_finishOp hn]

/-- A register all of whose bits hold a value is read as it is (R48). -/
theorem odrValue_eq {s : State} {p : Nat} {v : Half} (h : (s.port p).odr = regOf (BitVec.allOnes 16) v) :
    s.odrValue p = v :=
  BitVec.eq_of_getLsbD_eq fun i hi => readsAs_odrValue s p i _ (h ▸ regBit_regOf_allOnes v hi)

/-- A toggle between its read, which gave v, and its write (R127). -/
structure ToggleHalfDone (p : Nat) (mask v : Half) (c : Ctx) : Prop where
  queue : c.queue = [.odrToggle p mask, .retire]
  loaded : c.locals.t = v.setWidth 64

/-- One turn of a toggle is its read; its write waits (R127). -/
theorem step_toggle_read {s : State} {p : Byte} {mask v : Half} {ts : List Turn}
    (hsched : s.sched = .run s.ctx.id 1 :: ts) (hstands : StandsAt s.ctx (.ptgl p mask)) (hp : PortUsable s p)
    (hodr : (s.port p.toNat).odr = regOf (BitVec.allOnes 16) v) :
    ∃ t, step s = .next t ∧ t.ctx.id = s.ctx.id ∧ ToggleHalfDone p.toNat mask v t.ctx ∧ t.sched = ts ∧
      t.pinTrace = s.pinTrace ++ [.odrR p.toNat v] ∧
      t = { s with ctx := t.ctx, pinTrace := t.pinTrace, sched := t.sched, draws := t.draws } := by
  have hplan : planOf (.ptgl p mask) s = ⟨portChecks s p.toNat ++ [], [.odrRead p.toNat, .odrToggle p.toNat mask]⟩ :=
    portPlan_real hp.1
  have hchecks : firstRefusal (planOf (.ptgl p mask) s).checks = none := by
    simp [hplan, portChecks, firstRefusal, hp.2.1, hp.2.2]
  have hload := loadOp_next (s := { s with sched := ts }) hstands (by rwa [planOf_sched])
  rw [planOf_sched, hplan] at hload
  have hslice (m : State) : sliceOp 1 (m.issue [.odrRead p.toNat, .odrToggle p.toNat mask, .retire]) =
      (m.issue [.odrToggle p.toNat mask, .retire]).odrRead p.toNat := rfl
  have hstep := (step_turn hsched).trans (runTurn_self (s := { s with sched := ts }) 1 hload)
  rw [List.cons_append, List.cons_append, List.nil_append, hslice] at hstep
  have hvalue : (State.issue { s with sched := ts } [.odrToggle p.toNat mask, .retire]).odrValue p.toNat = v :=
    odrValue_eq hodr
  refine ⟨_, hstep, rfl, ⟨rfl, ?_⟩, rfl, ?_, rfl⟩
  · exact congrArg (BitVec.setWidth 64) hvalue
  · exact congrArg (fun x => s.pinTrace ++ [PinItem.odrR p.toNat x]) hvalue

/-- The write of a toggle half done is of the value it read (R127). -/
theorem finishOp_toggle {s : State} {p : Nat} {mask v : Half} (h : ToggleHalfDone p mask v s.ctx) :
    finishOp s = runAct .retire ((s.setCtx { s.ctx with queue := [] }).odrWrite p (v ^^^ mask)) := by
  have hloaded : s.ctx.locals.t.setWidth 16 = v := by
    rw [h.loaded, BitVec.setWidth_setWidth_of_le _ (by decide), BitVec.setWidth_eq]
  rw [finishOp, h.queue, ← hloaded]
  rfl

/-- Settles O11: the toggle writes back what it read before the other write. -/
theorem toggleLosesAConcurrentWrite : Obligations.ToggleLosesAConcurrentWrite := by
  intro j p mask clr set v s b hj hmasks hp hodr hparked hid hstands hstandsJ hsched
  obtain ⟨t, ht, htId, htHalf, htSched, htPin, htFrame⟩ := step_toggle_read hsched hstands hp hodr
  have htConfig : t.config = s.config := by rw [htFrame]
  have htPorts : t.ports = s.ports := by rw [htFrame]
  have htParked : t.parked = s.parked := by rw [htFrame]
  have htUsable : PortUsable t p := by
    rwa [PortUsable, State.portExists, State.enabled, htConfig, port_congr htPorts]
  obtain ⟨u, hu, huWrote, huCtx, huParked⟩ := step_setClear_parked (s := t) (b := b) htSched (htParked.trans hparked)
    (by rwa [htId]) hstandsJ hj htUsable (by rwa [htConfig])
  have hcount : t.ctx.queue.countP isMicro ≤ 1 := by rw [htHalf.queue]; rfl
  have hx := (step_switched (s := u) (b := t.ctx) (by rw [huWrote.sched, htId]) huParked
    (by rw [huCtx, htId]; exact hid.symm)).trans
    (runTurn_eq_finishOp (s := u.switched t.ctx []) (by simp [State.switched, htHalf.queue]) hcount)
  rw [finishOp_toggle (s := u.switched t.ctx []) htHalf] at hx
  have huLength : p.toNat < u.ports.length := lt_of_usable (huWrote.portUsable htUsable)
  refine ⟨t, u, _, ht, hu, hx, ?_, ?_⟩
  · exact congrArg Port.odr (odrWrite_port_same (s := (u.switched t.ctx []).setCtx _) (v ^^^ mask) huLength)
  · calc u.pinTrace ++ [.odrW p.toNat (v ^^^ mask)]
        = s.pinTrace ++ [.odrR p.toNat v] ++ [.bsrW p.toNat set clr] ++ [.odrW p.toNat (v ^^^ mask)] := by
          rw [huWrote.pin, htPin]
      _ = _ := by simp

end Sys2Proof.Machine
end

section
/-! Clear-and-set inside a field, then a read (spec 40 R138): the pins of the field hold the mask, so whatever reads them
reads the mask there. -/

namespace Sys2Proof.Machine

/-- A value that has the mask's bits inside a field is the mask there, if the mask lies inside the field. -/
theorem and_field_eq {v F m : Half} (hm : m &&& ~~~F = 0) (h : ∀ b, F.getLsbD b = true → v.getLsbD b = m.getLsbD b) :
    v &&& F = m := by
  refine BitVec.eq_of_getLsbD_eq fun b hb => ?_
  have hbit : (m.getLsbD b && !F.getLsbD b) = false := by
    simpa [hb] using congrArg (fun x => x.getLsbD b) hm
  rw [BitVec.getLsbD_and]
  cases hF : F.getLsbD b
  · simpa [hF] using hbit.symm
  · rw [h b hF, Bool.and_true]

theorem clear_and_set_disjoint (F m : Half) : (~~~m &&& F) &&& m = 0 := by
  refine BitVec.eq_of_getLsbD_eq fun b hb => ?_
  simp only [BitVec.getLsbD_and, BitVec.getLsbD_not, hb]
  cases m.getLsbD b <;> simp

/-- The masks of a clear-and-set inside a field give each of its bits the mask's (R138). -/
theorem BsrEffect.regBit_field {s t : State} {p : Nat} {F m : Half} (h : BsrEffect s t p (~~~m &&& F) m) {b : Nat}
    (hF : F.getLsbD b = true) : regBit (t.port p).odr b = some (m.getLsbD b) := by
  obtain ⟨hbits, -⟩ := h
  have hb : b < 16 := BitVec.lt_of_getLsbD hF
  rw [hbits b hb]
  simp only [BitVec.getLsbD_and, BitVec.getLsbD_not, hb, hF]
  cases m.getLsbD b <;> simp

theorem outputPin_of_onlyOdr {s t : State} {p : Nat} (h : OnlyOdrOf s t p) (i : Nat) :
    outputPin t p i = outputPin s p i := by
  obtain ⟨hport, -, -, hframe⟩ := h
  have hconfig : t.config = s.config := by rw [hframe]
  rw [outputPin, hconfig, hport]
  rfl

/-- Settles O32: what `PRDO` reads has the bits `ODR` holds, and what `PRD` samples of push-pull outputs too. -/
theorem clearAndSetThenReadYieldsTheMask : Obligations.ClearAndSetThenReadYieldsTheMask := by
  intro p F m s hm hp
  have hsetClear : setClearOf (.pcas p (~~~m &&& F) m) = some (p, ~~~m &&& F, m) := rfl
  obtain ⟨hgoes, -⟩ := setClearWritesOnlyItsMasks _ _ _ _ s hsetClear hp
  obtain ⟨t, hexec, heffect⟩ := hgoes (.inl (clear_and_set_disjoint F m))
  have hbits (b : Nat) (hF : F.getLsbD b = true) := heffect.regBit_field hF
  obtain ⟨-, -, -, -, honly⟩ := heffect
  have hp' : PortUsable t p := hp.of_exec hexec
  have hres (v : Half) : (v.setWidth 64).setWidth 16 = v := by
    rw [BitVec.setWidth_setWidth_of_le _ (by decide), BitVec.setWidth_eq]
  refine ⟨t, hexec, hbits, ?_, fun hout => ?_, ?_⟩
  · obtain ⟨u, v, hu, hv, -, hvRes, -⟩ := readOutputGivesOdr p t hp'
    refine ⟨u, hu, ?_⟩
    rw [hvRes, hres]
    exact and_field_eq hm fun b hF => hv b _ (hbits b hF)
  · obtain ⟨u, v, hu, hv, -, -, -, hvRes, -⟩ := readSamplesThePort p t hp'
    refine ⟨u, hu, ?_⟩
    rw [hvRes, hres]
    exact and_field_eq hm fun b hF => hv b _ ((outputPin_of_onlyOdr honly b).trans (hout b hF)) (hbits b hF)
  · obtain ⟨u, hu, hframe⟩ := repeats_setClear hsetClear hp.1 hexec
    exact ⟨u, hu, by rw [hframe]⟩

end Sys2Proof.Machine
end

section
/-! The external shift register over one write (spec 10 R35): which receiver a write moves, what a rising clock shifts in
and when chip-select latches. -/

namespace Sys2Proof.Machine

/-- A shift bus's own receiver goes through the write (R35). -/
theorem getElem?_shiftRxAll {low : Bool} {before after : List Port} {p : Nat} {clr set : Half} {bs : List BusCfg}
    {rxs : List ShiftRx} {b : Nat} {w : ShiftCfg} (hb : bs[b]? = some (.shift w)) :
    (shiftRxAll low before after p clr set bs rxs)[b]? =
      rxs[b]?.map (shiftRxAfter low w before after p clr set) := by
  fun_induction shiftRxAll low before after p clr set bs rxs generalizing b with
  | case1 w' bs rx rxs ih =>
    cases b with
    | zero =>
      cases hb
      rfl
    | succ b => exact ih hb
  | case2 l c bs rx rxs ih =>
    cases b with
    | zero => cases hb
    | succ b => exact ih hb
  | case3 bs rxs hshift hdirect =>
    cases rxs with
    | nil => rfl
    | cons rx rxs =>
      rcases bs with _ | ⟨w' | l, bs⟩
      · cases hb
      · exact (hdirect _ _ _ _ _ rfl rfl).elim
      · exact (hshift _ _ _ _ rfl rfl).elim

/-! ### `SR` -/

theorem getLsbD_rxFull {n : Nat} (hn : n ≤ 16) (i : Nat) : (BitVec.ofNat 16 (2 ^ n - 1)).getLsbD i = decide (i < n) := by
  rw [BitVec.getLsbD_ofNat, Nat.testBit_two_pow_sub_one]
  by_cases h : i < n
  · simp [h]
    omega
  · simp [h]

theorem getLsbD_levelBit (v : Bool) (i : Nat) : (if v = true then 1#16 else 0#16).getLsbD i = (decide (i = 0) && v) := by
  cases v <;> simp [BitVec.getLsbD_one]

/-- A shifted receiver register, bit by bit: the level at bit 0, every other bit the one below it (R35). -/
theorem getLsbD_shiftIn {n : Nat} (hn : n ≤ 16) (r : Reg 16) (v : Bool) (i : Nat) :
    (shiftIn n r (some v)).known.getLsbD i = (decide (i < n) && (decide (i = 0) || r.known.getLsbD (i - 1))) ∧
    (shiftIn n r (some v)).val.getLsbD i = (decide (i < n) && if i = 0 then v else r.val.getLsbD (i - 1)) := by
  have hlevel : (if (some v == some true) = true then 1#16 else 0) = if v = true then 1#16 else 0#16 := by
    cases v <;> rfl
  have hknown : (if (some v).isSome = true then 1#16 else 0) = if true = true then 1#16 else 0#16 := rfl
  simp only [shiftIn, hlevel, hknown, BitVec.getLsbD_and, BitVec.getLsbD_or, BitVec.getLsbD_shiftLeft,
    getLsbD_rxFull hn, getLsbD_levelBit]
  by_cases hi : i < n
  · rcases Nat.eq_zero_or_pos i with rfl | hpos
    · simp [hi]
    · simp [hi, show i < 16 by omega, show i ≠ 0 by omega, show ¬i < 1 by omega]
  · simp [hi]

theorem regOf_ext {w : Nat} {full v : BitVec w} {r : Reg w}
    (h : ∀ i < w, r.known.getLsbD i = full.getLsbD i ∧ r.val.getLsbD i = (v.getLsbD i && full.getLsbD i)) :
    r = regOf full v := by
  obtain ⟨val, known⟩ := r
  simp only [regOf, Reg.mk.injEq]
  exact ⟨BitVec.eq_of_getLsbD_eq fun i hi => by rw [(h i hi).2, BitVec.getLsbD_and],
    BitVec.eq_of_getLsbD_eq fun i hi => (h i hi).1⟩

/-- All SB_N bits of a receiver hold a value, shifted left by one with the level in bit 0 (R35). -/
theorem shiftIn_rxHolds {w : ShiftCfg} (hw : w.bits ≤ 16) (q : Half) (v : Bool) :
    shiftIn w.bits (rxHolds w q) (some v) = rxHolds w (q <<< 1 ||| if v then 1 else 0) := by
  refine regOf_ext fun i hi => ?_
  obtain ⟨hknown, hval⟩ := getLsbD_shiftIn hw (rxHolds w q) v i
  rw [hknown, hval, getLsbD_rxFull hw]
  rcases Nat.eq_zero_or_pos i with rfl | hpos
  · cases v <;> simp
  · simp only [rxHolds, regOf, BitVec.getLsbD_and, getLsbD_rxFull hw]
    have hlevel : (if v = true then 1 else 0 : Half).getLsbD i = false := by
      rw [show (if v = true then 1 else 0 : Half) = if v = true then 1#16 else 0#16 from rfl, getLsbD_levelBit,
        decide_eq_false (by omega), Bool.false_and]
    by_cases hn : i < w.bits
    · simp only [hn, hi, BitVec.getLsbD_or, BitVec.getLsbD_shiftLeft, hlevel]
      simp [show i ≠ 0 by omega, show i - 1 < w.bits by omega]
    · simp [hn]

theorem srAfter_rise {w : ShiftCfg} {before after : List Port} {v : Bool} (sr : Reg 16)
    (hlow : pinLevel before w.clk = some false) (hhigh : pinLevel after w.clk = some true)
    (hbefore : pinLevel before w.dat = some v) (hafter : pinLevel after w.dat = some v) :
    srAfter w before after sr = shiftIn w.bits sr (some v) := by
  simp [srAfter, risingEdge, hlow, hhigh, hbefore, hafter]

theorem srAfter_same {w : ShiftCfg} {before after : List Port} (sr : Reg 16)
    (h : pinLevel before w.clk = pinLevel after w.clk) : srAfter w before after sr = sr := by
  rw [srAfter, h, risingEdge_self]

/-- What a write does to `SR` is what R35 says of its clock. -/
theorem shiftsOnRise_shiftRxAfter {s t : State} {w : ShiftCfg} (hw : w.bits ≤ 16) (low : Bool) (p : Nat) (clr set : Half)
    (rx : ShiftRx) : ShiftsOnRise s t w rx (shiftRxAfter low w s.ports t.ports p clr set rx) := by
  refine ⟨fun q v hlow hhigh hbefore hafter hsr => ?_, srAfter_same rx.sr⟩
  exact (srAfter_rise rx.sr hlow hhigh hbefore hafter).trans (by rw [hsr, shiftIn_rxHolds hw])

/-! ### `SROUT` -/

/-- A write that keeps the clock's level and releases chip-select latches `SR` (R35). -/
theorem srout_of_release {low : Bool} {w : ShiftCfg} {before after : List Port} {p : Nat} {clr set : Half} {rx : ShiftRx}
    (hclk : pinLevel before w.clk = pinLevel after w.clk) (h : csReleased low w before after p clr set = .rise) :
    (shiftRxAfter low w before after p clr set rx).srout = rx.sr := by
  simp [shiftRxAfter, h, srAfter_same rx.sr hclk]

theorem srout_of_kept {low : Bool} {w : ShiftCfg} {before after : List Port} {p : Nat} {clr set : Half} {rx : ShiftRx}
    (h : csReleased low w before after p clr set = .none) :
    (shiftRxAfter low w before after p clr set rx).srout = rx.srout := by
  simp [shiftRxAfter, h]

/-- The Set (or Clear) action of the chip-select pin that leaves it released releases it (R182; log 16). -/
theorem csReleased_of_action {low : Bool} {w : ShiftCfg} {before after : List Port} {clr set : Half}
    (hnull : w.cs.isNull = false) (hlevel : pinLevel after w.cs = some low)
    (hmask : (if low then set else clr).getLsbD w.cs.pos.val = true) :
    csReleased low w before after w.cs.port.toNat clr set = .rise := by
  simp [csReleased, hnull, hlevel, onPort, hmask]

/-- A change of chip-select from asserted to released releases it (R35). -/
theorem csReleased_of_change {low : Bool} {w : ShiftCfg} {before after : List Port} {p : Nat} {clr set : Half}
    (hnull : w.cs.isNull = false) (hbefore : pinLevel before w.cs = some !low) (hafter : pinLevel after w.cs = some low) :
    csReleased low w before after p clr set = .rise := by
  simp [csReleased, hnull, hbefore, hafter]

/-- A chip-select that is not named by the releasing mask and keeps its level is not released (R35). -/
theorem csReleased_of_same {low : Bool} {w : ShiftCfg} {before after : List Port} {p : Nat} {clr set : Half}
    (hlevel : pinLevel after w.cs = pinLevel before w.cs)
    (hmask : onPort w.cs p = true → (if low then set else clr).getLsbD w.cs.pos.val = false) :
    csReleased low w before after p clr set = .none := by
  unfold csReleased
  rw [hlevel]
  split
  · rfl
  · split
    · rfl
    · next hlow =>
      have hnot : (onPort w.cs p && (if low then set else clr).getLsbD w.cs.pos.val) = false := by
        cases hport : onPort w.cs p
        · rfl
        · exact hmask hport
      simp only [hnot, not_not.mp hlow, Bool.false_eq_true, if_false, if_true]

/-! ### The operations -/

/-- A pin that neither mask names keeps its level over a set/clear write (R123). -/
theorem pinLevel_bsrWrite_other {s : State} {x : Pin} {p : Nat} {clr set : Half} (hp : p < s.ports.length)
    (h : ¬(onPort x p = true ∧ (clr ||| set).getLsbD x.pos.val = true)) :
    pinLevel (s.bsrWrite p clr set).ports x = pinLevel s.ports x := by
  cases hport : onPort x p
  · exact pinLevel_set_other hport
  · obtain ⟨hnull, rfl⟩ := onPort_iff.mp hport
    have hmask := Bool.eq_false_iff.mpr fun hm => h ⟨hport, hm⟩
    rw [pinLevel_real _ hnull, pinLevel_real _ hnull, bsrWrite_port_same _ _ hp]
    exact regBit_odrAfterBsr_other _ _ x.pos.isLt hmask

/-- `PTGL` and `PWR` end with one write of the whole register (R127, R128). -/
theorem shiftRx_of_wholeWrite {i : Instr} {p : Byte} {s t : State} (h : wholeWriteOf i = some p) (hp : p ≠ nullPort)
    (hexec : exec i s = .next t) :
    t.shiftRx = shiftRxAll s.config.csActiveLow s.ports t.ports p.toNat 0 0 s.config.buses s.shiftRx := by
  cases i <;> cases h
  case ptgl mask =>
    have husable := portUsable_of_exec rfl hp (by simp) hexec
    cases hexec.symm.trans (portPlan_next husable (by simp))
    rfl
  case pwr v =>
    have husable := portUsable_of_exec rfl hp (by simp) hexec
    cases hexec.symm.trans (exec_pwr v husable)
    rfl

/-- Settles O35: both kinds of write take the bus's own receiver through `shiftRxAfter`. -/
theorem shiftRegisterFollowsItsLines : Obligations.ShiftRegisterFollowsItsLines := by
  intro i p s t b w rx hp hexec hb hrx hw
  refine ⟨fun clr set h => ?_, fun h => ?_⟩
  · obtain ⟨husable, hmasks⟩ := setClear_of_exec h hp hexec
    cases hexec.symm.trans (exec_setClear h husable hmasks)
    have hrx' := (getElem?_shiftRxAll (low := s.config.csActiveLow) (before := s.ports)
      (after := (s.bsrWrite p.toNat clr set).ports) (p := p.toNat) (clr := clr) (set := set) hb).trans
      (by rw [hrx])
    refine ⟨_, hrx', shiftsOnRise_shiftRxAfter hw _ _ _ _ _, fun hclk hnull hport hmask hlevel => ?_, fun hnot => ?_⟩
    · subst hport
      exact srout_of_release hclk (csReleased_of_action hnull hlevel hmask)
    · have hnames (hport : onPort w.cs p.toNat = true) : (clr ||| set).getLsbD w.cs.pos.val = false :=
        Bool.eq_false_iff.mpr fun hmask => hnot ⟨BitVec.eq_of_toNat_eq (onPort_iff.mp hport).2, hmask⟩
      refine srout_of_kept (csReleased_of_same
        (pinLevel_bsrWrite_other (lt_of_usable husable) fun h => absurd h.2 (by rw [hnames h.1]; decide)) fun hport => ?_)
      have hmask := hnames hport
      rw [BitVec.getLsbD_or, Bool.or_eq_false_iff] at hmask
      split
      · exact hmask.2
      · exact hmask.1
  · have hall := shiftRx_of_wholeWrite h hp hexec
    refine ⟨_, by rw [hall, getElem?_shiftRxAll hb, hrx]; rfl, shiftsOnRise_shiftRxAfter hw _ _ _ _ _,
      fun hclk hnull hbefore hafter => ?_, fun hcs => ?_⟩
    · exact srout_of_release hclk (csReleased_of_change hnull hbefore hafter)
    · exact srout_of_kept (csReleased_of_same hcs.symm fun _ => by split <;> simp)

end Sys2Proof.Machine
end

section
/-! A list that is a contiguous run of one port (spec 41 R163): its masks are the value and its complement aligned under
one mask, and its packed sample is the port's sample aligned back. -/

namespace Sys2Proof.Machine

/-- The n lowest bits, aligned at `pos`. -/
theorem getLsbD_runMask {pos n : Nat} (h : pos + n ≤ 16) (b : Nat) :
    (((1#16 <<< n) - 1) <<< pos).getLsbD b = (decide (pos ≤ b) && decide (b < pos + n)) := by
  have hones : ∀ m ≤ 16, (1#16 <<< m) - 1 = BitVec.ofNat 16 (2 ^ m - 1) := by decide
  rw [hones n (by omega), BitVec.getLsbD_shiftLeft, getLsbD_rxFull (by omega)]
  by_cases hb : b < 16
  · by_cases hpos : b < pos
    · simp [hpos]
    · simp only [hb, hpos, decide_true, decide_false, Bool.not_false, Bool.true_and, show pos ≤ b by omega]
      exact decide_eq_decide.mpr (by omega)
  · simp [hb, show ¬b < pos + n by omega]

/-- The list is the n pins of port p from pin `pos` upward (R32). -/
structure IsRun (xs : List Pin) (p : Byte) (pos n : Nat) : Prop where
  real : p ≠ nullPort
  nonempty : 1 ≤ n
  fits : pos + n ≤ 16
  length : xs.length = n
  get : ∀ i < n, xs[i]? = some ⟨p, Fin.ofNat 16 (pos + i)⟩

section
variable {xs : List Pin} {p : Byte} {pos n : Nat} (h : IsRun xs p pos n)
include h

/-- Pin i of the run, if there is one, is pin `pos + i` of the port. -/
theorem IsRun.get_iff {i : Nat} {x : Pin} : xs[i]? = some x ↔ i < n ∧ x = ⟨p, Fin.ofNat 16 (pos + i)⟩ := by
  constructor
  · intro hx
    have hi : i < n := h.length ▸ (List.getElem?_eq_some_iff.mp hx).1
    exact ⟨hi, Option.some.inj (hx.symm.trans (h.get i hi))⟩
  · rintro ⟨hi, rfl⟩
    exact h.get i hi

theorem IsRun.pos_val {i : Nat} (hi : i < n) : (Fin.ofNat 16 (pos + i)).val = pos + i :=
  Nat.mod_eq_of_lt (by have := h.fits; omega)

theorem IsRun.isNull (i : Fin 16) : Pin.isNull ⟨p, i⟩ = false := beq_eq_false_iff_ne.mpr h.real

theorem IsRun.portsOf : portsOf xs = [p.toNat] := by
  obtain ⟨x, rest, rfl⟩ := List.exists_cons_of_length_pos (by rw [h.length]; exact h.nonempty)
  have hport : ∀ y ∈ x :: rest, y.port = p := fun y hy => by
    obtain ⟨i, hi⟩ := List.mem_iff_getElem?.mp hy
    rw [(h.get_iff.mp hi).2]
  have hx : x.port = p := hport x (List.mem_cons_self ..)
  have hnull : x.isNull = false := beq_eq_false_iff_ne.mpr (hx ▸ h.real)
  have hrest : portsFrom [p.toNat] rest = [] := List.eq_nil_iff_forall_not_mem.mpr fun q hq => by
    obtain ⟨hnot, y, hy, -, rfl⟩ := mem_portsFrom.mp hq
    exact hnot (by simp [hport y (List.mem_cons_of_mem _ hy)])
  simp [Machine.portsOf, portsFrom, hnull, hx, hrest]

/-- A pin of the run with a property is the one its bit stands for. -/
theorem IsRun.exists_pin_iff (P : Nat → Prop) (b : Nat) :
    (∃ k x, xs[k]? = some x ∧ onPort x p.toNat = true ∧ P (0 + k) ∧ x.pos.val = b) ↔
      (pos ≤ b ∧ b < pos + n) ∧ P (b - pos) := by
  constructor
  · rintro ⟨k, x, hx, -, hP, rfl⟩
    obtain ⟨hk, rfl⟩ := h.get_iff.mp hx
    rw [Nat.zero_add] at hP
    simp only [h.pos_val hk, Nat.add_sub_cancel_left]
    exact ⟨by omega, hP⟩
  · rintro ⟨hb, hP⟩
    have hk : b - pos < n := by omega
    refine ⟨b - pos, _, h.get _ hk, onPort_iff.mpr ⟨h.isNull _, rfl⟩, by rwa [Nat.zero_add], ?_⟩
    simp only [h.pos_val hk]
    omega

/-- The set mask of the run is the value aligned, under the mask (R163). -/
theorem IsRun.setMask_eq (v : Half) :
    setMask p.toNat v 0 xs = (v <<< pos) &&& (((1#16 <<< n) - 1) <<< pos) := by
  refine BitVec.eq_of_getLsbD_eq fun b hb => Bool.eq_iff_iff.mpr ?_
  rw [getLsbD_setMask, h.exists_pin_iff (fun k => v.getLsbD k = true), BitVec.getLsbD_and, getLsbD_runMask h.fits,
    BitVec.getLsbD_shiftLeft]
  simp [hb]
  grind

/-- The clear mask of the run is the value's complement aligned, under the mask (R163). -/
theorem IsRun.clrMask_eq (v : Half) :
    clrMask p.toNat v 0 xs = ~~~(v <<< pos) &&& (((1#16 <<< n) - 1) <<< pos) := by
  refine BitVec.eq_of_getLsbD_eq fun b hb => Bool.eq_iff_iff.mpr ?_
  rw [getLsbD_clrMask, h.exists_pin_iff (fun k => v.getLsbD k = false), BitVec.getLsbD_and, BitVec.getLsbD_not,
    getLsbD_runMask h.fits, BitVec.getLsbD_shiftLeft]
  simp [hb]
  grind

/-- The packed sample of the run is the port's sample under the mask, aligned back (R163). -/
theorem IsRun.packSamples_eq (x : Half) :
    packSamples [(p.toNat, x)] 0 xs = (x &&& (((1#16 <<< n) - 1) <<< pos)) >>> pos := by
  have hfits := h.fits
  refine BitVec.eq_of_getLsbD_eq fun b hb => ?_
  rw [getLsbD_packSamples _ _ _ (by rw [h.length]; omega), BitVec.getLsbD_ushiftRight, BitVec.getLsbD_and,
    getLsbD_runMask hfits, Nat.sub_zero]
  by_cases hn : b < n
  · simp [h.get b hn, h.isNull, sampleOf, hn, Nat.mod_eq_of_lt (show pos + b < 16 by omega)]
  · simp [List.getElem?_eq_none (by rw [h.length]; omega : xs.length ≤ b), hn]

end

theorem listAccessChecks_holds_of_enabled {s : State} {l : Nat} {xs : List Pin} (hl : s.config.lists[l]? = some xs)
    (h : ∀ q ∈ portsOf xs, s.enabled q = true) : ∀ c ∈ listAccessChecks s l, c.holds = true := by
  simp only [listAccessChecks, listChecks, listPins_of_get hl, List.forall_mem_cons, List.forall_mem_map]
  exact ⟨decide_eq_true (lt_of_list hl), h⟩

section
variable {l p : Byte} {s : State} {xs : List Pin} {pos n : Nat}
  (hl : s.config.lists[l.toNat]? = some xs) (hrun : IsRun xs p pos n) (hen : s.enabled p.toNat = true)
include hl hrun hen

/-- `LWR` of a run is one set/clear write (R163). -/
theorem exec_lwr_run (v : Half) : exec (.lwr l v) s = .next (runAct .retire (s.beginOp.bsrWrite p.toNat
    (~~~(v <<< pos) &&& (((1#16 <<< n) - 1) <<< pos)) ((v <<< pos) &&& (((1#16 <<< n) - 1) <<< pos)))) := by
  refine (perform_next (listAccessChecks_holds_of_enabled hl (by rw [hrun.portsOf]; simpa using hen))).trans ?_
  have hpins : listPins s.beginOp.config l.toNat = xs := listPins_of_get hl
  simp only [planLwr, listWriteActs, listPins_of_get hl, hrun.portsOf, List.map_cons, List.map_nil, List.cons_append,
    List.nil_append, runActs_cons, runActs_nil]
  rw [runAct, hpins, srcValue, hrun.setMask_eq, hrun.clrMask_eq]

/-- `LRD` of a run is one sample, its result the run's bits (R163). -/
theorem exec_lrd_run : ∃ t, exec (.lrd l) s = .next t ∧
    t.pinTrace = s.pinTrace ++ [.idrR p.toNat (s.sampleValue p.toNat)] ∧
    t.ctx = advancedRes s.ctx
      (((s.sampleValue p.toNat &&& (((1#16 <<< n) - 1) <<< pos)) >>> pos).setWidth 64) := by
  have hexec : exec (.lrd l) s = .next
      (runActs [.packList l.toNat, .resLoaded, .retire] (s.beginOp.samplePort p.toNat)) := by
    refine (perform_next (listAccessChecks_holds_of_enabled hl (by rw [hrun.portsOf]; simpa using hen))).trans ?_
    simp only [planLrd, listReadActs, listPins_of_get hl, hrun.portsOf]
    rfl
  refine ⟨_, hexec, rfl, ?_⟩
  rw [← hrun.packSamples_eq, ← listPins_of_get hl]
  rfl

end

/-- Settles O38: the run has one port, so one write and one sample of it. -/
theorem contiguousRunIsOneAlignedTransfer : Obligations.ContiguousRunIsOneAlignedTransfer := by
  intro l p pos n v M s xs hl hp hen hn hfits hlen hget hM
  have hrun : IsRun xs p pos n := ⟨hp, hn, hfits, hlen, hget⟩
  obtain ⟨t, ht, htrace, hctx⟩ := exec_lrd_run hl hrun hen
  subst hM
  exact ⟨⟨_, exec_lwr_run hl hrun hen v, bsrEffect_bsrWrite _ _ (lt_of_enabled hen)⟩,
    t, _, ht, isSample_sampleValue s _, htrace, hctx⟩

end Sys2Proof.Machine
end

section
/-! Bus writes and reads on a direct bus (spec 41 R166, R167) and a serial write's items (42 R185, R187): one bus item
round the list's or the lines' actions. -/

namespace Sys2Proof.Machine

/-- An initialised bus is written: its item, then the body of its kind (R166). -/
theorem exec_bwr {b byte : Byte} {s : State} (h : BusUsable s b.toNat) : exec (.bwr b byte) s =
    .next (runAct .retire (runActs (busWriteActs s.config b.toNat (.imm (byte.setWidth 16))) s.beginOp)) := by
  refine (perform_next (busWriteChecks_holds h)).trans ?_
  rw [runActs_append]
  rfl

/-- An operation that has only driven lines ends with its context advanced and nothing else changed (R25). -/
theorem Drives.retire {xs : List Pin} {ps : List PinItem} {ws : List BusItem} {s m : State}
    (h : Drives xs ps ws s.beginOp m) : (runAct .retire m).ctx = advanced s.ctx ∧
      runAct .retire m = { s with
        ports := m.ports, shiftRx := m.shiftRx, pinTrace := m.pinTrace, busTrace := m.busTrace
        ctx := (runAct .retire m).ctx } := by
  rw [h.frame]
  exact ⟨rfl, rfl⟩

theorem actsDrive_busWrByte {c : Config} {src : Src} (xs : List Pin) (b : Nat) (byte : Byte) :
    ActsDrive c src (byte.setWidth 16) xs [.busWr b src] [] [.busWr b byte] := by
  simpa only [setWidth_byte] using actsDrive_busWr (c := c) (src := src) (v := byte.setWidth 16) (xs := xs) b

/-- A read's result is in `RES`, its byte in `BUS_TRACE` (R167). -/
theorem OnlyRead.busRd {s m : State} (b : Nat) (h : OnlyRead s m) :
    (runAct (.busRd b) m).busTrace = s.busTrace ++ [.busRd b (runAct (.busRd b) m).pollMask] ∧
    (runAct .retire (runAct (.busRd b) m)).ctx = advancedRes s.ctx m.ctx.locals.t ∧
    runAct .retire (runAct (.busRd b) m) = { s with
      pinTrace := m.pinTrace, busTrace := (runAct (.busRd b) m).busTrace
      ctx := (runAct .retire (runAct (.busRd b) m)).ctx, pads := m.pads, draws := m.draws } := by
  obtain ⟨hframe, hctx⟩ := h
  generalize m.ctx = c, m.pinTrace = items, m.pads = pads, m.draws = d at hframe hctx
  subst hframe
  generalize c.locals = l at hctx
  subst hctx
  exact ⟨rfl, rfl, rfl⟩

/-- Settles O41: after the bus item the body is a list write. -/
theorem directBusWritePresentsTheByte : Obligations.DirectBusWritePresentsTheByte := by
  intro b byte l cfg xs s hb hl hxs husable
  have hlist : listPins s.config l = xs := listPins_of_get hl
  have hexec := exec_bwr (byte := byte) husable
  have hpins : PinsUsable s xs := by
    obtain ⟨⟨-, -, hpins⟩, -⟩ := husable
    simpa only [busPins, hb, hlist] using hpins
  simp only [busWriteActs, hb, listWriteActs, hlist] at hexec
  have hwritten := portsWritten_runActs (s := runAct (.busWr b.toNat (.imm (byte.setWidth 16))) s.beginOp)
    (src := .imm (byte.setWidth 16)) hlist (portsOf_nodup xs) (lt_of_mem_portsOf hpins)
  have hdrives := (actsDrive_busWrByte (src := .imm (byte.setWidth 16)) xs b.toNat byte).append
    (actsDrive_bsrList (fun x hx => hlist ▸ hx) (portsOf xs)) s.beginOp rfl rfl
  obtain ⟨hctx, hframe⟩ := hdrives.retire
  exact ⟨_, hexec, hwritten.listDriven hxs, hdrives.bus, hctx, hframe⟩

/-- Settles O42: the body is a serial write, whatever pins its lines are. -/
theorem serialWritePulsesMsbFirst : Obligations.SerialWritePulsesMsbFirst := by
  intro b byte w s hb hclk hdat husable
  have hexec := exec_bwr (byte := byte) husable
  simp only [busWriteActs, hb] at hexec
  have hdrives := (actsDrive_busWrByte (src := .imm (byte.setWidth 16)) [w.clk, w.dat, w.cs] b.toNat byte).append
    (actsDrive_serialWrite hclk hdat fun _ => id) s.beginOp rfl rfl
  obtain ⟨hctx, hframe⟩ := hdrives.retire
  exact ⟨_, hexec, hdrives.pin, hdrives.bus, hdrives.only, hctx, hframe⟩

/-- Settles O44: the body is a list read of eight pins, so what it packs is a byte. -/
theorem directBusReadSamplesItsPins : Obligations.DirectBusReadSamplesItsPins := by
  intro b l cfg xs s hs hb hl hreadable
  have hlist : listPins s.config l = xs := listPins_of_get hl
  have hlen : xs.length = 8 := hlist ▸ busOk_direct_length (busOk_get hs.config hb)
  obtain ⟨m, smp, hm, hsampled, honly⟩ := listSampled_runActs (s := s.beginOp) hlist (by omega) rfl
  have hread : s.afterBusRead b.toNat = runAct (.busRd b.toNat) m := by
    rw [State.afterBusRead, busReadActs_eq, runActs_append, busBodyActs, hb]
    exact congrArg (runAct (.busRd b.toNat)) hm
  have hbyte := pollMask_afterBusRead hs.config b.toNat
  have hexec := exec_brd hreadable
  rw [hread] at hbyte hexec
  obtain ⟨hbus, hctx, hframe⟩ := ((onlyRead_beginOp s).trans honly).busRd b.toNat
  exact ⟨_, smp, _, hexec, hsampled, hbyte.symm, hbus, hctx, hframe⟩

end Sys2Proof.Machine
end

section
/-! The receiver of a serial bus over the bus's own actions (spec 42 R185 and R186, 10 R35): one clock pulse shifts the
data level in, so the pulses of a whole byte fill the register and the release of chip-select presents it. -/

namespace Sys2Proof.Machine

/-! ### A register shifted by the bits of a value -/

/-- `SR` after one pulse for each of bits n − 1 down to 0 of `v` (R185). -/
def shiftedIn (N : Nat) (v : Half) : Nat → Reg 16 → Reg 16
  | 0, r => r
  | n + 1, r => shiftedIn N v n (shiftIn N r (some (v.getLsbD n)))

/-- The n lowest bits are the value's, the bits above them the old ones moved up. -/
theorem getLsbD_shiftedIn {N : Nat} (hN : N ≤ 16) (v : Half) (n : Nat) (r : Reg 16) (i : Nat) :
    (shiftedIn N v n r).known.getLsbD i =
      (if i < n then decide (i < N) else decide (n = 0 ∨ i < N) && r.known.getLsbD (i - n)) ∧
    (shiftedIn N v n r).val.getLsbD i =
      (if i < n then decide (i < N) && v.getLsbD i else decide (n = 0 ∨ i < N) && r.val.getLsbD (i - n)) := by
  induction n generalizing r with
  | zero => simp [shiftedIn]
  | succ n ih =>
    obtain ⟨hknown, hval⟩ := ih (shiftIn N r (some (v.getLsbD n)))
    obtain ⟨hknown', hval'⟩ := getLsbD_shiftIn hN r (v.getLsbD n) (i - n)
    rw [shiftedIn, hknown, hval, hknown', hval']
    rcases Nat.lt_trichotomy i n with hlt | rfl | hgt
    · simp [hlt, Nat.lt_succ_of_lt hlt]
    · have hzero : i < N → 0 < N := Nat.zero_lt_of_lt
      grind
    · simp only [if_neg (show ¬i < n by omega), if_neg (show ¬i < n + 1 by omega), show i - n ≠ 0 by omega,
        show i - n - 1 = i - (n + 1) by omega]
      grind

/-- SB_N pulses fill the register, whatever it held (R35). -/
theorem shiftedIn_full {w : ShiftCfg} (hpos : 0 < w.bits) (hw : w.bits ≤ 16) (v : Half) (r : Reg 16) :
    shiftedIn w.bits v w.bits r = rxHolds w v := by
  refine regOf_ext fun i _ => ?_
  obtain ⟨hknown, hval⟩ := getLsbD_shiftedIn hw v w.bits r i
  rw [hknown, hval, getLsbD_rxFull hw]
  by_cases hi : i < w.bits
  · simp [hi]
  · simp [hi, show w.bits ≠ 0 by omega]

/-! ### The receiver behind the bus's lines -/

/-- Bus b is the serial bus w, its receiver is `rx`, its clock and data lines are at these levels. -/
structure ReceiverAt (b : Nat) (w : ShiftCfg) (rx : ShiftRx) (clk dat : Option Bool) (s : State) : Prop where
  bus : s.config.buses[b]? = some (.shift w)
  rx : s.shiftRx[b]? = some rx
  clk : pinLevel s.ports w.clk = clk
  dat : pinLevel s.ports w.dat = dat
  lines : ∀ x ∈ [w.clk, w.dat, w.cs], x.isNull = false → x.port.toNat < s.ports.length

/-- The receiver depends on ports, receivers and configuration alone. -/
theorem ReceiverAt.congr {b : Nat} {w : ShiftCfg} {rx : ShiftRx} {clk dat : Option Bool} {s t : State}
    (h : ReceiverAt b w rx clk dat s) (hports : t.ports = s.ports) (hrx : t.shiftRx = s.shiftRx)
    (hconfig : t.config = s.config) : ReceiverAt b w rx clk dat t where
  bus := hconfig ▸ h.bus
  rx := hrx ▸ h.rx
  clk := hports ▸ h.clk
  dat := hports ▸ h.dat
  lines := hports ▸ h.lines

theorem ReceiverAt.hold {b : Nat} {w : ShiftCfg} {rx : ShiftRx} {clk dat : Option Bool} {s : State}
    (h : ReceiverAt b w rx clk dat s) (n : Nat) : ReceiverAt b w rx clk dat (runActs [.hold n] s) :=
  h.congr rfl rfl rfl

theorem LinesApart.ne {w : ShiftCfg} (h : LinesApart w) : w.clk ≠ w.dat ∧ w.clk ≠ w.cs ∧ w.dat ≠ w.cs := by
  obtain ⟨hclk, hdat, hpins⟩ := h
  have hpairs := pairwise_of_noRepeats hpins
  simp only [List.pairwise_cons, List.mem_cons, List.not_mem_nil, or_false, forall_eq_or_imp, forall_eq] at hpairs
  obtain ⟨⟨hclkDat, hclkCs⟩, hdatCs, -⟩ := hpairs
  exact ⟨hclkDat hclk, hclkCs hclk, hdatCs hdat⟩

/-- A pin keeps its level when another one is written. -/
theorem pinLevel_lineActs_other {s : State} {x y : Pin} (high : Bool) (h : y ≠ x) :
    pinLevel (runActs (lineActs x high) s).ports y = pinLevel s.ports y := by
  cases hy : y.isNull
  · exact (drives_lineActs high (List.mem_singleton_self x) s).only.odr.pinLevel hy (by simpa using h)
  · simp [pinLevel, hy]

theorem getLsbD_pinMask_other {x y : Pin} (h : y ≠ x) (hport : onPort y x.port.toNat = true) :
    (pinMask x).getLsbD y.pos.val = false := by
  rw [getLsbD_pinMask, decide_eq_false_iff_not]
  exact fun hpos => h (pin_eq_of_onPort hport hpos)

/-- The write of one pin as the receiver sees it (R35). -/
theorem shiftRx_lineActs {b : Nat} {w : ShiftCfg} {x : Pin} (high : Bool) {s : State} (hnull : x.isNull = false)
    (hb : s.config.buses[b]? = some (.shift w)) :
    (runActs (lineActs x high) s).shiftRx[b]? = s.shiftRx[b]?.map
      (shiftRxAfter s.config.csActiveLow w s.ports (runActs (lineActs x high) s).ports x.port.toNat
        (if high then 0 else pinMask x) (if high then pinMask x else 0)) := by
  rw [runActs_lineActs high s hnull]
  cases high <;> exact getElem?_shiftRxAll hb

/-- The write of a pin that is not chip-select does not release it (R35, R182). -/
theorem csReleased_lineActs_other {w : ShiftCfg} {x : Pin} (low high : Bool) {s : State} (h : w.cs ≠ x) :
    csReleased low w s.ports (runActs (lineActs x high) s).ports x.port.toNat (if high then 0 else pinMask x)
      (if high then pinMask x else 0) = .none := by
  refine csReleased_of_same (pinLevel_lineActs_other high h) fun hport => ?_
  have hmask : (if low then (if high then pinMask x else 0) else (if high then 0 else pinMask x)) =
      if low = high then pinMask x else 0 := by cases low <;> cases high <;> rfl
  rw [hmask]
  split
  · exact getLsbD_pinMask_other h hport
  · exact BitVec.getLsbD_zero

theorem risingEdge_low (level : Option Bool) : risingEdge level (some false) = .none := by
  rcases level with _ | _ | _ <;> rfl

section
variable {b : Nat} {w : ShiftCfg} {rx : ShiftRx} {clk dat : Option Bool} {s : State}

/-- The write of a pin other than chip-select moves `SR` alone (R35). -/
theorem shiftRx_lineActs_data (h : ReceiverAt b w rx clk dat s) {x : Pin} (high : Bool) (hnull : x.isNull = false)
    (hx : w.cs ≠ x) : (runActs (lineActs x high) s).shiftRx[b]? =
      some ⟨srAfter w s.ports (runActs (lineActs x high) s).ports rx.sr, rx.srout⟩ := by
  rw [shiftRx_lineActs high hnull h.bus, h.rx, Option.map_some, shiftRxAfter, csReleased_lineActs_other _ _ hx]

theorem lines_lineActs (h : ReceiverAt b w rx clk dat s) {x : Pin} (high : Bool) :
    ∀ y ∈ [w.clk, w.dat, w.cs], y.isNull = false → y.port.toNat < (runActs (lineActs x high) s).ports.length := by
  rw [runActs_ports_length]
  exact h.lines

section
variable (hw : LinesApart w)
include hw

theorem ReceiverAt.clkLow (h : ReceiverAt b w rx clk dat s) :
    ReceiverAt b w rx (some false) dat (runActs (lineActs w.clk false) s) := by
  obtain ⟨hclkDat, hclkCs, -⟩ := hw.ne
  have hlevel := level_lineActs (s := s) false hw.1 (h.lines _ (by simp) hw.1)
  refine ⟨by rw [runActs_config, h.bus], ?_, hlevel, (pinLevel_lineActs_other false hclkDat.symm).trans h.dat,
    lines_lineActs h false⟩
  rw [shiftRx_lineActs_data h false hw.1 hclkCs.symm, srAfter, hlevel, risingEdge_low]

theorem ReceiverAt.datAt (h : ReceiverAt b w rx clk dat s) (v : Bool) :
    ReceiverAt b w rx clk (some v) (runActs (lineActs w.dat v) s) := by
  obtain ⟨hclkDat, -, hdatCs⟩ := hw.ne
  have hclk := pinLevel_lineActs_other (s := s) v hclkDat
  refine ⟨by rw [runActs_config, h.bus], ?_, hclk.trans h.clk,
    level_lineActs v hw.2.1 (h.lines _ (by simp) hw.2.1), lines_lineActs h v⟩
  rw [shiftRx_lineActs_data h v hw.2.1 hdatCs.symm, srAfter_same _ hclk.symm]

/-- A rising clock shifts the data level in (R35). -/
theorem ReceiverAt.clkHigh {v : Bool} (h : ReceiverAt b w rx (some false) (some v) s) :
    ReceiverAt b w ⟨shiftIn w.bits rx.sr (some v), rx.srout⟩ (some true) (some v)
      (runActs (lineActs w.clk true) s) := by
  obtain ⟨hclkDat, hclkCs, -⟩ := hw.ne
  have hlevel := level_lineActs (s := s) true hw.1 (h.lines _ (by simp) hw.1)
  have hdat := (pinLevel_lineActs_other (s := s) true hclkDat.symm).trans h.dat
  refine ⟨by rw [runActs_config, h.bus], ?_, hlevel, hdat, lines_lineActs h true⟩
  rw [shiftRx_lineActs_data h true hw.1 hclkCs.symm, srAfter_rise _ h.clk hlevel h.dat hdat]

/-- A write of chip-select, which may be the null pin, keeps `SR`; a release presents it (R35, R182). -/
theorem ReceiverAt.csAt (h : ReceiverAt b w rx clk dat s) (high : Bool) :
    ReceiverAt b w ⟨rx.sr, if !w.cs.isNull && high == s.config.csActiveLow then rx.sr else rx.srout⟩ clk dat
      (runActs (lineActs w.cs high) s) := by
  obtain ⟨-, hclkCs, hdatCs⟩ := hw.ne
  cases hnull : w.cs.isNull
  · have hclk := pinLevel_lineActs_other (s := s) high hclkCs
    have hlevel := level_lineActs (s := s) high hnull (h.lines _ (by simp) hnull)
    refine ⟨by rw [runActs_config, h.bus], ?_, hclk.trans h.clk,
      (pinLevel_lineActs_other high hdatCs).trans h.dat, lines_lineActs h high⟩
    rw [shiftRx_lineActs high hnull h.bus, h.rx, Option.map_some]
    refine congrArg some ?_
    by_cases hrelease : high = s.config.csActiveLow
    · subst hrelease
      rw [shiftRxAfter, srAfter_same _ hclk.symm, csReleased_of_action hnull hlevel
        (by cases s.config.csActiveLow <;> simp [getLsbD_pinMask])]
      simp
    · rw [shiftRxAfter, srAfter_same _ hclk.symm, csReleased, hlevel]
      simp [hnull, hrelease]
  · simpa [lineActs_null high hnull] using h

/-- One clock pulse with the data line at `v` (R185). -/
theorem ReceiverAt.pulse {v : Bool} (h : ReceiverAt b w rx clk (some v) s) (delay : Nat) :
    ReceiverAt b w ⟨shiftIn w.bits rx.sr (some v), rx.srout⟩ (some true) (some v)
      (runActs (lineActs w.clk false ++ [.hold delay] ++ lineActs w.clk true ++ [.hold delay]) s) := by
  simp only [runActs_append]
  exact (((h.clkLow hw).hold delay).clkHigh hw).hold delay

/-- The pulses for bits n − 1 down to 0 shift them in (R185). -/
theorem ReceiverAt.serialBits (h : ReceiverAt b w rx clk dat s) (v : Half) (n : Nat) :
    ReceiverAt b w ⟨shiftedIn w.bits v n rx.sr, rx.srout⟩ (if n = 0 then clk else some true)
      (if n = 0 then dat else some (v.getLsbD 0)) (runActs (serialBits w (.imm v) n) s) := by
  induction n generalizing rx clk dat s with
  | zero => exact h
  | succ n ih =>
    have hbit : pinWriteBit w.dat n (.imm v) = [.bsrBit w.dat n (.imm v)] := if_neg (by simp [hw.2.1])
    have hdat (r : State) : runActs (pinWriteBit w.dat n (.imm v)) r = runActs (lineActs w.dat (v.getLsbD n)) r := by
      rw [hbit, runActs_lineActs _ r hw.2.1]
      rfl
    simp only [Machine.serialBits, runActs_append, hdat]
    have hpulse := ih ((((((h.clkLow hw).datAt hw (v.getLsbD n)).hold w.delay).clkHigh hw).hold w.delay))
    rcases n with _ | n <;> exact hpulse

/-- A serial write fills the receiver with the value and presents it on the release of chip-select (R185, R35). -/
theorem ReceiverAt.serialWrite (h : ReceiverAt b w rx clk dat s) (hpos : 0 < w.bits) (hbits : w.bits ≤ 16) (v : Half) :
    ReceiverAt b w ⟨rxHolds w v, if w.cs.isNull then rx.srout else rxHolds w v⟩ (some true) (some (v.getLsbD 0))
      (runActs (serialWrite s.config w (.imm v)) s) := by
  rw [Machine.serialWrite, assertCs_eq, releaseCs_eq, runActs_append, runActs_append]
  have hshifted := (((h.csAt hw (!s.config.csActiveLow)).serialBits hw v w.bits).csAt hw s.config.csActiveLow)
  simp only [runActs_config, shiftedIn_full hpos hbits, if_neg hpos.ne'] at hshifted
  convert hshifted using 2
  cases w.cs.isNull <;> simp

end

/-- A serial write leaves a real chip-select released (R185). -/
theorem level_serialWrite {c : Config} {src : Src} (hcs : w.cs.isNull = false)
    (hp : w.cs.port.toNat < s.ports.length) : Level (runActs (serialWrite c w src) s) w.cs c.csActiveLow := by
  rw [serialWrite, releaseCs_eq, runActs_append]
  exact level_lineActs _ hcs (by rwa [runActs_ports_length])

end

/-- In a consistent state a serial bus with usable lines has a receiver. -/
theorem exists_receiverAt {b : Nat} {w : ShiftCfg} {s : State} (hs : Consistent s)
    (hb : s.config.buses[b]? = some (.shift w)) (hpins : PinsUsable s [w.clk, w.dat, w.cs]) :
    ∃ rx, s.shiftRx[b]? = some rx ∧
      ReceiverAt b w rx (pinLevel s.ports w.clk) (pinLevel s.ports w.dat) s := by
  have hlt : b < s.shiftRx.length := hs.rxLen ▸ (List.getElem?_eq_some_iff.mp hb).1
  exact ⟨_, List.getElem?_eq_getElem hlt, hb, List.getElem?_eq_getElem hlt, rfl, rfl, hpins.lt_length⟩

theorem pinsUsable_shiftLines {b : Nat} {w : ShiftCfg} {s : State} (hb : s.config.buses[b]? = some (.shift w))
    (h : BusUsable s b) : PinsUsable s [w.clk, w.dat, w.cs] := by
  obtain ⟨⟨-, -, hpins⟩, -⟩ := h
  simpa only [busPins, hb] using hpins

/-- Settles O43: the receiver followed through the serial write. -/
theorem serialReceiverGetsTheByte : Obligations.SerialReceiverGetsTheByte := by
  intro b byte w s hs hb hw husable
  have hbits := busOk_shift_bits (busOk_get hs.config hb)
  have hpins := pinsUsable_shiftLines hb husable
  obtain ⟨rx, hrx, hat⟩ := exists_receiverAt hs hb hpins
  have hexec := exec_bwr (byte := byte) husable
  simp only [busWriteActs, hb, runActs_cons] at hexec
  have hstart := hat.congr (t := runAct (.busWr b.toNat (.imm (byte.setWidth 16))) s.beginOp) rfl rfl rfl
  have hdone := hstart.serialWrite hw (by omega) (by omega) (byte.setWidth 16)
  have hbit : (byte.setWidth 16).getLsbD 0 = byte.getLsbD 0 := getLsbD_setWidth_of_le byte (by decide) 0
  refine ⟨_, rx, _, hexec, hrx, hdone.rx, rfl, rfl, hdone.clk, hbit ▸ hdone.dat, fun hcs => ?_⟩
  exact level_serialWrite (c := s.config) hcs (hstart.lines _ (by simp) hcs)

end Sys2Proof.Machine
end

section
/-! A read of a serial bus (spec 42 R186): after the write of the seed each pulse shifts the data line's level once more
and takes one sample of the input line, and the samples pack to the byte read. -/

namespace Sys2Proof.Machine

/-! ### The samples -/

theorem outputPin_of_drivesOnly {s t : State} {xs : List Pin} (h : DrivesOnly s t xs) (hconfig : t.config = s.config)
    (q i : Nat) : outputPin t q i = outputPin s q i := by
  have hmode : (t.port q).mode = (s.port q).mode := h.cfgReg q .mode
  have hdtype : (t.port q).dtype = (s.port q).dtype := h.cfgReg q .dtype
  rw [outputPin, hconfig, hmode, hdtype, outputPin]

/-- From s to t the pulses of a read took these samples of the input line's port, each its bit, its trace items and one
answer of the environment; with the null pin a sample is 0 and nothing is read (R186, R46). -/
structure PulsesSampled (w : ShiftCfg) (vs : List Half) (s t : State) : Prop where
  trace : t.pinTrace = s.pinTrace ++ vs.flatMap (sampleItems w)
  bits : t.ctx.locals.bits = s.ctx.locals.bits ++ vs.map fun v => !w.din.isNull && v.getLsbD w.din.pos.val
  pads : t.pads = s.pads.drop (if w.din.isNull then 0 else vs.length)
  shows : ∀ (j : Nat) (v a : Half), w.din.isNull = false → outputPin s w.din.port.toNat w.din.pos.val = false →
    vs[j]? = some v → s.pads[j]? = some a → v.getLsbD w.din.pos.val = a.getLsbD w.din.pos.val

theorem PulsesSampled.cons {w : ShiftCfg} {v : Half} {vs : List Half} {s u t : State}
    (hout : outputPin u w.din.port.toNat w.din.pos.val = outputPin s w.din.port.toNat w.din.pos.val)
    (h : PulsesSampled w [v] s u) (k : PulsesSampled w vs u t) : PulsesSampled w (v :: vs) s t where
  trace := by
    rw [k.trace, h.trace]
    simp
  bits := by
    rw [k.bits, h.bits]
    simp
  pads := by
    rw [k.pads, h.pads]
    cases w.din.isNull <;> simp [Nat.add_comm]
  shows j x a hnull hfields hx ha := by
    cases j with
    | zero => exact h.shows 0 x a hnull hfields hx ha
    | succ j =>
      refine k.shows j x a hnull (hout.trans hfields) hx ?_
      rw [h.pads, hnull]
      simpa [Nat.add_comm] using ha

/-- The clock pulse of a read (R186). -/
def clockActs (w : ShiftCfg) : List Act :=
  lineActs w.clk false ++ [.hold w.delay] ++ lineActs w.clk true ++ [.hold w.delay]

theorem serialPulse_eq (w : ShiftCfg) : serialPulse w = clockActs w ++ serialSample w.din := rfl

theorem drives_clockActs {w : ShiftCfg} (hclk : w.clk.isNull = false) (s : State) :
    Drives [w.clk] [.bsrW w.clk.port.toNat 0 (pinMask w.clk), .hold w.delay,
      .bsrW w.clk.port.toNat (pinMask w.clk) 0, .hold w.delay] [] s (runActs (clockActs w) s) := by
  have hmem := List.mem_singleton_self w.clk
  simpa [clockActs, lineItems, hclk] using ((((actsDrive_lineActs false hmem).append (actsDrive_hold w.delay)).append
    (actsDrive_lineActs true hmem)).append (actsDrive_hold w.delay)) s rfl (rfl : srcValue s.ctx.locals .loaded = _)

/-- One pulse takes one sample (R186). -/
theorem pulsesSampled_serialPulse {w : ShiftCfg} (hclk : w.clk.isNull = false) (s : State) :
    ∃ v, PulsesSampled w [v] s (runActs (serialPulse w) s) := by
  have hdrives := drives_clockActs hclk s
  rw [serialPulse_eq, runActs_append, serialSample]
  generalize runActs (clockActs w) s = m at hdrives
  have hpads : m.pads = s.pads := by rw [hdrives.frame]
  have hctx : m.ctx = s.ctx := by rw [hdrives.frame]
  have hconfig : m.config = s.config := by rw [hdrives.frame]
  cases hnull : w.din.isNull
  · refine ⟨m.sampleValue w.din.port.toNat, ?_, ?_, ?_, ?_⟩
    · show (m.samplePort w.din.port.toNat).pinTrace = _
      simp [State.samplePort, sampleItems, hnull, hdrives.pin]
    · show m.ctx.locals.bits ++ [_] = _
      simp [hctx, hnull, State.samplePort, runAct]
    · show m.pads.tail = _
      simp [hpads, hnull]
    · intro j v a _ hout hv ha
      obtain ⟨rfl, rfl⟩ : j = 0 ∧ m.sampleValue w.din.port.toNat = v := by
        rcases j with _ | j
        · simpa using hv
        · simp at hv
      rw [← outputPin_of_drivesOnly hdrives.only hconfig] at hout
      exact showsPads_sampleValue _ (by rw [hpads, List.head?_eq_getElem?, ha]) _ w.din.pos.isLt hout
  · refine ⟨0, ?_, ?_, ?_, fun _ _ _ h => absurd h (by simp [hnull])⟩
    · show m.pinTrace = _
      simp [sampleItems, hnull, hdrives.pin]
    · show m.ctx.locals.bits ++ [_] = _
      simp [hctx, hnull]
    · show m.pads = _
      simp [hpads, hnull]

/-- The pulses of a read take one sample each (R186). -/
theorem pulsesSampled_replicate {w : ShiftCfg} (hclk : w.clk.isNull = false) (n : Nat) (s : State) :
    ∃ vs : List Half, vs.length = n ∧
      PulsesSampled w vs s (runActs (List.replicate n (serialPulse w)).flatten s) := by
  induction n generalizing s with
  | zero => exact ⟨[], rfl, by simp, by simp, by simp, by simp⟩
  | succ n ih =>
    obtain ⟨v, hv⟩ := pulsesSampled_serialPulse hclk s
    obtain ⟨vs, hlen, hvs⟩ := ih (runActs (serialPulse w) s)
    have hread := actsRead_serialPulses (c := s.config) (w := w) (List.mem_singleton_self w.clk) 1 s rfl
    rw [List.replicate_one, List.flatten_singleton] at hread
    rw [List.replicate_succ, List.flatten_cons, runActs_append]
    exact ⟨v :: vs, by rw [List.length_cons, hlen],
      hv.cons (outputPin_of_drivesOnly hread.only (runActs_config _ _) _ _) hvs⟩

/-! ### The receiver -/

theorem ReceiverAt.serialSample {b : Nat} {w : ShiftCfg} {rx : ShiftRx} {clk dat : Option Bool} {s : State}
    (h : ReceiverAt b w rx clk dat s) (x : Pin) : ReceiverAt b w rx clk dat (runActs (serialSample x) s) := by
  unfold Machine.serialSample
  split
  · exact h.congr rfl rfl rfl
  · exact h.congr rfl rfl rfl

theorem ReceiverAt.serialPulse {b : Nat} {w : ShiftCfg} {rx : ShiftRx} {clk : Option Bool} {v : Bool} {s : State}
    (hw : LinesApart w) (h : ReceiverAt b w rx clk (some v) s) :
    ReceiverAt b w ⟨shiftIn w.bits rx.sr (some v), rx.srout⟩ (some true) (some v) (runActs (serialPulse w) s) := by
  rw [serialPulse_eq, runActs_append]
  exact (h.pulse hw w.delay).serialSample w.din

/-- Every pulse of a read shifts in the level the data line keeps (R35). -/
theorem ReceiverAt.serialPulses {b : Nat} {w : ShiftCfg} {rx : ShiftRx} {clk : Option Bool} {v : Bool} {s : State}
    (hw : LinesApart w) (h : ReceiverAt b w rx clk (some v) s) {n : Nat} (hn : n ≤ 16) :
    ReceiverAt b w ⟨shiftedIn w.bits (if v then 0xFFFF else 0) n rx.sr, rx.srout⟩ (if n = 0 then clk else some true)
      (some v) (runActs (List.replicate n (Machine.serialPulse w)).flatten s) := by
  induction n generalizing rx clk s with
  | zero => exact h
  | succ n ih =>
    have hbit : (if v then 0xFFFF else 0 : Half).getLsbD n = v := by
      have hones : (0xFFFF : Half) = BitVec.allOnes 16 := rfl
      cases v
      · exact BitVec.getLsbD_zero
      · rw [if_pos rfl, hones, BitVec.getLsbD_allOnes, decide_eq_true (by omega)]
    rw [List.replicate_succ, List.flatten_cons, runActs_append, shiftedIn, hbit]
    have hrest := ih (h.serialPulse hw) (by omega)
    rcases n with _ | n <;> exact hrest

/-! ### The whole read -/

theorem flatMap_getD_range {α : Type} (f : Half → List α) (vs : List Half) :
    (List.range vs.length).flatMap (fun j => f (vs.getD j 0)) = vs.flatMap f := by
  have hvs : (List.range vs.length).map (fun j => vs.getD j 0) = vs :=
    List.ext_getElem (by simp) fun j _ h => by simp [h]
  conv_rhs => rw [← hvs]
  rw [List.flatMap_map]

/-- What a read of a serial bus packs: sample j at the bit the order gives it, if the operation began with no bit. -/
theorem getLsbD_packed {w : ShiftCfg} {vs : List Half} {f : Half → Bool} (hlen : vs.length = w.bits) (hw : w.bits ≤ 8)
    {j : Nat} (hj : j < w.bits) :
    (((packBits w.bits w.readMsbFirst 0 (vs.map f)).setWidth 64).setWidth 8).getLsbD
      (if w.readMsbFirst then w.bits - 1 - j else j) = f (vs.getD j 0) := by
  have hplace : (if w.readMsbFirst then w.bits - 1 - j else j) < w.bits := by split <;> omega
  have hback : (if w.readMsbFirst then w.bits - 1 - (if w.readMsbFirst then w.bits - 1 - j else j)
      else (if w.readMsbFirst then w.bits - 1 - j else j)) = j := by
    split
    · omega
    · rfl
  rw [BitVec.getLsbD_setWidth, getLsbD_setWidth_of_le _ (by decide),
    getLsbD_packBits _ _ _ _ (by omega) (by simp [hlen]) _ hplace]
  simp only [hback]
  simp [hlen, hj, show (if w.readMsbFirst then w.bits - 1 - j else j) < 8 by omega, List.getD_eq_getElem?_getD]

theorem busReadActs_shift {c : Config} {b : Nat} {w : ShiftCfg} (hb : c.buses[b]? = some (.shift w)) :
    busReadActs c b = serialWrite c w (.imm w.seed) ++ (List.replicate w.bits (serialPulse w)).flatten ++
      [.packSerial w.bits w.readMsbFirst, .busRd b] := by
  simp [busReadActs_eq, busBodyActs, hb, serialShiftActs]

/-- A read that has ended: its word is in `RES`, nothing of the operation is left (R167). -/
theorem BusReadDone.retire {b : Nat} {s r : State} (h : BusReadDone b s r) :
    (runAct .retire r).ctx = advancedRes s.ctx r.ctx.locals.t ∧ runAct .retire r = { s with
      ports := r.ports, shiftRx := r.shiftRx, pinTrace := r.pinTrace, busTrace := r.busTrace
      ctx := (runAct .retire r).ctx, pads := r.pads, draws := r.draws } := by
  refine ⟨?_, ?_⟩
  · show { r.ctx with cp := r.ctx.cp + 1, locals := Locals.empty } = _
    rw [h.ctx]
    rfl
  · rw [h.frame]
    rfl

/-- What a read of a serial bus does before it packs its samples: the seed's write, then pulses that sample, the data
line at the seed's bit 0 (R186). -/
theorem exists_serialSampled {b : Nat} {w : ShiftCfg} {rx : ShiftRx} {clk dat : Option Bool} {s : State}
    (hw : LinesApart w) (hpos : 0 < w.bits) (hbits : w.bits ≤ 16) (hat : ReceiverAt b w rx clk dat s) :
    ∃ u m vs rx', s.afterBusRead b = runActs [.packSerial w.bits w.readMsbFirst, .busRd b] m ∧
      Drives [w.clk, w.dat, w.cs] (serialItems s.config.csActiveLow w w.seed) [] s.beginOp u ∧
      PulsesSampled w vs u m ∧ vs.length = w.bits ∧
      m.shiftRx[b]? = some rx' ∧ rx'.sr = rxHolds w (if w.seed.getLsbD 0 then 0xFFFF else 0) ∧
      rx'.srout = if w.cs.isNull then rx.srout else rxHolds w w.seed := by
  obtain ⟨hclk, hdat, -⟩ := id hw
  have hdrives := actsDrive_serialWrite (c := s.config) (src := .imm w.seed) hclk hdat (fun _ => id) s.beginOp rfl rfl
  have hseed := (hat.congr (t := s.beginOp) rfl rfl rfl).serialWrite hw hpos hbits w.seed
  obtain ⟨vs, hlen, hvs⟩ := pulsesSampled_replicate hclk w.bits
    (runActs (serialWrite s.config w (.imm w.seed)) s.beginOp)
  have hpulses := (hseed.serialPulses hw hbits).rx
  rw [shiftedIn_full hpos hbits] at hpulses
  refine ⟨_, _, vs, _, ?_, hdrives, hvs, hlen, hpulses, rfl, rfl⟩
  rw [State.afterBusRead, busReadActs_shift hat.bus, runActs_append, runActs_append]

/-- Packing the samples and noting the read leave the receivers. -/
theorem shiftRx_packed (n b : Nat) (msbFirst : Bool) (m : State) :
    (runAct .retire (runActs [.packSerial n msbFirst, .busRd b] m)).shiftRx = m.shiftRx := rfl

/-- Settles O45: trace, bits and receiver are those of the seed's write and the pulses after it. -/
theorem serialReadDrivesSeedAndSamples : Obligations.SerialReadDrivesSeedAndSamples := by
  intro b w s hs hb hw hreadable
  have hbits := busOk_shift_bits (busOk_get hs.config hb)
  obtain ⟨rx, hrx, hat⟩ := exists_receiverAt hs hb (pinsUsable_shiftLines hb hreadable.1)
  obtain ⟨u, m, vs, rx', hafter, hseed, hsampled, hlen, hrx', hsr, hsrout⟩ :=
    exists_serialSampled hw (by omega) (by omega) hat
  have hread := busReadDone_afterBusRead s b.toNat
  have hpack := pollMask_afterBusRead hs.config b.toNat
  obtain ⟨hctx, hframe⟩ := hread.retire
  have honly := hread.only
  rw [busPins, hb] at honly
  have hpads : u.pads = s.pads := by rw [hseed.frame]; rfl
  have hbegin : u.ctx.locals.bits = [] := by rw [hseed.frame]; rfl
  have hconfig : u.config = s.config := by rw [hseed.frame]; rfl
  have hpin := hseed.pin
  refine ⟨_, fun j => vs.getD j 0, (s.afterBusRead b.toNat).pollMask, rx, rx', exec_brd hreadable, ?_, fun j hj => ?_,
    fun j a hnull hout hj ha => ?_, ?_, hpack ▸ hctx, hread.bus, hrx, ?_, hsr, hsrout, honly, hframe⟩
  · rw [← hlen, flatMap_getD_range, hafter]
    show m.pinTrace = _
    rw [hsampled.trace, hpin]
    rfl
  · rw [hafter]
    show (((packBits w.bits w.readMsbFirst 0 m.ctx.locals.bits).setWidth 64).setWidth 8).getLsbD _ = _
    rw [hsampled.bits, hbegin, List.nil_append, getLsbD_packed hlen (by omega) hj]
  · refine hsampled.shows j _ a hnull ((outputPin_of_drivesOnly hseed.only hconfig _ _).trans hout) ?_ (hpads ▸ ha)
    simp [hlen, hj]
  · rw [hafter, ← hlen, ← hpads]
    exact hsampled.pads
  · rw [hafter, shiftRx_packed, hrx']

end Sys2Proof.Machine
end

section
/-! Initialising a direct bus (spec 41 R165, R168): the checks of `BINIT`, then one record merged into the list's pins of
each port. -/

namespace Sys2Proof.Machine

/-! ### The checks -/

/-- `BINIT` goes on where the bus exists, is not initialised and its lines can be used (R165, R168). -/
theorem planBinit_checks_hold {b : Byte} {s : State} (hconfig : s.config.wellFormed = true)
    (hb : b.toNat < s.config.buses.length) (hlines : PinsUsable s (busLines s.config b.toNat))
    (hready : s.busReady.getD b.toNat false = false) : ∀ c ∈ (planBinit b s).checks, c.holds = true := by
  simp only [planBinit, List.cons_append, List.nil_append, List.forall_mem_cons]
  refine ⟨decide_eq_true hb, Bool.not_eq_true' _ ▸ hready, ?_⟩
  unfold busLines at hlines
  split
  · next l cfg hbus =>
    rw [hbus] at hlines
    obtain ⟨-, haf⟩ := busOk_direct (busOk_get hconfig hbus)
    intro c hc
    obtain ⟨q, hq, hc⟩ := List.mem_flatMap.mp hc
    obtain ⟨x, hx, hnull, rfl⟩ := mem_portsOf.mp hq
    obtain ⟨hport, hon⟩ := (hlines x hx).resolve_left (by simp [hnull])
    simp only [portChecks, List.cons_append, List.nil_append, List.mem_cons, List.not_mem_nil, or_false] at hc
    obtain rfl | rfl | rfl := hc
    · exact hport
    · exact hon
    · exact decide_eq_true (haf x hx hnull)
  · next w hbus =>
    rw [hbus] at hlines
    exact pinsChecks_holds.mpr (hlines.mono (by simp))
  · simp

/-- `BINIT` notes the bus, configures it, then marks it ready (R165). -/
theorem exec_binit {b : Byte} {as : List Act} {s : State}
    (hchecks : ∀ c ∈ (planBinit b s).checks, c.holds = true)
    (hacts : (planBinit b s).acts = [.busInit b.toNat] ++ as ++ [.busReady b.toNat]) :
    exec (.binit b) s = .next (runActs [.busReady b.toNat, .retire]
      (runActs as (runAct (.busInit b.toNat) s.beginOp))) := by
  refine (perform_next hchecks).trans ?_
  rw [hacts, List.append_assoc, List.append_assoc, runActs_append, runActs_append]
  rfl

/-! ### One record for pins of several ports -/

/-- From s to t the record was merged into the masked pins of each port of the list, and nothing else of a port
differs (R135). -/
structure PortsMerged (mask : Nat → Half) (cfg : PinFields) (qs : List Nat) (s t : State) : Prop where
  fields : ∀ q r i b, i < 16 → b < s.config.width r → regBit (cfgReg (t.port q) r) (s.config.width r * i + b) =
    if q ∈ qs ∧ (mask q).getLsbD i = true then some ((cfg.get r).getLsbD b)
    else regBit (cfgReg (s.port q) r) (s.config.width r * i + b)
  odr : ∀ q, (t.port q).odr = (s.port q).odr
  en : ∀ q, (t.port q).en = (s.port q).en
  pin : ∃ old : Nat → CfgReg → Word,
    (∀ k q r, qs[k]? = some q → ReadsAs (cfgReg (s.port q) r) (old k r)) ∧
    t.pinTrace = s.pinTrace ++ mergeItems s.config old 0 (qs.map fun q => ⟨q, mask q, cfg⟩)
  ctx : t.ctx = { s.ctx with locals := t.ctx.locals }
  frame : t = { s with ports := t.ports, pinTrace := t.pinTrace, ctx := t.ctx, draws := t.draws }

theorem PortsMerged.nil (mask : Nat → Half) (cfg : PinFields) (s : State) : PortsMerged mask cfg [] s s where
  fields := fun _ _ _ _ _ _ => (if_neg fun h => absurd h.1 List.not_mem_nil).symm
  odr := fun _ => rfl
  en := fun _ => rfl
  pin := ⟨fun _ _ => 0, by simp, (List.append_nil _).symm⟩
  ctx := rfl
  frame := rfl

/-- A first port, then others: the first port's merges changed none of what the others' read. -/
theorem PortsMerged.cons {mask : Nat → Half} {cfg : PinFields} {p : Nat} {qs : List Nat} {s u t : State}
    (hp : p ∉ qs) (hwritten : CfgWritten (Merged s.config (mask p) cfg.get) p allRegs s u)
    (hitems : ItemsOfMerges s.config p (mask p) cfg.get allRegs s u)
    (hctx : u.ctx = { s.ctx with locals := u.ctx.locals }) (h : PortsMerged mask cfg qs u t) :
    PortsMerged mask cfg (p :: qs) s t := by
  obtain ⟨hodr, hen, hother, hframe⟩ := hwritten.frame
  have hconfig : u.config = s.config := (congrArg State.config hframe :)
  obtain ⟨hfields', hodr', hen', ⟨old', hold', hpin'⟩, hctx', hframe'⟩ := h
  rw [hconfig] at hfields' hpin'
  constructor
  case fields =>
    intro q r i b hi hb
    rw [hfields' q r i b hi hb]
    by_cases hq : q = p
    · subst hq
      rw [if_neg fun h => hp h.1, (hwritten.written r (mem_allRegs r)).regBit_field hi hb]
      simp
    · simp [hq, hother q hq]
  case odr =>
    intro q
    rw [hodr']
    by_cases hq : q = p
    · rw [hq, hodr]
    · rw [hother q hq]
  case en =>
    intro q
    rw [hen']
    by_cases hq : q = p
    · rw [hq, hen]
    · rw [hother q hq]
  case pin =>
    obtain ⟨old, hold, hpin⟩ := hitems
    refine ⟨consReads old old', fun k q r hk => ?_, ?_⟩
    · cases k with
      | zero =>
        obtain rfl : p = q := Option.some.inj hk
        exact hold r (mem_allRegs r)
      | succ k =>
        rw [← hother q fun hq => hp (hq ▸ List.mem_of_getElem? hk)]
        exact hold' k q r hk
    · rw [hpin', hpin, List.map_cons, mergeItems_cons, List.append_assoc]
  case ctx =>
    rw [hctx] at hctx'
    exact hctx'
  case frame =>
    rw [hframe] at hframe'
    exact hframe'

/-- A record merged into the masked pins of some ports, each once (R168), by induction on the ports. -/
theorem portsMerged_runActs (mask : Nat → Half) (cfg : PinFields) {qs : List Nat} (hnodup : qs.Nodup) {s : State}
    (hlt : ∀ q ∈ qs, q < s.ports.length) :
    PortsMerged mask cfg qs s (runActs (qs.flatMap fun q => pcfgmActs q (mask q) cfg) s) := by
  induction qs generalizing s with
  | nil => exact .nil mask cfg s
  | cons p qs ih =>
    obtain ⟨hp, hnodup⟩ := List.nodup_cons.mp hnodup
    obtain ⟨hpLt, hqsLt⟩ := List.forall_mem_cons.mp hlt
    obtain ⟨u, hrun, hwritten, hitems, hctx⟩ := runActs_mergeActs (s := s) (mask p) cfg.get (rs := allRegs)
      (by decide) rfl hpLt
    have hlen : u.ports.length = s.ports.length := hrun ▸ runActs_ports_length _ s
    rw [List.flatMap_cons, runActs_append, pcfgmActs, hrun]
    exact .cons hp hwritten hitems hctx (ih hnodup (hlen ▸ hqsLt))

/-- The masks of a list name its pins and no other (R160). -/
theorem names_iff_listMask {xs : List Pin} {q i : Nat} :
    q ∈ portsOf xs ∧ (listMask q xs).getLsbD i = true ↔ Names xs q i := by
  rw [getLsbD_listMask, mem_portsOf]
  constructor
  · rintro ⟨-, x, hx, hport, hpos⟩
    obtain ⟨hnull, hq⟩ := onPort_iff.mp hport
    exact ⟨x, hx, hnull, hq, hpos⟩
  · rintro ⟨x, hx, hnull, hq, hpos⟩
    exact ⟨⟨x, hx, hnull, hq⟩, x, hx, onPort_iff.mpr ⟨hnull, hq⟩, hpos⟩

/-- Settles O39: the record goes to the pins the list's masks name, port by port. -/
theorem directBusInitConfiguresItsPins : Obligations.DirectBusInitConfiguresItsPins := by
  intro b l cfg xs s hs hb hl hpins hready
  have hlist : listPins s.config l = xs := listPins_of_get hl
  have hlines : busLines s.config b.toNat = xs := by simp only [busLines, hb, hlist]
  have hchecks := planBinit_checks_hold hs.config (List.getElem?_eq_some_iff.mp hb).1 (hlines ▸ hpins) hready
  have hexec := exec_binit hchecks (as := (portsOf xs).flatMap fun q => pcfgmActs q (listMask q xs) cfg.fields)
    (by simp only [planBinit, hb, hlist])
  have hmerged := portsMerged_runActs (fun q => listMask q xs) cfg.fields (portsOf_nodup xs)
    (s := runAct (.busInit b.toNat) s.beginOp) (lt_of_mem_portsOf hpins)
  generalize runActs ((portsOf xs).flatMap _) _ = m at hexec hmerged
  obtain ⟨hfields, hodr, hen, hpin, hctx, hframe⟩ := hmerged
  have hconfig : m.config = s.config := (congrArg State.config hframe :)
  refine ⟨_, hexec, fun x hx hnull r i hi => ?_, ⟨fun q i hi hnot r j hj => ?_, hen⟩, hodr, hpin, ?_, ?_, ?_, ?_⟩
  · rw [runActs_config, hconfig] at hi ⊢
    exact (hfields _ r _ i x.pos.isLt hi).trans (if_pos (names_iff_listMask.mpr ⟨x, hx, hnull, rfl, rfl⟩))
  · exact (hfields q r i j hi hj).trans (if_neg fun h => hnot (names_iff_listMask.mp h))
  · show m.busReady.set _ _ = _
    rw [hframe]
    rfl
  · show m.busTrace = _
    rw [hframe]
    rfl
  · show { m.ctx with cp := m.ctx.cp + 1, locals := Locals.empty } = _
    rw [hctx]
    rfl
  · show { m with busReady := m.busReady.set b.toNat true, ctx := _ } = _
    rw [hframe]
    rfl

end Sys2Proof.Machine
end

section
/-! Initialising a serial bus (spec 42 R184, 70 R313): the idle levels of its lines first, then the record of each line,
which leaves the levels. -/

namespace Sys2Proof.Machine

/-! ### Items and levels of several parts -/

/-- The items of jobs done one list after the other are those of one list. -/
theorem exists_mergeItems_append (c : Config) (first rest : Nat → CfgReg → Word) (js ks : List MergeJob) :
    ∃ old, mergeItems c old 0 (js ++ ks) = mergeItems c first 0 js ++ mergeItems c rest 0 ks := by
  induction js generalizing first with
  | nil => exact ⟨rest, rfl⟩
  | cons j js ih =>
    obtain ⟨old, hold⟩ := ih fun n => first (n + 1)
    refine ⟨consReads (first 0) old, ?_⟩
    rw [List.cons_append, mergeItems_cons, hold, mergeItems, mergeItems_succ, List.append_assoc]
    rfl

theorem pinLevel_of_odr {s t : State} (h : ∀ q, (t.port q).odr = (s.port q).odr) (x : Pin) :
    pinLevel t.ports x = pinLevel s.ports x := by
  cases hnull : x.isNull
  · rw [pinLevel_real t hnull, pinLevel_real s hnull, h]
  · simp [pinLevel, hnull]

/-- The lines of a bus that are different pins: each real one is none of those after it. -/
theorem serialLines_apart {w : ShiftCfg} (hclk : w.clk.isNull = false) (hdat : w.dat.isNull = false)
    (h : Pin.noRepeats [w.clk, w.dat, w.cs, w.din] = true) :
    LinesApart w ∧ ∀ x ∈ [w.clk, w.dat, w.cs], x.isNull = false → x ≠ w.din := by
  have hlines : Pin.noRepeats [w.clk, w.dat, w.cs] = true := by
    simp only [Pin.noRepeats, Bool.and_eq_true, Bool.or_eq_true, Bool.not_eq_true', List.contains_cons,
      Bool.or_eq_false_iff] at h ⊢
    tauto
  have hpairs := pairwise_of_noRepeats h
  simp only [List.pairwise_cons, List.forall_mem_cons] at hpairs
  obtain ⟨⟨-, -, hclkDin, -⟩, ⟨-, hdatDin, -⟩, ⟨hcsDin, -⟩, -⟩ := hpairs
  exact ⟨⟨hclk, hdat, hlines⟩, by simpa using ⟨hclkDin, hdatDin, hcsDin⟩⟩

/-! ### The idle levels -/

/-- What `SbInit` does before it configures pins (R184). -/
def idleLineActs (c : Config) (w : ShiftCfg) : List Act :=
  lineActs w.cs c.csActiveLow ++ lineActs w.clk true ++ lineActs w.dat false

theorem serialInit_eq (c : Config) (w : ShiftCfg) : serialInit c w =
    idleLineActs c w ++ [w.clk, w.dat, w.cs].flatMap (fun x => pinCfgActs x (driveCfg c)) ++
      [w.din].flatMap (fun x => pinCfgActs x (senseCfg c)) := by
  have hdrive : driveCfg c = c.outputCfg := rfl
  have hsense : senseCfg c = c.inputCfg := rfl
  simp only [serialInit, idleLineActs, releaseCs_eq, lineActs, hdrive, hsense, List.flatMap_cons, List.flatMap_nil,
    List.append_nil, List.append_assoc]
  rfl

theorem drives_idleLineActs (w : ShiftCfg) (s : State) :
    Drives [w.clk, w.dat, w.cs]
      (lineItems w.cs s.config.csActiveLow ++ lineItems w.clk true ++ lineItems w.dat false) [] s
      (runActs (idleLineActs s.config w) s) :=
  (((actsDrive_lineActs _ (by simp)).append (actsDrive_lineActs true (by simp))).append
    (actsDrive_lineActs false (by simp))) s rfl (rfl : srcValue s.ctx.locals .loaded = _)

/-- Clock high, data low, chip-select released (R184): each written once, none of them moved by a later write. -/
theorem levels_idleLineActs {w : ShiftCfg} {s : State} (hw : LinesApart w)
    (hlines : ∀ x ∈ [w.clk, w.dat, w.cs], x.isNull = false → x.port.toNat < s.ports.length) :
    Level (runActs (idleLineActs s.config w) s) w.clk true ∧ Level (runActs (idleLineActs s.config w) s) w.dat false ∧
      (w.cs.isNull = false → Level (runActs (idleLineActs s.config w) s) w.cs s.config.csActiveLow) := by
  obtain ⟨hclkDat, hclkCs, hdatCs⟩ := hw.ne
  obtain ⟨hclk, hdat, -⟩ := hw
  simp only [List.forall_mem_cons] at hlines
  obtain ⟨hclkLt, hdatLt, hcsLt, -⟩ := hlines
  simp only [idleLineActs, runActs_append]
  refine ⟨?_, level_lineActs false hdat (by simpa only [runActs_ports_length] using hdatLt hdat), fun hcs => ?_⟩
  · exact (pinLevel_lineActs_other false hclkDat).trans
      (level_lineActs true hclk (by simpa only [runActs_ports_length] using hclkLt hclk))
  · exact (pinLevel_lineActs_other false hdatCs.symm).trans ((pinLevel_lineActs_other true hclkCs.symm).trans
      (level_lineActs _ hcs (hcsLt hcs)))

/-! ### The pins' records -/

section
variable {w : ShiftCfg} {drive sense : PinFields} {a b e : State}
  (hdrive : PinsConfigured [w.clk, w.dat, w.cs] drive a b) (hsense : PinsConfigured [w.din] sense b e)
include hdrive hsense

/-- A driven line has its record, which the input line's leaves (R184). -/
theorem pinHasCfg_drivenLine (hapart : ∀ x ∈ [w.clk, w.dat, w.cs], x.isNull = false → x ≠ w.din) :
    ∀ x ∈ [w.clk, w.dat, w.cs], x.isNull = false → PinHasCfg e x drive := by
  intro x hx hnull r i hi
  have hb : b.config = a.config := (congrArg State.config hdrive.frame :)
  have he : e.config = a.config := (congrArg State.config hsense.frame :).trans hb
  have hnot : ¬Names [w.din] x.port.toNat x.pos.val := by
    rintro ⟨y, hy, hynull, hport, hpos⟩
    refine hapart x hx hnull ?_
    rw [← List.mem_singleton.mp hy]
    exact (pin_eq_of_onPort (onPort_iff.mpr ⟨hynull, hport⟩) hpos).symm
  rw [he] at hi ⊢
  have hkept := hsense.others _ _ x.pos.isLt hnot r i (hb ▸ hi)
  rw [hb] at hkept
  exact hkept.trans (hdrive.named _ _ ⟨x, hx, hnull, rfl, rfl⟩ r i hi)

omit hdrive in
theorem pinHasCfg_inputLine (hnull : w.din.isNull = false) : PinHasCfg e w.din sense := by
  intro r i hi
  have he : e.config = b.config := (congrArg State.config hsense.frame :)
  rw [he] at hi ⊢
  exact hsense.named _ _ ⟨w.din, List.mem_singleton_self _, hnull, rfl, rfl⟩ r i hi

theorem cfgOnlyAt_lines : CfgOnlyAt a e [w.clk, w.dat, w.cs, w.din] := by
  have hb : b.config = a.config := (congrArg State.config hdrive.frame :)
  refine ⟨fun q i hi hnot r j hj => ?_, fun q => (hsense.en q).trans (hdrive.en q)⟩
  have hdriven : ¬Names [w.clk, w.dat, w.cs] q i := fun ⟨x, hx, h⟩ =>
    hnot ⟨x, List.mem_append_left [w.din] hx, h⟩
  have hinput : ¬Names [w.din] q i := fun ⟨x, hx, h⟩ =>
    hnot ⟨x, List.mem_append_right [w.clk, w.dat, w.cs] hx, h⟩
  have hkept := hsense.others q i hi hinput r j (hb ▸ hj)
  rw [hb] at hkept
  exact hkept.trans (hdrive.others q i hi hdriven r j hj)

theorem exists_items_lines : ∃ old, e.pinTrace =
    a.pinTrace ++ mergeItems a.config old 0 (pinJobs [w.clk, w.dat, w.cs] drive ++ pinJobs [w.din] sense) := by
  have hb : b.config = a.config := (congrArg State.config hdrive.frame :)
  obtain ⟨first, hfirst⟩ := hdrive.pin
  obtain ⟨rest, hrest⟩ := hsense.pin
  obtain ⟨old, hold⟩ := exists_mergeItems_append a.config first rest (pinJobs [w.clk, w.dat, w.cs] drive)
    (pinJobs [w.din] sense)
  exact ⟨old, by rw [hrest, hfirst, hb, hold, List.append_assoc]⟩

end

/-- `SbInit` in its three parts: the idle levels lead to a, the driven lines' records to m, the input line's to the
end (R184). -/
theorem exists_serialInit_parts {w : ShiftCfg} {s : State} (hw : LinesApart w)
    (hlines : ∀ x ∈ [w.clk, w.dat, w.cs, w.din], x.isNull = false → x.port.toNat < s.ports.length) :
    ∃ a m, Drives [w.clk, w.dat, w.cs]
        (lineItems w.cs s.config.csActiveLow ++ lineItems w.clk true ++ lineItems w.dat false) [] s a ∧
      (Level a w.clk true ∧ Level a w.dat false ∧ (w.cs.isNull = false → Level a w.cs s.config.csActiveLow)) ∧
      PinsConfigured [w.clk, w.dat, w.cs] (driveCfg s.config) a m ∧
      PinsConfigured [w.din] (senseCfg s.config) m (runActs (serialInit s.config w) s) := by
  obtain ⟨hdriven, hinput⟩ := List.forall_mem_append.mp (show ∀ x ∈ [w.clk, w.dat, w.cs] ++ [w.din], _ from hlines)
  rw [serialInit_eq, runActs_append, runActs_append]
  exact ⟨_, _, drives_idleLineActs w s, levels_idleLineActs hw hdriven,
    pinsConfigured_runActs _ (by simpa only [runActs_ports_length] using hdriven),
    pinsConfigured_runActs _ (by simpa only [runActs_ports_length] using hinput)⟩

/-- Settles O40: the parts of `SbInit` between the bus's trace item and its lifecycle flag. -/
theorem serialBusInitIdlesItsLines : Obligations.SerialBusInitIdlesItsLines := by
  intro b w s hs hb hapart hpins hready
  obtain ⟨hclk, hdat⟩ := busOk_shift_lines (busOk_get hs.config hb)
  obtain ⟨hw, hinput⟩ := serialLines_apart hclk hdat hapart
  have hchecks := planBinit_checks_hold hs.config (List.getElem?_eq_some_iff.mp hb).1 hpins hready
  have hexec := exec_binit hchecks (as := serialInit s.config w) (by simp only [planBinit, hb])
  simp only [busLines, hb] at hpins
  obtain ⟨a, m, hidle, ⟨hclkLevel, hdatLevel, hcsLevel⟩, hdrive, hsense⟩ := exists_serialInit_parts
    (s := runAct (.busInit b.toNat) s.beginOp) hw hpins.lt_length
  change PinsConfigured [w.din] _ m (runActs (serialInit s.config w) _) at hsense
  generalize runActs (serialInit s.config w) _ = e at hexec hsense
  have hconfig : a.config = s.config := (congrArg State.config hidle.frame :)
  have hodr (q : Nat) : (e.port q).odr = (a.port q).odr := (hsense.odr q).trans (hdrive.odr q)
  have hdrivenCfg := pinHasCfg_drivenLine hdrive hsense hinput
  have hinputCfg := pinHasCfg_inputLine hsense
  have honly := cfgOnlyAt_lines hdrive hsense
  obtain ⟨old, htrace⟩ := exists_items_lines hdrive hsense
  have hframe := hsense.frame
  rw [hdrive.frame, hidle.frame] at hframe
  have hctx := hsense.ctx
  rw [hdrive.ctx, hidle.frame] at hctx
  refine ⟨_, hexec, (pinLevel_of_odr hodr _).trans hclkLevel, (pinLevel_of_odr hodr _).trans hdatLevel,
    fun hcs => (pinLevel_of_odr hodr _).trans (hcsLevel hcs), hdrivenCfg, hinputCfg, ?_, ?_, ⟨old, ?_⟩, ?_, ?_, ?_, ?_⟩
  · intro q i hi hnot
    exact (congrArg (regBit · i) (hodr q)).trans (hidle.only.odr q i hi hnot)
  · refine ⟨fun q i hi hnot r j hj => ?_, fun q => (honly.2 q).trans (hidle.only.en q)⟩
    have hkept := honly.1 q i hi hnot r j (hconfig.symm ▸ hj)
    rw [hconfig, hidle.only.cfgReg] at hkept
    exact hkept
  · rw [hconfig] at htrace
    show e.pinTrace = _
    rw [htrace, hidle.pin, List.append_assoc]
    rfl
  · show e.busReady.set _ _ = _
    rw [hframe]
    rfl
  · show e.busTrace = _
    rw [hframe]
    show a.busTrace = _
    rw [hidle.bus, List.append_nil]
    rfl
  · show { e.ctx with cp := e.ctx.cp + 1, locals := Locals.empty } = _
    rw [hctx]
    rfl
  · show { e with busReady := e.busReady.set b.toNat true, ctx := _ } = _
    rw [hframe]
    rfl

end Sys2Proof.Machine
end

section
/-! What a display operation presents (spec 41 R169, 43 R205): its items on `DISP_TRACE` and their bytes on `BUS_TRACE`
follow from the configuration outside the buses, the pixel buffer and the draws counted, whatever the bus is. -/

namespace Sys2Proof.Machine

/-- From s to t the display unit presented these items, each with its byte on its bus and nothing else there. -/
structure Presented (items : List DispItem) (s t : State) : Prop where
  disp : t.dispTrace = s.dispTrace ++ items
  bus : t.busTrace = s.busTrace ++ (items.filterMap itemByte).map (.busWr s.config.disp.bus)
  config : t.config = s.config

theorem Presented.refl (s : State) : Presented [] s s := ⟨(List.append_nil _).symm, (List.append_nil _).symm, rfl⟩

theorem Presented.trans {is js : List DispItem} {s t u : State} (h : Presented is s t) (k : Presented js t u) :
    Presented (is ++ js) s u where
  disp := by rw [k.disp, h.disp, List.append_assoc]
  bus := by rw [k.bus, h.bus, h.config, List.append_assoc, List.filterMap_append, List.map_append]
  config := k.config.trans h.config

/-! ### Actions that present nothing -/

/-- The actions of a display operation that reach neither `DISP_TRACE` nor `BUS_TRACE`. -/
def presentsNothing : Act → Bool
  | .busWr _ _ => false
  | .dispGo _ => true
  | .cfgRead _ _ => true
  | .cfgMerge _ _ _ _ => true
  | a => drivesLines a

theorem presented_runAct {a : Act} (h : presentsNothing a = true) (s : State) : Presented [] s (runAct a s) := by
  have htraces : (runAct a s).dispTrace = s.dispTrace ∧ (runAct a s).busTrace = s.busTrace := by
    cases a
    case bsrBit x i src =>
      simp only [runAct, State.pinWrite]
      split <;> exact ⟨rfl, rfl⟩
    case bsr | bsrList | hold | dispGo | cfgRead | cfgMerge => exact ⟨rfl, rfl⟩
    all_goals simp [presentsNothing, drivesLines] at h
  exact ⟨by simpa using htraces.1, by simpa using htraces.2, runAct_config a s⟩

/-- Actions that present nothing, one after another. -/
theorem presented_of_presentsNothing {as : List Act} (h : ∀ a ∈ as, presentsNothing a = true) (s : State) :
    Presented [] s (runActs as s) :=
  runActs_induct (P := fun t => Presented [] s t) (.refl s)
    (fun a ha t ht => ht.trans (presented_runAct (h a ha) t))

theorem presentsNothing_lineActs (x : Pin) (high : Bool) : ∀ a ∈ lineActs x high, presentsNothing a = true := by
  cases hnull : x.isNull <;> cases high <;> simp [lineActs, pinSet, pinClear, hnull, presentsNothing, drivesLines]

theorem presentsNothing_serialBits (w : ShiftCfg) (src : Src) (n : Nat) :
    ∀ a ∈ serialBits w src n, presentsNothing a = true := by
  induction n with
  | zero => simp [serialBits]
  | succ n ih =>
    have hbit : ∀ a ∈ pinWriteBit w.dat n src, presentsNothing a = true := by
      unfold pinWriteBit
      split <;> simp [presentsNothing, drivesLines]
    simp only [serialBits, List.forall_mem_append, List.forall_mem_singleton]
    exact ⟨⟨⟨⟨⟨presentsNothing_lineActs w.clk false, hbit⟩, rfl⟩, presentsNothing_lineActs w.clk true⟩, rfl⟩, ih⟩

/-- What follows the trace item of a bus write (R166). -/
def busWriteBody (c : Config) (b : Nat) (src : Src) : List Act := (busWriteActs c b src).tail

theorem busWriteActs_eq (c : Config) (b : Nat) (src : Src) :
    busWriteActs c b src = .busWr b src :: busWriteBody c b src := rfl

theorem presentsNothing_busWriteBody (c : Config) (b : Nat) (src : Src) :
    ∀ a ∈ busWriteBody c b src, presentsNothing a = true := by
  rw [busWriteBody, busWriteActs, List.tail_cons]
  split
  · simp [listWriteActs, presentsNothing, drivesLines]
  · simp only [serialWrite, assertCs_eq, releaseCs_eq, List.forall_mem_append]
    exact ⟨⟨presentsNothing_lineActs _ _, presentsNothing_serialBits _ _ _⟩, presentsNothing_lineActs _ _⟩
  · simp

theorem presentsNothing_strobeActs (d : DispWiring) : ∀ a ∈ strobeActs d, presentsNothing a = true := by
  unfold strobeActs
  split
  · simp
  · simp only [List.forall_mem_append, List.forall_mem_singleton]
    exact ⟨⟨presentsNothing_lineActs d.stb false, rfl⟩, presentsNothing_lineActs d.stb true⟩

theorem presentsNothing_pinCfgActs (x : Pin) (cfg : PinFields) : ∀ a ∈ pinCfgActs x cfg, presentsNothing a = true := by
  unfold pinCfgActs
  split
  · simp
  · simp [pcfgmActs, allRegs, mergeActs, presentsNothing]

/-! ### One item -/

/-- The pin-level body of a byte notes that byte on the display's bus, whatever the bus (R164, R205). -/
theorem traces_presentBody {s : State} (data : Bool) (src : Src) :
    (runActs (presentBody s.config data src) s).dispTrace = s.dispTrace ∧
    (runActs (presentBody s.config data src) s).busTrace =
      s.busTrace ++ [.busWr s.config.disp.bus ((srcValue s.ctx.locals src).setWidth 8)] := by
  have hbefore : ∀ a ∈ lineActs s.config.disp.dc data ++ lineActs s.config.disp.cs (!s.config.csActiveLow),
      presentsNothing a = true :=
    List.forall_mem_append.mpr ⟨presentsNothing_lineActs _ _, presentsNothing_lineActs _ _⟩
  have hafter : ∀ a ∈ busWriteBody s.config s.config.disp.bus src ++ strobeActs s.config.disp ++
      lineActs s.config.disp.cs s.config.csActiveLow, presentsNothing a = true := by
    simp only [List.forall_mem_append]
    exact ⟨⟨presentsNothing_busWriteBody _ _ _, presentsNothing_strobeActs _⟩, presentsNothing_lineActs _ _⟩
  have hbody : presentBody s.config data src =
      (lineActs s.config.disp.dc data ++ lineActs s.config.disp.cs (!s.config.csActiveLow)) ++
      .busWr s.config.disp.bus src :: (busWriteBody s.config s.config.disp.bus src ++ strobeActs s.config.disp ++
        lineActs s.config.disp.cs s.config.csActiveLow) := by
    simp only [presentBody_eq, presentTail, busWriteActs_eq, List.append_assoc, List.cons_append]
  have hctx : (runActs (lineActs s.config.disp.dc data ++ lineActs s.config.disp.cs (!s.config.csActiveLow)) s).ctx =
      s.ctx := by
    have hdrives := (actsDrive_lineActs (c := s.config) (src := src) (v := srcValue s.ctx.locals src)
      (xs := [s.config.disp.dc, s.config.disp.cs]) (x := s.config.disp.dc) data (by simp)).append
      (actsDrive_lineActs (x := s.config.disp.cs) (!s.config.csActiveLow) (by simp)) s rfl rfl
    rw [hdrives.frame]
  rw [hbody, runActs_append, runActs_cons]
  have hfirst := presented_of_presentsNothing hbefore s
  generalize runActs (lineActs s.config.disp.dc data ++ _) s = m at hctx hfirst ⊢
  have hlast := presented_of_presentsNothing hafter (runAct (.busWr s.config.disp.bus src) m)
  refine ⟨hlast.disp.trans ?_, hlast.bus.trans ?_⟩
  · exact (List.append_nil _).trans (hfirst.disp.trans (List.append_nil _))
  · have hbus : m.busTrace = s.busTrace := hfirst.bus.trans (List.append_nil _)
    rw [List.filterMap_nil, List.map_nil, List.append_nil, ← hbus, ← hctx]
    rfl

/-- An item is traced and its byte presented, if the trace of the item changed nothing the body reads (R205). -/
theorem presented_item {s u : State} {item : DispItem} {data : Bool} {src : Src}
    (hu : u = { s with gram := u.gram, pp := u.pp, cptr := u.cptr, dispTrace := s.dispTrace ++ [item] })
    (hitem : itemByte item = some ((srcValue s.ctx.locals src).setWidth 8)) :
    Presented [item] s (runActs (presentBody s.config data src) u) := by
  have hconfig : u.config = s.config := by rw [hu]
  have hctx : u.ctx = s.ctx := by rw [hu]
  obtain ⟨hdisp, hbus⟩ := traces_presentBody (s := u) data src
  rw [hconfig] at hdisp hbus
  refine ⟨hdisp.trans (by rw [hu]), hbus.trans ?_, (runActs_config u _).trans hconfig⟩
  rw [hctx, List.filterMap_cons_some hitem, hu]
  rfl

theorem presented_cmdActs (x : RxCmd × Byte) (s : State) :
    Presented [.cmd x.2] s (runActs (cmdActs s.config x) s) := by
  obtain ⟨cmd, byte⟩ := x
  refine presented_item (u := runAct (.dispCmd cmd byte) s) ?_ (by rw [srcValue, setWidth_byte, itemByte])
  cases cmd <;> rfl

theorem presented_dataActs (src : Src) (s : State) :
    Presented [.data ((srcValue s.ctx.locals src).setWidth 8)] s (runActs (dataActs s.config src) s) := by
  refine presented_item (u := runAct (.dispData src) s) ?_ rfl
  simp only [runAct, State.rxData]
  split <;> rfl

/-! ### Several items -/

/-- In every state of configuration `c` the actions present these items. -/
def ActsPresent (c : Config) (as : List Act) (items : List DispItem) : Prop :=
  ∀ s : State, s.config = c → Presented items s (runActs as s)

section
variable {c : Config}

theorem actsPresent_of_presentsNothing {as : List Act} (h : ∀ a ∈ as, presentsNothing a = true) :
    ActsPresent c as [] := fun s _ => presented_of_presentsNothing h s

theorem ActsPresent.append {as bs : List Act} {is js : List DispItem} (h : ActsPresent c as is)
    (k : ActsPresent c bs js) : ActsPresent c (as ++ bs) (is ++ js) := fun s hc => by
  rw [runActs_append]
  exact (h s hc).trans (k _ (by rw [runActs_config, hc]))

theorem ActsPresent.flatMap {α : Type} {f : α → List Act} {g : α → List DispItem} {l : List α}
    (h : ∀ a ∈ l, ActsPresent c (f a) (g a)) : ActsPresent c (l.flatMap f) (l.flatMap g) := by
  induction l with
  | nil => exact fun s _ => .refl s
  | cons a l ih =>
    obtain ⟨ha, hl⟩ := List.forall_mem_cons.mp h
    exact ha.append (ih hl)

theorem actsPresent_cmdActs (x : RxCmd × Byte) : ActsPresent c (cmdActs c x) [.cmd x.2] := fun s hc =>
  hc ▸ presented_cmdActs x s

/-- The items of addressing, page and column taken modulo what the commands hold (R213). -/
def setAddrItems (c : Config) (pg col : Nat) : List DispItem := (setAddrCmds c pg col).flatMap fun x => [.cmd x.2]

theorem actsPresent_setAddrActs (pg col : Nat) : ActsPresent c (setAddrActs c pg col) (setAddrItems c pg col) :=
  ActsPresent.flatMap fun x _ => actsPresent_cmdActs x

theorem actsPresent_fillActs (n : Nat) (byte : Byte) :
    ActsPresent c (fillActs c n byte) (List.replicate n (.data byte)) := by
  induction n with
  | zero => exact fun s _ => .refl s
  | succ n ih =>
    refine ActsPresent.append (is := [.data byte]) (fun s hc => ?_) ih
    have hdata := presented_dataActs (.imm (byte.setWidth 16)) s
    rw [srcValue, setWidth_byte, hc] at hdata
    exact hdata

end

/-- What one write transaction presents is what it does between its two transitions (R201). -/
theorem presented_writing {i : Instr} {s : State} {as : List Act} {items : List DispItem}
    (hacts : (planOf i s).acts = writing as) (h : Presented items s.beginWrite (runActs as s.beginWrite)) :
    Presented items s.beginOp (runActs (planOf i s).acts s.beginOp) := by
  have hgo (d : DispStep) (r : State) : Presented [] r (runAct (.dispGo d) r) := presented_runAct rfl r
  rw [hacts, writing, runActs_append, runActs_append, ← List.append_nil items]
  exact ((hgo .toWriting s.beginOp).trans h).trans (hgo .toReady _)

/-! ### A stream -/

/-- The byte a read of the pixel buffer gives when this many values have been drawn (R61; log 6). -/
def streamByte (buf : Memory) (draws a : Nat) : Byte := (buf.get? a).getD (Config.bufByte draws)

/-- The items of n bytes streamed from `a` on: each read draws one value (R215). -/
def streamItems (buf : Memory) (draws a n : Nat) : List DispItem :=
  (List.range n).map fun j => .data (streamByte buf (draws + j) (a + j))

theorem bufValue_eq_streamByte (s : State) (a : Nat) : s.bufValue a = streamByte s.buf s.draws a := by
  rw [State.bufValue, streamByte]
  cases s.buf.get? a <;> rfl

/-- Addressing and data bytes read no pixel buffer and draw nothing. -/
theorem draws_dataActs (c : Config) (src : Src) (s : State) : (runActs (dataActs c src) s).draws = s.draws := by
  have hdraws : (s.rxData ((srcValue s.ctx.locals src).setWidth 8)).draws = s.draws := by
    unfold State.rxData
    split <;> rfl
  exact (congrArg State.draws (behindLines_dataActs c src s) :).trans hdraws

theorem draws_setAddrActs (c : Config) (pg col : Nat) (s : State) :
    (runActs (setAddrActs c pg col) s).draws = s.draws :=
  (congrArg State.draws (behindLines_setAddrActs c pg col s) :)

/-- A stream presents the pixel buffer's bytes, those without a value as drawn (R215), by induction on its length. -/
theorem presented_streamActs {c : Config} {s : State} (hc : s.config = c) (a n : Nat) :
    Presented (streamItems s.buf s.draws a n) s (runActs (streamActs c a n) s) ∧
      (runActs (streamActs c a n) s).draws = s.draws + n := by
  subst hc
  induction n with
  | zero => exact ⟨.refl s, rfl⟩
  | succ n ih =>
    obtain ⟨hpresented, hdraws⟩ := ih
    have hbuf := (runActs_sameHost s (streamActs s.config a n)).buf
    rw [streamActs_succ, runActs_append, runActs_cons]
    generalize runActs (streamActs s.config a n) s = u at hpresented hdraws hbuf ⊢
    have hread : Presented [] u (u.bufRead (a + n)) := ⟨(List.append_nil _).symm, (List.append_nil _).symm, rfl⟩
    have hdata := presented_dataActs .loaded (u.bufRead (a + n))
    have hbyte : (srcValue (u.bufRead (a + n)).ctx.locals .loaded).setWidth 8 =
        streamByte s.buf (s.draws + n) (a + n) := by
      rw [← hdraws, ← hbuf, ← bufValue_eq_streamByte]
      exact setWidth_byte _
    rw [hbyte, show (u.bufRead (a + n)).config = s.config from hpresented.config] at hdata
    refine ⟨?_, (draws_dataActs s.config .loaded (u.bufRead (a + n))).trans (congrArg (· + 1) hdraws)⟩
    rw [streamItems, List.range_succ, List.map_append]
    exact hpresented.trans (hread.trans hdata)

/-! ### Whole operations -/

/-- What a display operation presents: of the configuration it reads no bus (R169). -/
def itemsOf (c : Config) (buf : Memory) (draws : Nat) : Instr → List DispItem
  | .dinit => .reset :: (initSeq c).flatMap fun b => [.cmd b]
  | .dputb x page byte => setAddrItems c (clampPage c page.toNat) (physColumn c x.toNat) ++
      List.replicate (clipX2 c (x.toNat + 1) - x.toNat) (.data byte)
  | .dputp x1 x2 page a => setAddrItems c (clampPage c page.toNat) (physColumn c x1.toNat) ++
      streamItems buf draws a.toNat (clipX2 c x2.toNat - x1.toNat)
  | .dclr => (List.range c.profile.pages).flatMap fun pg =>
      setAddrItems c pg 0 ++ List.replicate (c.profile.width + c.profile.extOffset) (.data 0)
  | .dfill byte => (List.range c.profile.pages).flatMap fun pg =>
      setAddrItems c pg c.profile.colOffset ++ List.replicate c.profile.width (.data byte)
  | _ => []

theorem itemsOf_buses (c : Config) (buses : List BusCfg) (buf : Memory) (draws : Nat) (i : Instr) :
    itemsOf { c with buses := buses } buf draws i = itemsOf c buf draws i := by
  cases i <;> rfl

theorem presented_setAddr_stream {c : Config} {s : State} (hc : s.config = c) (pg col a n : Nat) :
    Presented (setAddrItems c pg col ++ streamItems s.buf s.draws a n) s
      (runActs (setAddrActs c pg col ++ streamActs c a n) s) := by
  have haddr := actsPresent_setAddrActs pg col s hc
  have hhost := runActs_sameHost s (setAddrActs c pg col)
  obtain ⟨hstream, -⟩ := presented_streamActs (hhost.config.trans hc) a n
  rw [draws_setAddrActs, hhost.buf] at hstream
  rw [runActs_append]
  exact haddr.trans hstream

theorem actsPresent_rowActs (c : Config) (pg col n : Nat) (byte : Byte) :
    ActsPresent c (rowActs c pg col n byte) (setAddrItems c pg col ++ List.replicate n (.data byte)) :=
  (actsPresent_setAddrActs pg col).append (actsPresent_fillActs n byte)

theorem actsPresent_dinit (c : Config) : ActsPresent c
    (idleActs c ++ (controlPins c).flatMap (fun x => pinCfgActs x (driveCfg c)) ++ startActs c)
    (.reset :: (initSeq c).flatMap fun b => [.cmd b]) := by
  have hgo (d : DispStep) : ActsPresent c [.dispGo d] [] := actsPresent_of_presentsNothing (by simp [presentsNothing])
  have hidle : ActsPresent c (idleActs c) [] := actsPresent_of_presentsNothing (by
    simp only [idleActs, List.forall_mem_append]
    exact ⟨⟨⟨presentsNothing_lineActs _ _, presentsNothing_lineActs _ _⟩, presentsNothing_lineActs _ _⟩,
      presentsNothing_lineActs _ _⟩)
  have hpins : ActsPresent c ((controlPins c).flatMap fun x => pinCfgActs x (driveCfg c)) [] :=
    actsPresent_of_presentsNothing fun a ha => by
      obtain ⟨x, -, ha⟩ := List.mem_flatMap.mp ha
      exact presentsNothing_pinCfgActs x _ a ha
  have hreset : ActsPresent c [.dispReset] [.reset] := fun s _ => ⟨rfl, (List.append_nil _).symm, rfl⟩
  have hpulse : ActsPresent c (lineActs c.disp.res false ++ [.hold c.disp.resetHold] ++ lineActs c.disp.res true ++
      [.hold c.disp.resetRecover]) [] := actsPresent_of_presentsNothing (by
    simp only [List.forall_mem_append, List.forall_mem_singleton]
    exact ⟨⟨⟨presentsNothing_lineActs _ _, rfl⟩, presentsNothing_lineActs _ _⟩, rfl⟩)
  have hcmds : ActsPresent c ((initSeq c).flatMap fun b => cmdActs c (.other, b)) _ :=
    ActsPresent.flatMap fun b _ => actsPresent_cmdActs (.other, b)
  have hall := (hidle.append hpins).append (((hgo .toResetting).append (hreset.append hpulse)).append
    ((hgo .toCommandInit).append (hcmds.append (hgo .toReady))))
  simpa [startActs, resetActs, sequenceActs, resetPulse, lineActs] using hall

/-- One row on every page, as `DCLR` and `DFILL` write it (R217, R218). -/
theorem actsPresent_pages (c : Config) (col n : Nat) (byte : Byte) (m : Nat) :
    ActsPresent c ((List.range m).flatMap fun pg => rowActs c pg col n byte)
      ((List.range m).flatMap fun pg => setAddrItems c pg col ++ List.replicate n (.data byte)) :=
  ActsPresent.flatMap fun pg _ => actsPresent_rowActs c pg col n byte

/-- The actions of a display operation present its items. -/
theorem presented_acts {i : Instr} (hi : isDisplayOp i = true) (s : State) :
    Presented (itemsOf s.config s.buf s.draws i) s.beginOp (runActs (planOf i s).acts s.beginOp) := by
  cases i
  case dinit =>
    have hacts : (planOf .dinit s).acts = _ := planDinit_acts s
    rw [hacts]
    exact actsPresent_dinit s.config s.beginOp rfl
  case dputb x page byte =>
    exact presented_writing (as := rowActs s.config _ _ _ byte) rfl (actsPresent_rowActs s.config _ _ _ byte _ rfl)
  case dputp x1 x2 page a =>
    exact presented_writing rfl (presented_setAddr_stream (s := s.beginWrite) rfl _ _ _ _)
  case dclr =>
    exact presented_writing rfl (actsPresent_pages s.config _ _ _ _ s.beginWrite rfl)
  case dfill byte =>
    exact presented_writing rfl (actsPresent_pages s.config _ _ byte _ s.beginWrite rfl)
  all_goals cases hi

theorem presented_exec {i : Instr} {s t : State} (hi : isDisplayOp i = true) (h : exec i s = .next t) :
    Presented (itemsOf s.config s.buf s.draws i) s t := by
  obtain ⟨-, rfl⟩ := exec_eq_next.mp h
  obtain ⟨hdisp, hbus, hconfig⟩ := presented_acts hi s
  rw [runActs_append]
  exact ⟨hdisp, hbus, hconfig⟩

/-- Settles O53: the items do not depend on the buses. -/
theorem transportIsTransparent : Obligations.TransportIsTransparent := by
  intro i s s' t t' buses hi hconfig hbuf hdraws h h'
  have hs := presented_exec hi h
  have hs' := presented_exec hi h'
  rw [hconfig, itemsOf_buses, hbuf, hdraws] at hs'
  have hbus := hs'.bus
  rw [hconfig] at hbus
  exact ⟨_, _, hs.disp, hs'.disp, hs.bus, hbus, rfl⟩

end Sys2Proof.Machine
end
